-- ==== Sys2Proof/Word.lean ====
section
/-! DEFINITION. Words: bytes, general-purpose words and vector words. The machine's registers hold bit
vectors; addresses are natural numbers with an open upper bound (10_state.md R35). -/

namespace Sys2Proof

/-- One memory location: a byte (10_state.md R35). That a byte is 8 bits, which R35 says the source does not give, is PRESUMED
(log 2). -/
abbrev Byte := BitVec 8

/-- A general-purpose register (GK5; PRESUMED width, log 2). -/
abbrev Word := BitVec 64

/-- A SIMD&FP or SVE register, as wide as the widest (PRESUMED, log 3). -/
abbrev VReg := BitVec 2048

/-- The FFR, one bit for each element number (PRESUMED layout, log 4). -/
abbrev FFR := BitVec 256

/-- The number of a register in an instruction. -/
abbrev RegNum := BitVec 5

end Sys2Proof
end

