-- ==== Sys2Proof/Machine/Attr.lean ====
section
/-! DEFINITION. The memory attribute record and everything the spec computes from one record: the two
memory types, Shareability, Cacheability, the four Device types with their three attributes, the
access classes, Exception levels, and the functions of 10_state.md R20 to R29 and R39. -/

namespace Sys2Proof

/-- Direction of an access (00_scope.md R8). -/
inductive Dir where
  | read
  | write
deriving DecidableEq, Repr, Inhabited

/-- Shareability of a Normal location (10_state.md R22). -/
inductive Shareability where
  | nsh
  | ish
  | osh
deriving DecidableEq, Repr, Inhabited

/-- Cacheability at one conceptual level (10_state.md R23). -/
inductive Cacheability where
  | nc
  | wt
  | wb
deriving DecidableEq, Repr, Inhabited

/-- Cache allocation hints (10_state.md R24): true is "allocate" (GK3). No rule reads them. -/
structure AllocHints where
  readHint : Bool
  writeHint : Bool
  transient : Option Bool
deriving DecidableEq, Repr, Inhabited

/-- The cacheability at one level with its hints (10_state.md R23). -/
structure CacheAttr where
  c : Cacheability
  hints : Option AllocHints
deriving DecidableEq, Repr, Inhabited

/-- The four Device memory types, strongest first (10_state.md R25, R26). -/
inductive DeviceType where
  | nGnRnE
  | nGnRE
  | nGRE
  | GRE
deriving DecidableEq, Repr, Inhabited

/-- What a Normal record holds (10_state.md R20, R79). -/
structure NormalAttr where
  sh : Shareability
  inner : CacheAttr
  outer : CacheAttr
deriving DecidableEq, Repr, Inhabited

/-- The memory type of an access is exactly one of two (10_state.md R21). -/
inductive MemType where
  | normal (n : NormalAttr)
  | device (d : DeviceType)
deriving DecidableEq, Repr, Inhabited

/-- The memory attribute record of an access (10_state.md R20), with XS where it exists (R29). -/
structure MemAttr where
  ty : MemType
  xs : Option Bool
deriving DecidableEq, Repr, Inhabited

/-- The two conceptual levels of cache (20_memory.md R86). -/
inductive CacheLevel where
  | inner
  | outer
deriving DecidableEq, Repr, Inhabited

/-- Exception levels (60_exceptions.md R252, GK2). -/
inductive EL where
  | el0
  | el1
  | el2
  | el3
deriving DecidableEq, Repr, Inhabited

/-- The two stages of translation (10_state.md R35). -/
inductive Stage where
  | s1
  | s2
deriving DecidableEq, Repr, Inhabited

/-- The closed list of access classes (40_access_classes.md R210). -/
inductive AccessClass where
  | gpLoad | gpStore
  | gpMultiLoad | gpMultiStore
  | ldnpGp | ldnpSimdFp
  | simdFpLoad | simdFpStore
  | sveUnpredLoad | svePredLoad | svePredNTLoad | sveFirstFault | sveNonFault | svePrefetch | sveStore
  | loadExclusive | storeExclusive
  | loadAcquire | storeRelease
  | ldrax
  | memCopy | memSet
  | cacheMaint
  | barrierDMB | barrierDSB
  | fetch | walk
deriving DecidableEq, Repr, Inhabited

/-- Where the bytes of a transfer are: the register files it may name (10_state.md R31, R34), and the bytes a copy has
read and not yet written (40_access_classes.md R228). -/
inductive RegFile where
  | gp
  | vec
  | copy
deriving DecidableEq, Repr, Inhabited

/-- The Gathering attribute (10_state.md R25, column G). -/
def DeviceType.gathering : DeviceType → Bool
  | .GRE => true
  | .nGRE | .nGnRE | .nGnRnE => false

/-- The Reordering attribute (10_state.md R25, column R). -/
def DeviceType.reordering : DeviceType → Bool
  | .GRE | .nGRE => true
  | .nGnRE | .nGnRnE => false

/-- The Early Write Acknowledgement attribute (10_state.md R25, column E; 90_conflicts.md C4). -/
def DeviceType.earlyAck : DeviceType → Bool
  | .GRE | .nGRE | .nGnRE => true
  | .nGnRnE => false

/-- The strength order on Device types (10_state.md R26). -/
def DeviceType.strength : DeviceType → Nat
  | .nGnRnE => 3
  | .nGnRE => 2
  | .nGRE => 1
  | .GRE => 0

/-- Is the record Normal (10_state.md R21)? -/
def MemAttr.isNormal (a : MemAttr) : Bool :=
  match a.ty with
  | .normal _ => true
  | .device _ => false

/-- Is the record any Device memory type (21_device_memory.md R113)? -/
def MemAttr.isDevice (a : MemAttr) : Bool :=
  match a.ty with
  | .normal _ => false
  | .device _ => true

/-- The Device type of a Device record. -/
def MemAttr.deviceType (a : MemAttr) : Option DeviceType :=
  match a.ty with
  | .normal _ => none
  | .device d => some d

/-- "Non-cacheable" without a level: Non-cacheable at both (10_state.md R27, D3). -/
def NormalAttr.bothNC (n : NormalAttr) : Bool :=
  n.inner.c == .nc && n.outer.c == .nc

/-- A Normal record Non-cacheable at both levels (20_memory.md R73, R84). -/
def MemAttr.isNormalNC (a : MemAttr) : Bool :=
  match a.ty with
  | .normal n => n.bothNC
  | .device _ => false

/-- The effective Shareability an access is treated as having (10_state.md R27; 20_memory.md R73;
21_device_memory.md R129). -/
def MemAttr.effSh (a : MemAttr) : Shareability :=
  match a.ty with
  | .device _ => .osh
  | .normal n => if n.bothNC then .osh else n.sh

/-- The cacheability of a record at one conceptual level; Device memory is never cached
(20_memory.md R79, R86; 21_device_memory.md R130). -/
def MemAttr.cacheAt (a : MemAttr) (l : CacheLevel) : Cacheability :=
  match a.ty, l with
  | .device _, _ => .nc
  | .normal n, .inner => n.inner.c
  | .normal n, .outer => n.outer.c

/-- A cache attribute without its hints (20_memory.md R81). -/
def CacheAttr.eraseHints (c : CacheAttr) : CacheAttr := { c with hints := none }

/-- A record without the hints, which change no behaviour (20_memory.md R81, R85). -/
def MemAttr.eraseHints (a : MemAttr) : MemAttr :=
  match a.ty with
  | .normal n => { a with ty := .normal { n with inner := n.inner.eraseHints, outer := n.outer.eraseHints } }
  | .device _ => a

/-- Two records that differ in more than the hints are mismatched (20_memory.md R81;
21_device_memory.md R158; 10_state.md R29). -/
def MemAttr.mismatched (a b : MemAttr) : Bool := decide (a.eraseHints ≠ b.eraseHints)

/-- The comparison of 22_access_restrictions.md R190: the same type and the same CONFIGURED Shareability; two
different Device types count as different types (D38). -/
def MemAttr.sameTypeAndShareability (a b : MemAttr) : Bool :=
  match a.ty, b.ty with
  | .normal m, .normal n => m.sh == n.sh
  | .device d, .device e => d == e
  | .normal _, .device _ => false
  | .device _, .normal _ => false

/-- Validity of one level's cache attribute (10_state.md R23, R24, R39). -/
def CacheAttr.valid (transientHints : Bool) (c : CacheAttr) : Bool :=
  match c.hints with
  | none => true
  | some h => c.c != .nc && (h.transient.isNone || transientHints)

/-- Validity of a record (10_state.md R39): hints only where cacheable, Transient only where
implemented, XS exactly when FEAT_XS. -/
def MemAttr.valid (transientHints featXS : Bool) (a : MemAttr) : Bool :=
  (a.xs.isSome == featXS) &&
  match a.ty with
  | .normal n => n.inner.valid transientHints && n.outer.valid transientHints
  | .device _ => true

/-- The record a Device location is fetched with when the implementation treats the fetch as Normal
Non-cacheable (21_device_memory.md R141). -/
def MemAttr.normalNC (xs : Option Bool) : MemAttr :=
  { ty := .normal { sh := .osh, inner := { c := .nc, hints := none }, outer := { c := .nc, hints := none } }, xs := xs }

/-- A Memory Copy or Memory Set access, which the non-Reordering attribute does not order and whose
gathering is always permitted (21_device_memory.md R148, R162). -/
def AccessClass.isMops : AccessClass → Bool
  | .memCopy | .memSet => true
  | _ => false

/-- An instruction fetch or a table walk, which no load or store makes (40_access_classes.md R231, R232). -/
def AccessClass.isImplicit : AccessClass → Bool
  | .fetch | .walk => true
  | _ => false

/-- The SVE load and store classes, relaxed on Device memory as if Gathering, Reordering and Early Write
Acknowledgement (21_device_memory.md R182). -/
def AccessClass.isSVE : AccessClass → Bool
  | .sveUnpredLoad | .svePredLoad | .svePredNTLoad | .sveFirstFault | .sveNonFault | .sveStore => true
  | _ => false

/-- The Advanced SIMD&FP load and store classes (40_access_classes.md R218, R219). -/
def AccessClass.isSimdFp : AccessClass → Bool
  | .simdFpLoad | .simdFpStore | .ldnpSimdFp => true
  | _ => false

/-- The classes that load or store more than one general-purpose register, or one or more SIMD&FP or SVE registers
(20_memory.md R88 to R90; 21_device_memory.md R171 to R175). -/
def AccessClass.isMulti : AccessClass → Bool
  | .gpMultiLoad | .gpMultiStore | .ldnpGp => true
  | c => c.isSimdFp || c.isSVE

/-- The classes each part of whose footprint is one register (40_access_classes.md R213 to R217; for LDNP 30_encoding.md
R204). -/
def AccessClass.partsAreRegisters : AccessClass → Bool
  | .gpLoad | .gpStore | .gpMultiLoad | .gpMultiStore | .ldnpGp | .ldnpSimdFp | .loadExclusive | .storeExclusive
  | .loadAcquire | .storeRelease => true
  | _ => false

end Sys2Proof
end

