-- ==== Sys2Proof/Config.lean ====
section
/-! DEFINITION. The implementation and platform parameters of 00_scope.md R4, as plain data that State
holds and no step writes (so that a statement over all states is a statement over all their values), the
choices the spec leaves to one execution of one instruction (`Plan`), and the one free constant. -/

namespace Sys2Proof

/-- One implemented cache: its number and the conceptual level that controls it (20_memory.md R86). -/
structure CacheUnit where
  id : Nat
  tag : CacheLevel
deriving DecidableEq, Repr, Inhabited

/-- One observer of the platform: its Shareability domains (20_memory.md R70 to R72) and the caches its
accesses pass, the one closest to the PE first (R86, CACHE_LEVELS; a cache may stand on the path of
several observers, R68). -/
structure ObserverInfo where
  id : Nat
  inner : Nat
  outer : Nat
  path : List CacheUnit
deriving DecidableEq, Repr, Inhabited

/-- Where a location finally lives (00_scope.md R4 `endpoint_of`; 20_memory.md R57). -/
inductive Endpoint where
  | poc
  | device (n : Nat)
deriving DecidableEq, Repr, Inhabited

/-- A region of the physical memory map and the platform facts R4 asks of its locations. -/
structure Region where
  base : Nat
  size : Nat
  /-- `periph_of` (D5) -/
  block : Nat
  /-- `endpoint_of` of a location that is not Conventional (D23) -/
  endpoint : Endpoint
  /-- `is_conventional` (D23) -/
  conventional : Bool
  /-- `supports_unaligned` (D10) -/
  supportsUnaligned : Bool
  /-- `is_idempotent` (D35, 20_memory.md R62) -/
  idempotent : Bool
  /-- `endpoint_ack_required` (D24) -/
  ackRequired : Bool
deriving DecidableEq, Repr, Inhabited

/-- One transition of a peripheral (21_device_memory.md R110): when a read or a write of the location `pa` arrives while
these cells of the endpoint hold these values, those cells take those values. -/
structure Reaction where
  dir : Dir
  pa : Nat
  given : List (Nat × Byte)
  sets : List (Nat × Byte)
deriving DecidableEq, Repr, Inhabited

/-- Instructions of several parts that are ONE single-copy atomic access (N2): their class, the sizes of their parts, which lie
next to each other, and what the address of the first is a multiple of. -/
structure AtomicWhole where
  cls : AccessClass
  sizes : List Nat
  align : Nat
deriving DecidableEq, Repr, Inhabited

/-- The parameters of 00_scope.md R4, and the transition system of each peripheral (21_device_memory.md R110). -/
structure Platform where
  observers : List ObserverInfo
  regions : List Region
  /-- the facts of an address no region lists (its base and size are not read) -/
  other : Region
  /-- the blocks of which `is_peripheral` holds (D5) -/
  peripherals : List Nat
  /-- the transition systems of the peripherals: the first transition that fits an arrival is taken -/
  reactions : List Reaction
  minGranule : Nat
  nshExclMultiObserver : Bool
  transientHints : Bool
  deviceUnalignedFault : Bool
  unalignedAccessEnabled : Bool
  /-- `impl_device` of each configured type (21_device_memory.md R114, D18) -/
  implNGnRnE : DeviceType
  implNGnRE : DeviceType
  implNGRE : DeviceType
  implGRE : DeviceType
  /-- the Device type of R137, which the source does not name -/
  tgeType : DeviceType
  featXS : Bool
  featSmeFA64 : Bool
  haveSVE : Bool
  haveSME : Bool
  haveMOPS : Bool
  havePAUTH : Bool
  haveEL2 : Bool
  /-- `classify`, as far as it says which aligned sizes of a class are ONE single-copy atomic access (N2) -/
  atomicSizes : List (AccessClass × Nat)
  /-- and which instructions of several parts are, by the sizes of the parts (N2: "a pair load is two accesses or one") -/
  atomicWholes : List AtomicWhole
  /-- the accesses a barrier option orders: option, direction of the earlier, direction of the later (N3) -/
  barrierTable : List (Nat × Dir × Dir)
  /-- `BYTE_ORDER` (D4) -/
  bigEndian : Bool
deriving DecidableEq, Repr, Inhabited

/-- One performance of some of the instruction's accesses, by their numbers: several travel as one transaction where they
may be gathered (21_device_memory.md R148, R171); those of them that `again` names stay in flight where they may be performed
more than once, each for itself (20_memory.md R61; 21_device_memory.md R122, R174). -/
structure Act where
  ks : List Nat
  again : List Nat
deriving DecidableEq, Repr, Inhabited

/-- Everything the spec leaves open in ONE execution of ONE instruction ("might", "can", "is permitted",
93_implementation_defined.md 1.4, D11, D16, D17, D20). A meaning uses a choice only where the spec permits
it; every value of every field is a run of the machine (log 9). -/
structure Plan where
  /-- behave as if Gathering, Reordering, Early Write Acknowledgement where R182 or R184 permit (P13) -/
  relaxed : Bool
  /-- the table locations whose walks the instruction does not make again, where its observer has made them before (log 27) -/
  kept : List Nat
  /-- and those whose walks its fetch does not make again -/
  fetchKept : List Nat
  /-- the addresses a sequence of accesses is cut at (R59, R122, R171) -/
  cuts : List Nat
  /-- the virtual addresses of bytes of Device memory read beyond the explicit ones (P5, log 56) -/
  extra : List Nat
  /-- the accesses that are reads of a Gathering location answered from a buffered write (P9, R150) -/
  fwd : List Nat
  /-- the cache a Write-Back write stops in (20_memory.md R57) -/
  hold : Option Nat
  /-- the cache a prefetch allocates into (R55, R225) -/
  alloc : Option Nat
  /-- for each access the bound "in finite time" stands for (D15, log 11) -/
  fuel : List Nat
  /-- the accesses performed before the instruction ends, in order, with repeats (P3, P12, D16, D17) -/
  acts : List Act
  /-- perform the remaining accesses before the instruction ends, too -/
  rest : Bool
  /-- the accesses that were made when an exception ends the sequence and are still in flight after it (20_memory.md R52, log 49) -/
  left : List Nat
  /-- an exception is taken after `acts`, before the sequence is complete (P4, D20) -/
  abandon : Bool
  /-- where a part of a sequence faults, `acts` names accesses of the others made before its exception (R244, log 57) -/
  midway : Bool
  /-- the pointer authentication check passes (R123, N25) -/
  authOk : Bool
  /-- the one read a failed check may cause is made (P6) -/
  authRead : Bool
  /-- a failed check raises an exception (R227: not in the source) -/
  authRaise : Bool
  /-- Xt after a failed check that raises nothing (R227: not in the source) -/
  freeVal : Word
  /-- for each register, the bytes a load of it does not name (R233: not in the source, log 18) -/
  junk : Vector VReg 32
  /-- `device_fetch_choice`: the fetch is made as Normal Non-cacheable (P7, D11) -/
  fetchAsNC : Bool
  /-- the stage of a Permission fault the source gives none for (60_exceptions.md R241) -/
  faultStage : Stage
  /-- a Store-Exclusive whose reservation still stands succeeds (N3) -/
  exclOk : Bool
  /-- a cache maintenance instruction writes the named locations back (R143, R230) -/
  maint : Bool
  /-- the syndrome beyond the one bit of R243 -/
  syndrome : Word
deriving DecidableEq, Repr, Inhabited

/-- The plan of the simple sequential execution: each access once, in order, at once, nothing else
(glossary, D33). Used in tests and statements; the machine itself never prefers it. -/
def Plan.simple : Plan :=
  { relaxed := false, kept := [], fetchKept := [], cuts := [], extra := [], fwd := [], hold := none, alloc := none, fuel := [], acts := [], left := [],
    rest := true, abandon := false, midway := false, authOk := true, authRead := false, authRaise := false, freeVal := 0, junk := Vector.replicate 32 0,
    fetchAsNC := true, faultStage := .s1, exclOk := true, maint := true, syndrome := 0 }

/-- The plan of an instruction for which no input names one: FREE, nothing constrains it. It is applied to
the step counter (log 9). -/
opaque Config.freePlan : Nat → Plan

/-- The barrier options as the architecture's family has them (PRESUMED, log 14): of CRm's low two bits 01
orders earlier reads before everything, 10 writes before writes, 11 everything. -/
def Config.familyBarrierTable : List (Nat × Dir × Dir) :=
  [3, 7, 11, 15].flatMap (fun m => [(m, .read, .read), (m, .read, .write), (m, .write, .read), (m, .write, .write)]) ++
  [1, 5, 9, 13].flatMap (fun m => [(m, .read, .read), (m, .read, .write)]) ++
  [2, 6, 10, 14].map (fun m => (m, .write, .write))

/-- Which aligned sizes are one single-copy atomic access: those of one general-purpose register, as
95_test_vectors.md's conventions have it (PRESUMED, log 19). -/
def Config.resetAtomicSizes : List (AccessClass × Nat) :=
  [AccessClass.gpLoad, .gpStore, .gpMultiLoad, .gpMultiStore, .ldnpGp, .loadExclusive, .storeExclusive, .loadAcquire,
   .storeRelease, .ldrax].flatMap (fun c => [(c, 1), (c, 2), (c, 4), (c, 8)])

/-- The facts of every address of the platform at reset: Conventional, idempotent memory (DESIGN CHOICE,
log 13). -/
def Config.resetRegion : Region :=
  { base := 0, size := 0, block := 0, endpoint := .poc, conventional := true, supportsUnaligned := true,
    idempotent := true, ackRequired := false }

/-- The parameters at reset (DESIGN CHOICE, log 13): every feature implemented, one observer without
caches, no peripheral. -/
def Config.resetPlatform : Platform :=
  { observers := [{ id := 0, inner := 0, outer := 0, path := [] }], regions := [], other := Config.resetRegion, peripherals := [], reactions := [],
    minGranule := 4096, nshExclMultiObserver := false, transientHints := true, deviceUnalignedFault := false,
    unalignedAccessEnabled := true, implNGnRnE := .nGnRnE, implNGnRE := .nGnRE, implNGRE := .nGRE, implGRE := .GRE,
    tgeType := .nGnRnE, featXS := false, featSmeFA64 := true, haveSVE := true, haveSME := true, haveMOPS := true,
    havePAUTH := true, haveEL2 := true, atomicSizes := Config.resetAtomicSizes, atomicWholes := [],
    barrierTable := Config.familyBarrierTable, bigEndian := false }

end Sys2Proof
end

