-- ==== Sys2Proof/Syntax.lean ====
section
/-! DEFINITION. The instructions: one constructor for each row of spec/opcode_table.json. Six rows have an
encoding (30_encoding.md R204) and carry its fields; the others are classes that reach the rules as a
class and a byte footprint (R200, R210, D19, D29) and carry that footprint. -/

namespace Sys2Proof

/-- One register's, or one vector element's, part of a footprint (D29): the virtual address and the number
of the bytes it explicitly accesses, the register and the first byte of it that is transferred, and, for a
predicated form, whether the element is Active (10_state.md R34). -/
structure Elem where
  addr : Nat
  size : Nat
  reg : RegNum
  lane : Nat
  active : Bool
deriving DecidableEq, Repr, Inhabited

/-- The footprint of an exclusive or ordered access, and whether its instruction is of a second class of
40_access_classes.md R210, too: Load-Acquire for a Load-Exclusive, Store-Release for a Store-Exclusive, SIMD&FP for the others. -/
structure OrderedForm where
  also : Bool
  es : List Elem
deriving DecidableEq, Repr

/-- The instructions of spec/opcode_table.json, in the table's order. -/
inductive Instr where
  /-- R211 -/
  | dmb (crm : BitVec 4)
  /-- R212 -/
  | dsb (crm : BitVec 4)
  /-- R217: LDNP of two general-purpose registers -/
  | ldnpGp (sf : BitVec 1) (imm7 : BitVec 7) (rt2 rn rt : RegNum)
  /-- R218: LDNP of two SIMD&FP registers -/
  | ldnpFp (opc : BitVec 2) (imm7 : BitVec 7) (rt2 rn rt : RegNum)
  /-- R227 -/
  | ldraa (s : BitVec 1) (imm9 : BitVec 9) (w : BitVec 1) (rn rt : RegNum)
  /-- R227 -/
  | ldrab (s : BitVec 1) (imm9 : BitVec 9) (w : BitVec 1) (rn rt : RegNum)
  /-- R228: copy from the address in `rs`, as many bytes as `rn` says, to the address in `rd` -/
  | cpy (rd rs rn : RegNum)
  /-- R229: set `len` bytes at `addr` to the low byte of `rs` -/
  | memSet (addr len : Nat) (rs : RegNum)
  /-- R218 -/
  | ld1 (es : List Elem)
  /-- R218 -/
  | st1 (es : List Elem)
  /-- R213; with `also` it is a Load-Acquire, too (R210) -/
  | loadExcl (f : OrderedForm)
  /-- R213: `rs` receives the status; with `also` it is a Store-Release, too (R210) -/
  | storeExcl (rs : RegNum) (f : OrderedForm)
  /-- R214; with `also` it loads SIMD&FP registers (R210, R218) -/
  | loadAcq (f : OrderedForm)
  /-- R214; with `also` it stores SIMD&FP registers (R210, R218) -/
  | storeRel (f : OrderedForm)
  /-- R215: a load or a store of one general-purpose register, aligned or not -/
  | gpSingle (d : Dir) (e : Elem)
  /-- R216: a load or a store of more than one general-purpose register -/
  | gpMulti (d : Dir) (es : List Elem)
  /-- R218 -/
  | simdFp (d : Dir) (es : List Elem)
  /-- R219: the same instructions as met in Streaming SVE mode -/
  | simdFpStreaming (d : Dir) (es : List Elem)
  /-- R220 -/
  | sveUnpred (es : List Elem)
  /-- R221 -/
  | svePred (es : List Elem)
  /-- R222 -/
  | svePredNT (es : List Elem)
  /-- R223 -/
  | sveFirstFault (es : List Elem)
  /-- R224 -/
  | sveNonFault (es : List Elem)
  /-- R225 -/
  | svePrefetch (es : List Elem)
  /-- R226 -/
  | sveStore (es : List Elem)
  /-- R230: cache maintenance of the `len` locations at `addr` -/
  | cacheMaint (addr len : Nat)
deriving DecidableEq, Repr

end Sys2Proof
end

