-- ==== Sys2Proof/WellFormed.lean ====
section
/-! DEFINITION. Which terms of `Instr` are instructions of the architecture: the checks the encodings and the class names
make (30_encoding.md R204; 40_access_classes.md R213 to R226). No step asks for it: a footprint runs as it says (log 47). -/

namespace Sys2Proof

/-- A footprint part in a general-purpose register: 1 to 8 bytes, from the register's first byte. -/
def Elem.wfGp (e : Elem) : Bool := decide (1 ≤ e.size) && decide (e.size ≤ 8) && e.lane == 0

/-- A footprint part in a vector register: at least one byte, inside the register. -/
def Elem.wfVec (e : Elem) : Bool := decide (1 ≤ e.size) && decide (e.lane + e.size ≤ 256)

/-- One register, or a pair (40_access_classes.md R213, R214). -/
def wfOneOrPair (es : List Elem) : Bool :=
  decide (1 ≤ es.length) && decide (es.length ≤ 2) && es.all Elem.wfGp

/-- At least one SIMD&FP register (40_access_classes.md R218). -/
def wfSimd (es : List Elem) : Bool := decide (1 ≤ es.length) && es.all Elem.wfVec

/-- The elements of a vector, or of several (40_access_classes.md R220 to R226): the spec sets no limit to their number. -/
def wfSVE (es : List Elem) : Bool := es.all Elem.wfVec

/-- Well-formed instructions. -/
def wellFormed : Instr → Bool
  | .dmb _ | .dsb _ => true
  | .ldnpGp _ _ _ _ _ => true
  | .ldnpFp opc _ _ _ _ => opc != 3
  | .ldraa _ _ _ _ _ | .ldrab _ _ _ _ _ => true
  | .cpy _ _ _ => true
  | .memSet _ _ _ => true
  | .ld1 es | .st1 es => wfSimd es
  | .loadExcl f | .storeExcl _ f => wfOneOrPair f.es
  | .loadAcq f | .storeRel f => if f.also then wfSimd f.es else wfOneOrPair f.es
  | .gpSingle _ e => e.wfGp
  | .gpMulti _ es => decide (2 ≤ es.length) && es.all Elem.wfGp
  | .simdFp _ es | .simdFpStreaming _ es => wfSimd es
  | .sveUnpred es | .svePred es | .svePredNT es => wfSVE es
  | .sveFirstFault es | .sveNonFault es => wfSVE es
  | .svePrefetch es | .sveStore es => wfSVE es
  | .cacheMaint _ _ => true

end Sys2Proof
end

