-- ==== Sys2Proof/Decode.lean ====
section
/-! DEFINITION. Decoding and encoding of the six rows that have an encoding (30_encoding.md R204, GK14;
opcode_table.json). Total on any bytes; a word of no row is rejected by name. The other twenty rows have no
encoding in the spec (R200, N14), so no word decodes to them. -/

namespace Sys2Proof

/-- Why bytes do not decode. -/
inductive DecodeError where
  /-- fewer than the four bytes of an A64 word -/
  | truncated
  /-- the word matches no row of spec/opcode_table.json -/
  | noRow
  /-- the LDNP (SIMD&FP) pattern with opc 11, which "is not an LDNP" -/
  | notLdnp
deriving DecidableEq, Repr

/-- The word matches a row's pattern of fixed bits. -/
def matchesRow (w mask value : BitVec 32) : Bool := w &&& mask == value

/-- Bits 4 to 0. -/
def fieldRt (w : BitVec 32) : RegNum := w.extractLsb' 0 5
/-- Bits 9 to 5. -/
def fieldRn (w : BitVec 32) : RegNum := w.extractLsb' 5 5
/-- Bits 14 to 10. -/
def fieldRt2 (w : BitVec 32) : RegNum := w.extractLsb' 10 5
/-- Bits 21 to 15. -/
def fieldImm7 (w : BitVec 32) : BitVec 7 := w.extractLsb' 15 7
/-- Bits 11 to 8. -/
def fieldCRm (w : BitVec 32) : BitVec 4 := w.extractLsb' 8 4
/-- Bits 20 to 12. -/
def fieldImm9 (w : BitVec 32) : BitVec 9 := w.extractLsb' 12 9

/-- The instruction of a 32-bit word (30_encoding.md R204). -/
def decode (w : BitVec 32) : Except DecodeError Instr :=
  if matchesRow w 0xFFFFF0FF 0xD50330BF then .ok (.dmb (fieldCRm w))
  else if matchesRow w 0xFFFFF0FF 0xD503309F then .ok (.dsb (fieldCRm w))
  else if matchesRow w 0x7FC00000 0x28400000 then
    .ok (.ldnpGp (w.extractLsb' 31 1) (fieldImm7 w) (fieldRt2 w) (fieldRn w) (fieldRt w))
  else if matchesRow w 0x3FC00000 0x2C400000 then
    if w.extractLsb' 30 2 = 3 then .error .notLdnp
    else .ok (.ldnpFp (w.extractLsb' 30 2) (fieldImm7 w) (fieldRt2 w) (fieldRn w) (fieldRt w))
  else if matchesRow w 0xFFA00400 0xF8200400 then
    .ok (.ldraa (w.extractLsb' 22 1) (fieldImm9 w) (w.extractLsb' 11 1) (fieldRn w) (fieldRt w))
  else if matchesRow w 0xFFA00400 0xF8A00400 then
    .ok (.ldrab (w.extractLsb' 22 1) (fieldImm9 w) (w.extractLsb' 11 1) (fieldRn w) (fieldRt w))
  else .error .noRow

/-- Four bytes as they lie in memory, the least significant at the lowest address (GK12). -/
def wordOfBytes (b0 b1 b2 b3 : Byte) : BitVec 32 := b3 ++ b2 ++ b1 ++ b0

/-- Decoding of the bytes at an instruction's address, with the bytes after it. -/
def decodeBytes : List Byte → Except DecodeError (Instr × List Byte)
  | b0 :: b1 :: b2 :: b3 :: rest =>
    match decode (wordOfBytes b0 b1 b2 b3) with
    | .ok i => .ok (i, rest)
    | .error e => .error e
  | _ => .error .truncated

/-- The bytes of a word as they lie in memory. -/
def bytesOfWord (w : BitVec 32) : List Byte :=
  [w.extractLsb' 0 8, w.extractLsb' 8 8, w.extractLsb' 16 8, w.extractLsb' 24 8]

/-- The word of an instruction that has an encoding; none for the classes the spec gives no encoding of. -/
def encode : Instr → Option (BitVec 32)
  | .dmb crm => some (0xD5033#20 ++ crm ++ 0xBF#8)
  | .dsb crm => some (0xD5033#20 ++ crm ++ 0x9F#8)
  | .ldnpGp sf imm7 rt2 rn rt => some (sf ++ 0b010100001#9 ++ imm7 ++ rt2 ++ rn ++ rt)
  | .ldnpFp opc imm7 rt2 rn rt => some (opc ++ 0b10110001#8 ++ imm7 ++ rt2 ++ rn ++ rt)
  | .ldraa s imm9 w rn rt => some (0b111110000#9 ++ s ++ 1#1 ++ imm9 ++ w ++ 1#1 ++ rn ++ rt)
  | .ldrab s imm9 w rn rt => some (0b111110001#9 ++ s ++ 1#1 ++ imm9 ++ w ++ 1#1 ++ rn ++ rt)
  | .cpy _ _ _ | .memSet _ _ _ | .ld1 _ | .st1 _ | .loadExcl _ | .storeExcl _ _ | .loadAcq _ | .storeRel _ => none
  | .gpSingle _ _ | .gpMulti _ _ | .simdFp _ _ | .simdFpStreaming _ _ => none
  | .sveUnpred _ | .svePred _ | .svePredNT _ | .sveFirstFault _ | .sveNonFault _ | .svePrefetch _ | .sveStore _ => none
  | .cacheMaint _ _ => none

/-- The bytes of an encoded instruction. -/
def encodeBytes (i : Instr) : Option (List Byte) := (encode i).map bytesOfWord

/-- What the decoder reads from an instruction whose bits, numbered as the opcode table numbers them, are
the low `nbits` of `w`, laid out as the hardware stores them; the bits above are zero. -/
def decodeTableWord (nbits w : Nat) : Option Instr :=
  match decodeBytes (bytesOfWord (BitVec.ofNat 32 (w % 2 ^ nbits))) with
  | .ok (i, _) => some i
  | .error _ => none

end Sys2Proof
end

