-- ==== Sys2Proof/Machine/State.lean ====
section
/-! DEFINITION. The machine's state as plain data: every observer with its registers, controls,
translations and program, the memory system with its caches, accesses in flight, arrivals and
acknowledgements, the platform's parameters, and the inputs waiting to be read; and the state at reset. -/

namespace Sys2Proof.Machine

open Sys2Proof

/-- A location a stage 1 translation table walk reads, with the Device type stage 2 gives it, if any
(21_device_memory.md R139), and the XS attribute of the record it is read with (10_state.md R29). -/
structure WalkRef where
  pa : Nat
  size : Nat
  s2 : Option DeviceType
  xs : Option Bool
deriving DecidableEq, Repr, Inhabited

/-- One range of the translation of an observer: virtual to physical, with the attribute record
(10_state.md R20), the first stage that defined it Device (21_device_memory.md R134), the levels it is
execute-never for (10_state.md R28), and the table locations a walk for it reads. -/
structure Mapping where
  va : Nat
  pa : Nat
  size : Nat
  attr : MemAttr
  stage : Stage
  xn : List EL
  walk : List WalkRef
deriving DecidableEq, Repr, Inhabited

/-- The translation of one virtual address. -/
structure Tr where
  pa : Nat
  attr : MemAttr
  stage : Stage
  xn : List EL
  walk : List WalkRef
deriving DecidableEq, Repr, Inhabited

/-- The control registers and modes of an observer that software outside B2.10 writes (10_state.md R30,
R37; 21_device_memory.md R138, R185), and its translations. -/
structure PeCtl where
  el : EL
  streamingSve : Bool
  fa64Enabled : Bool
  hcrTGE : Bool
  hcrDC : Bool
  hcrPTW : Bool
  /-- the Normal record `TCR_ELx` gives walks (10_state.md R39) -/
  tcrWalk : NormalAttr
  maps : List Mapping
  /-- the record of a data address no mapping lists, translated to itself (log 25) -/
  dataDefault : Option MemAttr
  /-- the record of a fetch address no mapping lists, translated to itself (log 25) -/
  fetchDefault : Option MemAttr
deriving DecidableEq, Repr, Inhabited

/-- Why an exception was taken (60_exceptions.md R240 to R244). -/
inductive Raise where
  /-- R240 -/
  | alignment (st : Stage)
  /-- R241: on an instruction fetch -/
  | permissionFetch (st : Stage)
  /-- R242: on a stage 1 walk, stage 2 -/
  | permissionWalk
  /-- R244: the instruction is abandoned between the accesses of its sequence -/
  | abandoned
  /-- R227: what a failed authentication check raises is not in the source -/
  | authFailure
  /-- R250: an exception between two instructions -/
  | external
deriving DecidableEq, Repr, Inhabited

/-- What a program slot holds: the bytes of a word, or an instruction of a class that has no encoding
(30_encoding.md R200). -/
inductive Code where
  | bytes (bs : List Byte)
  | inst (i : Instr)
deriving DecidableEq, Repr

/-- One instruction of an observer's program and the address it is fetched from; none where the fetch
access is outside what is modelled (D19, log 1). -/
structure Slot where
  va : Option Nat
  code : Code
deriving DecidableEq, Repr

/-- An exception that was taken and not returned from, with the instruction it ended
(60_exceptions.md R244, R248; log 21). -/
structure Handler where
  cause : Raise
  slot : Option Slot
  /-- it was taken during the instruction's sequence of accesses, whatever the cause: the return restarts the instruction
  (20_memory.md R52; 60_exceptions.md R244) -/
  restarts : Bool
deriving DecidableEq, Repr

/-- The ordering marks of a program. -/
inductive MarkKind where
  | dmb
  | dsb
  | acquire
  | release
deriving DecidableEq, Repr, Inhabited

/-- An ordering mark in an observer's program order: it stands before the access numbered `at_` and after
every access with a lower number; `option` is the CRm field of a barrier. -/
structure Mark where
  kind : MarkKind
  option : Nat
  at_ : Nat
deriving DecidableEq, Repr, Inhabited

/-- The exclusive-access state: the bytes a Load-Exclusive marked, each with its record (10_state.md R36;
20_memory.md R75; 22_access_restrictions.md R192). -/
structure Reservation where
  bytes : List (Nat × MemAttr)
  /-- a write of another observer was taken into account at one of them (20_memory.md R75, R78) -/
  lost : Bool
deriving DecidableEq, Repr, Inhabited

/-- A byte that an instruction loaded for a register, held for the stores of it that were put in flight before it came (the
model's own, log 61). -/
structure HeldByte where
  instr : Nat
  file : RegFile
  reg : RegNum
  lane : Nat
  val : Byte
deriving DecidableEq, Repr, Inhabited

/-- One observer. -/
structure Observer where
  /-- X0 to X30; number 31 is SP -/
  gpr : Vector Word 32
  vreg : Vector VReg 32
  /-- for each general-purpose register, the number of the first access of its newest load: a read in flight of an earlier one
  no longer delivers to it (the model's own, log 61) -/
  gprFrom : Vector Nat 32
  /-- and for each vector register -/
  vregFrom : Vector Nat 32
  ffr : FFR
  /-- the bytes that copies have read, each under a number of its own (log 32) -/
  copyBuf : List Host.Cell
  /-- the loaded bytes that stores in flight wait for, of which the register may hold a newer value (log 61) -/
  held : List HeldByte
  esr : Word
  ctl : PeCtl
  excl : Option Reservation
  marks : List Mark
  program : List Slot
  current : Option Slot
  handler : Option Handler
deriving DecidableEq, Repr

/-- A byte held in a cache, or on its way from one to the endpoint: which cache, which location, the value, whether the
endpoint lacks it, who wrote it and with which record (10_state.md R36). The dirty ones of one location stand in the order
their writes completed in, the newest first; what the endpoint holds is older than each (log 35). -/
structure Line where
  /-- none where the byte is on its way to the endpoint: another observer's write took its place in the cache -/
  unit : Option Nat
  pa : Nat
  val : Byte
  dirty : Bool
  writer : Nat
  attr : MemAttr
  /-- a speculative read that has its value and is not in the cache yet: no read finds it there (10_state.md R36; log 35) -/
  pending : Bool := false
deriving DecidableEq, Repr

/-- One byte of an access: the location, the register and the byte of it that it goes to or comes from, and, for a
write, the value, or, where an earlier load of that register is still in flight, the load and its register file (log 61). -/
structure ByteAcc where
  pa : Nat
  reg : RegNum
  lane : Nat
  val : Byte
  src : Option (Nat × RegFile) := none
deriving DecidableEq, Repr, Inhabited

/-- One access in flight (10_state.md R36). -/
structure Xact where
  /-- its number, in program order of its observer -/
  id : Nat
  /-- the instruction instance it belongs to -/
  instr : Nat
  obs : Nat
  cls : AccessClass
  dir : Dir
  bs : List ByteAcc
  /-- an ExtraRead: of a byte the instruction does not explicitly access (00_scope.md R8; 21_device_memory.md R124) -/
  extra : Bool
  /-- generated by a Store-Release instruction (21_device_memory.md R150) -/
  release : Bool
  /-- the configured record -/
  attr : MemAttr
  /-- the Device type whose G, R and E rules apply (R114, R182, R184); none for Normal -/
  dt : Option DeviceType
  /-- the register file a read's bytes go to -/
  dst : Option RegFile
  /-- may be performed more than once (20_memory.md R61; 21_device_memory.md R122, R174) -/
  repeatable : Bool
  /-- of an instruction on several general-purpose registers, or on SIMD&FP or SVE registers, that makes more than one
  single-copy atomic access (R171, R173) -/
  multi : Bool
  fwd : Bool
  hold : Option Nat
  fuel : Nat
deriving DecidableEq, Repr

/-- The kinds of access, a closed list (00_scope.md R8). -/
inductive AccessKind where
  | explicitRead
  | explicitWrite
  | extraRead
  | specRead
  | instrFetch
  | walkRead
  | writeback
  | endpointChange
deriving DecidableEq, Repr, Inhabited

/-- An access, as 00_scope.md R8 has it: who makes it (no one, for a change of a peripheral by itself), its direction, its
bytes and the record it is made with. -/
structure Access where
  kind : AccessKind
  obs : Option Nat
  dir : Dir
  bytes : List Nat
  attr : Option MemAttr
deriving DecidableEq, Repr

/-- One transaction that arrived: the bytes it touched, the accesses of instructions it performed, the other accesses in it,
and the endpoints it arrived at (20_memory.md R57; 21_device_memory.md R131, R142). -/
structure Arrival where
  dir : Dir
  bytes : List Nat
  xs : List Xact
  others : List Access
  ends : List Endpoint
deriving DecidableEq, Repr

/-- The acknowledgement of a write and whether the endpoint gave it (21_device_memory.md R165, R166). -/
structure Ack where
  x : Xact
  byEndpoint : Bool
deriving DecidableEq, Repr

/-- What can happen to the machine in one step, beside an instruction of the current observer with a plan
no input names (log 10). An input the rules do not permit in a state has no effect there. -/
inductive Event where
  /-- the current observer runs its next instruction with this plan -/
  | run (p : Plan)
  /-- another observer becomes the current one -/
  | schedule (o : Nat)
  /-- a speculative data read, allocating into a cache (20_memory.md R55), at once or, `late`, by a `fill` after it -/
  | specRead (o va size unit : Nat) (late : Bool)
  /-- a byte read speculatively comes into its cache (10_state.md R36) -/
  | fill (unit pa : Nat)
  /-- a speculative instruction fetch (21_device_memory.md R136), which does not make again the walks at the table locations
  `kept` that its observer has made (log 27); with `late` its read of Gathering Device memory stays in flight for at most so
  many steps, where others may be gathered with it (10_state.md R36; R144) -/
  | specFetch (o va : Nat) (kept : List Nat) (late : Option Nat)
  /-- a speculative stage 1 walk (21_device_memory.md R139); with `late` its reads of Gathering Device memory stay in flight for
  at most so many steps -/
  | specWalk (o va : Nat) (late : Option Nat)
  /-- an observer sees another's write to Normal memory that is still in flight (log 65) -/
  | observe (o id : Nat)
  /-- accesses in flight are performed as one transaction; the repeatable ones of them that `again` names stay in flight -/
  | deliver (ids again : List Nat)
  /-- a point before the endpoint acknowledges a write (21_device_memory.md R166) -/
  | earlyAck (id : Nat)
  /-- a cache writes bytes back, to another cache or to the endpoint, or bytes on their way arrive (21_device_memory.md R143) -/
  | writeback (unit : Option Nat) (pas : List Nat) (dest : Option Nat)
  /-- a cache drops a clean byte -/
  | evict (unit pa : Nat)
  /-- a location changes without a write (21_device_memory.md R128) -/
  | endpointChange (pa : Nat) (v : Byte)
  /-- an exception is taken between two instructions (60_exceptions.md R250, D20) -/
  | exception (o : Nat)
  /-- the environment returns from an exception; `retry` runs a faulting instruction again -/
  | exceptionReturn (o : Nat) (retry : Bool)
  /-- a program is loaded from outside (log 1) -/
  | load (o : Nat) (p : List Slot)
  /-- software outside B2.10 writes the controls and translations (10_state.md R37) -/
  | configure (o : Nat) (c : PeCtl)
  /-- instructions outside B2.10 write a general-purpose register -/
  | setGp (o : Nat) (n : RegNum) (v : Word)
  /-- instructions outside B2.10 write a vector register -/
  | setVec (o : Nat) (n : RegNum) (v : VReg)
  /-- instructions outside B2.10 write the FFR -/
  | setFfr (o : Nat) (v : FFR)
deriving DecidableEq, Repr

/-- The machine. -/
structure State where
  platform : Platform
  obs : List (Nat × Observer)
  cur : Nat
  mem : List Host.Cell
  lines : List Line
  inflight : List Xact
  /-- writes to Normal memory, by number, each with an observer that sees it before it completes (N2, N3; log 65) -/
  early : List (Nat × Nat)
  arrivals : List Arrival
  acks : List Ack
  /-- locations accessed so far, each with the record it is accessed with, hints erased (D2) -/
  touched : List (Nat × MemAttr)
  /-- pairs of access numbers in the relations supplied from outside (N1) -/
  obIn : List (Nat × Nat)
  bobIn : List (Nat × Nat)
  nextId : Nat
  nextInstr : Nat
  inputs : List Event
  plan : Plan
  clock : Nat
deriving DecidableEq, Repr

/-- What stops the machine with a fault. -/
inductive Fault where
  /-- An access or a fetch at a virtual address that no translation of the observer maps: the spec derives
  every record from a translation table entry (10_state.md R20) and says nothing of an address without one.
  Raised by every meaning that accesses memory and by the fetch. Safe: the machine stops. -/
  | noTranslation (va : Nat)
deriving DecidableEq, Repr

/-- The optional features whose instructions exist only with them (00_scope.md R4, D22). -/
inductive Feature where
  | sve
  | mops
  | pauth
deriving DecidableEq, Repr

/-- Why the machine gives an instruction no meaning. -/
inductive Refusal where
  /-- An instruction that has no meaning yet; raised by `exec` alone. Safe. -/
  | notModelled (mnemonic : String)
  /-- The bytes of the next slot are no instruction, or the slot holds the LDNP with opc 11 (30_encoding.md R204); raised by
  the step. Safe. -/
  | undecodable (e : DecodeError)
  /-- The instruction belongs to a feature the platform does not implement (D22); raised by the SVE, CPY*,
  Memory Set, LDRAA and LDRAB meanings. Safe. -/
  | featureAbsent (f : Feature)
  /-- CONSTRAINED UNPREDICTABLE of 22_access_restrictions.md R190 (D12, D38); raised by every meaning that
  accesses memory. Safe. -/
  | attributeBoundary
  /-- CONSTRAINED UNPREDICTABLE of 22_access_restrictions.md R194 (D12); raised by every meaning that
  accesses memory. Safe. -/
  | granuleBoundary
  /-- Mismatched memory attributes, 20_memory.md R81 and 21_device_memory.md R158 (D2); raised by every
  meaning that accesses memory, by the fetch, by walks and by speculation. Safe. -/
  | mismatchedAttributes
  /-- UNPREDICTABLE of 20_memory.md R63 (D13, D14): a non-idempotent location mapped Normal; raised by every
  meaning that accesses memory, by the fetch, by walks and by speculation. Safe. -/
  | nonIdempotentNormal
  /-- An unaligned access to Normal memory where the system is not configured to generate such accesses: what happens is
  not in the source (20_memory.md R59, N22) and is left to the surrounding model (D25); raised by every meaning that
  accesses memory. Safe. -/
  | unalignedNormal
deriving DecidableEq, Repr

/-- A Normal Non-shareable record, Non-cacheable at both levels: the walk record at reset (log 6). -/
def resetWalkAttr : NormalAttr :=
  { sh := .nsh, inner := { c := .nc, hints := none }, outer := { c := .nc, hints := none } }

/-- The controls of an observer at reset (logs 6, 7): EL3, no translation, data accesses Device-nGnRnE and
fetches Normal Non-cacheable. -/
def PeCtl.reset : PeCtl :=
  { el := .el3, streamingSve := false, fa64Enabled := false, hcrTGE := false, hcrDC := false, hcrPTW := false,
    tcrWalk := resetWalkAttr, maps := [], dataDefault := some { ty := .device .nGnRnE, xs := none },
    fetchDefault := some { ty := .normal { sh := .osh, inner := { c := .nc, hints := none }, outer := { c := .nc, hints := none } }, xs := none } }

/-- An observer at reset (log 6). -/
def Observer.reset : Observer :=
  { gpr := Vector.replicate 32 0, vreg := Vector.replicate 32 0, gprFrom := Vector.replicate 32 0,
    vregFrom := Vector.replicate 32 0, ffr := 0, copyBuf := [], held := [], esr := 0, ctl := PeCtl.reset,
    excl := none, marks := [], program := [], current := none, handler := none }

/-- An observer that is not there: no address of its is translated, until an input configures it (log 59). -/
def Observer.absent : Observer :=
  { Observer.reset with ctl := { PeCtl.reset with dataDefault := none, fetchDefault := none } }

/-- The machine at reset: nothing is said by the spec (10_state.md R38, 70_reset_and_hazards.md R260); every
value is named in logs 6, 7, 8 and 13. -/
def State.reset : State :=
  { platform := Config.resetPlatform, obs := [(0, Observer.reset)], cur := 0, mem := [], lines := [], inflight := [],
    early := [], arrivals := [], acks := [], touched := [], obIn := [], bobIn := [], nextId := 0, nextInstr := 0, inputs := [],
    plan := Plan.simple, clock := 0 }

end Sys2Proof.Machine
end

