-- ==== Sys2Proof/Machine/Ops.lean ====
section
/-! DEFINITION. The named operations over the state: endpoint memory, registers, observers, the platform's
facts, coherency, translation, the program-order relations, and taking an exception and returning from one. -/

namespace Sys2Proof.Machine

open Sys2Proof

/-! ### Endpoint memory -/

/-- What a location nothing has written reads as (DESIGN CHOICE, log 8). -/
def Memory.unlisted : Byte := 0

/-- The value of one location of endpoint memory. -/
def Memory.read : List Host.Cell → Nat → Byte
  | [], _ => Memory.unlisted
  | (b, w) :: t, a => if a = b then w else Memory.read t a

/-- Write one location, keeping the canonical form. -/
def Memory.write : List Host.Cell → Nat → Byte → List Host.Cell
  | [], a, v => if v = Memory.unlisted then [] else [(a, v)]
  | (b, w) :: t, a, v =>
    if a < b then (if v = Memory.unlisted then (b, w) :: t else (a, v) :: (b, w) :: t)
    else if a = b then (if v = Memory.unlisted then t else (a, v) :: t)
    else (b, w) :: Memory.write t a v

/-- The canonical form: addresses strictly rising, no entry that an unlisted location would read as. -/
def Memory.wf : List Host.Cell → Bool
  | [] => true
  | (b, w) :: t => w != Memory.unlisted && t.all (fun c => decide (b < c.1)) && Memory.wf t

/-- Write the bytes of an access. -/
def Memory.writeBytes (m : List Host.Cell) (bs : List ByteAcc) : List Host.Cell :=
  bs.foldl (fun m b => Memory.write m b.pa b.val) m

/-! ### Register bytes -/

/-- Byte `k` of a register, byte 0 the least significant. -/
def getLane {w : Nat} (v : BitVec w) (k : Nat) : Byte := v.extractLsb' (8 * k) 8

/-- A register with byte `k` replaced. -/
def setLane {w : Nat} (v : BitVec w) (k : Nat) (b : Byte) : BitVec w :=
  (v &&& ~~~((0xFF#8).setWidth w <<< (8 * k))) ||| (b.setWidth w <<< (8 * k))

/-- The register an address names: X0 to X30, or SP (30_encoding.md R204). -/
def Observer.base (o : Observer) (n : RegNum) : Word := o.gpr[n.toNat]'(n.isLt)

/-- Write the register an address names. -/
def Observer.setBase (o : Observer) (n : RegNum) (v : Word) : Observer :=
  { o with gpr := o.gpr.set n.toNat v n.isLt }

/-- A transferred general-purpose register; number 31 reads as zero (PRESUMED, log 2). -/
def Observer.xreg (o : Observer) (n : RegNum) : Word := if n = 31 then 0 else o.base n

/-- Write a transferred general-purpose register; number 31 discards (PRESUMED, log 2). -/
def Observer.setX (o : Observer) (n : RegNum) (v : Word) : Observer := if n = 31 then o else o.setBase n v

/-- A SIMD&FP or SVE register. -/
def Observer.vec (o : Observer) (n : RegNum) : VReg := o.vreg[n.toNat]'(n.isLt)

/-- Write a SIMD&FP or SVE register. -/
def Observer.setVec (o : Observer) (n : RegNum) (v : VReg) : Observer :=
  { o with vreg := o.vreg.set n.toNat v n.isLt }

/-- The byte that copies hold under a number (log 32). -/
def heldByte (l : List Host.Cell) (k : Nat) : Byte :=
  match l.find? (fun c => c.1 == k) with
  | some c => c.2
  | none => 0

/-- Hold a byte under a number, in place of one there. -/
def holdByte (l : List Host.Cell) (k : Nat) (b : Byte) : List Host.Cell := (k, b) :: l.filter (fun c => c.1 != k)

/-- The byte held of an instruction's load of a byte of a register (log 61). -/
def HeldByte.find (l : List HeldByte) (instr : Nat) (f : RegFile) (n : RegNum) (k : Nat) : Byte :=
  match l.find? (fun h => h.instr == instr && h.file == f && h.reg == n && h.lane == k) with
  | some h => h.val
  | none => 0

/-- One byte of a transferred register. -/
def Observer.regByte (o : Observer) (f : RegFile) (n : RegNum) (k : Nat) : Byte :=
  match f with
  | .gp => getLane (o.xreg n) k
  | .vec => getLane (o.vec n) k
  | .copy => heldByte o.copyBuf k

/-- Write one byte of a transferred register. -/
def Observer.setRegByte (o : Observer) (f : RegFile) (n : RegNum) (k : Nat) (b : Byte) : Observer :=
  match f with
  | .gp => o.setX n (setLane (o.xreg n) k b)
  | .vec => o.setVec n (setLane (o.vec n) k b)
  | .copy => { o with copyBuf := holdByte o.copyBuf k b }

/-- A read with this number delivers to the register: no later load of the register has been made (log 61). -/
def Observer.takes (o : Observer) (f : RegFile) (n : RegNum) (id : Nat) : Bool :=
  match f with
  | .gp => decide (o.gprFrom[n.toNat]'(n.isLt) ≤ id)
  | .vec => decide (o.vregFrom[n.toNat]'(n.isLt) ≤ id)
  | .copy => true

/-- A load of the register, whose accesses have numbers from `id` on: no read with a lower number delivers to it any more. -/
def Observer.claim (o : Observer) (f : RegFile) (n : RegNum) (id : Nat) : Observer :=
  match f with
  | .gp => { o with gprFrom := o.gprFrom.set n.toNat id n.isLt }
  | .vec => { o with vregFrom := o.vregFrom.set n.toNat id n.isLt }
  | .copy => o

/-- Write a transferred general-purpose register with what is no loaded byte: an earlier load of it no longer delivers there. -/
def Observer.overwriteX (o : Observer) (n : RegNum) (v : Word) (id : Nat) : Observer := (o.setX n v).claim .gp n id

/-! ### Observers -/

/-- The observer of a number; one the state does not list is not there. -/
def Observers.get : List (Nat × Observer) → Nat → Observer
  | [], _ => Observer.absent
  | (k, v) :: t, o => if o = k then v else Observers.get t o

/-- Replace the observer of a number, or list it. -/
def Observers.set : List (Nat × Observer) → Nat → Observer → List (Nat × Observer)
  | [], o, v => [(o, v)]
  | (k, w) :: t, o, v => if o = k then (k, v) :: t else (k, w) :: Observers.set t o v

/-- The observer of a number. -/
def State.getObs (s : State) (o : Nat) : Observer := Observers.get s.obs o

/-- Replace an observer. -/
def State.setObs (s : State) (o : Nat) (v : Observer) : State := { s with obs := Observers.set s.obs o v }

/-- The current observer, whose instruction runs. -/
def State.me (s : State) : Observer := s.getObs s.cur

/-- Replace the current observer. -/
def State.setMe (s : State) (v : Observer) : State := s.setObs s.cur v

/-! ### The platform's facts (00_scope.md R4) -/

/-- The region that lists a location. -/
def regionAt (p : Platform) (pa : Nat) : Region :=
  match p.regions.find? (fun r => decide (r.base ≤ pa) && decide (pa < r.base + r.size)) with
  | some r => r
  | none => p.other

/-- `periph_of`: the peripheral or block of memory a location belongs to (21_device_memory.md R155). -/
def blockOf (p : Platform) (pa : Nat) : Nat := (regionAt p pa).block

/-- `is_peripheral` of the block of a location (21_device_memory.md R154). -/
def inPeripheral (p : Platform) (pa : Nat) : Bool := p.peripherals.contains (blockOf p pa)

/-- `endpoint_of`: for Conventional memory the PoC (20_memory.md R57). -/
def endpointOf (p : Platform) (pa : Nat) : Endpoint :=
  if (regionAt p pa).conventional then .poc else (regionAt p pa).endpoint

/-- `impl_device`: the type the implementation treats a configured Device type as (R114). -/
def implDevice (p : Platform) : DeviceType → DeviceType
  | .nGnRnE => p.implNGnRnE
  | .nGnRE => p.implNGnRE
  | .nGRE => p.implNGRE
  | .GRE => p.implGRE

/-- The platform's facts of an observer; one the platform does not list is without caches, in the Inner and the Outer domain
numbered 0, with the listed ones that are (DESIGN CHOICE, log 59). -/
def infoOf (p : Platform) (o : Nat) : ObserverInfo :=
  match p.observers.find? (fun i => i.id == o) with
  | some i => i
  | none => { id := o, inner := 0, outer := 0, path := [] }

/-- The observer accesses the memory system inside the conceptual level (20_memory.md R82): some cache of its path has the
tag (DESIGN CHOICE, log 51). -/
def insideLevel (p : Platform) (o : Nat) (l : CacheLevel) : Bool := (infoOf p o).path.any (fun u => u.tag == l)

/-- Same Inner Shareability domain (20_memory.md R70). -/
def sameInner (p : Platform) (a b : Nat) : Bool := (infoOf p a).inner == (infoOf p b).inner

/-- Same Outer Shareability domain (20_memory.md R71). -/
def sameOuter (p : Platform) (a b : Nat) : Bool := (infoOf p a).outer == (infoOf p b).outer

/-- Accesses with this record are data coherent between the two observers (20_memory.md R70, R71, R73, R77;
21_device_memory.md R129; D26). -/
def coherentFor (p : Platform) (a : MemAttr) (w o : Nat) : Bool :=
  w == o || a.isDevice || a.isNormalNC ||
  match a.effSh with
  | .nsh => false
  | .ish => sameInner p w o
  | .osh => sameOuter p w o

/-- Visibility across a level of cache without maintenance: written inside it Non-cacheable or
Write-Through, read outside (20_memory.md R82); written outside it Non-cacheable, read inside (R83). -/
def visibleAcross (p : Platform) (a : MemAttr) (w o : Nat) (l : CacheLevel) : Bool :=
  (a.cacheAt l != .wb && insideLevel p w l && !insideLevel p o l) ||
  (a.cacheAt l == .nc && !insideLevel p w l && insideLevel p o l)

/-- A completed write by `w` with this record must be what `o` reads: no older value may be returned. -/
def mustSee (p : Platform) (a : MemAttr) (w o : Nat) : Bool :=
  coherentFor p a w o || visibleAcross p a w o .inner || visibleAcross p a w o .outer

/-- The barrier option affects a pair of accesses of these directions (N3, log 14). -/
def barrierAffects (p : Platform) (option : Nat) (d₁ d₂ : Dir) : Bool := p.barrierTable.contains (option, d₁, d₂)

/-- A write of this record by `w` is taken into account by the reservation of `o` (20_memory.md R75, R78); exclusives to Device
memory follow the Outer domain, as its effective Shareability says (DESIGN CHOICE, log 28). -/
def exclTakesAccount (p : Platform) (a : MemAttr) (w o : Nat) : Bool :=
  match a.effSh with
  | .ish => sameInner p w o
  | .osh => sameOuter p w o
  | .nsh => p.nshExclMultiObserver

/-! ### Translation -/

/-- The EL1&0 translation regime (60_exceptions.md R252). -/
def PeCtl.isEL10 (c : PeCtl) : Bool := c.el == .el0 || c.el == .el1

/-- The configuration in which all locations are treated as Device (21_device_memory.md R137). -/
def allDevice (p : Platform) (c : PeCtl) : Bool := p.haveEL2 && c.hcrTGE && !c.hcrDC && c.isEL10

/-- The translation some mapping or the default record gives an address; the default record makes no location
execute-never, counts as stage 1 and needs no walk (DESIGN CHOICE, log 25). -/
def lookupTr (maps : List Mapping) (dflt : Option MemAttr) (va : Nat) : Option Tr :=
  match maps.find? (fun m => decide (m.va ≤ va) && decide (va < m.va + m.size)) with
  | some m => some { pa := m.pa + (va - m.va), attr := m.attr, stage := m.stage, xn := m.xn, walk := m.walk }
  | none => dflt.map (fun a => { pa := va, attr := a, stage := .s1, xn := [], walk := [] })

/-- The translation of a data address (10_state.md R20; 21_device_memory.md R137). Where all locations are Device, the physical
address and the walk stay those of the mapping (DESIGN CHOICE, log 26). -/
def dataTr (p : Platform) (c : PeCtl) (va : Nat) : Option Tr :=
  (lookupTr c.maps c.dataDefault va).map (fun t =>
    if allDevice p c then { t with attr := { t.attr with ty := .device p.tgeType }, stage := .s1 } else t)

/-- The translation of a fetch address. -/
def fetchTr (c : PeCtl) (va : Nat) : Option Tr := lookupTr c.maps c.fetchDefault va

/-! ### Arrivals -/

/-- A transaction of some accesses, with the endpoints of its bytes. -/
def arrivalOf (p : Platform) (dir : Dir) (bytes : List Nat) (xs : List Xact) (others : List Access) : Arrival :=
  { dir := dir, bytes := bytes, xs := xs, others := others, ends := (bytes.map (endpointOf p)).eraseDups }

/-- A transaction of one access that no instruction makes explicitly. -/
def Access.arrival (p : Platform) (a : Access) : Arrival := arrivalOf p a.dir a.bytes [] [a]

/-- The access a transaction performs for an instruction (00_scope.md R8). -/
def Xact.access (x : Xact) : Access :=
  { kind := match x.cls, x.dir with
      | .walk, _ => .walkRead
      | .fetch, _ => .instrFetch
      | _, .read => if x.extra then .extraRead else .explicitRead
      | _, .write => .explicitWrite
    obs := some x.obs
    dir := x.dir
    bytes := x.bs.map ByteAcc.pa
    attr := some x.attr }

/-- Every access of a transaction (00_scope.md R8). -/
def Arrival.accesses (a : Arrival) : List Access := a.xs.map Xact.access ++ a.others

/-- Log a transaction that arrived at an endpoint. -/
def State.logArrival (s : State) (a : Arrival) : State := { s with arrivals := s.arrivals ++ [a] }

/-! ### Peripherals (21_device_memory.md R110) -/

/-- The transition a peripheral takes when an access to one of its locations arrives: only locations that are not
idempotent have one (20_memory.md R62). It is chosen by the direction, the one location and what cells hold, not by the size of
the access or of its transaction (DESIGN CHOICE where R110 calls the size observable, log 38). -/
def reactionAt (p : Platform) (m : List Host.Cell) (dir : Dir) (pa : Nat) : Option Reaction :=
  if (regionAt p pa).idempotent then none
  else p.reactions.find? (fun r => r.dir == dir && r.pa == pa && r.given.all (fun c => Memory.read m c.1 == c.2))

/-- The cells a transition of the peripheral of `pa` can set: its own, where they are not idempotent. -/
def mayChange (p : Platform) (pa q : Nat) : Bool := !(regionAt p q).idempotent && blockOf p q == blockOf p pa

/-- Take a transition. -/
def applyReaction (p : Platform) (r : Reaction) (m : List Host.Cell) : List Host.Cell :=
  (r.sets.filter (fun c => mayChange p r.pa c.1)).foldl (fun m c => Memory.write m c.1 c.2) m

/-- The peripherals' transitions when a transaction on these locations has arrived: one for each location, in order. -/
def Memory.react (p : Platform) (dir : Dir) (m : List Host.Cell) (pas : List Nat) : List Host.Cell :=
  pas.eraseDups.foldl (fun m pa =>
    match reactionAt p m dir pa with
    | none => m
    | some r => applyReaction p r m) m

/-- The peripherals react to a transaction. The change of their cells is part of its arrival, and no EndpointChange access of its
own (DESIGN CHOICE, logs 38, 55). -/
def State.react (s : State) (dir : Dir) (pas : List Nat) : State := { s with mem := Memory.react s.platform dir s.mem pas }

/-- A transaction of one access, of a walk or a fetch, arrives, and the peripherals react to it. -/
def State.arrive (s : State) (a : Access) : State := (s.logArrival (a.arrival s.platform)).react a.dir a.bytes

/-! ### Table walks -/

/-- The bytes of a table location. -/
def WalkRef.bytes (w : WalkRef) : List Nat := List.range' w.pa w.size

/-- The record a walk read is made with: the Normal record of `TCR_ELx`, or, in the EL1&0 regime, the Device
type stage 2 gives (21_device_memory.md R138, R139). The regime is that of the observer's current level: no walk of the EL1&0
regime is made at EL2 or EL3 (DESIGN CHOICE, log 27). -/
def walkAttr (p : Platform) (c : PeCtl) (w : WalkRef) : MemAttr :=
  { ty := match w.s2 with
      | some d => if p.haveEL2 && c.isEL10 then .device d else .normal c.tcrWalk
      | none => .normal c.tcrWalk
    xs := w.xs }

/-- A stage 1 walk that stage 2 sends to Device memory while PTW is 1 (21_device_memory.md R140). -/
def walkFaults (p : Platform) (c : PeCtl) (w : WalkRef) : Bool := c.hcrPTW && (walkAttr p c w).isDevice

/-- The access of a walk. -/
def walkAccess (p : Platform) (o : Nat) (c : PeCtl) (w : WalkRef) : Access :=
  { kind := .walkRead, obs := some o, dir := .read, bytes := w.bytes, attr := some (walkAttr p c w) }

/-- The record each location was accessed with is kept, hints erased (20_memory.md R81, D2). -/
def State.keepRecords (s : State) (l : List (Nat × MemAttr)) : State :=
  { s with touched := l.foldl (fun t b =>
      if t.any (fun q => q.1 == b.1) then t else t ++ [(b.1, b.2.eraseHints)]) s.touched }

/-- The walks that are made: those PTW does not forbid (21_device_memory.md R140). Of a speculative walk that is dropped so, the
table reads that go to Normal memory are made, those after the forbidden one, too (DESIGN CHOICE, log 27). -/
def madeWalks (p : Platform) (c : PeCtl) (ws : List WalkRef) : List WalkRef := ws.filter (fun w => !walkFaults p c w)

/-- The observer has made this walk: its read has arrived, with a record that differs at most in the hints (20_memory.md R81,
R85). -/
def State.hasWalked (s : State) (o : Nat) (a : MemAttr) (w : WalkRef) : Bool :=
  s.arrivals.any (fun e => e.accesses.any (fun x =>
    x.kind == .walkRead && x.obs == some o && x.bytes == w.bytes && x.attr.map MemAttr.eraseHints == some a.eraseHints))

/-- The walks that are due: all of them, but for those at the table locations `kept` that the observer has made before
(DESIGN CHOICE, log 27). -/
def State.dueWalks (s : State) (o : Nat) (c : PeCtl) (kept : List Nat) (ws : List WalkRef) : List WalkRef :=
  ws.filter (fun w => !(kept.contains w.pa && s.hasWalked o (walkAttr s.platform c w) w))

/-- The table reads of walks by an observer, made at once (21_device_memory.md R138, R139; log 55). -/
def State.walkReads (s : State) (o : Nat) (c : PeCtl) (ws : List WalkRef) : State :=
  ((madeWalks s.platform c ws).foldl (fun t w => t.arrive (walkAccess s.platform o c w)) s).keepRecords
    ((madeWalks s.platform c ws).flatMap (fun w => w.bytes.map (fun pa => (pa, walkAttr s.platform c w))))

/-! ### Relations over accesses -/

/-- Two accesses touch a common location. -/
def Xact.overlaps (a b : Xact) : Bool := a.bs.any (fun p => b.bs.any (fun q => p.pa == q.pa))

/-- Two accesses touch a common block, with any of their bytes (DESIGN CHOICE, log 64). -/
def sameBlock (p : Platform) (a b : Xact) : Bool :=
  a.bs.any (fun x => b.bs.any (fun y => blockOf p x.pa == blockOf p y.pa))

/-- Two accesses touch a common block that is a peripheral, with any of their bytes (DESIGN CHOICE, log 64). -/
def samePeripheral (p : Platform) (a b : Xact) : Bool :=
  a.bs.any (fun x => b.bs.any (fun y => blockOf p x.pa == blockOf p y.pa && inPeripheral p x.pa))

/-- A barrier of one of these kinds that affects both accesses stands between them in program order. -/
def barrierBetween (p : Platform) (ms : List Mark) (kinds : List MarkKind) (a b : Xact) : Bool :=
  ms.any (fun m => kinds.contains m.kind && decide (a.id < m.at_) && decide (m.at_ ≤ b.id) &&
    barrierAffects p m.option a.dir b.dir)

/-- Barrier-ordered-before, as far as the spec gives it: a DMB between two Normal Non-cacheable, or two
Device, accesses of one PE to one block (20_memory.md R84; 21_device_memory.md R133), and the pairs supplied
from outside (N1, log 14). -/
def State.bob (s : State) (a b : Xact) : Bool :=
  (a.obs == b.obs && decide (a.id < b.id) &&
    ((a.attr.isDevice && b.attr.isDevice) || (a.attr.isNormalNC && b.attr.isNormalNC)) &&
    sameBlock s.platform a b && barrierBetween s.platform (s.getObs a.obs).marks [.dmb] a b) ||
  s.bobIn.contains (a.id, b.id)

/-- Ordered-before, as far as the spec gives it: barrier-ordered-before (GK2, 90_conflicts.md C6) and the
pairs supplied from outside (N1, log 14). -/
def State.ob (s : State) (a b : Xact) : Bool := s.bob a b || s.obIn.contains (a.id, b.id)

/-- A read of a copy whose bytes a write of the same copy writes. -/
def Xact.feedsCopy (r w : Xact) : Bool :=
  r.dst == some .copy && w.cls == .memCopy && w.dir == .write && r.bs.any (fun b => w.bs.any (fun c => c.lane == b.lane))

/-- The write takes this byte of the instruction's load into the register file. -/
def Xact.awaitsByte (w : Xact) (instr : Nat) (f : RegFile) (b : ByteAcc) : Bool :=
  w.dir == .write && w.bs.any (fun c => c.src == some (instr, f) && c.reg == b.reg && c.lane == b.lane)

/-- A read of an earlier instruction that loads a byte the write stores. -/
def Xact.feedsStore (r w : Xact) : Bool :=
  match r.dst with
  | none => false
  | some f => r.dir == .read && r.bs.any (w.awaitsByte r.instr f)

/-- A read whose bytes a write writes: of the same copy, or of an earlier load of the register that it stores (log 61). -/
def Xact.feeds (r w : Xact) : Bool := if r.instr = w.instr then r.feedsCopy w else r.feedsStore w

/-- A write whose bytes may not be there yet: it takes them when it is performed (logs 32, 61). -/
def Xact.lacksBytes (w : Xact) : Bool := w.cls == .memCopy || w.bs.any (fun b => b.src.isSome)

/-- A data access the non-Reordering attribute orders (21_device_memory.md R154, R162). -/
def Xact.isNonReordering (x : Xact) : Bool :=
  match x.dt with
  | some d => !d.reordering && !x.cls.isMops
  | none => false

/-- Two accesses of instructions to one location that stay in program order (PRESUMED, log 15); a read of Normal memory after
a write takes its value from the write instead, but not from one whose value may not be there yet (logs 32, 61). -/
def sameLocationOrdered (a b : Xact) : Bool :=
  a.overlaps b && !a.cls.isImplicit && !b.cls.isImplicit && !(a.dir == .write && !a.lacksBytes && b.dir == .read && b.attr.isNormal)

/-- The earlier access `a` must be performed before `b`: the arrival order at one peripheral
(21_device_memory.md R154, R160 to R162), `bob` and `ob`, and program order on one location. The accesses of
ONE instruction are in no order (R89, R172, log 16), but that a copy reads a byte before it writes it (R228); a store waits for
the bytes it stores (log 61). -/
def State.mustPrecede (s : State) (a b : Xact) : Bool :=
  a.obs == b.obs && decide (a.id < b.id) &&
  (a.feeds b || (a.instr != b.instr &&
    ((a.isNonReordering && b.isNonReordering && samePeripheral s.platform a b) || s.ob a b || sameLocationOrdered a b)))

/-- Some other observer sees this write before it completes (log 65). -/
def State.isSeen (s : State) (w : Xact) : Bool := s.early.any (fun e => e.1 == w.id)

/-- Writes of two observers to a common location of Normal memory, one of them seen before it completes: they complete in the
order they are seen in, the one issued first (20_memory.md R70, R71, R73; DESIGN CHOICE on that order, log 65). -/
def State.seenBefore (s : State) (a b : Xact) : Bool :=
  a.obs != b.obs && decide (a.id < b.id) && a.dir == .write && b.dir == .write && a.attr.isNormal && b.attr.isNormal &&
  a.overlaps b && (s.isSeen a || s.isSeen b)

/-- The access `a` is performed before `b`. -/
def State.waitsFor (s : State) (b a : Xact) : Bool := s.mustPrecede a b || s.seenBefore a b

/-! ### Exceptions -/

/-- The syndrome register after an exception: an Alignment fault under TGE and not DC in the EL1&0 regime
leaves ISS[24] 0 (21_device_memory.md R137; 60_exceptions.md R243); the rest of that syndrome is free; no
other exception of the spec says what it writes, and the register keeps its old value (DESIGN CHOICE, log 21). -/
def esrAfter (p : Platform) (c : PeCtl) (r : Raise) (syndrome old : Word) : Word :=
  match r with
  | .alignment _ => if allDevice p c then syndrome &&& ~~~(1#64 <<< 24) else old
  | _ => old

/-- Take an exception: the current instruction ends, control passes to the environment, and the instruction
is kept; `restarts` says that it was in its sequence of accesses (60_exceptions.md R240 to R244, R248; log 21). -/
def State.takeException (s : State) (r : Raise) (restarts : Bool) : State :=
  s.setMe { s.me with
    esr := esrAfter s.platform s.me.ctl r s.plan.syndrome s.me.esr
    handler := some { cause := r, slot := s.me.current, restarts := restarts }
    current := none }

/-- The environment returns: an instruction whose sequence of accesses the exception ended, whatever its cause, restarts
(20_memory.md R52; 60_exceptions.md R244), one that faulted before its accesses runs again if the environment so decides
(log 21). -/
def State.returnFromException (s : State) (o : Nat) (retry : Bool) : State :=
  match (s.getObs o).handler with
  | none => s
  | some h =>
    let v := s.getObs o
    s.setObs o { v with
      handler := none
      program := if h.restarts || retry then h.slot.toList ++ v.program else v.program }

end Sys2Proof.Machine
end

