-- ==== Sys2Proof/Machine/Memsys.lean ====
section
/-! DEFINITION. The memory system: what a read returns, where a write goes, which accesses may be gathered,
how an access in flight is performed, in which order, and what time does to it. -/

namespace Sys2Proof.Machine

open Sys2Proof

/-! ### What a read returns -/

/-- The value of a location as an observer's caches and the memory system answer it: the first cache of its
path that the record allows and that holds the location, else the newest dirty copy the observer must see,
else the endpoint (20_memory.md R70 to R73, R77, R82, R83; log 35). -/
def State.valueFor (s : State) (o : Nat) (a : MemAttr) (pa : Nat) : Byte :=
  match (infoOf s.platform o).path.findSome? (fun u =>
      if a.cacheAt u.tag = .nc then none else s.lines.find? (fun l => l.unit == some u.id && l.pa == pa && !l.pending)) with
  | some l => l.val
  | none =>
    match s.lines.find? (fun l => l.pa == pa && l.dirty && mustSee s.platform l.attr l.writer o) with
    | some l => l.val
    | none => Memory.read s.mem pa

/-- The value a write leaves at a location: that of the last of its bytes there. -/
def lastVal (bs : List ByteAcc) (pa : Nat) : Option Byte := (bs.reverse.find? (fun b => b.pa == pa)).map ByteAcc.val

/-- A Store-Release followed by a Load-Acquire, both between a write and a read (PRESUMED reading of "a
combination of Load-Acquire and Store-Release", 21_device_memory.md R150, log 29). -/
def acqRelBetween (ms : List Mark) (a b : Xact) : Bool :=
  ms.any (fun r => r.kind == .release && decide (a.id < r.at_) &&
    ms.any (fun q => q.kind == .acquire && decide (r.at_ ≤ q.at_) && decide (q.at_ ≤ b.id)))

/-- A byte of a write as it stands: the one its copy has read (40_access_classes.md R228; log 32), or, where it was in flight when
the store was issued, the one that was loaded (log 61). -/
def State.filledByte (s : State) (x : Xact) (b : ByteAcc) : ByteAcc :=
  if x.cls = .memCopy then { b with val := (s.getObs x.obs).regByte .copy b.reg b.lane }
  else
    match b.src with
    | none => b
    | some q => { b with val := HeldByte.find (s.getObs x.obs).held q.1 q.2 b.reg b.lane }

/-- A write as it stands. -/
def State.filled (s : State) (x : Xact) : Xact :=
  match x.dir with
  | .read => x
  | .write => { x with bs := x.bs.map (s.filledByte x) }

/-- The observer's access `id` finds this write, which is still in flight: its own, earlier in its program order (one that may
lack its bytes precedes the read, logs 32, 61), or another's that it sees before it completes (log 65). -/
def State.finds (s : State) (o id : Nat) (w : Xact) : Bool :=
  w.dir == .write && (if w.obs = o then !w.lacksBytes && decide (w.id < id) else s.early.contains (w.id, o))

/-- The newest write in flight that an access finds and that covers a location. -/
def State.ownPending (s : State) (o id : Nat) (pa : Nat) : Option Byte :=
  (s.inflight.reverse.find? (fun w => s.finds o id w && w.bs.any (fun b => b.pa == pa))).bind
    (fun w => lastVal (s.filled w).bs pa)

/-- The value access `id` of an observer reads at a location with a record: from the endpoint for Device
memory (21_device_memory.md R149), from the writes in flight that it finds, its caches and the memory system
for Normal memory (20_memory.md R63). -/
def State.byteFor (s : State) (o id : Nat) (a : MemAttr) (pa : Nat) : Byte :=
  if a.isDevice then Memory.read s.mem pa else (s.ownPending o id pa).getD (s.valueFor o a pa)

/-- The bytes a write writes are there: no read that feeds it is in flight. -/
def State.hasBytes (s : State) (w : Xact) : Bool := !s.inflight.any (fun r => r.obs == w.obs && r.feeds w)

/-- A read of a Gathering location may come from this earlier write to Device memory: the three conditions of
21_device_memory.md R150. That the write is the reader's own is the model's (DESIGN CHOICE, log 43). -/
def State.mayForward (s : State) (w r : Xact) : Bool :=
  w.dir == .write && r.dir == .read && w.obs == r.obs && decide (w.id < r.id) && w.instr != r.instr &&
  w.attr.isDevice &&
  (match r.dt with
   | some e => e.gathering
   | none => false) &&
  r.bs.all (fun b => w.bs.any (fun c => c.pa == b.pa)) && !r.extra &&
  !barrierBetween s.platform (s.getObs r.obs).marks [.dmb, .dsb] w r &&
  !acqRelBetween (s.getObs r.obs).marks w r && !s.ob w r && !w.release

/-- The access has arrived at an endpoint. -/
def State.hasArrived (s : State) (x : Xact) : Bool := s.arrivals.any (fun a => a.xs.any (fun y => y.id == x.id))

/-- The buffered write a read is answered from, if the plan says so and R150 permits it: it has not arrived, and it is the
newest access in flight of an earlier instruction that touches the read's bytes, so that no earlier read of them is
overtaken (21_device_memory.md R129). -/
def State.forwardSource (s : State) (r : Xact) : Option Xact :=
  if r.fwd then
    match s.inflight.reverse.find? (fun w => w.obs == r.obs && decide (w.id < r.id) && w.instr != r.instr && w.overlaps r) with
    | some w => if s.mayForward w r && !s.hasArrived w && s.hasBytes w then some (s.filled w) else none
    | none => none
  else none

/-- The bytes a read returns. -/
def State.readVals (s : State) (x : Xact) : List Byte := x.bs.map (fun b => s.byteFor x.obs x.id x.attr b.pa)

/-- The bytes of a write in flight at the locations of a read. -/
def forwardedVals (w r : Xact) : List Byte :=
  r.bs.map (fun b => (lastVal w.bs b.pa).getD 0)

/-- Put a byte of the read with this number into its register, unless a later load has taken the register over. -/
def Observer.putByte (o : Observer) (f : RegFile) (id : Nat) (b : ByteAcc) (v : Byte) : Observer :=
  if o.takes f b.reg id then o.setRegByte f b.reg b.lane v else o

/-- Put the bytes of a read into their registers. -/
def Observer.putBytes (o : Observer) (f : RegFile) (id : Nat) (bs : List ByteAcc) (vals : List Byte) : Observer :=
  (bs.zip vals).foldl (fun o p => o.putByte f id p.1 p.2) o

/-- A store in flight takes this byte of the read. -/
def State.isAwaited (s : State) (x : Xact) (f : RegFile) (b : ByteAcc) : Bool :=
  s.inflight.any (fun w => w.obs == x.obs && w.awaitsByte x.instr f b)

/-- Hold bytes of an instruction's load for the stores that wait for them, the newest first. -/
def Observer.holdBytes (o : Observer) (instr : Nat) (f : RegFile) (ps : List (ByteAcc × Byte)) : Observer :=
  { o with held := (ps.map (fun p =>
      ({ instr := instr, file := f, reg := p.1.reg, lane := p.1.lane, val := p.2 } : HeldByte))).reverse ++ o.held }

/-- Deliver the bytes of a read to the registers they are for, and to the stores that wait for them. -/
def State.deliverTo (s : State) (x : Xact) (vals : List Byte) : State :=
  match x.dst with
  | none => s
  | some f => s.setObs x.obs (((s.getObs x.obs).putBytes f x.id x.bs vals).holdBytes x.instr f
      ((x.bs.zip vals).filter (fun p => s.isAwaited x f p.1)))

/-! ### Where a write goes -/

/-- The cache a Normal write stops in: one of the writer's path, at a level where the record is Write-Back
(20_memory.md R57). -/
def State.holdUnit (s : State) (x : Xact) : Option CacheUnit :=
  match x.hold with
  | none => none
  | some u => (infoOf s.platform x.obs).path.find? (fun c => c.id == u && x.attr.cacheAt c.tag == .wb)

/-- A cache whose copy a write makes stale for someone who must see it: on the path of the writer or of such
an observer. -/
def staleUnit (p : Platform) (a : MemAttr) (w : Nat) (unit : Nat) : Bool :=
  (infoOf p w).path.any (fun c => c.id == unit) ||
  p.observers.any (fun i => mustSee p a w i.id && i.path.any (fun c => c.id == unit))

/-- The dirty copies of a write that stops in a cache, one for each location. -/
def dirtyLines (u : Nat) (x : Xact) : List Line :=
  (x.bs.map ByteAcc.pa).eraseDups.filterMap (fun pa => (lastVal x.bs pa).map (fun v =>
    { unit := some u, pa := pa, val := v, dirty := true, writer := x.obs, attr := x.attr }))

/-- Someone must see the write that left this copy who need not see the new write: the copy must not be lost
(20_memory.md R70, R71, R82, R83). -/
def stillNeeded (p : Platform) (x : Xact) (l : Line) : Bool :=
  (l.writer :: p.observers.map ObserverInfo.id).any (fun i => mustSee p l.attr l.writer i && !mustSee p x.attr x.obs i)

/-- What a write that reaches the endpoint leaves of a copy of one of its locations: a copy that is not stale stays in its
cache, and is older than the endpoint. -/
def Line.afterThrough (p : Platform) (x : Xact) (l : Line) : Option Line :=
  match l.unit with
  | none => none
  | some u => if staleUnit p x.attr x.obs u then none else some { l with dirty := false }

/-- What a write that stops in a cache leaves of a copy of one of its locations: a stale copy leaves its cache, on its way to
the endpoint where it is dirty and someone still needs it. -/
def Line.afterHeld (p : Platform) (x : Xact) (l : Line) : Option Line :=
  match l.unit with
  | none => if stillNeeded p x l then some l else none
  | some u =>
    if staleUnit p x.attr x.obs u then (if l.dirty && stillNeeded p x l then some { l with unit := none } else none) else some l

/-- The copies a write leaves, by what it leaves of each copy of its own locations. -/
def State.keptLines (s : State) (x : Xact) (keep : Line → Option Line) : List Line :=
  s.lines.filterMap (fun l => if x.bs.any (fun b => b.pa == l.pa) then keep l else some l)

/-- The reservation of an observer takes a write into account: at one of its bytes, by that byte's record (20_memory.md R75,
R78; 22_access_restrictions.md R192). -/
def Reservation.takesAccount (p : Platform) (r : Reservation) (w : Xact) (o : Nat) : Bool :=
  r.bytes.any (fun q => w.bs.any (fun b => b.pa == q.1) && exclTakesAccount p q.2 w.obs o)

/-- The reservations of other observers that take a write into account are lost, and stay so until a Load-Exclusive or a
Store-Exclusive (20_memory.md R75, R78; log 28). -/
def State.clearReservations (s : State) (x : Xact) : State :=
  { s with obs := s.obs.map (fun e =>
      match e.2.excl with
      | some r =>
        if e.1 != x.obs && r.takesAccount s.platform x e.1 then
          (e.1, { e.2 with excl := some { r with lost := true } })
        else e
      | none => e) }

/-- The effect of a write when it completes: at the endpoint, or, Write-Back, in a cache; copies that must
not be read again are dropped (20_memory.md R56, R57, R70 to R73, R82, R83; 21_device_memory.md R130, R131). Every observer that
must see it sees it from this moment on; some may have seen it before (`State.finds`, log 65). -/
def State.commit (s : State) (x : Xact) : State :=
  let s := s.clearReservations x
  if x.attr.isDevice then { s with mem := Memory.writeBytes s.mem x.bs }
  else
    match s.holdUnit x with
    | some u => { s with lines := dirtyLines u.id x ++ s.keptLines x (Line.afterHeld s.platform x) }
    | none => { s with lines := s.keptLines x (Line.afterThrough s.platform x), mem := Memory.writeBytes s.mem x.bs }

/-- The dirty bytes selected for a write back, the oldest first. -/
def State.dirtyOf (s : State) (sel : Line → Bool) : List Line := (s.lines.filter (fun l => l.dirty && sel l)).reverse

/-- The write back of one dirty byte (00_scope.md R8); that it is an access of the byte's writer is the model's (DESIGN
CHOICE, log 55). -/
def Line.writeback (l : Line) : Access :=
  { kind := .writeback, obs := some l.writer, dir := .write, bytes := [l.pa], attr := some l.attr }

/-- A copy older than what the endpoint has received: clean in its cache, and no copy outside one. -/
def Line.cleaned (l : Line) : List Line := if l.unit.isNone then [] else [{ l with dirty := false }]

/-- The copies after a write back of the selected dirty ones, of which those at `newer` were met already: they leave their
caches (DESIGN CHOICE, log 35), and each older dirty copy of their locations is older than the endpoint. -/
def linesAfter (sel : Line → Bool) : List Nat → List Line → List Line
  | _, [] => []
  | newer, l :: t =>
    if !l.dirty then l :: linesAfter sel newer t
    else if sel l then linesAfter sel (l.pa :: newer) t
    else if newer.contains l.pa then l.cleaned ++ linesAfter sel newer t
    else l :: linesAfter sel newer t

/-- Write the selected dirty bytes back to the endpoint, as one transaction (21_device_memory.md R143) of the bytes of this one
input or maintenance instruction, never with other write backs or writes in flight (DESIGN CHOICE, log 66); an older dirty copy
of such a byte will not overwrite it there (log 35). -/
def State.writebackToMem (s : State) (sel : Line → Bool) : State :=
  match s.dirtyOf sel with
  | [] => s
  | l :: ls =>
    ({ s with
        mem := Memory.writeBytes s.mem ((l :: ls).map (fun (m : Line) => { pa := m.pa, reg := 0, lane := 0, val := m.val }))
        lines := linesAfter sel [] s.lines }).logArrival
      (arrivalOf s.platform .write ((l :: ls).map Line.pa) [] ((l :: ls).map Line.writeback))

/-- What a cache that takes in the selected dirty copies of `ls` leaves of a copy: its clean copies make room. -/
def Line.besides (sel : Line → Bool) (u : Nat) (ls : List Line) (l : Line) : Bool :=
  (l.dirty && sel l) || !(l.unit == some u && ls.any (fun m => m.dirty && sel m && m.pa == l.pa))

/-- A selected dirty copy goes to a cache. -/
def Line.moveTo (sel : Line → Bool) (u : Nat) (l : Line) : Line := if l.dirty && sel l then { l with unit := some u } else l

/-- Write the selected dirty bytes back to another cache, which holds them from then on; no transaction reaches an endpoint,
and no access is logged (DESIGN CHOICE, log 55). -/
def State.writebackToUnit (s : State) (sel : Line → Bool) (u : Nat) : State :=
  { s with lines := (s.lines.filter (Line.besides sel u s.lines)).map (Line.moveTo sel u) }

/-- A dirty byte may go to a cache: the cache is on its writer's path, at a level where its record is Write-Back, holds no
other dirty copy of the location, and no one whose accesses pass the cache must see a newer copy. -/
def State.mayMove (s : State) (u : Nat) (l : Line) (newer : List Line) : Bool :=
  (infoOf s.platform l.writer).path.any (fun c => c.id == u && l.attr.cacheAt c.tag == .wb) &&
  !s.lines.any (fun m => m.dirty && m.pa == l.pa && m.unit == some u) &&
  (s.platform.observers.map ObserverInfo.id).all (fun i => !(infoOf s.platform i).path.any (fun c => c.id == u) ||
    !newer.any (fun m => m.dirty && m.pa == l.pa && mustSee s.platform m.attr m.writer i))

/-- Every selected dirty byte may go to a cache, and no two are of one location; `newer` are the copies before these. -/
def State.allMove (s : State) (sel : Line → Bool) (u : Nat) (newer : List Line) : List Line → Bool
  | [] => true
  | l :: t =>
    (if l.dirty && sel l then s.mayMove u l newer && !newer.any (fun m => m.dirty && sel m && m.pa == l.pa) else true) &&
    s.allMove sel u (newer ++ [l]) t

/-- The cache of an observer's path a copy of a location with this record may be allocated in: at a level where
it is Cacheable (20_memory.md R79, R86; 21_device_memory.md R130). -/
def allocUnit (p : Platform) (o unit : Nat) (a : MemAttr) : Option CacheUnit :=
  (infoOf p o).path.find? (fun c => c.id == unit && a.cacheAt c.tag != .nc)

/-- A cache may take this value of a location in: every observer whose accesses pass the cache reads it already, so that no
one is given an older value than the one it must see (20_memory.md R70, R71, R82, R83; log 35). -/
def State.mayFill (s : State) (unit : Nat) (a : MemAttr) (pa : Nat) (v : Byte) : Bool :=
  s.platform.observers.all (fun i =>
    !(infoOf s.platform i.id).path.any (fun c => c.id == unit) || s.valueFor i.id a pa == v)

/-- Allocate a copy of one location (20_memory.md R55): only of idempotent Normal memory that is not accessed
with a mismatched record, and only where the cache holds none; `late` the read has its value, and the cache will have it by a
fill after it (10_state.md R36). -/
def State.allocate (s : State) (o unit : Nat) (late : Bool) (a : MemAttr) (pa : Nat) : State :=
  match allocUnit s.platform o unit a with
  | none => s
  | some u =>
    if a.isNormal && (regionAt s.platform pa).idempotent && !s.touched.any (fun t => t.1 == pa && t.2.mismatched a) &&
        !s.lines.any (fun l => l.unit == some u.id && l.pa == pa) && s.mayFill u.id a pa (s.valueFor o a pa) then
      { s with lines := s.lines ++
          [{ unit := some u.id, pa := pa, val := s.valueFor o a pa, dirty := false, writer := o, attr := a, pending := late }] }
    else s

/-! ### Gathering -/

/-- Two accesses of one instruction whose sizes the memory system need not see (21_device_memory.md R171, R173), or of which
one is a read of bytes beyond the explicit ones (R116 to R121). -/
def Xact.oneMulti (a b : Xact) : Bool :=
  a.instr == b.instr && ((a.multi && b.multi) || (a.dir == .read && (a.extra || b.extra))) &&
  !(a.dir == .write && a.overlaps b)

/-- Two writes to the same locations, all of them: two that share some do not merge so (DESIGN CHOICE on "the same location" of
21_device_memory.md R132, log 53). -/
def Xact.sameWrite (a b : Xact) : Bool :=
  a.dir == .write && a.bs.all (fun x => b.bs.any (fun y => y.pa == x.pa)) && b.bs.all (fun x => a.bs.any (fun y => y.pa == x.pa))

/-- Two accesses may travel as one transaction (20_memory.md R58, R62; 21_device_memory.md R132, R142 to R148,
R171, R173). Accesses of Memory Copy and Memory Set instructions always may (R148, D32), two Normal writes to one location under
any ordered-before, too (DESIGN CHOICE between R148 and 20_memory.md R58, log 41). Two Device writes to one location
may where one of them is Gathering, by the formula of R132 (DESIGN CHOICE against R145, log 53). An access to Normal memory and one
to Device memory never do (DESIGN CHOICE, log 66). -/
def State.mayGather (s : State) (a b : Xact) : Bool :=
  a.dir == b.dir &&
  ((a.cls.isMops && b.cls.isMops) ||
   (!s.bob a b && !s.bob b a &&
    (match a.dt, b.dt with
     | none, none => true
     | some d, some e => (d.gathering && e.gathering) || a.oneMulti b || ((d.gathering || e.gathering) && a.sameWrite b)
     | _, _ => false) &&
    !(a.dir == .write && a.overlaps b && (s.ob a b || s.ob b a))))

/-- Every two of a group may be gathered. -/
def State.allGather (s : State) : List Xact → Bool
  | [] => true
  | a :: t => t.all (fun b => s.mayGather a b) && s.allGather t

/-! ### Performing accesses -/

/-- The effect of one performance of an access on memory and registers. -/
def State.perform (s : State) (x : Xact) : State :=
  match x.dir with
  | .read => s.deliverTo x (s.readVals x)
  | .write => s.commit (s.filled x)

/-- A performance of this access is seen at an endpoint: any access to Device memory (21_device_memory.md
R130, R149), and a write to Normal memory that does not stop in a cache. -/
def State.reachesEndpoint (s : State) (x : Xact) : Bool :=
  x.attr.isDevice || (x.dir == .write && (s.holdUnit x).isNone)

/-- The bytes an access touches at the endpoint. -/
def Xact.touchedBytes (x : Xact) : List Nat := x.bs.map ByteAcc.pa

/-- The acknowledgement the endpoint gives a Device write that no earlier point acknowledged, at its arrival
(21_device_memory.md R165; where R166 lets any point give it, DESIGN CHOICE, log 54). -/
def State.endpointAck (s : State) (x : Xact) : State :=
  if x.dir == .write && x.attr.isDevice && !s.acks.any (fun a => a.x.id == x.id) then
    { s with acks := s.acks ++ [{ x := x, byEndpoint := true }] }
  else s

/-- An access that is done leaves the accesses in flight. -/
def State.retire (s : State) (x : Xact) : State :=
  { s with inflight := s.inflight.filter (fun y => y.id != x.id) }

/-- Log one transaction of a group of accesses, if any of them is seen at an endpoint. -/
def State.logGroup (s : State) (xs : List Xact) : State :=
  match xs.filter s.reachesEndpoint with
  | [] => s
  | y :: ys => s.logArrival (arrivalOf s.platform y.dir ((y :: ys).flatMap Xact.touchedBytes) (y :: ys) [])

/-- The peripherals react to the transaction of a group of accesses (21_device_memory.md R110). -/
def State.reactGroup (s : State) (xs : List Xact) : State :=
  match xs.filter s.reachesEndpoint with
  | [] => s
  | y :: ys => s.react y.dir ((y :: ys).flatMap Xact.touchedBytes)

/-- An access was performed: it is acknowledged and leaves, unless it is among those to be performed again. Of a write performed several
times the endpoint acknowledges the last arrival alone (DESIGN CHOICE, log 54). -/
def State.finish (again : List Nat) (s : State) (x : Xact) : State :=
  if again.contains x.id && x.repeatable then s else (s.endpointAck x).retire x

/-- Perform a group of accesses as one transaction; of two writes to one location the one issued later gives the value
(DESIGN CHOICE between observers, log 53). A peripheral's transition comes after the values are read and written. -/
def State.transact (s : State) (xs : List Xact) (again : List Nat) : State :=
  xs.foldl (State.finish again) ((xs.foldl State.perform (s.logGroup xs)).reactGroup xs)

/-- Perform one access: a read of a Gathering location may be answered from a buffered write, and then no
transaction reaches the endpoint (21_device_memory.md R150). -/
def State.performOne (s : State) (x : Xact) (again : List Nat) : State :=
  match s.forwardSource x with
  | some w => (s.deliverTo x (forwardedVals w x)).retire x
  | none => s.transact [x] again

/-- Is the access with this number in flight? -/
def State.findXact (s : State) (id : Nat) : Option Xact := s.inflight.find? (fun x => x.id == id)

/-- The accesses in flight that are performed before one of a group, and before each other. -/
def State.required (s : State) (xs : List Xact) : List Xact :=
  (s.inflight.filter (fun y => !xs.any (fun x => x.id == y.id))).foldr
    (fun y acc => if (acc ++ xs).any (fun z => s.waitsFor z y) then y :: acc else acc) []

/-- Perform the access with this number, after everything that must precede it. -/
def State.force (s : State) (id : Nat) (again : List Nat) : State :=
  match s.findXact id with
  | none => s
  | some x =>
    match s.forwardSource x with
    | some w => (s.deliverTo x (forwardedVals w x)).retire x
    | none => ((s.required [x]).foldl (fun s y => s.performOne y []) s).performOne x again

/-- Perform accesses, in this order. -/
def State.forceAll (s : State) (ids : List Nat) : State := ids.foldl (fun s id => s.force id []) s

/-- The accesses in flight with these numbers, in program order. -/
def State.select (s : State) (ids : List Nat) : List Xact := s.inflight.filter (fun x => ids.contains x.id)

/-- The numbers among `again` of which no access must precede one of a group: only these may stay in flight to be performed
again (DEDUCED from 21_device_memory.md R154: an access leaves the accesses in flight before what it must precede arrives;
log 60). -/
def State.recurring (s : State) (xs : List Xact) (again : List Nat) : List Nat :=
  again.filter (fun id => xs.all (fun x => x.id != id || xs.all (fun y => !s.waitsFor y x)))

/-- Perform the accesses with these numbers, after everything that must precede them: as one transaction where they may be
gathered, else one after the other. -/
def State.forceGroup (s : State) (ids again : List Nat) : State :=
  match s.select ids with
  | [] => s
  | [x] => s.force x.id again
  | xs =>
    if s.allGather xs && (s.required xs).all (fun y => xs.all (fun x => decide (y.id < x.id))) then
      ((s.required xs).foldl (fun s y => s.performOne y []) s).transact xs (s.recurring xs again)
    else s.forceAll ids

/-- A read delivers a byte to one of these registers; one of general-purpose register number 31 delivers to none (log 2). -/
def Observer.awaits (o : Observer) (x : Xact) (regs : List (RegFile × RegNum)) : Bool :=
  match x.dst with
  | some f => x.bs.any (fun b => regs.contains (f, b.reg) && (f, b.reg) != (.gp, 31) && o.takes f b.reg x.id)
  | none => false

/-- Perform the reads in flight that deliver to one of these registers of an observer: an instruction whose addresses come from
a register finds there what the program put there (DEDUCED from 21_device_memory.md R115, log 61). -/
def State.settle (s : State) (o : Nat) (regs : List (RegFile × RegNum)) : State :=
  s.forceAll ((s.inflight.filter (fun x => x.obs == o && x.dir == .read && (s.getObs o).awaits x regs)).map Xact.id)

/-- Time passes: an access whose bound is reached is performed (20_memory.md R56, R57; 21_device_memory.md R127,
R131; D15), every other bound comes nearer. -/
def State.tick (s : State) : State :=
  let s := s.forceAll ((s.inflight.filter (fun x => x.fuel == 0)).map Xact.id)
  { s with clock := s.clock + 1, inflight := s.inflight.map (fun x => { x with fuel := x.fuel - 1 }) }

end Sys2Proof.Machine
end

