-- ==== Sys2Proof/Machine/Flags.lean ====
section
/-! DEFINITION. The only status the spec names is the FFR (10_state.md R33, R34): reporting a suppressed
element in it. There are no condition flags (R33, N12). -/

namespace Sys2Proof.Machine

open Sys2Proof

/-- Report element `i`: its bit and every higher one become 0 (PRESUMED polarity GK6, log 4). -/
def ffrReport (f : FFR) (i : Nat) : FFR := f &&& ((1#256 <<< i) - 1#256)

/-- Report the elements of a First-fault or Non-fault load that were suppressed (21_device_memory.md R179,
R181). -/
def Observer.reportAll (o : Observer) (is : List Nat) : Observer := { o with ffr := is.foldl ffrReport o.ffr }

end Sys2Proof.Machine
end

