-- ==== Sys2Proof/Machine/Operands.lean ====
section
/-! DEFINITION. Operand forms: from a footprint to the bytes accessed with their records, the windows of
bytes a read may touch, which instructions are refused or take an exception, and the accesses an instruction
makes. -/

namespace Sys2Proof.Machine

open Sys2Proof

/-! ### Effective addresses (30_encoding.md R204, GK14; log 40) -/

/-- The 64-bit address a base register and a signed offset name. -/
def pairAddr (base : Word) (imm7 : BitVec 7) (size : Nat) : Word := base + (imm7.signExtend 64) * BitVec.ofNat 64 size

/-- The address of LDRAA and LDRAB: the base and the 10-bit signed offset scaled by 8. -/
def authAddr (base : Word) (s : BitVec 1) (imm9 : BitVec 9) : Word := base + ((s ++ imm9).signExtend 64) * 8#64

/-- The two parts of a pair load; where they name one register, the part whose access is performed last gives its bytes
(DESIGN CHOICE, log 40). -/
def pairElems (addr : Word) (size : Nat) (rt rt2 : RegNum) : List Elem :=
  [{ addr := addr.toNat, size := size, reg := rt, lane := 0, active := true },
   { addr := (addr + BitVec.ofNat 64 size).toNat, size := size, reg := rt2, lane := 0, active := true }]

/-! ### Footprints -/

/-- One byte of a footprint: its virtual address, its translation, the register and the byte of it that it is transferred
with, and the value to write. -/
structure RByte where
  va : Nat
  tr : Tr
  reg : RegNum
  lane : Nat
  val : Byte
deriving DecidableEq, Repr

/-- One footprint part with its bytes. -/
structure RElem where
  e : Elem
  bs : List RByte
deriving DecidableEq, Repr

/-- The register byte the k-th byte of memory of a part is transferred with (D4, log 17). -/
def laneOf (p : Platform) (e : Elem) (k : Nat) : Nat :=
  e.lane + (if p.bigEndian then e.size - 1 - k else k)

/-- The bytes of a part, or the address that no translation maps. Byte `k` is `k` after the part's address, also past 2^64
(DESIGN CHOICE, log 40). -/
def resolveBytes (p : Platform) (c : PeCtl) (e : Elem) (val : Nat → Byte) : List Nat → Except Nat (List RByte)
  | [] => .ok []
  | k :: ks =>
    match dataTr p c (e.addr + k) with
    | none => .error (e.addr + k)
    | some t =>
      match resolveBytes p c e val ks with
      | .error a => .error a
      | .ok bs => .ok ({ va := e.addr + k, tr := t, reg := e.reg, lane := laneOf p e k, val := val k } :: bs)

/-- The bytes of the parts of a footprint; for a store the values come from the register file. -/
def resolve (p : Platform) (o : Observer) (f : RegFile) : List Elem → Except Nat (List RElem)
  | [] => .ok []
  | e :: es =>
    match resolveBytes p o.ctl e (fun k => o.regByte f e.reg (laneOf p e k)) (List.range e.size) with
    | .error a => .error a
    | .ok bs =>
      match resolve p o f es with
      | .error a => .error a
      | .ok rs => .ok ({ e := e, bs := bs } :: rs)

/-- All bytes of the parts. -/
def allBytes (rs : List RElem) : List RByte := rs.flatMap RElem.bs

/-- The locations of some parts. -/
def pasOf (rs : List RElem) : List Nat := (allBytes rs).map (fun b => b.tr.pa)

/-- Some byte of the part carries a Device record. -/
def RElem.hasDevice (r : RElem) : Bool := r.bs.any (fun b => b.tr.attr.isDevice)

/-- The virtual address is not a multiple of the size (GK8, D30; that it is the virtual one: DESIGN CHOICE, log 19). -/
def unalignedElem (e : Elem) : Bool := e.addr % e.size != 0

/-- `classify`: the part is one single-copy atomic access (N2, log 19). -/
def isAtomic (p : Platform) (c : AccessClass) (e : Elem) : Bool :=
  p.atomicSizes.contains (c, e.size) && !unalignedElem e

/-- The parts lie next to each other in memory, in this order. -/
def adjacentParts : List Elem → Bool
  | e :: f :: t => f.addr == e.addr + e.size && adjacentParts (f :: t)
  | _ => true

/-- `classify`: the several parts are one single-copy atomic access together (N2, log 19). A copy reads and writes, and an
unaligned access is a sequence (20_memory.md R59). -/
def isWhole (p : Platform) (c : AccessClass) (es : List Elem) : Bool :=
  c != .memCopy && adjacentParts es && !es.any unalignedElem &&
  p.atomicWholes.any (fun w => w.cls == c && w.sizes == es.map Elem.size && es.head?.any (fun e => e.addr % w.align == 0))

/-- The instruction makes a sequence of accesses, not one single-copy atomic access (20_memory.md R61). -/
def isSequence (p : Platform) (c : AccessClass) (es : List Elem) : Bool :=
  match es with
  | [] => false
  | [e] => !isAtomic p c e
  | es => !isWhole p c es

/-! ### Windows (00_scope.md R7; 21_device_memory.md R116 to R124) -/

/-- Membership in `Windows(S, n)`: the byte's aligned n-byte window holds a byte of S. -/
def inWindows (S : List Nat) (n b : Nat) : Bool := S.any (fun c => c / n == b / n)

/-- Membership in `PermittedDeviceReadBytes cls dt X A F S` (21_device_memory.md R124). -/
def permittedDeviceRead (cls : AccessClass) (dt : DeviceType) (X A F S : List Nat) (b : Nat) : Bool :=
  match cls with
  | .gpLoad | .gpMultiLoad | .loadExclusive | .loadAcquire | .ldrax => X.contains b
  | .ldnpGp => if dt.gathering then inWindows X 128 b else X.contains b
  | .simdFpLoad => inWindows X 16 b
  | .ldnpSimdFp => if dt.gathering then inWindows X 128 b else inWindows X 16 b
  | .sveUnpredLoad => inWindows X 64 b
  | .svePredLoad => inWindows A 64 b
  | .svePredNTLoad => inWindows A 128 b
  | .sveFirstFault => inWindows F 64 b
  | .sveNonFault | .svePrefetch => false
  | .memCopy => X.contains b || inWindows S 64 b
  | .gpStore | .gpMultiStore | .simdFpStore | .sveStore | .storeExclusive | .storeRelease | .memSet => false
  | .cacheMaint | .barrierDMB | .barrierDSB | .fetch | .walk => false

/-! ### Effective Device types -/

/-- The instruction's accesses to Device memory might behave as if Gathering, Reordering and Early Write
Acknowledgement (21_device_memory.md R182, R184). -/
def relaxable (p : Platform) (c : PeCtl) (cls : AccessClass) : Bool :=
  cls.isSVE || (cls.isSimdFp && p.haveSME && c.streamingSve && !(p.featSmeFA64 && c.fa64Enabled))

/-- The type whose G, R and E rules an access follows: GRE where relaxed, else what the implementation
treats the configured type as (R114, R182, R184). -/
def effType (p : Platform) (c : PeCtl) (pl : Plan) (cls : AccessClass) (d : DeviceType) : DeviceType :=
  if relaxable p c cls && pl.relaxed then .GRE else implDevice p d

/-- The type the windows of R124 ask about: the configured one, or GRE where relaxed (log 37). -/
def windowType (p : Platform) (c : PeCtl) (pl : Plan) (cls : AccessClass) (d : DeviceType) : DeviceType :=
  if relaxable p c cls && pl.relaxed then .GRE else d

/-! ### Refusals and exceptions of an access -/

/-- What the checks before an access find. -/
inductive Verdict where
  | refuse (q : Refusal)
  | take (r : Raise)
  | go
deriving DecidableEq, Repr

/-- Two adjacent bytes of one direction disagree in type or Shareability (22_access_restrictions.md R190). -/
def crossesAttributes (bs : List RByte) : Bool :=
  bs.any (fun a => bs.any (fun b => b.tr.pa == a.tr.pa + 1 && !a.tr.attr.sameTypeAndShareability b.tr.attr))

/-- More than one access, all to Device memory, in more than one smallest granule (22_access_restrictions.md
R194); the pieces one single-copy atomic access is cut into do not count as more than one (DESIGN CHOICE, log 24). -/
def crossesGranule (p : Platform) (sequence : Bool) (bs : List RByte) : Bool :=
  sequence && bs.all (fun b => b.tr.attr.isDevice) &&
  bs.any (fun a => bs.any (fun b => a.tr.pa / p.minGranule != b.tr.pa / p.minGranule))

/-- A byte was accessed before, or is in the same instruction, with a mismatched record (20_memory.md R81). -/
def mismatchedBytes (touched : List (Nat × MemAttr)) (bs : List RByte) : Bool :=
  bs.any (fun b => touched.any (fun t => t.1 == b.tr.pa && t.2.mismatched b.tr.attr) ||
    bs.any (fun c => c.tr.pa == b.tr.pa && c.tr.attr.mismatched b.tr.attr))

/-- A Normal record on a location that is not idempotent (20_memory.md R63). -/
def nonIdempotent (p : Platform) (bs : List RByte) : Bool :=
  bs.any (fun b => b.tr.attr.isNormal && !(regionAt p b.tr.pa).idempotent)

/-- An unaligned part in Normal memory (20_memory.md R59). -/
def unalignedNormal (rs : List RElem) : Bool :=
  rs.any (fun r => unalignedElem r.e && r.bs.any (fun b => b.tr.attr.isNormal))

/-- An unaligned access to this byte faults: it is Device memory, and the location cannot, or the implementation does
not, support it (21_device_memory.md R134, R135). -/
def faultsUnaligned (p : Platform) (b : RByte) : Bool :=
  b.tr.attr.isDevice && (!(regionAt p b.tr.pa).supportsUnaligned || p.deviceUnalignedFault)

/-- The stage of the Alignment fault of an unaligned part: the stage that defined as Device the first byte that faults
(21_device_memory.md R134, R135, R137; 60_exceptions.md R240). First of the bytes of the first faulting part, in the order of the
footprint: R134 speaks of one location (DESIGN CHOICE, log 67). -/
def alignmentFault (p : Platform) (rs : List RElem) : Option Stage :=
  (rs.find? (fun r => unalignedElem r.e && r.bs.any (faultsUnaligned p))).bind
    (fun r => (r.bs.find? (faultsUnaligned p)).map (fun b => b.tr.stage))

/-- The walk for this byte faults (21_device_memory.md R140). -/
def RByte.faults (p : Platform) (c : PeCtl) (b : RByte) : Bool := b.tr.walk.any (walkFaults p c)

/-- What of a part can be accessed before the exception of a sequence: nothing of one that is unaligned and faults, or is one
single-copy atomic access whose walk faults; else the bytes whose walks do not fault (60_exceptions.md R244, log 57). -/
def RElem.spared (p : Platform) (c : PeCtl) (cls : AccessClass) (r : RElem) : RElem :=
  { r with bs :=
      if (unalignedElem r.e && r.bs.any (faultsUnaligned p)) || (isAtomic p cls r.e && r.bs.any (RByte.faults p c)) then []
      else r.bs.filter (fun b => !b.faults p c) }

/-- The table locations the walks for these bytes read. -/
def walksOf (bs : List RByte) : List WalkRef := (bs.map (fun b => b.tr.walk)).eraseDups.flatten

/-- The bytes the walks read, with the records of the walks. -/
def walkBytes (p : Platform) (c : PeCtl) (ws : List WalkRef) : List RByte :=
  (madeWalks p c ws).flatMap (fun w => w.bytes.map (fun pa =>
    { va := pa, tr := { pa := pa, attr := walkAttr p c w, stage := .s2, xn := [], walk := [] }, reg := 0, lane := 0, val := 0 }))

/-- The bytes of Device memory an instruction reads beyond the explicit ones `rd` (ExtraRead of 00_scope.md R8): those the
plan names that lie in the windows of its class (21_device_memory.md R116 to R124), each with its own record; `F` are the
bytes of the First active element. A copy may read bytes of its source range so, too (R120). A byte that the plan names twice
is read twice, and bytes of NORMAL memory beyond the explicit ones are read by inputs alone, as speculative reads
(20_memory.md R55), not as extra reads of the instruction (DESIGN CHOICES, log 56). -/
def State.extraBytes (s : State) (cls : AccessClass) (rd : List RElem) (F : List Nat) : List RByte :=
  let X := pasOf rd
  s.plan.extra.filterMap (fun va =>
    (dataTr s.platform s.me.ctl va).bind (fun t =>
      t.attr.deviceType.bind (fun d =>
        let b : RByte := { va := va, tr := t, reg := 0, lane := 0, val := 0 }
        if permittedDeviceRead cls (windowType s.platform s.me.ctl s.plan cls d) X X F X t.pa &&
            (cls == .memCopy || !X.contains t.pa) && !b.faults s.platform s.me.ctl then some b
        else none)))

/-- The walks of an instruction: for its explicit and its extra bytes. -/
def State.instrWalks (s : State) (cls : AccessClass) (rd wr : List RElem) (F : List Nat) : List WalkRef :=
  walksOf (allBytes rd ++ allBytes wr ++ s.extraBytes cls rd F)

/-- Every byte an instruction accesses, with its record: explicit, extra, and those of its walks. -/
def State.reached (s : State) (cls : AccessClass) (rd wr : List RElem) (F : List Nat) : List RByte :=
  allBytes rd ++ allBytes wr ++ s.extraBytes cls rd F ++ walkBytes s.platform s.me.ctl (s.instrWalks cls rd wr F)

/-- Why accesses with these records cannot be given a meaning: mismatched attributes (20_memory.md R81;
21_device_memory.md R158, R183), or a Normal record on a location that is not idempotent (20_memory.md R63). -/
def State.recordRefusal (s : State) (bs : List RByte) : Option Refusal :=
  if mismatchedBytes s.touched bs then some .mismatchedAttributes
  else if nonIdempotent s.platform bs then some .nonIdempotentNormal
  else none

/-- The checks before the accesses of one instruction: a refusal wins (22_access_restrictions.md R197;
60_exceptions.md R249), a walk that faults comes before the alignment check (R249). `rd` and `wr` are what it reads and
what it writes; each direction is checked for itself (R190), the granule for both (R194). A walk that faults comes first also
where it is for another access than the unaligned one (DESIGN CHOICE where R249 speaks of one access, log 22). The walk of an
element of a Non-fault or First-fault load that is accessed, not suppressed, faults as any other (DESIGN CHOICE, log 52). -/
def State.verdict (s : State) (cls : AccessClass) (rd wr : List RElem) (F : List Nat) : Verdict :=
  let p := s.platform
  let bs := allBytes rd ++ allBytes wr
  if crossesAttributes (allBytes rd) || crossesAttributes (allBytes wr) then .refuse .attributeBoundary
  else if crossesGranule p (isSequence p cls ((rd ++ wr).map RElem.e)) bs then .refuse .granuleBoundary
  else
    match s.recordRefusal (s.reached cls rd wr F) with
    | some q => .refuse q
    | none =>
      if !p.unalignedAccessEnabled && unalignedNormal (rd ++ wr) then .refuse .unalignedNormal
      else if bs.any (RByte.faults p s.me.ctl) then .take .permissionWalk
      else
        match alignmentFault p (rd ++ wr) with
        | some st => .take (.alignment st)
        | none => .go

/-! ### The accesses of an instruction -/

/-- Cut the bytes of a part into accesses: where the record changes in more than the hints (22_access_restrictions.md R192;
20_memory.md R85), and, where the sizes are free, at the addresses the plan says. The pieces of one single-copy atomic
access are performed as often as the access is: once each, but for several registers (DESIGN CHOICE, log 50). -/
def cutGroups (free : Bool) (cuts : List Nat) : List RByte → List (List RByte)
  | [] => []
  | b :: rest =>
    match cutGroups free cuts rest with
    | [] => [[b]]
    | [] :: gs => [b] :: gs
    | (c :: g) :: gs =>
      if !b.tr.attr.mismatched c.tr.attr && !(free && cuts.contains c.va) then (b :: c :: g) :: gs
      else [b] :: (c :: g) :: gs

/-- What an instruction asks of the memory system, in one direction. -/
structure Req where
  cls : AccessClass
  dir : Dir
  file : RegFile
  /-- it is a Store-Release (21_device_memory.md R150) -/
  release : Bool
  /-- every part of the instruction, accessed or not -/
  all : List Elem
  /-- the parts that are accessed -/
  parts : List Elem
  /-- those that are accessed, with their bytes -/
  rs : List RElem
  /-- the extra bytes -/
  ex : List RByte
deriving DecidableEq, Repr

/-- The request makes a sequence of accesses, not one single-copy atomic access. -/
def Req.isSeq (p : Platform) (r : Req) : Bool := isSequence p r.cls r.parts

/-- The instruction loads or stores more than one register (21_device_memory.md R174, R175): its parts name two, or are those
of a pair, also of one register twice (log 40). -/
def severalRegs (c : AccessClass) (es : List Elem) : Bool :=
  (c.partsAreRegisters && decide (1 < es.length)) || es.any (fun e => es.any (fun f => e.reg != f.reg))

/-- The accesses of the request may be performed more than once: those of a sequence (20_memory.md R61; 21_device_memory.md
R122), and those of an instruction on several registers, also where it is one single-copy atomic access (R174). -/
def Req.mayRepeat (p : Platform) (r : Req) : Bool := r.isSeq p || severalRegs r.cls r.all

/-- The request without what faults. -/
def Req.spared (p : Platform) (c : PeCtl) (r : Req) : Req :=
  { r with rs := r.rs.map (RElem.spared p c r.cls), ex := [] }

/-- The load in flight that a byte of a register comes from: the instruction and its register file (log 61). Number 31 of the
general-purpose file comes from none. -/
def State.sourceOf (s : State) (f : RegFile) (n : RegNum) (k : Nat) : Option (Nat × RegFile) :=
  if f = .copy ∨ (f = .gp ∧ n = 31) then none
  else
    (s.inflight.find? (fun x => x.obs == s.cur && x.dir == .read && x.dst == some f && s.me.takes f n x.id &&
      x.bs.any (fun b => b.reg == n && b.lane == k))).map (fun x => (x.instr, f))

/-- A byte of an access of the request. -/
def State.accByte (s : State) (r : Req) (b : RByte) : ByteAcc :=
  { pa := b.tr.pa, reg := b.reg, lane := b.lane, val := b.val
    src := if r.dir = .write then s.sourceOf r.file b.reg b.lane else none }

/-- The access of one group of bytes. A read's go to the register file, those of an extra one nowhere. An access of an
instruction on one register that is one single-copy atomic access is not repeated (20_memory.md R61; 21_device_memory.md R145,
R174). -/
def mkXact (s : State) (r : Req) (extra : Bool) (g : List RByte) (j : Nat) : Xact :=
  let attr := match g with
    | [] => { ty := .device .nGnRnE, xs := none }
    | b :: _ => b.tr.attr
  { id := s.nextId + j
    instr := s.nextInstr
    obs := s.cur
    cls := r.cls
    dir := r.dir
    bs := g.map (s.accByte r)
    extra := extra
    release := r.release
    attr := attr
    dt := attr.deviceType.map (effType s.platform s.me.ctl s.plan r.cls)
    dst := if r.dir = .read ∧ extra = false then some r.file else none
    repeatable := r.mayRepeat s.platform
    multi := (r.cls.isMulti || decide (1 < r.parts.length)) && r.isSeq s.platform
    fwd := s.plan.fwd.contains j
    hold := s.plan.hold
    fuel := s.plan.fuel.getD j 0 }

/-- The sizes of the accesses to these bytes are free: the instruction is no single-copy atomic access (20_memory.md R88;
21_device_memory.md R171, R173), or it transfers vector registers or several registers and the bytes are Normal memory
(20_memory.md R88, R90), or the location is Gathering (21_device_memory.md R146, R186). -/
def freeSizes (s : State) (r : Req) (bs : List RByte) : Bool :=
  r.isSeq s.platform ||
  ((r.cls.isMulti || decide (1 < r.parts.length)) && bs.all (fun b => b.tr.attr.isNormal)) ||
  bs.all (fun b =>
    match b.tr.attr.deviceType with
    | some d => (effType s.platform s.me.ctl s.plan r.cls d).gathering
    | none => false)

/-- What is accessed as one where nothing cuts it: each part of a sequence, or all the parts together. -/
def unitsOf (p : Platform) (r : Req) : List (List RByte) :=
  if r.isSeq p then r.rs.map RElem.bs else [allBytes r.rs]

/-- The bytes of a request cut into groups. -/
def groupsOf (s : State) (r : Req) : List (List RByte) :=
  (unitsOf s.platform r).flatMap (fun bs => cutGroups (freeSizes s r bs) s.plan.cuts bs)

/-- The groups of bytes of a request's accesses, in the order of the footprint, the extra bytes last: whether they are extra,
and the bytes. -/
def piecesOf (s : State) (r : Req) : List (Bool × List RByte) :=
  (groupsOf s r).map (fun g => (false, g)) ++ r.ex.map (fun b => (true, [b]))

/-- The accesses of a request, numbered from the k-th of the instruction. -/
def xactsFrom (s : State) (r : Req) (k : Nat) : List Xact :=
  ((piecesOf s r).zipIdx k).map (fun q => mkXact s r q.1.1 q.1.2 q.2)

/-- The accesses of a request, numbered. -/
def xactsOf (s : State) (r : Req) : List Xact := xactsFrom s r 0

end Sys2Proof.Machine
end

