-- ==== Sys2Proof/Machine/Access.lean ====
section
/-! DEFINITION. The shared operation behind every load and store: the checks, the accesses put in flight, the
ones the plan performs before the instruction ends, and an exception in the middle of a sequence. -/

namespace Sys2Proof.Machine

open Sys2Proof

/-- The outcomes of the machine. -/
abbrev Out := Host.Outcome State Fault Refusal

/-- The record of each location accessed is kept, hints erased (20_memory.md R81, D2). -/
def State.touch (s : State) (bs : List RByte) : State := s.keepRecords (bs.map (fun b => (b.tr.pa, b.tr.attr)))

/-- Put the accesses of one instruction in flight. -/
def State.issue (s : State) (xs : List Xact) : State :=
  { s with inflight := s.inflight ++ xs, nextId := s.nextId + xs.length, nextInstr := s.nextInstr + 1 }

/-- The numbers of the accesses at these places of a list. -/
def idsAt (xs : List Xact) (ks : List Nat) : List Nat := ks.filterMap (fun k => xs[k]?.map Xact.id)

/-- One performance the plan asks for. -/
def State.act (xs : List Xact) (s : State) (a : Act) : State :=
  s.forceGroup (idsAt xs a.ks) (idsAt xs a.again)

/-- The performances the plan asks for, then, if it says so, every access that is left. -/
def State.performPlan (s : State) (xs : List Xact) (acts : List Act) (rest : Bool) : State :=
  let s := acts.foldl (State.act xs) s
  if rest then s.forceAll (xs.map Xact.id) else s

/-- A read whose instruction an exception ends: it delivers to no register; a copy's keeps its bytes for the copy's writes. -/
def Xact.unheeded (x : Xact) : Xact := { x with dst := if x.dst = some .copy then x.dst else none }

/-- The accesses that an instruction had made before its exception and that are still in flight: those the plan names, and the
reads that feed one of them (20_memory.md R52; log 49). -/
def stillMade (p : Plan) (xs : List Xact) (y : Xact) : Bool :=
  (p.left.filterMap (fun k => xs[k]?)).any (fun x => x.id == y.id || (x.instr == y.instr && y.feeds x))

/-- An exception ends the instruction in the middle of its sequence: what was performed stays performed, what was made stays in
flight, and the other accesses are not made, so that it can run again from its start (20_memory.md R52; 60_exceptions.md R244;
log 49). One that was performed, to be performed again, and is not in the plan's `left` ends here: a write among them gets no
acknowledgement (DESIGN CHOICE, logs 49, 54). -/
def State.abandonSeq (s : State) (xs : List Xact) (cause : Raise) : State :=
  ({ s with inflight := s.inflight.filter (fun y => !xs.any (fun x => x.id == y.id) || stillMade s.plan xs y) } : State).takeException
    cause true

/-- The exception that ends a sequence before it is complete: one that abandons it, or the fault `e` of a part of it, where
accesses of other parts come first (60_exceptions.md R244; log 57). -/
def State.cutShort (s : State) (seq : Bool) (e : Option Raise) : Option Raise :=
  if !seq then none
  else if s.plan.abandon then some .abandoned
  else if s.plan.midway then e
  else none

/-- Make the accesses `xs`, of the bytes `bs`: all of them, with `pre`, what the instruction does beside them; or, with an
exception `stop`, those the plan names, and nothing beside them, since the instruction leaves the registers as before it (log
49). The accesses performed and the exception are one step: nothing of another observer, and no input, comes between them
(DESIGN CHOICE, log 49). -/
def State.runAccesses (s : State) (bs : List RByte) (xs : List Xact) (stop : Option Raise) (pre : State → State) : State :=
  match stop with
  | none => (((pre s).touch bs).issue xs).performPlan xs s.plan.acts s.plan.rest
  | some e =>
    let ys := xs.map Xact.unheeded
    (((s.touch bs).issue ys).performPlan ys s.plan.acts false).abandonSeq ys e

/-- Make the accesses of a request. -/
def State.runReq (s : State) (r : Req) (stop : Option Raise) (pre : State → State) : State :=
  s.runAccesses (allBytes r.rs ++ r.ex) (xactsOf s r) stop pre

/-- The registers of a footprint. -/
def regsOf (f : RegFile) (es : List Elem) : List (RegFile × RegNum) := es.map (fun e => (f, e.reg))

/-- The bytes of a loaded register that the footprint does not name are not stated by the spec: they become free
(R233; log 18). -/
def Observer.scramble (o : Observer) (f : RegFile) (n : RegNum) (v : VReg) : Observer :=
  match f with
  | .gp => o.setX n (v.setWidth 64)
  | .vec => o.setVec n v
  | .copy => o

/-- What the unnamed bytes of a register become. -/
def junkOf (p : Plan) (n : RegNum) : VReg := p.junk[n.toNat]'(n.isLt)

/-- The loaded registers before the bytes of accesses numbered from `id` on come in: free, and taken over from every earlier
load. -/
def Observer.prepare (o : Observer) (p : Plan) (f : RegFile) (id : Nat) (es : List Elem) : Observer :=
  es.foldl (fun o e => (o.scramble f e.reg (junkOf p e.reg)).claim f e.reg id) o

/-- Free the loaded registers before their bytes come in. -/
def State.scrambleAll (s : State) (f : RegFile) (es : List Elem) : State :=
  s.setMe (s.me.prepare s.plan f s.nextId es)

/-- The parts of a request that are read. -/
def readParts (d : Dir) (rs : List RElem) : List RElem :=
  match d with
  | .read => rs
  | .write => []

/-- The parts of a request that are written. -/
def writtenParts (d : Dir) (rs : List RElem) : List RElem :=
  match d with
  | .read => []
  | .write => rs

/-- The request of some parts in one direction, with the extra bytes its class and plan let it read; `F` are the bytes of
the First active element, `all` every part of the instruction. -/
def State.reqOf (s : State) (cls : AccessClass) (dir : Dir) (f : RegFile) (release : Bool) (all : List Elem) (rs : List RElem)
    (F : List Nat) : Req :=
  { cls := cls, dir := dir, file := f, release := release, all := all, parts := rs.map RElem.e, rs := rs,
    ex := if dir = .read then s.extraBytes cls rs F else [] }

/-- The current observer's instruction makes those of its walks that are due. -/
def State.walk (s : State) (ws : List WalkRef) : State :=
  s.walkReads s.cur s.me.ctl (s.dueWalks s.cur s.me.ctl s.plan.kept ws)

/-- The checks of a request, then its walks and its accesses, or its exception, before which no walk is made where no access is
(DESIGN CHOICE, log 27). -/
def State.request (s : State) (cls : AccessClass) (dir : Dir) (f : RegFile) (release : Bool) (all : List Elem) (rs : List RElem)
    (F : List Nat) (pre : State → State) : Out :=
  let r := s.reqOf cls dir f release all rs F
  match s.verdict cls (readParts dir rs) (writtenParts dir rs) F with
  | .refuse q => .refused q
  | .take e =>
    match s.cutShort (r.isSeq s.platform) (some e) with
    | some c =>
      let r' := r.spared s.platform s.me.ctl
      .next ((s.walk (walksOf (allBytes r'.rs))).runReq r' (some c) pre)
    | none => .next (s.takeException e false)
  | .go =>
    .next ((s.walk (s.instrWalks cls (readParts dir rs) (writtenParts dir rs) F)).runReq r
      (s.cutShort (r.isSeq s.platform) none) pre)

/-- One access request from footprint to outcome: `all` are the parts of the instruction, `es` those that are accessed. An address
without a translation stops it before any refusal or exception of its other bytes (DESIGN CHOICE, logs 22, 25). -/
def State.access (s : State) (cls : AccessClass) (dir : Dir) (f : RegFile) (release : Bool) (all es first : List Elem)
    (pre : List RElem → State → State) : Out :=
  match resolve s.platform s.me f es, resolve s.platform s.me f first with
  | .error va, _ => .fault (.noTranslation va)
  | _, .error va => .fault (.noTranslation va)
  | .ok rs, .ok fs => s.request cls dir f release all rs (pasOf fs) (pre rs)

/-- A load of the parts `es` into their registers; `all` are the parts of the instruction, loaded or not, whose
registers it writes. It waits for no earlier load of them (log 61). -/
def State.load (s : State) (cls : AccessClass) (f : RegFile) (all es first : List Elem)
    (pre : List RElem → State → State) : Out :=
  s.access cls .read f false all es first (fun rs t => (pre rs t).scrambleAll f all)

/-- A store of the parts `es` from their registers; `all` are the parts of the instruction, stored or not. It waits for no load
of them: its accesses do (log 61). -/
def State.store (s : State) (cls : AccessClass) (f : RegFile) (release : Bool) (all es : List Elem)
    (pre : List RElem → State → State) : Out :=
  s.access cls .write f release all es [] pre

/-- Nothing beside the accesses. -/
def noEffect (_ : List RElem) (s : State) : State := s

/-- A plain load: every part of the instruction. -/
def State.plainLoad (s : State) (cls : AccessClass) (f : RegFile) (es : List Elem) : Out := s.load cls f es es [] noEffect

/-- A plain store: every part of the instruction. -/
def State.plainStore (s : State) (cls : AccessClass) (f : RegFile) (es : List Elem) : Out := s.store cls f false es es noEffect

/-- An instruction of a feature that is not implemented does not exist (D22). -/
def requireFeature (present : Bool) (f : Feature) (o : Out) : Out := if present then o else .refused (.featureAbsent f)

/-- A mark in the current observer's program order (20_memory.md R84; 21_device_memory.md R133, R150). -/
def State.addMark (s : State) (k : MarkKind) (option : Nat) : State :=
  s.setMe { s.me with marks := s.me.marks ++ [{ kind := k, option := option, at_ := s.nextId }] }

end Sys2Proof.Machine
end

