-- ==== Sys2Proof/Machine/Auth.lean ====
section
/-! DEFINITION. LDRAA and LDRAB (40_access_classes.md R227; 21_device_memory.md R123). -/

namespace Sys2Proof.Machine

open Sys2Proof

/-- The footprint of an authenticated load: 8 bytes. -/
def authElem (addr : Word) (rt : RegNum) : Elem := { addr := addr.toNat, size := 8, reg := rt, lane := 0, active := true }

/-- The one read a failed check may cause: of Device memory, and only if the access would otherwise be allowed
(21_device_memory.md R123). It is made at most once, at once or after the instruction, and delivers nothing (GK9). -/
def State.failedRead (s : State) (r : Req) : State :=
  match s.plan.authRead, groupsOf s r with
  | true, [g] =>
    let x := { mkXact s r false g 0 with repeatable := false, dst := none }
    if x.attr.isDevice then
      let t := ((s.walk (walksOf (allBytes r.rs))).touch (allBytes r.rs)).issue [x]
      if s.plan.rest then t.force x.id [] else t
    else s
  | _, _ => s

/-- What the instruction leaves when the check fails: an exception the source does not name, or a free value in
the register (R227, log 31). -/
def State.authFail (s : State) (rt : RegNum) : State :=
  if s.plan.authRaise then s.takeException .authFailure false
  else s.setMe (s.me.overwriteX rt s.plan.freeVal s.nextId)

/-- The base register receives the address where W says so, before the loaded register is written (R204; DESIGN CHOICE where
they are one register, log 31). -/
def State.writeBack (s : State) (w : BitVec 1) (rn : RegNum) (addr : Word) : State :=
  if w = 1 then s.setMe (s.me.setBase rn addr) else s

/-- LDRAA and LDRAB: the check passes and the instruction is a load (with the address written back where W says),
or it fails. A failed check wins over every refusal, exception and missing translation of the address (DESIGN CHOICE where
60_exceptions.md R249 leaves it open, logs 22, 31). -/
def State.loadAuth (s : State) (sbit : BitVec 1) (imm9 : BitVec 9) (w : BitVec 1) (rn rt : RegNum) : Out :=
  let s := s.settle s.cur [(.gp, rn)]
  let addr := authAddr (s.me.base rn) sbit imm9
  match resolve s.platform s.me .gp [authElem addr rt] with
  | .error va => if s.plan.authOk then .fault (.noTranslation va) else .next (s.authFail rt)
  | .ok rs =>
    if s.plan.authOk then
      s.request .ldrax .read .gp false [authElem addr rt] rs [] (fun t => (t.writeBack w rn addr).scrambleAll .gp [authElem addr rt])
    else
      match s.verdict .ldrax rs [] [] with
      | .go => .next ((s.failedRead (s.reqOf .ldrax .read .gp false [authElem addr rt] rs [])).authFail rt)
      | _ => .next (s.authFail rt)

/-- LDRAA (R227). -/
def execLdraa (sbit : BitVec 1) (imm9 : BitVec 9) (w : BitVec 1) (rn rt : RegNum) (s : State) : Out :=
  requireFeature s.platform.havePAUTH .pauth (s.loadAuth sbit imm9 w rn rt)

/-- LDRAB (R227). -/
def execLdrab (sbit : BitVec 1) (imm9 : BitVec 9) (w : BitVec 1) (rn rt : RegNum) (s : State) : Out :=
  requireFeature s.platform.havePAUTH .pauth (s.loadAuth sbit imm9 w rn rt)

end Sys2Proof.Machine
end

