-- ==== Sys2Proof/Machine/Barrier.lean ====
section
/-! DEFINITION. The barriers (40_access_classes.md R211, R212). -/

namespace Sys2Proof.Machine

open Sys2Proof

/-- DMB (R211): no access of its own; it stands in program order, where the relations `bob` (20_memory.md R84;
21_device_memory.md R133), gathering (R147) and forwarding (R150) find it. -/
def execDmb (crm : BitVec 4) (s : State) : Out := .next (s.addMark .dmb crm.toNat)

/-- A write a DSB waits for: No Early Write Acknowledgement, by this PE, where the system requires the endpoint
to acknowledge for some byte of it (DESIGN CHOICE, log 64), and affected by the barrier (21_device_memory.md R168). -/
def State.dsbWaitsFor (s : State) (option : Nat) (x : Xact) : Bool :=
  x.obs == s.cur && x.dir == .write && x.dt == some .nGnRnE &&
  x.bs.any (fun b => (regionAt s.platform b.pa).ackRequired) &&
  (barrierAffects s.platform option .write .read || barrierAffects s.platform option .write .write)

/-- DSB (R212): it completes only after those writes have reached their endpoint, and it stands in program order
as a DMB does (21_device_memory.md R150). -/
def execDsb (crm : BitVec 4) (s : State) : Out :=
  .next ((s.forceAll ((s.inflight.filter (s.dsbWaitsFor crm.toNat)).map Xact.id)).addMark .dsb crm.toNat)

end Sys2Proof.Machine
end

