-- ==== Sys2Proof/Machine/LoadStore.lean ====
section
/-! DEFINITION. General-purpose loads and stores, LDNP in both register files, and the Advanced SIMD and
floating-point loads and stores (40_access_classes.md R215 to R219). -/

namespace Sys2Proof.Machine

open Sys2Proof

/-- The bytes of each register of an LDNP of general-purpose registers (30_encoding.md R204). -/
def ldnpGpSize (sf : BitVec 1) : Nat := if sf = 1 then 8 else 4

/-- The bytes of each register of an LDNP of SIMD&FP registers (30_encoding.md R204). -/
def ldnpFpSize (opc : BitVec 2) : Nat := 4 * 2 ^ opc.toNat

/-- A pair load at the base register's address. -/
def State.loadPair (s : State) (cls : AccessClass) (f : RegFile) (size : Nat) (imm7 : BitVec 7) (rt2 rn rt : RegNum) : Out :=
  let s := s.settle s.cur [(.gp, rn)]
  s.plainLoad cls f (pairElems (pairAddr (s.me.base rn) imm7 size) size rt rt2)

/-- LDNP of general-purpose registers (R217). -/
def execLdnpGp (sf : BitVec 1) (imm7 : BitVec 7) (rt2 rn rt : RegNum) (s : State) : Out :=
  s.loadPair .ldnpGp .gp (ldnpGpSize sf) imm7 rt2 rn rt

/-- LDNP of SIMD&FP registers (R218). -/
def execLdnpFp (opc : BitVec 2) (imm7 : BitVec 7) (rt2 rn rt : RegNum) (s : State) : Out :=
  s.loadPair .ldnpSimdFp .vec (ldnpFpSize opc) imm7 rt2 rn rt

/-- A load or a store of one general-purpose register (R215). -/
def execGpSingle (d : Dir) (e : Elem) (s : State) : Out :=
  match d with
  | .read => s.plainLoad .gpLoad .gp [e]
  | .write => s.plainStore .gpStore .gp [e]

/-- A load or a store of more than one general-purpose register (R216). -/
def execGpMulti (d : Dir) (es : List Elem) (s : State) : Out :=
  match d with
  | .read => s.plainLoad .gpMultiLoad .gp es
  | .write => s.plainStore .gpMultiStore .gp es

/-- An Advanced SIMD&FP load or store; in Streaming SVE mode the relaxation of R184 is `relaxable`. -/
def State.simd (s : State) (d : Dir) (es : List Elem) : Out :=
  match d with
  | .read => s.plainLoad .simdFpLoad .vec es
  | .write => s.plainStore .simdFpStore .vec es

/-- LD1 (R218). -/
def execLd1 (es : List Elem) (s : State) : Out := s.simd .read es

/-- ST1 (R218). -/
def execSt1 (es : List Elem) (s : State) : Out := s.simd .write es

/-- SIMD and floating-point loads and stores (R218). -/
def execSimdFp (d : Dir) (es : List Elem) (s : State) : Out := s.simd d es

/-- The same in Streaming SVE mode (R219): the mode is an input of the step, not part of the instruction. -/
def execSimdFpStreaming (d : Dir) (es : List Elem) (s : State) : Out := s.simd d es

end Sys2Proof.Machine
end

