-- ==== Sys2Proof/Machine/MemOps.lean ====
section
/-! DEFINITION. Memory Copy, Memory Set and cache maintenance (40_access_classes.md R228 to R230). -/

namespace Sys2Proof.Machine

open Sys2Proof

/-- The footprint of a range: its bytes, one by one, since neither the sizes nor the alignment of these accesses
are in the source (log 32). -/
def rangeElems (addr len : Nat) (r : RegNum) : List Elem :=
  (List.range' addr len).map (fun a => { addr := a, size := 1, reg := r, lane := 0, active := true })

/-- The footprint of a range of a copy: byte number k of it is the one the copy holds under the number `base + k`. -/
def copyElems (addr len base : Nat) : List Elem :=
  (List.range len).map (fun k => { addr := addr + k, size := 1, reg := 0, lane := base + k, active := true })

/-- The reads of a copy. -/
def State.copyReads (s : State) (rd wr : List RElem) : Req :=
  { cls := .memCopy, dir := .read, file := .copy, release := false, all := (rd ++ wr).map RElem.e, parts := (rd ++ wr).map RElem.e, rs := rd,
    ex := s.extraBytes .memCopy rd [] }

/-- The writes of a copy. -/
def State.copyWrites (_s : State) (rd wr : List RElem) : Req :=
  { cls := .memCopy, dir := .write, file := .copy, release := false, all := (rd ++ wr).map RElem.e, parts := (rd ++ wr).map RElem.e, rs := wr, ex := [] }

/-- The accesses of a copy: the reads of the source range, then the writes of the destination range, each of which waits for
the bytes it writes (log 32). -/
def State.copyXacts (s : State) (rd wr : List RElem) : List Xact :=
  xactsOf s (s.copyReads rd wr) ++ xactsFrom s (s.copyWrites rd wr) (xactsOf s (s.copyReads rd wr)).length

/-- Make the accesses of a copy, all of them or, with an exception `stop`, those the plan names. -/
def State.runCopy (s : State) (rd wr : List RElem) (stop : Option Raise) : State :=
  s.runAccesses (allBytes rd ++ (s.copyReads rd wr).ex ++ allBytes wr) (s.copyXacts rd wr) stop id

/-- What a copy whose parts partly fault can copy: the bytes of the source that do not fault, to the places of the
destination that do not fault and whose bytes are among them (log 57). -/
def sparedCopy (p : Platform) (c : PeCtl) (rd wr : List RElem) : List RElem × List RElem :=
  let src := (rd.map (RElem.spared p c .memCopy)).filter (fun r => !r.bs.isEmpty)
  (src, (wr.map (RElem.spared p c .memCopy)).filter (fun r => src.any (fun q => q.e.lane == r.e.lane)))

/-- CPY* (R228): the source address is in Xs, the number of bytes in Xn; the source range may be read in whole
64-byte windows (21_device_memory.md R120), and with a count of 0 nothing is read or written. -/
def execCpy (rd rs rn : RegNum) (s : State) : Out :=
  requireFeature s.platform.haveMOPS .mops (
    let s := s.settle s.cur [(.gp, rd), (.gp, rs), (.gp, rn)]
    let n := (s.me.xreg rn).toNat
    match resolve s.platform s.me .copy (copyElems (s.me.xreg rs).toNat n s.nextId),
          resolve s.platform s.me .copy (copyElems (s.me.xreg rd).toNat n s.nextId) with
    | .error va, _ => .fault (.noTranslation va)
    | _, .error va => .fault (.noTranslation va)
    | .ok src, .ok dst =>
      let seq := decide (n ≠ 0)
      match s.verdict .memCopy src dst [] with
      | .refuse q => .refused q
      | .take e =>
        match s.cutShort seq (some e) with
        | some c =>
          let q := sparedCopy s.platform s.me.ctl src dst
          .next ((s.walk (s.instrWalks .memCopy q.1 q.2 [])).runCopy q.1 q.2 (some c))
        | none => .next (s.takeException e false)
      | .go => .next ((s.walk (s.instrWalks .memCopy src dst [])).runCopy src dst (s.cutShort seq none)))

/-- Memory Set (R229): writes only. -/
def execMemSet (addr len : Nat) (rs : RegNum) (s : State) : Out :=
  requireFeature s.platform.haveMOPS .mops (s.store .memSet .gp false (rangeElems addr len rs) (rangeElems addr len rs) noEffect)

/-- Drop the clean copies of some locations. -/
def State.dropClean (s : State) (pas : List Nat) : State :=
  { s with lines := s.lines.filter (fun l => l.dirty || !pas.contains l.pa) }

/-- The physical locations of a range, or the address no translation maps. -/
def State.locations (s : State) : List Nat → Except Nat (List Nat)
  | [] => .ok []
  | a :: as =>
    match dataTr s.platform s.me.ctl a with
    | none => .error a
    | some t =>
      match s.locations as with
      | .error b => .error b
      | .ok ps => .ok (t.pa :: ps)

/-- Cache maintenance (R230) of the locations it names: it may cause their write back (21_device_memory.md R143),
after which no cache answers for them (20_memory.md R77); what else such an instruction guarantees is not in the
source. The non-Reordering attribute does not order it (R161). It acts in its own step, waits for no write in flight, and is never
late (DESIGN CHOICE where N3 leaves it open, log 34). Its addresses are translated without a walk and without the
fault of R140 (DESIGN CHOICE, log 34). -/
def execCacheMaint (addr len : Nat) (s : State) : Out :=
  match s.locations (List.range' addr len) with
  | .error va => .fault (.noTranslation va)
  | .ok pas => .next (
      if s.plan.maint then (s.writebackToMem (fun l => pas.contains l.pa)).dropClean pas else s)

end Sys2Proof.Machine
end

