-- ==== Sys2Proof/Machine/Sve.lean ====
section
/-! DEFINITION. SVE loads, prefetches and stores (40_access_classes.md R220 to R226; 21_device_memory.md R175
to R183). -/

namespace Sys2Proof.Machine

open Sys2Proof

/-- The Active elements. -/
def activeElems (es : List Elem) : List Elem := es.filter (fun e => e.active)

/-- Some byte of the element is Device memory: an element partly in Normal and partly in Device memory counts as one that would
access Device memory (DESIGN CHOICE between 21_device_memory.md R179 and 22_access_restrictions.md R190, log 68). -/
def State.deviceElem (s : State) (e : Elem) : Bool :=
  (List.range e.size).any (fun k =>
    match dataTr s.platform s.me.ctl (e.addr + k) with
    | some t => t.attr.isDevice
    | none => false)

/-- The Active elements of a First-fault or Non-fault load that are accessed: not Device memory, but for the
First active element where `keepFirst` (21_device_memory.md R178, R180). One that is suppressed is not translated by a walk,
and so takes no fault of one (DESIGN CHOICE, log 52); it is suppressed whole and not refused as spanning two types, also where it
lies partly in Normal memory (DESIGN CHOICE where 22_access_restrictions.md R190, R191 give no order, log 68). -/
def State.unsuppressed (s : State) (keepFirst : Bool) (es : List Elem) : List Elem :=
  match activeElems es with
  | [] => []
  | e :: rest =>
    (if keepFirst || !s.deviceElem e then [e] else []) ++ rest.filter (fun f => !s.deviceElem f)

/-- The numbers of the Active elements that are suppressed (21_device_memory.md R179, R181). -/
def State.suppressedFrom (s : State) (keepFirst : Bool) : Nat → List Elem → List Nat
  | _, [] => []
  | i, e :: es =>
    if e.active then
      (if !keepFirst && s.deviceElem e then [i] else []) ++ s.suppressedFrom false (i + 1) es
    else s.suppressedFrom keepFirst (i + 1) es

/-- Report suppressed elements in the current observer's FFR. -/
def State.reportSuppressed (s : State) (is : List Nat) : State := s.setMe (s.me.reportAll is)

/-- The First active element alone. -/
def firstActive (es : List Elem) : List Elem := (activeElems es).take 1

/-- SVE unpredicated load (R220). It exists, as every SVE instruction here, only with HAVE_SVE, in Streaming SVE mode, too (DESIGN
CHOICE where the platform has SME alone, log 45). -/
def execSveUnpred (es : List Elem) (s : State) : Out :=
  requireFeature s.platform.haveSVE .sve (s.plainLoad .sveUnpredLoad .vec es)

/-- SVE predicated load that is not non-temporal (R221): with HAVE_SVE (log 45), only the Active elements are accessed. -/
def execSvePred (es : List Elem) (s : State) : Out :=
  requireFeature s.platform.haveSVE .sve (s.load .svePredLoad .vec es (activeElems es) [] noEffect)

/-- SVE predicated non-temporal load (R222); with HAVE_SVE (log 45). -/
def execSvePredNT (es : List Elem) (s : State) : Out :=
  requireFeature s.platform.haveSVE .sve (s.load .svePredNTLoad .vec es (activeElems es) [] noEffect)

/-- SVE First-fault load (R223): every Active element but the first that would access Device memory is suppressed
and reported, without a read and without a fault. -/
def execSveFirstFault (es : List Elem) (s : State) : Out :=
  requireFeature s.platform.haveSVE .sve
    (s.load .sveFirstFault .vec es (s.unsuppressed true es) (firstActive es)
      (fun _ t => t.reportSuppressed (s.suppressedFrom true 0 es)))

/-- SVE Non-fault load (R224): every Active element that would access Device memory is suppressed and reported. -/
def execSveNonFault (es : List Elem) (s : State) : Out :=
  requireFeature s.platform.haveSVE .sve
    (s.load .sveNonFault .vec es (s.unsuppressed false es) []
      (fun _ t => t.reportSuppressed (s.suppressedFrom false 0 es)))

/-- The bytes of some addresses that an observer may read speculatively: those of Normal memory (20_memory.md R55;
21_device_memory.md R115) whose walks do not fault (60_exceptions.md R242). -/
def State.specBytes (s : State) (o : Nat) (vas : List Nat) : List RByte :=
  vas.filterMap (fun va =>
    (dataTr s.platform (s.getObs o).ctl va).bind (fun t =>
      let b : RByte := { va := va, tr := t, reg := 0, lane := 0, val := 0 }
      if t.attr.isNormal && !b.faults s.platform (s.getObs o).ctl then some b else none))

/-- The speculative read of one byte. -/
def specAccess (o : Nat) (b : RByte) : Access :=
  { kind := .specRead, obs := some o, dir := .read, bytes := [b.tr.pa], attr := some b.tr.attr }

/-- A speculative read of one byte, which may stay in a cache, or, `late`, on its way to it (20_memory.md R55; 10_state.md R36;
log 55). -/
def State.speculate (s : State) (o : Nat) (unit : Nat) (late : Bool) (b : RByte) : State :=
  ((s.touch [b]).logArrival ((specAccess o b).arrival s.platform)).allocate o unit late b.tr.attr b.tr.pa

/-- Speculative reads of some addresses, unless one of them ends what can be said of the program (20_memory.md R63, R81). -/
def State.speculateAll (s : State) (o : Nat) (unit : Nat) (late : Bool) (vas : List Nat) : Out :=
  match s.recordRefusal (s.specBytes o vas) with
  | some q => .refused q
  | none => .next ((s.specBytes o vas).foldl (fun s b => s.speculate o unit late b) s)

/-- SVE vector prefetch (R225): at most a speculative read of Normal memory, never an access to Device memory
(21_device_memory.md R177). -/
def execSvePrefetch (es : List Elem) (s : State) : Out :=
  requireFeature s.platform.haveSVE .sve
    (match s.plan.alloc with
      | none => .next s
      | some u => s.speculateAll s.cur u false ((activeElems es).flatMap (fun e => List.range' e.addr e.size)))

/-- SVE store (R226), with HAVE_SVE (log 45): exactly the bytes of its Active elements. -/
def execSveStore (es : List Elem) (s : State) : Out :=
  requireFeature s.platform.haveSVE .sve (s.store .sveStore .vec false es (activeElems es) noEffect)

end Sys2Proof.Machine
end

