-- ==== Sys2Proof/Machine/Sync.lean ====
section
/-! DEFINITION. Load-Exclusive and Store-Exclusive, Load-Acquire and Store-Release (40_access_classes.md R213,
R214). -/

namespace Sys2Proof.Machine

open Sys2Proof

/-- Mark the bytes of a Load-Exclusive, each with its record (20_memory.md R75, R78; 22_access_restrictions.md R192), when the
instruction is issued, also where its read is performed later (DESIGN CHOICE, log 28). -/
def State.reserve (s : State) (rs : List RElem) : State :=
  s.setMe { s.me with excl := some { bytes := (allBytes rs).map (fun b => (b.tr.pa, b.tr.attr)), lost := false } }

/-- Load-Exclusive (R213); with `also` it stands in program order as an acquire, too (R210, R214). -/
def execLoadExcl (f : OrderedForm) (s : State) : Out :=
  s.load .loadExclusive .gp f.es f.es [] (fun rs t => if f.also then (t.reserve rs).addMark .acquire 0 else t.reserve rs)

/-- The reservation is on some byte of the footprint. -/
def Reservation.touches (r : Reservation) (rs : List RElem) : Bool :=
  (allBytes rs).any (fun b => r.bytes.any (fun q => q.1 == b.tr.pa))

/-- A Store-Exclusive of another observer has succeeded and its write, still in flight, is one the current observer's
reservation takes into account (log 28). -/
def State.exclContended (s : State) (r : Reservation) : Bool :=
  s.inflight.any (fun w => w.cls == .storeExclusive && w.obs != s.cur && r.takesAccount s.platform w s.cur)

/-- The Store-Exclusive must fail: the reservation is on its footprint, and a write of another observer was taken into account
(20_memory.md R75, R78; log 28). -/
def State.exclMustFail (s : State) (rs : List RElem) : Bool :=
  match s.me.excl with
  | none => false
  | some r => r.touches rs && (r.lost || s.exclContended r)

/-- The Store-Exclusive succeeds: as the implementation lets it, since the source has no other rule of its success or failure
(N3), with a reservation or without one (log 28). -/
def State.exclSucceeds (s : State) (rs : List RElem) : Bool := s.plan.exclOk && !s.exclMustFail rs

/-- The status a Store-Exclusive leaves and the end of the reservation (PRESUMED, log 28). -/
def State.exclDone (s : State) (rs : RegNum) (status : Word) : State :=
  s.setMe (({ s.me with excl := none } : Observer).overwriteX rs status s.nextId)

/-- A Store-Exclusive that fails makes no access, after the checks and the walks of one. -/
def State.exclFail (s : State) (rs : RegNum) (q : List RElem) : Out :=
  match s.verdict .storeExclusive [] q [] with
  | .refuse r => .refused r
  | .take e => .next (s.takeException e false)
  | .go => .next ((s.walk (s.instrWalks .storeExclusive [] q [])).exclDone rs 1)

/-- Store-Exclusive (R213): it writes where it succeeds, by the rules of its locations' records; with `also` it is a
Store-Release, too (R210, R214). -/
def execStoreExcl (rs : RegNum) (f : OrderedForm) (s : State) : Out :=
  match resolve s.platform s.me .gp f.es with
  | .error va => .fault (.noTranslation va)
  | .ok q =>
    if s.exclSucceeds q then
      s.request .storeExclusive .write .gp f.also f.es q [] (fun u => (if f.also then u.addMark .release 0 else u).exclDone rs 0)
    else s.exclFail rs q

/-- Load-Acquire (R214): an ordinary load that also stands in program order as an acquire; with `also` of SIMD&FP registers
(R210). -/
def execLoadAcq (f : OrderedForm) (s : State) : Out :=
  if f.also then s.load .simdFpLoad .vec f.es f.es [] (fun _ t => t.addMark .acquire 0)
  else s.load .loadAcquire .gp f.es f.es [] (fun _ t => t.addMark .acquire 0)

/-- Store-Release (R214): an ordinary store that also stands in program order as a release; its write answers no
read (21_device_memory.md R150); with `also` of SIMD&FP registers (R210). -/
def execStoreRel (f : OrderedForm) (s : State) : Out :=
  if f.also then s.store .simdFpStore .vec true f.es f.es (fun _ t => t.addMark .release 0)
  else s.store .storeRelease .gp true f.es f.es (fun _ t => t.addMark .release 0)

end Sys2Proof.Machine
end

