-- ==== Sys2Proof/Machine/Dispatch.lean ====
section
/-! DEFINITION. The dispatch: one arm for each constructor of `Instr`, each one call of its meaning. -/

namespace Sys2Proof.Machine

open Sys2Proof

def exec (i : Instr) (s : State) : Host.Outcome State Fault Refusal :=
  match i with
  | .dmb crm => Sys2Proof.Machine.execDmb crm s
  | .dsb crm => Sys2Proof.Machine.execDsb crm s
  | .ldnpGp sf imm7 rt2 rn rt => Sys2Proof.Machine.execLdnpGp sf imm7 rt2 rn rt s
  | .ldnpFp opc imm7 rt2 rn rt => Sys2Proof.Machine.execLdnpFp opc imm7 rt2 rn rt s
  | .ldraa sb imm9 w rn rt => Sys2Proof.Machine.execLdraa sb imm9 w rn rt s
  | .ldrab sb imm9 w rn rt => Sys2Proof.Machine.execLdrab sb imm9 w rn rt s
  | .cpy rd rs rn => Sys2Proof.Machine.execCpy rd rs rn s
  | .memSet addr len rs => Sys2Proof.Machine.execMemSet addr len rs s
  | .ld1 es => Sys2Proof.Machine.execLd1 es s
  | .st1 es => Sys2Proof.Machine.execSt1 es s
  | .loadExcl f => Sys2Proof.Machine.execLoadExcl f s
  | .storeExcl rs f => Sys2Proof.Machine.execStoreExcl rs f s
  | .loadAcq f => Sys2Proof.Machine.execLoadAcq f s
  | .storeRel f => Sys2Proof.Machine.execStoreRel f s
  | .gpSingle d e => Sys2Proof.Machine.execGpSingle d e s
  | .gpMulti d es => Sys2Proof.Machine.execGpMulti d es s
  | .simdFp d es => Sys2Proof.Machine.execSimdFp d es s
  | .simdFpStreaming d es => Sys2Proof.Machine.execSimdFpStreaming d es s
  | .sveUnpred es => Sys2Proof.Machine.execSveUnpred es s
  | .svePred es => Sys2Proof.Machine.execSvePred es s
  | .svePredNT es => Sys2Proof.Machine.execSvePredNT es s
  | .sveFirstFault es => Sys2Proof.Machine.execSveFirstFault es s
  | .sveNonFault es => Sys2Proof.Machine.execSveNonFault es s
  | .svePrefetch es => Sys2Proof.Machine.execSvePrefetch es s
  | .sveStore es => Sys2Proof.Machine.execSveStore es s
  | .cacheMaint addr len => Sys2Proof.Machine.execCacheMaint addr len s

end Sys2Proof.Machine
end

