-- ==== Sys2Proof/Machine/Events.lean ====
section
/-! DEFINITION. What happens beside the instructions: speculation, deliveries, acknowledgements, caches,
peripherals, exceptions and the environment. An input the rules do not permit in a state has no effect. -/

namespace Sys2Proof.Machine

open Sys2Proof

/-- The byte a fetch reads, with the record of its translation. -/
def fetchByte (va : Nat) (t : Tr) : RByte := { va := va, tr := t, reg := 0, lane := 0, val := 0 }

/-- The access of a fetch made with a record. -/
def fetchAccessOf (o : Nat) (t : Tr) (a : MemAttr) : Access :=
  { kind := .instrFetch, obs := some o, dir := .read, bytes := [t.pa], attr := some a }

/-- The read of a walk or a fetch that stays in flight: it delivers to no register (10_state.md R36). -/
def lateRead (s : State) (o : Nat) (cls : AccessClass) (fuel : Nat) (bytes : List Nat) (a : MemAttr) (j : Nat) : Xact :=
  { id := s.nextId + j
    instr := s.nextInstr
    obs := o
    cls := cls
    dir := .read
    bs := bytes.map (fun pa => { pa := pa, reg := 0, lane := 0, val := 0 })
    extra := false
    release := false
    attr := a
    dt := a.deviceType.map (implDevice s.platform)
    dst := none
    repeatable := false
    multi := false
    fwd := false
    hold := none
    fuel := fuel }

/-- The read may stay in flight to be gathered: the implementation treats its location as Gathering (21_device_memory.md R114,
R144). -/
def mayLinger (p : Platform) (a : MemAttr) : Bool := a.deviceType.any (fun d => (implDevice p d).gathering)

/-- Put speculative reads of these bytes with these records in flight. -/
def State.lingering (s : State) (o : Nat) (cls : AccessClass) (fuel : Nat) (rs : List (List Nat × MemAttr)) : State :=
  (s.keepRecords (rs.flatMap (fun r => r.1.map (fun pa => (pa, r.2))))).issue
    (rs.zipIdx.map (fun q => lateRead s o cls fuel q.1.1 q.1.2 q.2))

/-- A speculative instruction fetch: it reads a Device location unless it is execute-never at all Exception levels
(21_device_memory.md R136), EL2 among them also where HAVE_EL2 is false (DESIGN CHOICE, log 63); one whose walk would fault
is dropped (60_exceptions.md R242). It reads a Normal location at any time, execute-never or not (DESIGN CHOICE where
40_access_classes.md R231 says nothing, log 58). -/
def State.specFetch (s : State) (o va : Nat) (kept : List Nat) (late : Option Nat) : Out :=
  let c := (s.getObs o).ctl
  match fetchTr c va with
  | none => .next s
  | some t =>
    if (t.attr.isDevice && [EL.el0, .el1, .el2, .el3].all (fun l => t.xn.contains l)) ||
        t.walk.any (walkFaults s.platform c) then .next s
    else
      match s.recordRefusal (fetchByte va t :: walkBytes s.platform c t.walk) with
      | some q => .refused q
      | none =>
        let u := s.walkReads o c (s.dueWalks o c kept t.walk)
        match late, mayLinger s.platform t.attr with
        | some n, true => .next (u.lingering o .fetch n [([t.pa], t.attr)])
        | _, _ => .next ((u.touch [fetchByte va t]).arrive (fetchAccessOf o t t.attr))

/-- A speculative walk, at any time, but only in the regime of the observer's current level: none of the EL1&0 regime at EL2 or
EL3 (DESIGN CHOICE, log 27). What would fault of it is dropped silently (21_device_memory.md R139; 60_exceptions.md R242). -/
def State.specWalk (s : State) (o va : Nat) (late : Option Nat) : Out :=
  let c := (s.getObs o).ctl
  match dataTr s.platform c va with
  | none => .next s
  | some t =>
    match s.recordRefusal (walkBytes s.platform c t.walk) with
    | some q => .refused q
    | none =>
      match late with
      | none => .next (s.walkReads o c t.walk)
      | some n =>
        let lingers := fun w => mayLinger s.platform (walkAttr s.platform c w)
        .next ((s.walkReads o c (t.walk.filter (fun w => !lingers w))).lingering o .walk n
          (((madeWalks s.platform c t.walk).filter lingers).map (fun w => (w.bytes, walkAttr s.platform c w))))

/-- Deliver accesses as one transaction: nothing that must precede one of them is still in flight outside the
group, and every two may be gathered (21_device_memory.md R142 to R148, R154); those that `again` names and that may be
performed again stay in flight, each for itself (R122, R171, R174). -/
def State.deliverGroup (s : State) (ids again : List Nat) : State :=
  match s.select ids with
  | [] => s
  | [x] => if (s.required [x]).isEmpty || (s.forwardSource x).isSome then s.performOne x again else s
  | xs => if (s.required xs).isEmpty && s.allGather xs then s.transact xs (s.recurring xs again) else s

/-- The acknowledgement of this write must come from the endpoint (21_device_memory.md R165): of a write of several locations,
as soon as one asks for it (DESIGN CHOICE, log 64). -/
def State.endpointMustAck (s : State) (x : Xact) : Bool :=
  x.dt == some .nGnRnE && x.bs.any (fun b => (regionAt s.platform b.pa).ackRequired)

/-- An early acknowledgement, where R166 permits one. -/
def State.earlyAckOf (s : State) (id : Nat) : State :=
  match s.findXact id with
  | none => s
  | some x =>
    if x.dir == .write && x.attr.isDevice && !s.endpointMustAck x && !s.acks.any (fun a => a.x.id == x.id) then
      { s with acks := s.acks ++ [{ x := x, byEndpoint := false }] }
    else s

/-- An observer sees another's write to Normal memory before it completes: its bytes are there, and that observer must find
whatever is performed before it, so that it sees writes in the order they complete in (20_memory.md R70, R71, R73; N2, N3 give no
rule against it; log 65). -/
def State.observeEvent (s : State) (o id : Nat) : State :=
  match s.findXact id with
  | none => s
  | some w =>
    let t : State := { s with early := s.early ++ [(id, o)] }
    if w.dir == .write && w.attr.isNormal && w.obs != o && s.hasBytes w && (t.required [w]).all (s.finds o w.id) then t else s

/-- A write back of some bytes of a cache, or of bytes on their way: to the endpoint, or to a cache that may take them. -/
def State.writebackEvent (s : State) (unit : Option Nat) (pas : List Nat) (dest : Option Nat) : State :=
  let sel : Line → Bool := fun l => l.unit == unit && pas.contains l.pa
  match dest with
  | none => s.writebackToMem sel
  | some u => if s.allMove sel u [] s.lines then s.writebackToUnit sel u else s

/-- A cache drops a clean byte. -/
def State.evictEvent (s : State) (unit pa : Nat) : State :=
  { s with lines := s.lines.filter (fun l => l.dirty || !(l.unit == some unit && l.pa == pa)) }

/-- A byte that was read speculatively comes into its cache, with the value it had when it was read: a write in between that an
observer whose accesses pass the cache must see has taken it away (10_state.md R36; 20_memory.md R55, R77; log 35). -/
def State.fillEvent (s : State) (unit pa : Nat) : State :=
  { s with lines := s.lines.map (fun l => if l.unit == some unit && l.pa == pa then { l with pending := false } else l) }

/-- A location whose value can change without a write: not idempotent (20_memory.md R62; 21_device_memory.md
R110, R128); as an access it is a write of no observer, made with no record (DESIGN CHOICE, log 55). -/
def State.endpointChangeEvent (s : State) (pa : Nat) (v : Byte) : State :=
  if (regionAt s.platform pa).idempotent then s
  else ({ s with mem := Memory.write s.mem pa v } : State).logArrival
    (Access.arrival s.platform { kind := .endpointChange, obs := none, dir := .write, bytes := [pa], attr := none })

/-- An exception between two instructions of an observer (60_exceptions.md R250). While one is pending, no other is taken:
exceptions do not nest (DESIGN CHOICE where R251 says nothing, log 21). -/
def State.externalException (s : State) (o : Nat) : State :=
  match (s.getObs o).handler with
  | some _ => s
  | none => s.setObs o { s.getObs o with handler := some { cause := .external, slot := none, restarts := false } }

/-- Every record of these controls is a record, those of walks too (10_state.md R29, R39), and Streaming SVE mode is there
only with SME (D22). -/
def PeCtl.valid (p : Platform) (c : PeCtl) : Bool :=
  c.maps.all (fun m => m.attr.valid p.transientHints p.featXS && m.walk.all (fun w => w.xs.isSome == p.featXS)) &&
  (!c.streamingSve || p.haveSME) &&
  c.tcrWalk.inner.valid p.transientHints && c.tcrWalk.outer.valid p.transientHints &&
  (c.dataDefault.all (fun a => a.valid p.transientHints p.featXS)) &&
  (c.fetchDefault.all (fun a => a.valid p.transientHints p.featXS))

/-- Software outside B2.10 writes the controls of an observer: only records that are records. -/
def State.configureEvent (s : State) (o : Nat) (c : PeCtl) : State :=
  if c.valid s.platform then s.setObs o { s.getObs o with ctl := c } else s

/-- Change an observer's registers from outside: an earlier load no longer delivers there (log 61). -/
def State.setGpEvent (s : State) (o : Nat) (n : RegNum) (v : Word) : State :=
  s.setObs o (((s.getObs o).setBase n v).claim .gp n s.nextId)

/-- Change an observer's vector registers from outside. -/
def State.setVecEvent (s : State) (o : Nat) (n : RegNum) (v : VReg) : State :=
  s.setObs o (((s.getObs o).setVec n v).claim .vec n s.nextId)

/-- What an input that is not an instruction does; `run` is the step's own. -/
def State.handle (s : State) : Event → Out
  | .run p => .next { s with plan := p }
  | .schedule o => .next { s with cur := o }
  | .specRead o va size unit late => s.speculateAll o unit late (List.range' va size)
  | .fill unit pa => .next (s.fillEvent unit pa)
  | .specFetch o va kept late => s.specFetch o va kept late
  | .specWalk o va late => s.specWalk o va late
  | .observe o id => .next (s.observeEvent o id)
  | .deliver ids again => .next (s.deliverGroup ids again)
  | .earlyAck id => .next (s.earlyAckOf id)
  | .writeback unit pas dest => .next (s.writebackEvent unit pas dest)
  | .evict unit pa => .next (s.evictEvent unit pa)
  | .endpointChange pa v => .next (s.endpointChangeEvent pa v)
  | .exception o => .next (s.externalException o)
  | .exceptionReturn o retry => .next (s.returnFromException o retry)
  | .load o p => .next (s.setObs o { s.getObs o with program := p })
  | .configure o c => .next (s.configureEvent o c)
  | .setGp o n v => .next (s.setGpEvent o n v)
  | .setVec o n v => .next (s.setVecEvent o n v)
  | .setFfr o v => .next (s.setObs o { s.getObs o with ffr := v })

end Sys2Proof.Machine
end

