-- ==== Sys2Proof/Machine/Fetch.lean ====
section
/-! DEFINITION. Fetching the next instruction of an observer: the fetch access of its slot
(21_device_memory.md R136, R141; 40_access_classes.md R231) and the decoding of what the slot holds. -/

namespace Sys2Proof.Machine

open Sys2Proof

/-- What the fetch of a slot comes to. -/
inductive Fetched where
  /-- the address is translated by nothing -/
  | noTranslation (va : Nat)
  /-- the fetch takes an exception instead -/
  | take (r : Raise)
  /-- the fetch or its walk is refused -/
  | refuse (q : Refusal)
  /-- the fetch is made, and this is the state after it -/
  | go (s : State)
deriving Repr

/-- The fetch access of a slot: an execute-never location takes a Permission fault (GK11, D31), a walk that PTW
forbids takes one too (R140), a Device location is fetched as Normal Non-cacheable or takes a Permission fault,
as the implementation chooses at this fetch (R141, D11); the fetch and its walks are accesses, whose records may not
mismatch (20_memory.md R63, R81; log 58). Its own Permission fault comes before a refusal of the fetched location, where then no
access is made (DESIGN CHOICE where 60_exceptions.md R249 leaves it open, log 22). Shareability plays no part (20_memory.md R67).
A fetch that takes an exception makes no walk (DESIGN CHOICE, log 27). -/
def State.fetchAccess (s : State) (slot : Slot) : Fetched :=
  match slot.va with
  | none => .go s
  | some va =>
    let c := s.me.ctl
    match fetchTr c va with
    | none => .noTranslation va
    | some t =>
      match s.recordRefusal (walkBytes s.platform c t.walk) with
      | some q => .refuse q
      | none =>
        if t.walk.any (walkFaults s.platform c) then .take .permissionWalk
        else if t.xn.contains c.el || (t.attr.isDevice && !s.plan.fetchAsNC) then .take (.permissionFetch s.plan.faultStage)
        else
          match s.recordRefusal (fetchByte va t :: walkBytes s.platform c t.walk) with
          | some q => .refuse q
          | none =>
            .go (((s.walkReads s.cur c (s.dueWalks s.cur c s.plan.fetchKept t.walk)).touch [fetchByte va t]).arrive
              (fetchAccessOf s.cur t (if t.attr.isDevice then MemAttr.normalNC t.attr.xs else t.attr)))

/-- The instruction a slot holds; the LDNP of SIMD&FP registers with opc 11 "is not an LDNP" (30_encoding.md R204) in
either form. A footprint that no encoding backs runs as it says (log 47). -/
def Slot.instr (slot : Slot) : Except DecodeError Instr :=
  match slot.code with
  | .bytes bs =>
    match decodeBytes bs with
    | .ok (i, _) => .ok i
    | .error e => .error e
  | .inst (.ldnpFp 3 _ _ _ _) => .error .notLdnp
  | .inst i => .ok i

/-- The slot leaves the program and becomes the one that runs. -/
def State.begin (s : State) (slot : Slot) (rest : List Slot) : State :=
  s.setMe { s.me with program := rest, current := some slot }

/-- The slot is done. -/
def State.endSlot (s : State) (o : Nat) : State := s.setObs o { s.getObs o with current := none }

/-- What the step does with the state an instruction leaves: the slot is done and time passes. -/
def State.after (o : Nat) (t : State) : State := (t.endSlot o).tick

/-- The next instruction of the current observer. -/
inductive Next where
  /-- there is none: the program is at its end, or an exception has not returned -/
  | idle
  /-- the fetch of the slot stops the machine -/
  | fault (f : Fault)
  /-- the fetch takes an exception, and this is the state after it -/
  | exception (s : State)
  /-- the slot holds no instruction, or its fetch is refused -/
  | refuse (r : Refusal)
  /-- the instruction that runs, and the state it runs in -/
  | run (i : Instr) (s : State)
deriving Repr

/-- Find the next instruction of the current observer. -/
def State.nextInstruction (s : State) : Next :=
  match s.me.handler, s.me.program with
  | some _, _ => .idle
  | none, [] => .idle
  | none, slot :: rest =>
    match (s.begin slot rest).fetchAccess slot with
    | .noTranslation va => .fault (.noTranslation va)
    | .refuse q => .refuse q
    | .take r => .exception ((s.begin slot rest).takeException r false)
    | .go t =>
      match slot.instr with
      | .error e => .refuse (.undecodable e)
      | .ok i => .run i t

end Sys2Proof.Machine
end

