-- ==== Sys2Proof/Machine/Step.lean ====
section
/-! DEFINITION. One step of the machine, in its three outcomes. -/

namespace Sys2Proof.Machine

open Sys2Proof

/-- The current observer runs its next instruction, with the plan the state holds. -/
def State.runNext (s : State) : Host.Outcome State Fault Refusal :=
  match s.nextInstruction with
  | .idle => .next s.tick
  | .fault f => .fault f
  | .exception t => .next t.tick
  | .refuse r => .refused r
  | .run i t =>
    match exec i t with
    | .next u => .next (u.after t.cur)
    | .fault f => .fault f
    | .refused r => .refused r

/-- One step: the next input, or, with none waiting, the next instruction with a plan nothing fixes (log 9). -/
def step (s : State) : Host.Outcome State Fault Refusal :=
  match s.inputs with
  | [] => ({ s with plan := Config.freePlan s.clock } : State).runNext
  | .run p :: rest => ({ s with inputs := rest, plan := p } : State).runNext
  | e :: rest =>
    match ({ s with inputs := rest } : State).handle e with
    | .next t => .next t.tick
    | .fault f => .fault f
    | .refused r => .refused r

/-- The state with one instruction placed where `step` takes its next one: the only slot of the current
observer's program, with no exception and no input before it. The slot has no fetch address, so no fetch access
comes before it (log 1). -/
def State.withFetchWord (s : State) (nbits w : Nat) : State :=
  ({ s with inputs := [] } : State).setMe
    { s.me with
      program := [{ va := none, code := .bytes (bytesOfWord (BitVec.ofNat 32 (w % 2 ^ nbits))) }]
      handler := none }

end Sys2Proof.Machine
end

