-- ==== Sys2Proof/Safety.lean ====
section
/-! DEFINITION. What claims use: the validity of the parameters and records, the launch premises of
70_reset_and_hazards.md R261, the invariants of the machine, and what an instruction that executes normally
does, in the words of the spec. -/

namespace Sys2Proof.Machine

open Sys2Proof

/-! ### Validity of the parameters -/

/-- The tagging of the caches on a path: the closest is Inner, and no Inner cache lies outside an Outer one; there
may be none at all (20_memory.md R86). -/
def pathValid : List CacheLevel → Bool
  | [] => true
  | .inner :: rest => (rest.dropWhile (fun l => l == .inner)).all (fun l => l == .outer)
  | .outer :: _ => false

/-- Observers in one Inner Shareability domain are in one Outer domain (20_memory.md R72). -/
def domainsValid (obs : List ObserverInfo) : Bool :=
  obs.all (fun a => obs.all (fun b => a.inner != b.inner || a.outer == b.outer))

/-- `n` is a power of two. -/
def isPow2 (n : Nat) : Bool := n != 0 && 2 ^ n.log2 == n

/-- What 00_scope.md R4 asks of the parameters: domains (R72), caches (R86), the granule, an implementation that treats no
Device type as a weaker one (21_device_memory.md R114). Each observer has a path of caches of its own, valid for itself: one cache
may stand with different tags on different paths, or twice on one (DESIGN CHOICE where R86 has one list, log 69). That
FEAT_SME_FA64 is there only with SME is the model's (PRESUMED, log 62). -/
def platformValid (p : Platform) : Bool :=
  domainsValid p.observers && p.observers.all (fun o => pathValid (o.path.map CacheUnit.tag)) && isPow2 p.minGranule &&
  (!p.featSmeFA64 || p.haveSME) &&
  [DeviceType.nGnRnE, .nGnRE, .nGRE, .GRE].all (fun d => decide (d.strength ≤ (implDevice p d).strength))

/-! ### Launch premises (70_reset_and_hazards.md R261) -/

/-- A location is accessed with a record under the current translations: by data accesses, by fetches, or by their walks. -/
def ReachedWith (s : State) (pa : Nat) (a : MemAttr) : Prop :=
  ∃ o va t, (dataTr s.platform (s.getObs o).ctl va = some t ∨ fetchTr (s.getObs o).ctl va = some t) ∧
    ((t.pa = pa ∧ t.attr = a) ∨ ∃ w ∈ t.walk, pa ∈ w.bytes ∧ walkAttr s.platform (s.getObs o).ctl w = a)

/-- Every location mapped Normal is idempotent (20_memory.md R62, R63). -/
def NormalIsIdempotent (s : State) : Prop :=
  ∀ pa a, ReachedWith s pa a → a.isNormal = true → (regionAt s.platform pa).idempotent = true

/-- Every location mapped Device is execute-never at all Exception levels (21_device_memory.md R136). -/
def DeviceIsExecuteNever (s : State) : Prop :=
  ∀ pa a, ReachedWith s pa a → a.isDevice = true →
    ∀ o va t, fetchTr (s.getObs o).ctl va = some t → t.pa = pa → ∀ l : EL, l ∈ t.xn

/-- No translation table lies in memory that stage 2 maps as Device (21_device_memory.md R139). -/
def NoWalkOfDevice (s : State) : Prop :=
  ∀ o va t, dataTr s.platform (s.getObs o).ctl va = some t ∨ fetchTr (s.getObs o).ctl va = some t →
    ∀ w ∈ t.walk, w.s2 = none

/-- No location is reached through mappings whose records differ in more than the hints (20_memory.md R81;
21_device_memory.md R158). -/
def NoMismatch (s : State) : Prop :=
  ∀ pa a b, ReachedWith s pa a → ReachedWith s pa b → a.mismatched b = false

/-- No peripheral straddles a multiple of the smallest granule (22_access_restrictions.md R196). -/
def NoPeripheralStraddles (p : Platform) : Prop :=
  ∀ a b, inPeripheral p a = true → blockOf p a = blockOf p b → a / p.minGranule = b / p.minGranule

/-- The observers of one operating system or hypervisor are in one Inner Shareability domain (20_memory.md R69). -/
def OneInnerDomain (p : Platform) (os : List Nat) : Prop := ∀ a ∈ os, ∀ b ∈ os, sameInner p a b = true

/-- Drivers that rely on a DSB use locations whose endpoint must acknowledge, and which are mapped Device-nGnRnE
(21_device_memory.md R168, R170). -/
def EndpointAcks (s : State) (pas : List Nat) : Prop :=
  ∀ pa ∈ pas, (regionAt s.platform pa).ackRequired = true ∧ ∀ a, ReachedWith s pa a → a.deviceType = some .nGnRnE

/-- The premises of R261, for the observers `os` of one operating system and the locations `pas` its drivers rely on a DSB
for; that walks have a Normal record of `TCR_ELx` is in the type of `PeCtl.tcrWalk`. -/
def LaunchPremises (s : State) (os pas : List Nat) : Prop :=
  platformValid s.platform = true ∧ NormalIsIdempotent s ∧ DeviceIsExecuteNever s ∧ NoWalkOfDevice s ∧ NoMismatch s ∧
  NoPeripheralStraddles s.platform ∧ EndpointAcks s pas ∧ OneInnerDomain s.platform os

/-! ### Invariants -/

/-- The accesses that arrived, in order of arrival. -/
def State.arrived (s : State) : List Xact := s.arrivals.flatMap Arrival.xs

/-- Accesses are numbered in the order they are put in flight: those in flight rise, and none reaches the next
number; no mark stands later than the next access. -/
def NumbersOk (s : State) : Prop :=
  s.inflight.Pairwise (fun a b => a.id < b.id) ∧ (∀ x ∈ s.inflight, x.id < s.nextId ∧ x.instr < s.nextInstr) ∧
  (∀ x ∈ s.arrived, x.id < s.nextId ∧ x.instr < s.nextInstr) ∧ (∀ o, ∀ m ∈ (s.getObs o).marks, m.at_ ≤ s.nextId)

/-- No access that arrived has overtaken one in flight that must precede it, and no access arrived before one that
must precede it (21_device_memory.md R154; 20_memory.md R84; 21_device_memory.md R133). -/
def ArrivalOrderOk (s : State) : Prop :=
  (∀ a ∈ s.arrived, ∀ x ∈ s.inflight, s.mustPrecede x a = false) ∧
  s.arrivals.Pairwise (fun e l => ∀ a ∈ e.xs, ∀ b ∈ l.xs, s.mustPrecede b a = false)

/-- Every cached byte has a Normal record (21_device_memory.md R130). -/
def CachesHoldNormal (s : State) : Prop := ∀ l ∈ s.lines, l.attr.isNormal = true

/-- An acknowledgement that must come from the endpoint comes from it, after the write has arrived there
(21_device_memory.md R165). -/
def AcksOk (s : State) : Prop :=
  ∀ a ∈ s.acks, s.endpointMustAck a.x = true → a.byEndpoint = true ∧ ∃ y ∈ s.arrived, y.id = a.x.id

/-- A single-copy atomic access to non-Gathering Device memory that may not be repeated arrives at most once, and has
not arrived while it is in flight (21_device_memory.md R145). -/
def ArrivesOnce (s : State) : Prop :=
  (∀ x ∈ s.inflight, ∀ a ∈ s.arrived, a.id = x.id → a.repeatable = true ∧ x.repeatable = true) ∧
  s.arrived.Pairwise (fun a b => a.repeatable = false → a.id ≠ b.id)

/-- Every record an observer's controls give is a record (10_state.md R39); an observer the state does not list gives none,
with FEAT_XS and without it. -/
def RecordsOk (s : State) : Prop := ∀ o, (s.getObs o).ctl.valid s.platform = true

/-! ### What an instruction that executes normally does -/

/-- The request of an instruction's parts passes every check: all addresses translated, no refusal, no exception. -/
def admitted (s : State) (cls : AccessClass) (rd wr : RegFile × List Elem) (first : List Elem) : Bool :=
  match resolve s.platform s.me rd.1 rd.2, resolve s.platform s.me wr.1 wr.2, resolve s.platform s.me rd.1 first with
  | .ok a, .ok b, .ok f => s.verdict cls a b (pasOf f) == .go
  | _, _, _ => false

/-- No peripheral has a transition for an access to one of these locations (21_device_memory.md R110). -/
def quietAt (p : Platform) (pas : List Nat) : Bool :=
  pas.all (fun pa => (regionAt p pa).idempotent || p.reactions.all (fun r => r.pa != pa))

/-- No peripheral has a transition for an access the instruction makes: to its bytes, to extra ones, or by its walks. -/
def quiet (s : State) (cls : AccessClass) (rd wr : RegFile × List Elem) (first : List Elem) : Bool :=
  match resolve s.platform s.me rd.1 rd.2, resolve s.platform s.me wr.1 wr.2, resolve s.platform s.me rd.1 first with
  | .ok a, .ok b, .ok f => quietAt s.platform ((s.reached cls a b (pasOf f)).map (fun b => b.tr.pa))
  | _, _, _ => true

/-- Nothing is in flight, and the instruction makes each of its accesses once, in order, before it ends, without an
exception in between (glossary, simple sequential execution; D33). Everything else of its plan is free. -/
def Sequential (s : State) : Prop :=
  s.inflight = [] ∧ s.plan.acts = [] ∧ s.plan.rest = true ∧ s.plan.abandon = false

/-- One byte of a load: the byte the location's record and the memory system give, into the register's byte. -/
def loadByte (s : State) (f : RegFile) (e : Elem) (o : Observer) (k : Nat) : Observer :=
  match dataTr s.platform s.me.ctl (e.addr + k) with
  | none => o
  | some t => o.setRegByte f e.reg (laneOf s.platform e k) (s.byteFor s.cur s.nextId t.attr t.pa)

/-- The parts of a load, one after the other, each byte by byte. -/
def loadElems (s : State) (f : RegFile) (es : List Elem) (o : Observer) : Observer :=
  es.foldl (fun o e => (List.range e.size).foldl (loadByte s f e) o) o

/-- The registers of a load before its bytes come in: free, and no longer awaiting the bytes of an earlier load (logs 18, 61). -/
def freedRegs (s : State) (f : RegFile) (es : List Elem) (o : Observer) : Observer := o.prepare s.plan f s.nextId es

/-- A byte that a store writes: the location, the record it is written with, the value. -/
structure StoredByte where
  pa : Nat
  attr : MemAttr
  val : Byte
deriving DecidableEq, Repr

/-- The bytes of a store, part by part, byte by byte. -/
def storeBytes (s : State) (f : RegFile) (es : List Elem) : List StoredByte :=
  es.flatMap (fun e => (List.range e.size).filterMap (fun k =>
    (dataTr s.platform s.me.ctl (e.addr + k)).map (fun t =>
      { pa := t.pa, attr := t.attr, val := s.me.regByte f e.reg (laneOf s.platform e k) })))

/-- The last byte of a store to a location. -/
def lastStored (bs : List StoredByte) (pa : Nat) : Option StoredByte := bs.reverse.find? (fun b => b.pa == pa)

/-- An observer that must see what the current one writes with this record: itself, and those of the platform that
coherency or the cacheability across a level reaches (20_memory.md R70, R71, R73, R82, R83; 21_device_memory.md R129). -/
def Sees (s : State) (a : MemAttr) (o : Nat) : Prop :=
  o = s.cur ∨ (mustSee s.platform a s.cur o = true ∧ ∃ i ∈ s.platform.observers, i.id = o)

/-- A load: its class, its register file, its parts, those that are accessed, and the First active element's. -/
structure LoadForm where
  cls : AccessClass
  file : RegFile
  all : List Elem
  es : List Elem
  first : List Elem

/-- The plain loads and their forms (40_access_classes.md R215 to R222): nothing beside the accesses. -/
def plainLoadForm (i : Instr) (s : State) : Option LoadForm :=
  match i with
  | .ldnpGp sf imm7 rt2 rn rt =>
    let es := pairElems (pairAddr (s.me.base rn) imm7 (ldnpGpSize sf)) (ldnpGpSize sf) rt rt2
    some ⟨.ldnpGp, .gp, es, es, []⟩
  | .ldnpFp opc imm7 rt2 rn rt =>
    let es := pairElems (pairAddr (s.me.base rn) imm7 (ldnpFpSize opc)) (ldnpFpSize opc) rt rt2
    some ⟨.ldnpSimdFp, .vec, es, es, []⟩
  | .ld1 es => some ⟨.simdFpLoad, .vec, es, es, []⟩
  | .gpSingle .read e => some ⟨.gpLoad, .gp, [e], [e], []⟩
  | .gpMulti .read es => some ⟨.gpMultiLoad, .gp, es, es, []⟩
  | .simdFp .read es => some ⟨.simdFpLoad, .vec, es, es, []⟩
  | .simdFpStreaming .read es => some ⟨.simdFpLoad, .vec, es, es, []⟩
  | .sveUnpred es => some ⟨.sveUnpredLoad, .vec, es, es, []⟩
  | .svePred es => some ⟨.svePredLoad, .vec, es, activeElems es, []⟩
  | .svePredNT es => some ⟨.svePredNTLoad, .vec, es, activeElems es, []⟩
  | _ => none

/-- The plain stores and their forms (40_access_classes.md R215, R216, R218, R219, R226, R229). -/
def plainStoreForm (i : Instr) : Option (AccessClass × RegFile × List Elem) :=
  match i with
  | .st1 es => some (.simdFpStore, .vec, es)
  | .gpSingle .write e => some (.gpStore, .gp, [e])
  | .gpMulti .write es => some (.gpMultiStore, .gp, es)
  | .simdFp .write es => some (.simdFpStore, .vec, es)
  | .simdFpStreaming .write es => some (.simdFpStore, .vec, es)
  | .sveStore es => some (.sveStore, .vec, activeElems es)
  | .memSet addr len rs => some (.memSet, .gp, rangeElems addr len rs)
  | _ => none

/-- Every load that delivers its bytes: the plain ones, Load-Exclusive, Load-Acquire, First-fault and Non-fault
(40_access_classes.md R213 to R224). -/
def loadForm (i : Instr) (s : State) : Option LoadForm :=
  match i with
  | .loadExcl f => some ⟨.loadExclusive, .gp, f.es, f.es, []⟩
  | .loadAcq ⟨false, es⟩ => some ⟨.loadAcquire, .gp, es, es, []⟩
  | .loadAcq ⟨true, es⟩ => some ⟨.simdFpLoad, .vec, es, es, []⟩
  | .sveFirstFault es => some ⟨.sveFirstFault, .vec, es, s.unsuppressed true es, firstActive es⟩
  | .sveNonFault es => some ⟨.sveNonFault, .vec, es, s.unsuppressed false es, []⟩
  | i => plainLoadForm i s

/-- Every store without a status: the plain ones and Store-Release. -/
def storeForm (i : Instr) : Option (AccessClass × RegFile × List Elem) :=
  match i with
  | .storeRel ⟨false, es⟩ => some (.storeRelease, .gp, es)
  | .storeRel ⟨true, es⟩ => some (.simdFpStore, .vec, es)
  | i => plainStoreForm i

/-- What an instruction reads and writes: its class, its register file, the parts it reads, the parts it writes, and the
First active element of a First-fault load. -/
structure MemForm where
  cls : AccessClass
  file : RegFile
  rd : List Elem
  wr : List Elem
  first : List Elem

/-- Every instruction that makes explicit accesses (40_access_classes.md R213 to R224, R226 to R229). -/
def memForm (i : Instr) (s : State) : Option MemForm :=
  match i with
  | .ldraa sb imm9 _ rn rt | .ldrab sb imm9 _ rn rt =>
    some ⟨.ldrax, .gp, [authElem (authAddr (s.me.base rn) sb imm9) rt], [], []⟩
  | .cpy rd rs rn =>
    some ⟨.memCopy, .copy, copyElems (s.me.xreg rs).toNat (s.me.xreg rn).toNat s.nextId,
      copyElems (s.me.xreg rd).toNat (s.me.xreg rn).toNat s.nextId, []⟩
  | .storeExcl _ f => some ⟨.storeExclusive, .gp, [], f.es, []⟩
  | i =>
    match loadForm i s, storeForm i with
    | some l, _ => some ⟨l.cls, l.file, l.es, [], l.first⟩
    | none, some (c, f, es) => some ⟨c, f, [], es, []⟩
    | none, none => none

/-- The pointer authentication check of an LDRAA or LDRAB passes; other instructions make none. -/
def authPasses (i : Instr) (s : State) : Bool :=
  match i with
  | .ldraa _ _ _ _ _ | .ldrab _ _ _ _ _ => s.plan.authOk
  | _ => true

/-- The feature an instruction belongs to is implemented (D22). -/
def featurePresent (i : Instr) (p : Platform) : Bool :=
  match i with
  | .sveUnpred _ | .svePred _ | .svePredNT _ | .sveFirstFault _ | .sveNonFault _ | .svePrefetch _ | .sveStore _ => p.haveSVE
  | .cpy _ _ _ | .memSet _ _ _ => p.haveMOPS
  | .ldraa _ _ _ _ _ | .ldrab _ _ _ _ _ => p.havePAUTH
  | _ => true

/-- The instruction reaches its checks with these bytes to read and to write, and those of its First active element: nothing
is in flight, its feature is implemented, its authentication check passes, and every address is translated. -/
def Reaches (i : Instr) (s : State) (m : MemForm) (rd wr first : List RElem) : Prop :=
  memForm i s = some m ∧ s.inflight = [] ∧ featurePresent i s.platform = true ∧ authPasses i s = true ∧
  resolve s.platform s.me m.file m.rd = .ok rd ∧ resolve s.platform s.me m.file m.wr = .ok wr ∧
  resolve s.platform s.me m.file m.first = .ok first

/-- An instruction is a Store-Release (40_access_classes.md R214). -/
def releases (i : Instr) : Bool :=
  match i with
  | .storeRel _ => true
  | .storeExcl _ f => f.also
  | _ => false

/-- Every part of an instruction, accessed or not: of an SVE load or store the inactive elements are among them. -/
def allParts (i : Instr) (m : MemForm) : List Elem :=
  match i with
  | .svePred es | .svePredNT es | .sveFirstFault es | .sveNonFault es | .sveStore es => es
  | _ => m.rd ++ m.wr

/-- The request an instruction but CPY makes of the memory system. -/
def requestOf (i : Instr) (s : State) (m : MemForm) (rd wr first : List RElem) : Req :=
  match m.wr with
  | [] => s.reqOf m.cls .read m.file false (allParts i m) rd (pasOf first)
  | _ => s.reqOf m.cls .write m.file (releases i) (allParts i m) wr (pasOf first)

/-- The accesses an instruction makes: those of its request, or, a copy's, its reads and then its writes. -/
def accessesOf (i : Instr) (s : State) (m : MemForm) (rd wr first : List RElem) : List Xact :=
  match i with
  | .cpy _ _ _ => s.copyXacts rd wr
  | i => xactsOf s (requestOf i s m rd wr first)

/-- What of an instruction's accesses can be made before the exception of a part of it: none of what faults, nor, of a copy,
the writes of bytes it cannot read (60_exceptions.md R244, log 57). -/
def sparedAccesses (i : Instr) (s : State) (m : MemForm) (rd wr first : List RElem) : List Xact :=
  match i with
  | .cpy _ _ _ => s.copyXacts (sparedCopy s.platform s.me.ctl rd wr).1 (sparedCopy s.platform s.me.ctl rd wr).2
  | i => xactsOf s ((requestOf i s m rd wr first).spared s.platform s.me.ctl)

/-- The plan of an instruction names this one of its accesses. -/
def Named (s : State) (xs : List Xact) (x : Xact) : Prop := ∃ a ∈ s.plan.acts, ∃ k ∈ a.ks, xs[k]? = some x

/-- The plan of an instruction leaves this one of its accesses in flight, or one that it feeds. -/
def LeftInFlight (s : State) (xs : List Xact) (x : Xact) : Prop :=
  ∃ k ∈ s.plan.left, ∃ w, xs[k]? = some w ∧ (w = x ∨ x.feeds w = true)

/-- An exception `c` ended an instruction that had performed, of its accesses `xs`, exactly those its plan names, and those reads
of a copy whose bytes a named write writes, before it, and had made those it leaves in flight: the registers are as before it (of
what copies hold nothing is said), of the rest of it nothing stays in flight, and what was performed stays performed, in the
order `done`, and the return will restart the instruction (memory, and what a copy left in caches, is said where no peripheral
has a transition at `places`, those accessed) (20_memory.md R52; 60_exceptions.md R244; logs 32, 49, 57). -/
structure StoppedAfter (s t : State) (xs : List Xact) (c : Raise) (places : List Nat) : Prop where
  inflight : (∀ x ∈ t.inflight, x ∈ xs ∧ LeftInFlight s xs x) ∧
    ∀ x ∈ xs, LeftInFlight s xs x → ¬ Named s xs x → (∀ w, Named s xs w → x.feeds w = false) → x ∈ t.inflight
  me : t.me = { s.me with
    copyBuf := t.me.copyBuf
    esr := esrAfter s.platform s.me.ctl c s.plan.syndrome s.me.esr
    handler := some { cause := c, slot := s.me.current, restarts := true }
    current := none }
  made : ∃ done : List Xact, (∀ x, x ∈ done ↔ Named s xs x ∨ (x ∈ xs ∧ ∃ w, Named s xs w ∧ x.feeds w = true)) ∧
    done.Pairwise (fun a b => b.feeds a = false) ∧ t.arrived = s.arrived ++ done.filter s.reachesEndpoint ∧
    ((∀ x ∈ xs, x.cls ≠ .memCopy) ∨ quietAt s.platform places = true → t.lines = (done.foldl State.perform s).lines) ∧
    (quietAt s.platform places = true → t.mem = (done.foldl State.perform s).mem)

/-- A record that no access with it at this location can be given a meaning for: Normal where the location is not
idempotent (20_memory.md R63), or different in more than the hints from the one it was accessed with before (R81). -/
def Clashes (s : State) (b : RByte) : Prop :=
  (b.tr.attr.isNormal = true ∧ (regionAt s.platform b.tr.pa).idempotent = false) ∨
  ∃ a, (b.tr.pa, a) ∈ s.touched ∧ a.eraseHints ≠ b.tr.attr.eraseHints

/-- What speculative reads of some addresses by an observer do: new clean copies of Normal memory in one cache, or, `late`, on
their way to it, each with the value the observer reads there, and reads that arrive; nothing else changes (20_memory.md R55). -/
structure OnlyFills (s t : State) (o unit : Nat) (late : Bool) (vas : List Nat) : Prop where
  same : t = { s with lines := t.lines, arrivals := t.arrivals, touched := t.touched }
  lines : ∃ new, t.lines = s.lines ++ new ∧ ∀ l ∈ new, l.unit = some unit ∧ l.writer = o ∧ l.dirty = false ∧ l.pending = late ∧
    l.attr.isNormal = true ∧ l.val = s.valueFor o l.attr l.pa ∧
    ∃ va ∈ vas, ∃ r, dataTr s.platform (s.getObs o).ctl va = some r ∧ r.pa = l.pa ∧ r.attr = l.attr
  arrivals : ∃ new, t.arrivals = s.arrivals ++ new ∧ ∀ a ∈ new, a.xs = [] ∧ ∀ b ∈ a.others,
    b.kind = .specRead ∧ b.obs = some o ∧ ∃ m, b.attr = some m ∧ m.isNormal = true
  touched : ∃ new, t.touched = s.touched ++ new ∧ ∀ q ∈ new, q.2.isNormal = true

/-- A byte lies in a window of `n` bytes, aligned to `n`, that holds a byte of `S` (00_scope.md R7). -/
def InWindow (S : List Nat) (n b : Nat) : Prop := ∃ c ∈ S, ∃ k, k * n ≤ c ∧ c < k * n + n ∧ k * n ≤ b ∧ b < k * n + n

/-- The rows of 21_device_memory.md R124: the bytes an instruction of a class may read of Device memory of a type (here by
whether it is Gathering), for its explicit bytes `X` and those `F` of its First active element. -/
def PermittedRead (cls : AccessClass) (gathering : Bool) (X F : List Nat) (b : Nat) : Prop :=
  match cls with
  | .gpLoad | .gpMultiLoad | .loadExclusive | .loadAcquire | .ldrax => b ∈ X
  | .ldnpGp => if gathering = true then InWindow X 128 b else b ∈ X
  | .simdFpLoad => InWindow X 16 b
  | .ldnpSimdFp => if gathering = true then InWindow X 128 b else InWindow X 16 b
  | .sveUnpredLoad | .svePredLoad => InWindow X 64 b
  | .svePredNTLoad => InWindow X 128 b
  | .sveFirstFault => InWindow F 64 b
  | .memCopy => b ∈ X ∨ InWindow X 64 b
  | _ => False

/-- A byte without the hints of its record. -/
def eraseByte (b : RByte) : RByte := { b with tr := { b.tr with attr := b.tr.attr.eraseHints } }

/-- A part without the hints of its bytes' records. -/
def erasePart (r : RElem) : RElem := { r with bs := r.bs.map eraseByte }

/-- A request without hints. -/
def eraseReq (r : Req) : Req := { r with rs := r.rs.map erasePart, ex := r.ex.map eraseByte }

/-- An access without the hints of its record. -/
def eraseXact (x : Xact) : Xact := { x with attr := x.attr.eraseHints }

/-- What a completed write of `v` to a location left for the observers `O` that must see it: every copy on their paths holds
it, and so does the newest dirty copy, which they must see, or, with no dirty one, the endpoint (20_memory.md R70, R71, R82,
R83; log 35). -/
structure Settled (s : State) (pa : Nat) (v : Byte) (O : Nat → Prop) : Prop where
  copies : ∀ o, O o → ∀ u ∈ (infoOf s.platform o).path, ∀ l ∈ s.lines, l.pa = pa → l.unit = some u.id → l.val = v
  newest : match s.lines.find? (fun l => l.dirty && l.pa == pa) with
    | some l => l.val = v ∧ ∀ o, O o → mustSee s.platform l.attr l.writer o = true
    | none => Memory.read s.mem pa = v

/-- What the caches do by themselves: they write bytes back, drop clean ones, and take in speculative reads, at once or late. -/
def ofCaches : Event → Bool
  | .writeback _ _ _ | .evict _ _ | .specRead _ _ _ _ _ | .fill _ _ => true
  | _ => false

/-- A state the caches bring the machine to from another, by any number of such inputs. -/
inductive CacheRun (s : State) : State → Prop where
  | start : CacheRun s s
  | next {t u : State} (e : Event) : CacheRun s t → ofCaches e = true → t.handle e = .next u → CacheRun s u

/-- The physical locations of some parts, in order. -/
def placesOf (s : State) (f : RegFile) (es : List Elem) : List Nat := (storeBytes s f es).map StoredByte.pa

/-- The bytes a copy of `n` bytes writes: each with the value its source byte has before (40_access_classes.md R228). -/
def copyBytes (s : State) (src dst n : Nat) : List StoredByte :=
  (List.range n).filterMap (fun k =>
    match dataTr s.platform s.me.ctl (src + k), dataTr s.platform s.me.ctl (dst + k) with
    | some a, some b => some { pa := b.pa, attr := b.attr, val := s.byteFor s.cur s.nextId a.attr a.pa }
    | _, _ => none)

/-- Element number `j` of a First-fault (`keep`) or Non-fault load is suppressed: it is Active, would access Device
memory, and is not the First active element of a First-fault load (21_device_memory.md R178 to R181). -/
def suppressedAt (s : State) (keep : Bool) (es : List Elem) (j : Nat) : Bool :=
  match es[j]? with
  | some e => e.active && s.deviceElem e && !(keep && (es.take j).all (fun f => !f.active))
  | none => false

/-- Two adjacent bytes that one instruction may not access together: the memory types differ, or both are Normal with
different Shareability, or (D38) both are Device of different types (22_access_restrictions.md R190). -/
def differ (a b : MemAttr) : Prop :=
  match a.ty, b.ty with
  | .normal m, .normal n => m.sh ≠ n.sh
  | .device d, .device e => d ≠ e
  | _, _ => True

/-- One of the restrictions of 22_access_restrictions.md R190, R194 is broken by these bytes, or one of 20_memory.md R63 or
R81 by them, the extra bytes or those of the walks. -/
def breaksRestriction (s : State) (cls : AccessClass) (rd wr first : List RElem) : Bool :=
  crossesAttributes (allBytes rd) || crossesAttributes (allBytes wr) ||
  crossesGranule s.platform (isSequence s.platform cls ((rd ++ wr).map RElem.e)) (allBytes rd ++ allBytes wr) ||
  (s.recordRefusal (s.reached cls rd wr (pasOf first))).isSome

/-- A write a DSB of the current observer must wait for: it follows the rules of Device-nGnRnE, its endpoint must acknowledge
it, and the barrier affects it (21_device_memory.md R168). -/
def AwaitedByDsb (s : State) (crm : BitVec 4) (x : Xact) : Prop :=
  x.obs = s.cur ∧ x.dir = .write ∧ x.dt = some .nGnRnE ∧
  (∃ b ∈ x.bs, (regionAt s.platform b.pa).ackRequired = true) ∧
  (barrierAffects s.platform crm.toNat .write .read = true ∨ barrierAffects s.platform crm.toNat .write .write = true)

/-! ### What an instruction leaves unchanged -/

/-- A read in flight will write this register of an observer; one of general-purpose register number 31 writes
none. -/
def State.awaited (s : State) (o : Nat) (r : RegFile × RegNum) : Prop :=
  r ≠ (.gp, 31) ∧ ∃ x ∈ s.inflight, x.obs = o ∧ x.dir = .read ∧ x.dst = some r.1 ∧ ∃ b ∈ x.bs, b.reg = r.2

/-- A write in flight will write this location. -/
def State.pendingAt (s : State) (pa : Nat) : Prop := ∃ x ∈ s.inflight, x.dir = .write ∧ ∃ b ∈ x.bs, b.pa = pa

/-- The registers a load writes: number 31 of the general-purpose file is none. -/
def regsWritten (f : RegFile) (es : List Elem) : List (RegFile × RegNum) := (regsOf f es).filter (fun r => r != (.gp, 31))

/-- A transition of a peripheral can set this location (21_device_memory.md R110). -/
def settable (p : Platform) (pa : Nat) : Bool :=
  p.reactions.any (fun r => mayChange p r.pa pa && r.sets.any (fun c => c.1 == pa))

/-- What an instruction that writes at most the registers `ds` (the bytes a copy holds count as one) of the current observer
and the locations `pas` leaves unchanged. Accesses of EARLIER instructions may be performed meanwhile: registers and locations that wait for one are
not spoken of, nor are the locations a peripheral's own transition sets, nor the loaded bytes that are held for stores in flight
(log 61). -/
structure Untouched (s t : State) (ds : List (RegFile × RegNum)) (pas : Nat → Prop) : Prop where
  gp : ∀ o n, ¬ s.awaited o (.gp, n) → (o = s.cur → (.gp, n) ∉ ds) → (t.getObs o).base n = (s.getObs o).base n
  vec : ∀ o n, ¬ s.awaited o (.vec, n) → (o = s.cur → (.vec, n) ∉ ds) → (t.getObs o).vec n = (s.getObs o).vec n
  copyBuf : ∀ o, (∀ n, ¬ s.awaited o (.copy, n)) → (o = s.cur → ∀ n, (.copy, n) ∉ ds) → (t.getObs o).copyBuf = (s.getObs o).copyBuf
  takes : ∀ o f n id, (f, n) ≠ (.gp, 31) → (o = s.cur → (f, n) ∉ ds) → (t.getObs o).takes f n id = (s.getObs o).takes f n id
  ctl : ∀ o, (t.getObs o).ctl = (s.getObs o).ctl
  program : ∀ o, (t.getObs o).program = (s.getObs o).program
  others : ∀ o, o ≠ s.cur → (t.getObs o).ffr = (s.getObs o).ffr ∧ (t.getObs o).esr = (s.getObs o).esr ∧
    (t.getObs o).marks = (s.getObs o).marks ∧ (t.getObs o).current = (s.getObs o).current ∧
    (t.getObs o).handler = (s.getObs o).handler
  bytes : ∀ pa, ¬ pas pa → ¬ s.pendingAt pa → settable s.platform pa = false → ∀ o id a, t.byteFor o id a pa = s.byteFor o id a pa
  machine : t.platform = s.platform ∧ t.cur = s.cur ∧ t.inputs = s.inputs ∧ t.plan = s.plan ∧ t.clock = s.clock ∧
    t.obIn = s.obIn ∧ t.bobIn = s.bobIn ∧ t.early = s.early

/-- The current observer's syndrome, slot and handler change only by taking an exception, and the syndrome only by an
Alignment fault where every location is treated as Device (60_exceptions.md R243). -/
def OnlyByException (s t : State) : Prop :=
  (t.me.handler = s.me.handler ∧ t.me.current = s.me.current ∧ t.me.esr = s.me.esr) ∨
  ∃ r b, t.me.handler = some { cause := r, slot := s.me.current, restarts := b } ∧ t.me.current = none ∧
    (t.me.esr = s.me.esr ∨ allDevice s.platform s.me.ctl = true ∧ ∃ st, r = .alignment st)

/-! ### Gathered transactions -/

/-- Two accesses of one transaction, by their types alone: a read is never merged with a write; accesses to
non-Gathering Device memory only within one instruction of several registers, with a read of bytes beyond the explicit ones,
or of Memory Copy and Memory Set, or where they are writes to one location of which one is Gathering (21_device_memory.md
R116, R132, R142, R145, R148, R171, R173; log 53). -/
def gatherable (a b : Xact) : Prop :=
  a.dir = b.dir ∧ ((a.cls.isMops = true ∧ b.cls.isMops = true) ∨
    (a.dt = none ∧ b.dt = none) ∨
    (∃ d e, a.dt = some d ∧ b.dt = some e ∧
      ((d.gathering = true ∧ e.gathering = true) ∨
        (a.instr = b.instr ∧ ((a.multi = true ∧ b.multi = true) ∨ (a.dir = .read ∧ (a.extra = true ∨ b.extra = true)))) ∨
        ((d.gathering = true ∨ e.gathering = true) ∧ a.sameWrite b = true))))

/-- Every transaction that arrived was gathered from accesses that may be. -/
def GatheredOk (s : State) : Prop := ∀ a ∈ s.arrivals, a.xs.Pairwise gatherable

end Sys2Proof.Machine
end

