-- ==== Sys2Proof/Certificates/Slice0/Obligations.lean ====
section
/-! DEFINITION. The statements for the provers. Each says which rules of spec/ it formalises; where it rests on a
choice of the model its docstring names the log entry. -/

open Sys2Proof Sys2Proof.Machine

/-! ### Encodings and the step -/

/-- The words of the programs of 95_test_vectors.md Part 3, and one LDNP of SIMD&FP registers, decode to their
instructions; the pattern with opc 11 is no LDNP (30_encoding.md R204). -/
def Obligations.SampleWordsDecode : Prop :=
  decodeTableWord 32 0xD5033FBF = some (.dmb 15) ∧ decodeTableWord 32 0xD5033F9F = some (.dsb 15) ∧
  decodeTableWord 32 0xA8400C02 = some (.ldnpGp 1 0 3 0 2) ∧ decodeTableWord 32 0x6C410C02 = some (.ldnpFp 1 2 3 0 2) ∧
  decodeTableWord 32 0xF8200420 = some (.ldraa 0 0 0 1 0) ∧ decodeTableWord 32 0xF8A00420 = some (.ldrab 0 0 0 1 0) ∧
  decodeTableWord 32 0xEC410C02 = none ∧ decodeTableWord 32 0 = none

/-- Decoding the word of a well-formed instruction gives it back, whatever bytes follow (30_encoding.md R204). -/
def Obligations.DecodeOfEncodeIsIdentity : Prop :=
  ∀ (i : Instr) (w : BitVec 32) (rest : List Byte), encode i = some w → wellFormed i = true →
    decode w = .ok i ∧ decodeBytes (bytesOfWord w ++ rest) = .ok (i, rest)

/-- What decodes is well-formed and encodes to the same word: no bit of a word is dropped (30_encoding.md R204). -/
def Obligations.EncodeOfDecodeIsIdentity : Prop :=
  ∀ (w : BitVec 32) (i : Instr), decode w = .ok i → encode i = some w ∧ wellFormed i = true

/-- A step runs the decoded instruction: with a run input, or with none waiting and then a plan nothing fixes, no
exception pending and a slot that holds an instruction, the step is `exec` of it in the state after the fetch; then the slot
is done and time passes. A slot without a fetch address makes no fetch access (logs 1, 9), and one that holds an instruction
of a class holds any footprint (log 47); LDNP (SIMD&FP) with opc 11 is no instruction (30_encoding.md R204). -/
def Obligations.StepRunsTheDecodedInstruction : Prop :=
  ∀ (s : State) (p : Plan) (rest : List Event) (slot : Slot) (more : List Slot) (i : Instr) (t : State),
    (s.inputs = .run p :: rest ∨ (s.inputs = [] ∧ rest = [] ∧ p = Config.freePlan s.clock)) →
    s.me.handler = none → s.me.program = slot :: more →
    (slot.code = .inst i ∨ ∃ bs tail, slot.code = .bytes bs ∧ decodeBytes bs = .ok (i, tail)) →
    (∀ imm7 rt2 rn rt, i ≠ .ldnpFp 3 imm7 rt2 rn rt) →
    (({ s with inputs := rest, plan := p } : State).begin slot more).fetchAccess slot = .go t →
    (slot.va = none → t = ({ s with inputs := rest, plan := p } : State).begin slot more) ∧
    step s = (match exec i t with
      | .next u => .next (u.after t.cur)
      | .fault f => .fault f
      | .refused r => .refused r)

/-- Exceptions and returns as inputs: one between two instructions is kept until the return; while it is pending no
instruction runs, with a run input or with no input at all; the return puts an instruction whose sequence of accesses the
exception ended back at the head of the program, whatever the cause, and one that faulted before its accesses if the environment
so decides (60_exceptions.md R244, R248, R250; logs 10, 21). -/
def Obligations.ExceptionsHoldTheProgram : Prop :=
  (∀ (s : State) (o : Nat), (s.getObs o).handler = none →
    s.handle (.exception o) = .next (s.setObs o { s.getObs o with
      handler := some { cause := .external, slot := none, restarts := false } })) ∧
  (∀ (s : State) (p : Plan) (rest : List Event) (h : Handler),
    (s.inputs = .run p :: rest ∨ (s.inputs = [] ∧ rest = [] ∧ p = Config.freePlan s.clock)) → s.me.handler = some h →
    step s = .next ({ s with inputs := rest, plan := p } : State).tick) ∧
  (∀ (s : State) (o : Nat) (retry : Bool) (h : Handler), (s.getObs o).handler = some h →
    s.handle (.exceptionReturn o retry) = .next (s.setObs o { s.getObs o with
      handler := none
      program := if h.restarts = true ∨ retry = true then h.slot.toList ++ (s.getObs o).program
        else (s.getObs o).program }))

/-! ### Reset, records, parameters -/

/-- The model's invariants hold in the model's state at reset, which is wholly its choice (logs 6, 7, 8, 13): the spec gives
no reset value. -/
def Obligations.ResetMeetsTheInvariants : Prop :=
  NumbersOk State.reset ∧ ArrivalOrderOk State.reset ∧ CachesHoldNormal State.reset ∧ AcksOk State.reset ∧
  ArrivesOnce State.reset ∧ GatheredOk State.reset ∧ RecordsOk State.reset ∧ Memory.wf State.reset.mem = true ∧
  platformValid State.reset.platform = true

/-- What reset leaves, the parameters of the platform among it: the spec gives no reset value (10_state.md R38,
70_reset_and_hazards.md R260), so every value is the model's (logs 6, 7, 8, 10, 13; the two tables: logs 14, 19). -/
def Obligations.ResetLeavesTheNamedValues : Prop :=
  (∀ (o : Nat) (n : RegNum), (State.reset.getObs o).base n = 0 ∧ (State.reset.getObs o).vec n = 0) ∧
  (∀ o : Nat, (State.reset.getObs o).ffr = 0 ∧ (State.reset.getObs o).esr = 0 ∧ (State.reset.getObs o).excl = none ∧
    (State.reset.getObs o).marks = [] ∧ (State.reset.getObs o).program = [] ∧ (State.reset.getObs o).handler = none ∧
    (State.reset.getObs o).ctl.el = .el3 ∧ (State.reset.getObs o).ctl.hcrTGE = false ∧
    (State.reset.getObs o).ctl.hcrDC = false ∧ (State.reset.getObs o).ctl.hcrPTW = false ∧
    (State.reset.getObs o).ctl.streamingSve = false ∧ (State.reset.getObs o).ctl.fa64Enabled = false ∧
    (State.reset.getObs o).ctl.maps = [] ∧ (State.reset.getObs o).ctl.tcrWalk.sh = .nsh ∧
    (∀ c ∈ [(State.reset.getObs o).ctl.tcrWalk.inner, (State.reset.getObs o).ctl.tcrWalk.outer], c.c = .nc ∧ c.hints = none) ∧
    (State.reset.getObs o).copyBuf = [] ∧ (State.reset.getObs o).held = [] ∧ (State.reset.getObs o).current = none ∧
    ∀ f n id, (State.reset.getObs o).takes f n id = true) ∧
  (∀ va : Nat, dataTr State.reset.platform State.reset.me.ctl va =
      some { pa := va, attr := { ty := .device .nGnRnE, xs := none }, stage := .s1, xn := [], walk := [] } ∧
    fetchTr State.reset.me.ctl va = some { pa := va, attr := MemAttr.normalNC none, stage := .s1, xn := [], walk := [] }) ∧
  (∀ pa : Nat, Memory.read State.reset.mem pa = 0) ∧ State.reset.lines = [] ∧ State.reset.inflight = [] ∧
  State.reset.early = [] ∧ State.reset.arrivals = [] ∧ State.reset.acks = [] ∧ State.reset.touched = [] ∧ State.reset.obIn = [] ∧
  State.reset.bobIn = [] ∧ State.reset.nextId = 0 ∧ State.reset.nextInstr = 0 ∧ State.reset.inputs = [] ∧
  State.reset.cur = 0 ∧ State.reset.clock = 0 ∧ State.reset.plan = Plan.simple ∧ State.reset.obs.map Prod.fst = [0] ∧
  State.reset.platform.observers = [{ id := 0, inner := 0, outer := 0, path := [] }] ∧
  (∀ pa : Nat, (regionAt State.reset.platform pa).conventional = true ∧ (regionAt State.reset.platform pa).idempotent = true ∧
    (regionAt State.reset.platform pa).supportsUnaligned = true ∧ (regionAt State.reset.platform pa).ackRequired = false ∧
    endpointOf State.reset.platform pa = .poc ∧ blockOf State.reset.platform pa = 0 ∧ inPeripheral State.reset.platform pa = false) ∧
  State.reset.platform.reactions = [] ∧ State.reset.platform.minGranule = 4096 ∧
  State.reset.platform.nshExclMultiObserver = false ∧ State.reset.platform.transientHints = true ∧
  State.reset.platform.deviceUnalignedFault = false ∧ State.reset.platform.unalignedAccessEnabled = true ∧
  (∀ d, implDevice State.reset.platform d = d) ∧ State.reset.platform.tgeType = .nGnRnE ∧ State.reset.platform.featXS = false ∧
  State.reset.platform.featSmeFA64 = true ∧ State.reset.platform.haveSVE = true ∧ State.reset.platform.haveSME = true ∧
  State.reset.platform.haveMOPS = true ∧ State.reset.platform.havePAUTH = true ∧ State.reset.platform.haveEL2 = true ∧
  State.reset.platform.bigEndian = false ∧ State.reset.platform.atomicWholes = [] ∧
  (∀ c n, (c, n) ∈ State.reset.platform.atomicSizes ↔ n ∈ [1, 2, 4, 8] ∧
    c ∈ [AccessClass.gpLoad, .gpStore, .gpMultiLoad, .gpMultiStore, .ldnpGp, .loadExclusive, .storeExclusive, .loadAcquire,
      .storeRelease, .ldrax]) ∧
  (∀ option d e, barrierAffects State.reset.platform option d e = true ↔ option < 16 ∧
    (option % 4 = 3 ∨ option % 4 = 1 ∧ d = .read ∨ option % 4 = 2 ∧ d = .write ∧ e = .write))

/-- The Device types are the four legal triples of Gathering, Reordering and Early Write Acknowledgement, which are
hierarchical (10_state.md R25), in their order of strength (R26). -/
def Obligations.DeviceTypesAreTheFourTriples : Prop :=
  [DeviceType.nGnRnE, .nGnRE, .nGRE, .GRE].map (fun d => (d.gathering, d.reordering, d.earlyAck, d.strength)) =
    [(false, false, false, 3), (false, false, true, 2), (false, true, true, 1), (true, true, true, 0)] ∧
  (∀ d : DeviceType, (d.gathering = true → d.reordering = true) ∧ (d.reordering = true → d.earlyAck = true)) ∧
  (∀ g r e : Bool, (∃ d : DeviceType, d.gathering = g ∧ d.reordering = r ∧ d.earlyAck = e) ↔
    ((g = true → r = true) ∧ (r = true → e = true)))

/-- Effective Shareability (10_state.md R27; 20_memory.md R73; 21_device_memory.md R129; D3), validity of a record
(10_state.md R23, R24, R29, R39), and the Normal type of walks (21_device_memory.md R138). -/
def Obligations.RecordsAreAsTheRulesSay : Prop :=
  (∀ (d : DeviceType) (xs : Option Bool), ({ ty := .device d, xs := xs } : MemAttr).effSh = .osh) ∧
  (∀ (n : NormalAttr) (xs : Option Bool), n.inner.c = .nc → n.outer.c = .nc →
    ({ ty := .normal n, xs := xs } : MemAttr).effSh = .osh) ∧
  (∀ (n : NormalAttr) (xs : Option Bool), (n.inner.c ≠ .nc ∨ n.outer.c ≠ .nc) →
    ({ ty := .normal n, xs := xs } : MemAttr).effSh = n.sh) ∧
  (∀ (th xs : Bool) (a : MemAttr), a.valid th xs = true ↔ (a.xs.isSome = xs ∧
    ∀ n, a.ty = .normal n → ∀ c ∈ [n.inner, n.outer], ∀ h, c.hints = some h →
      c.c ≠ .nc ∧ (h.transient.isSome = true → th = true))) ∧
  (∀ (p : Platform) (c : PeCtl) (w : WalkRef), w.s2 = none → (walkAttr p c w).isNormal = true)

/-- Records that differ only in the hints behave alike: they do not mismatch, everything the rules read of a record is the
same, an instruction passes or fails its checks and makes the same accesses, cut at the same places, with them or without,
and what is gathered or ordered, and which walks may be kept, does not change (20_memory.md R81, R85). -/
def Obligations.HintsChangeNothing : Prop :=
  (∀ a b : MemAttr, a.eraseHints = b.eraseHints →
    a.mismatched b = false ∧ a.isDevice = b.isDevice ∧ a.deviceType = b.deviceType ∧ a.effSh = b.effSh ∧
    a.isNormalNC = b.isNormalNC ∧ (∀ l, a.cacheAt l = b.cacheAt l) ∧
    (∀ c, a.sameTypeAndShareability c = b.sameTypeAndShareability c ∧ a.mismatched c = b.mismatched c) ∧
    (∀ (s : State) (o id pa : Nat), s.byteFor o id a pa = s.byteFor o id b pa) ∧
    (∀ (s : State) (o : Nat) (w : WalkRef), s.hasWalked o a w = s.hasWalked o b w) ∧
    (∀ (s : State) (x y : Xact), s.mustPrecede { x with attr := a } y = s.mustPrecede { x with attr := b } y ∧
      s.mustPrecede y { x with attr := a } = s.mustPrecede y { x with attr := b } ∧
      s.mayGather { x with attr := a } y = s.mayGather { x with attr := b } y ∧
      s.mayGather y { x with attr := a } = s.mayGather y { x with attr := b } ∧
      s.reachesEndpoint { x with attr := a } = s.reachesEndpoint { x with attr := b })) ∧
  (∀ (s : State) (cls : AccessClass) (rd wr : List RElem) (F : List Nat),
    s.verdict cls (rd.map erasePart) (wr.map erasePart) F = s.verdict cls rd wr F) ∧
  (∀ (s : State) (r : Req), groupsOf s (eraseReq r) = (groupsOf s r).map (List.map eraseByte) ∧
    xactsOf s (eraseReq r) = (xactsOf s r).map eraseXact)

/-- The taggings of the caches on a path (20_memory.md R86): Inner ones first, then Outer ones, the closest Inner, and
perhaps no Outer one, or none at all. -/
def Obligations.CacheTaggings : Prop :=
  ∀ l : List CacheLevel, pathValid l = true ↔
    ∃ k m : Nat, l = List.replicate k .inner ++ List.replicate m .outer ∧ (k = 0 → m = 0)

/-- General-purpose register number 31 of a transfer reads as zero and discards what is loaded (log 2); every other
register holds what is written, and no other changes; nor do the bytes copies hold, each under a number of
its own (log 32). -/
def Obligations.RegistersHoldWhatIsWritten : Prop :=
  (∀ (o : Observer) (k : Nat) (b v : Byte), o.setRegByte .gp 31 k b = o ∧ o.xreg 31 = 0 ∧
    (k < 8 → (o.setRegByte .gp 31 k v).regByte .gp 31 k = 0)) ∧
  (∀ (o : Observer) (n : RegNum) (k : Nat) (b : Byte), n ≠ 31 → k < 8 → (o.setRegByte .gp n k b).regByte .gp n k = b) ∧
  (∀ (o : Observer) (n : RegNum) (k : Nat) (b : Byte), k < 256 → (o.setRegByte .vec n k b).regByte .vec n k = b) ∧
  (∀ (o : Observer) (f g : RegFile) (n m : RegNum) (k j : Nat) (b : Byte), (f, n, k) ≠ (g, m, j) →
    (f ≠ .copy ∨ g ≠ .copy) → (o.setRegByte f n k b).regByte g m j = o.regByte g m j) ∧
  (∀ (o : Observer) (n m : RegNum) (k j : Nat) (b : Byte),
    (o.setRegByte .copy n k b).regByte .copy m j = if j = k then b else o.regByte .copy m j)

/-! ### What loads leave -/

/-- Every plain load, with its accesses made once, in order, at once, none of which makes a peripheral change: its registers
receive the bytes of its footprint, each the byte its location's record and the memory system give; nothing else of any
register file, of memory or of the caches changes (40_access_classes.md R215 to R222; logs 17, 18, 40). -/
def Obligations.PlainLoadsDeliverTheirBytes : Prop :=
  ∀ (i : Instr) (s : State) (l : LoadForm), plainLoadForm i s = some l → featurePresent i s.platform = true →
    Sequential s → admitted s l.cls (l.file, l.es) (l.file, []) l.first = true →
    quiet s l.cls (l.file, l.es) (l.file, []) l.first = true →
    ∃ t, exec i s = .next t ∧ t.me = loadElems s l.file l.es (freedRegs s l.file l.all s.me) ∧
      (∀ o, o ≠ s.cur → t.getObs o = s.getObs o) ∧ t.mem = s.mem ∧ t.lines = s.lines ∧ t.inflight = []

/-- Load-Exclusive also marks the bytes it reads, each with its record, and Load-Acquire also stands in program order; a
Load-Exclusive may be a Load-Acquire, too, and a Load-Acquire one of SIMD&FP registers (40_access_classes.md R210, R213,
R214; 20_memory.md R75; 21_device_memory.md R150; 22_access_restrictions.md R192; logs 28, 29). -/
def Obligations.OrderedLoadsDeliverAndMark : Prop :=
  (∀ (acq : Bool) (es : List Elem) (s : State), Sequential s →
    admitted s .loadExclusive (.gp, es) (.gp, []) [] = true → quiet s .loadExclusive (.gp, es) (.gp, []) [] = true →
    ∃ t, exec (.loadExcl ⟨acq, es⟩) s = .next t ∧ t.mem = s.mem ∧
      t.me = { loadElems s .gp es (freedRegs s .gp es s.me) with
        excl := some { bytes := (storeBytes s .gp es).map (fun b => (b.pa, b.attr)), lost := false }
        marks := if acq = true then s.me.marks ++ [{ kind := .acquire, option := 0, at_ := s.nextId }] else s.me.marks }) ∧
  (∀ (simd : Bool) (es : List Elem) (s : State) (c : AccessClass) (f : RegFile),
    (c, f) = (if simd then (AccessClass.simdFpLoad, RegFile.vec) else (.loadAcquire, .gp)) → Sequential s →
    admitted s c (f, es) (f, []) [] = true → quiet s c (f, es) (f, []) [] = true →
    ∃ t, exec (.loadAcq ⟨simd, es⟩) s = .next t ∧ t.mem = s.mem ∧
      t.me = { loadElems s f es (freedRegs s f es s.me) with
        marks := s.me.marks ++ [{ kind := .acquire, option := 0, at_ := s.nextId }] })

/-- First-fault and Non-fault loads deliver the elements that are not suppressed and report every suppressed one in the
FFR, whose bit and every higher one become 0 (21_device_memory.md R178 to R181; 10_state.md R34). The model's choices are: that
layout of the FFR (log 4) and the free bytes of the registers (log 18); that an element with one byte in Device memory is
suppressed whole, also where another byte of it is Normal, and then reported, not refused (log 68; D12 and R190 leave it open);
and that a suppressed element makes no walk and takes no fault of one, while the others do (log 52). -/
def Obligations.SuppressedElementsAreReported : Prop :=
  ∀ (keep : Bool) (es : List Elem) (s : State), s.platform.haveSVE = true → Sequential s →
    admitted s (if keep then .sveFirstFault else .sveNonFault) (.vec, s.unsuppressed keep es) (.vec, [])
      (if keep then firstActive es else []) = true →
    quiet s (if keep then .sveFirstFault else .sveNonFault) (.vec, s.unsuppressed keep es) (.vec, [])
      (if keep then firstActive es else []) = true →
    ∃ t, exec (if keep then .sveFirstFault es else .sveNonFault es) s = .next t ∧
      t.me = { loadElems s .vec (s.unsuppressed keep es) (freedRegs s .vec es s.me) with ffr := t.me.ffr } ∧
      t.mem = s.mem ∧
      ∀ k, k < 256 → t.me.ffr.getLsbD k = (s.me.ffr.getLsbD k && !(List.range (k + 1)).any (suppressedAt s keep es))

/-- LDRAA and LDRAB whose check passes load the doubleword at their address and, with W, write the address back, before the
loaded register where they are one (40_access_classes.md R227; 30_encoding.md R204; logs 31, 40). -/
def Obligations.AuthenticatedLoadsDeliver : Prop :=
  ∀ (i : Instr) (sb : BitVec 1) (imm9 : BitVec 9) (w : BitVec 1) (rn rt : RegNum) (s : State) (e : Elem),
    i = .ldraa sb imm9 w rn rt ∨ i = .ldrab sb imm9 w rn rt → s.platform.havePAUTH = true → Sequential s →
    s.plan.authOk = true → e = authElem (authAddr (s.me.base rn) sb imm9) rt →
    admitted s .ldrax (.gp, [e]) (.gp, []) [] = true → quiet s .ldrax (.gp, [e]) (.gp, []) [] = true →
    ∃ t, exec i s = .next t ∧ t.mem = s.mem ∧
      t.me = loadElems s .gp [e] (freedRegs s .gp [e]
        (if w = 1 then s.me.setBase rn (authAddr (s.me.base rn) sb imm9) else s.me))

/-- A failed check makes at most one read of the addressed Device location (after the walks for it), and makes it only
where every other requirement is met; one is permitted there, before the instruction ends or after it, and it is never repeated
(21_device_memory.md R123). Nothing is delivered: the register holds a free value, which no earlier load overwrites, or an
exception is taken, as the plan says (logs 9, 31, 61), which leaves the syndrome as it was (log 21). -/
def Obligations.FailedChecksReadAtMostOnce : Prop :=
  ∀ (i : Instr) (sb : BitVec 1) (imm9 : BitVec 9) (w : BitVec 1) (rn rt : RegNum) (s : State) (e : Elem),
    i = .ldraa sb imm9 w rn rt ∨ i = .ldrab sb imm9 w rn rt → s.platform.havePAUTH = true → s.inflight = [] →
    s.plan.authOk = false → e = authElem (authAddr (s.me.base rn) sb imm9) rt →
    ∃ t l, exec i s = .next t ∧ t.lines = s.lines ∧ t.arrivals = s.arrivals ++ l ∧
      (quiet s .ldrax (.gp, [e]) (.gp, []) [] = true → t.mem = s.mem) ∧
      (s.plan.authRaise = false → t.me = s.me.overwriteX rt s.plan.freeVal t.nextId) ∧
      (s.plan.authRaise = true →
        t.me = { s.me with handler := some { cause := .authFailure, slot := s.me.current, restarts := false }, current := none }) ∧
      (l ≠ [] ∨ t.inflight ≠ [] → admitted s .ldrax (.gp, [e]) (.gp, []) [] = true) ∧
      (∀ y ∈ t.inflight, y.dir = .read ∧ y.attr.isDevice = true ∧ y.touchedBytes = placesOf s .gp [e] ∧ y.dst = none ∧
        y.repeatable = false) ∧
      (∀ a ∈ l, (a.xs = [] ∧ ∀ b ∈ a.others, b.kind = .walkRead) ∨
        (a.others = [] ∧ a.xs.length = 1 ∧ a.dir = .read ∧ a.bytes = placesOf s .gp [e] ∧
          ∀ b ∈ storeBytes s .gp [e], b.attr.isDevice = true)) ∧
      (l.filter (fun a => a.others.isEmpty)).length + t.inflight.length ≤ 1 ∧
      (s.plan.rest = true → t.inflight = []) ∧
      (s.plan.authRead = true → s.plan.cuts = [] → admitted s .ldrax (.gp, [e]) (.gp, []) [] = true →
        (∃ a : MemAttr, a.isDevice = true ∧ ∀ b ∈ storeBytes s .gp [e], b.attr = a) →
        (l.filter (fun a => a.others.isEmpty)).length + t.inflight.length = 1)

/-! ### What stores leave -/

/-- Every store, with its accesses made once, in order, at once, none of which makes a peripheral change: each location of
its footprint holds the last byte stored there, for the observer that stored it, and at the endpoint where the record is
Device or no cache holds the write; a Store-Release stands in program order, too (40_access_classes.md R210, R214 to R216,
R218, R219, R226, R229; 20_memory.md R57; log 17). That a Memory Set stores the low byte of its register and leaves every register
as it is, is the model's choice (log 33): the spec says neither. -/
def Obligations.StoresWriteTheirBytes : Prop :=
  ∀ (i : Instr) (s : State) (c : AccessClass) (f : RegFile) (es : List Elem), storeForm i = some (c, f, es) →
    featurePresent i s.platform = true → Sequential s → Memory.wf s.mem = true →
    admitted s c (f, []) (f, es) [] = true → quiet s c (f, []) (f, es) [] = true →
    ∃ t, exec i s = .next t ∧ t.inflight = [] ∧
      t.me = (if releases i = true then
        { s.me with marks := s.me.marks ++ [{ kind := .release, option := 0, at_ := s.nextId }] } else s.me) ∧
      ∀ pa b, lastStored (storeBytes s f es) pa = some b →
        (∀ id a, a.isDevice = b.attr.isDevice → t.byteFor s.cur id a pa = b.val) ∧
        (b.attr.isDevice = true ∨ s.plan.hold = none → Memory.read t.mem pa = b.val)

/-- A completed store is seen by every observer it is data coherent for: all of them for Device memory and memory
Non-cacheable at both levels, those of the same Inner domain for Inner or Outer Shareable memory, those of the same Outer
domain for Outer Shareable memory (20_memory.md R70, R71, R73; 21_device_memory.md R129). Whatever the caches then do by
themselves, write backs, evictions and speculative reads, such an observer still reads it from Normal memory. -/
def Obligations.CompletedStoresAreCoherent : Prop :=
  ∀ (i : Instr) (s : State) (c : AccessClass) (f : RegFile) (es : List Elem) (wi oi : ObserverInfo),
    storeForm i = some (c, f, es) → featurePresent i s.platform = true → Sequential s → Memory.wf s.mem = true →
    admitted s c (f, []) (f, es) [] = true → quiet s c (f, []) (f, es) [] = true →
    domainsValid s.platform.observers = true →
    wi ∈ s.platform.observers → wi.id = s.cur → oi ∈ s.platform.observers →
    ∃ t, exec i s = .next t ∧ ∀ pa b, lastStored (storeBytes s f es) pa = some b →
      (b.attr.isDevice = true ∨ b.attr.isNormalNC = true ∨
        (b.attr.effSh = .ish ∧ sameInner s.platform s.cur oi.id = true) ∨
        (b.attr.effSh = .osh ∧ (sameInner s.platform s.cur oi.id = true ∨ sameOuter s.platform s.cur oi.id = true))) →
      ∀ u, (u = t ∨ b.attr.isNormal = true ∧ CacheRun t u) → ∀ id a, a.isDevice = b.attr.isDevice →
        u.byteFor oi.id id a pa = b.val

/-- Visibility across a level of cache without maintenance: a completed write that is Non-cacheable or Write-Through for
the level, made inside it, is seen by all observers outside it (20_memory.md R82); one that is Non-cacheable for the
level, made outside it, is seen by all observers inside it (R83); so it stays, whatever the caches then do by themselves.
Which observers are inside a level is the model's reading: those with a cache of its tag on their path (log 51). -/
def Obligations.WritesAreVisibleAcrossCacheLevels : Prop :=
  ∀ (i : Instr) (s : State) (c : AccessClass) (f : RegFile) (es : List Elem) (oi : ObserverInfo) (l : CacheLevel),
    storeForm i = some (c, f, es) → featurePresent i s.platform = true → Sequential s → Memory.wf s.mem = true →
    admitted s c (f, []) (f, es) [] = true → quiet s c (f, []) (f, es) [] = true →
    oi ∈ s.platform.observers →
    ∃ t, exec i s = .next t ∧ ∀ pa b, lastStored (storeBytes s f es) pa = some b → b.attr.isNormal = true →
      (((b.attr.cacheAt l = .nc ∨ b.attr.cacheAt l = .wt) ∧ insideLevel s.platform s.cur l = true ∧
          insideLevel s.platform oi.id l = false) ∨
        (b.attr.cacheAt l = .nc ∧ insideLevel s.platform s.cur l = false ∧ insideLevel s.platform oi.id l = true)) →
      ∀ u, CacheRun t u → ∀ id a, a.isDevice = b.attr.isDevice → u.byteFor oi.id id a pa = b.val

/-- An observer that need not see a completed store to Normal memory (as another observer's to Non-shareable cacheable
memory): where the store stops in a cache off its path, and what its own caches hold of the location is not dropped, it reads
exactly what it read before; where the store reaches the endpoint and no cache of its path keeps a copy, it reads the new value.
So both reads exist (20_memory.md R68, R77); which copies a write drops is the model's choice (log 35). -/
def Obligations.UnseenStoresAreReadStaleOrFresh : Prop :=
  ∀ (i : Instr) (s : State) (c : AccessClass) (f : RegFile) (es : List Elem) (oi : ObserverInfo),
    storeForm i = some (c, f, es) → featurePresent i s.platform = true → Sequential s → Memory.wf s.mem = true →
    admitted s c (f, []) (f, es) [] = true → quiet s c (f, []) (f, es) [] = true →
    oi ∈ s.platform.observers → oi.id ≠ s.cur →
    ∃ t, exec i s = .next t ∧ ∀ pa b, lastStored (storeBytes s f es) pa = some b → b.attr.isNormal = true →
      mustSee s.platform b.attr s.cur oi.id = false →
      ((∃ u ∈ (infoOf s.platform s.cur).path, s.plan.hold = some u.id ∧ b.attr.cacheAt u.tag = .wb ∧
          ∀ v ∈ (infoOf s.platform oi.id).path, v.id ≠ u.id) →
        (∀ v ∈ (infoOf s.platform oi.id).path, staleUnit s.platform b.attr s.cur v.id = false ∨
          ∀ l ∈ s.lines, l.unit = some v.id → l.pa ≠ pa) →
        ∀ id a, a.isNormal = true → t.byteFor oi.id id a pa = s.byteFor oi.id id a pa) ∧
      (s.plan.hold = none →
        (∀ v ∈ (infoOf s.platform oi.id).path, staleUnit s.platform b.attr s.cur v.id = true ∨
          ∀ l ∈ s.lines, l.unit = some v.id → l.pa ≠ pa) →
        ∀ id a, a.isNormal = true → t.byteFor oi.id id a pa = b.val)

/-- Store-Exclusive. Where the implementation lets it succeed and no reservation that another observer's write was taken into
account at is on its locations, it writes them and leaves status 0, with a reservation or without one (as a Store-Release it
also stands in program order); where the implementation lets it fail, or such a reservation is on one of its locations, it
leaves status 1 and writes nothing; both end the reservation, and no earlier load overwrites the status (log 61). All of this but the loss is the model's choice: the spec has no rule of success or failure beyond
what a reservation takes into account (40_access_classes.md R210, R213; 20_memory.md R75, R78; log 28). -/
def Obligations.StoreExclusiveWritesUnlessOthersIntervened : Prop :=
  ∀ (rel : Bool) (rs : RegNum) (es : List Elem) (s : State), Sequential s →
    Memory.wf s.mem = true → admitted s .storeExclusive (.gp, []) (.gp, es) [] = true →
    quiet s .storeExclusive (.gp, []) (.gp, es) [] = true →
    (s.plan.exclOk = true →
      (∀ r, s.me.excl = some r → r.lost = true → ∀ pa ∈ placesOf s .gp es, ∀ q ∈ r.bytes, q.1 ≠ pa) →
      ∃ t, exec (.storeExcl rs ⟨rel, es⟩) s = .next t ∧
        t.me = ({ s.me with
          excl := none
          marks := if rel = true then s.me.marks ++ [{ kind := .release, option := 0, at_ := s.nextId }]
            else s.me.marks } : Observer).overwriteX rs 0 s.nextId ∧
        ∀ pa b, lastStored (storeBytes s .gp es) pa = some b →
          (∀ id a, a.isDevice = b.attr.isDevice → t.byteFor s.cur id a pa = b.val) ∧
          (b.attr.isDevice = true ∨ s.plan.hold = none → Memory.read t.mem pa = b.val)) ∧
    ((s.plan.exclOk = false ∨
        ∃ r, s.me.excl = some r ∧ r.lost = true ∧ ∃ pa ∈ placesOf s .gp es, ∃ q ∈ r.bytes, q.1 = pa) →
      ∃ t, exec (.storeExcl rs ⟨rel, es⟩) s = .next t ∧ t.me = ({ s.me with excl := none } : Observer).overwriteX rs 1 s.nextId ∧
        t.mem = s.mem ∧ t.lines = s.lines ∧ t.inflight = [])

/-- The exclusive-access state takes the writes of other observers into account, byte by byte, by each byte's record: of
the same Inner domain for Inner Shareable, of the same Outer domain for Outer Shareable memory (20_memory.md R75); for
Non-shareable memory exactly where the implementation says so (R78). What takes one into account is marked lost (log 28). -/
def Obligations.ReservationsTakeOtherObserversIntoAccount : Prop :=
  ∀ (s : State) (w : Xact) (o : Nat) (r : Reservation), w.dir = .write → (s.getObs o).excl = some r → o ≠ w.obs →
    ((∃ b ∈ w.bs, ∃ q ∈ r.bytes, q.1 = b.pa ∧
        ((q.2.effSh = .ish ∧ sameInner s.platform w.obs o = true) ∨
          (q.2.effSh = .osh ∧ sameOuter s.platform w.obs o = true) ∨
          (q.2.effSh = .nsh ∧ s.platform.nshExclMultiObserver = true))) →
      ((s.perform w).getObs o).excl = some { r with lost := true }) ∧
    ((∀ b ∈ w.bs, ∀ q ∈ r.bytes, q.1 = b.pa →
        (q.2.effSh = .ish ∧ sameInner s.platform w.obs o = false) ∨
          (q.2.effSh = .osh ∧ sameOuter s.platform w.obs o = false) ∨
          (q.2.effSh = .nsh ∧ s.platform.nshExclMultiObserver = false)) →
      ((s.perform w).getObs o).excl = some r)

/-! ### Memory Copy, prefetch, maintenance, barriers -/

/-- A copy whose reads are made before its writes, in order, writes to each destination byte what its source byte held before
(40_access_classes.md R228); that it changes no register is the model's choice (log 32), and so are the bytes it holds between. -/
def Obligations.CopyMovesTheBytes : Prop :=
  ∀ (rd rs rn : RegNum) (s : State) (src dst : List Elem), s.platform.haveMOPS = true → Sequential s →
    Memory.wf s.mem = true → src = copyElems (s.me.xreg rs).toNat (s.me.xreg rn).toNat s.nextId →
    dst = copyElems (s.me.xreg rd).toNat (s.me.xreg rn).toNat s.nextId →
    admitted s .memCopy (.copy, src) (.copy, dst) [] = true → quiet s .memCopy (.copy, src) (.copy, dst) [] = true →
    ∃ t, exec (.cpy rd rs rn) s = .next t ∧ t.me = { s.me with copyBuf := t.me.copyBuf } ∧ t.inflight = [] ∧
      ∀ pa b, lastStored (copyBytes s (s.me.xreg rs).toNat (s.me.xreg rd).toNat (s.me.xreg rn).toNat) pa = some b →
        (∀ id a, a.isDevice = b.attr.isDevice → t.byteFor s.cur id a pa = b.val) ∧
        (b.attr.isDevice = true ∨ s.plan.hold = none → Memory.read t.mem pa = b.val)

/-- A copy of no bytes reads and writes nothing, whatever the plan (21_device_memory.md R120). That it changes no register is
the model's choice (log 32): the spec does not say what a copy leaves in its registers. -/
def Obligations.CopyOfNothingAccessesNothing : Prop :=
  ∀ (rd rs rn : RegNum) (s : State), s.platform.haveMOPS = true → s.inflight = [] → s.me.xreg rn = 0 →
    ∃ t, exec (.cpy rd rs rn) s = .next t ∧ t.me = s.me ∧ t.mem = s.mem ∧ t.lines = s.lines ∧
      t.inflight = [] ∧ t.arrivals = s.arrivals ∧ t.touched = s.touched

/-- An SVE vector prefetch makes no access to Device memory: at most speculative reads of Normal memory, which leave clean
copies in a cache (21_device_memory.md R177; 20_memory.md R55); it completes unless a location it reads is refused (R63,
R81). That the copies are in the cache at once is the model's choice (log 35), and so are that no walk is made for them (log 27) and
that each read is logged as an arrival (log 55). -/
def Obligations.PrefetchNeverTouchesDeviceMemory : Prop :=
  ∀ (es : List Elem) (s : State) (vas : List Nat), s.platform.haveSVE = true →
    vas = (activeElems es).flatMap (fun e => List.range' e.addr e.size) →
    (s.plan.alloc = none → exec (.svePrefetch es) s = .next s) ∧
    ∀ u, s.plan.alloc = some u →
      (s.recordRefusal (s.specBytes s.cur vas) = none →
        ∃ t, exec (.svePrefetch es) s = .next t ∧ OnlyFills s t s.cur u false vas ∧
          ((∀ va ∈ vas, ∀ r, dataTr s.platform s.me.ctl va = some r → r.attr.isDevice = true) → t = s)) ∧
      (∀ q, s.recordRefusal (s.specBytes s.cur vas) = some q → exec (.svePrefetch es) s = .refused q)

/-- Cache maintenance: either nothing, or the dirty copies of the named locations reach the endpoint, the newest last,
and no cache answers for them any more; other locations and every register are untouched (40_access_classes.md R230;
21_device_memory.md R143, R161; log 34). -/
def Obligations.CacheMaintenanceWritesBack : Prop :=
  ∀ (addr len : Nat) (s : State) (pas : List Nat), s.locations (List.range' addr len) = .ok pas →
    Memory.wf s.mem = true →
    ∃ t, exec (.cacheMaint addr len) s = .next t ∧
      t = { s with lines := t.lines, mem := t.mem, arrivals := t.arrivals } ∧ (s.plan.maint = false → t = s) ∧
      (s.plan.maint = true →
        t.lines = s.lines.filter (fun l => !pas.contains l.pa) ∧
        (∀ pa ∈ pas, ∀ l, s.lines.find? (fun l => l.dirty && l.pa == pa) = some l → Memory.read t.mem pa = l.val) ∧
        (∀ pa, (∀ l ∈ s.lines, l.dirty = true → l.pa = pa → pa ∉ pas) → Memory.read t.mem pa = Memory.read s.mem pa))

/-- DMB makes no access and writes no register: it stands in program order before every later access
(40_access_classes.md R211). -/
def Obligations.DmbStandsInProgramOrder : Prop :=
  ∀ (crm : BitVec 4) (s : State), ∃ t, exec (.dmb crm) s = .next t ∧ t = { s with obs := t.obs } ∧
    t.me = { s.me with marks := s.me.marks ++ [{ kind := .dmb, option := crm.toNat, at_ := s.nextId }] } ∧
    ∀ o, o ≠ s.cur → t.getObs o = s.getObs o

/-- A DMB that applies to both gives Barrier-ordered-before between an earlier and a later access of one observer, both
to Device memory or both to Normal Non-cacheable memory, in one block (20_memory.md R84; 21_device_memory.md R133), of accesses
of several locations with any of them (log 64). -/
def Obligations.DmbOrdersAccessesOfOneBlock : Prop :=
  ∀ (s : State) (a b : Xact) (m : Mark), m ∈ (s.getObs a.obs).marks → m.kind = .dmb → a.obs = b.obs →
    a.id < m.at_ → m.at_ ≤ b.id → barrierAffects s.platform m.option a.dir b.dir = true →
    (a.attr.isDevice = true ∧ b.attr.isDevice = true ∨ a.attr.isNormalNC = true ∧ b.attr.isNormalNC = true) →
    (∃ x ∈ a.bs, ∃ y ∈ b.bs, blockOf s.platform x.pa = blockOf s.platform y.pa) →
    s.bob a b = true ∧ s.ob a b = true ∧ (a.instr ≠ b.instr → s.mustPrecede a b = true)

/-- A DSB completes only after every earlier write of its observer without Early Write Acknowledgement, whose endpoint
must acknowledge (for one of its locations: log 64) and which the barrier affects (log 14), has reached its endpoint: it makes
them arrive, with what is performed before them, in its own step (log 30); none later than the writes it waits for is
performed for it, nor, where no write is seen before it completes, one of another observer (log 65), so that other writes may
still be in flight when it completes (21_device_memory.md R168). It stands in program order as a DMB does. -/
def Obligations.DsbWaitsForTheEndpoint : Prop :=
  (∀ (crm : BitVec 4) (s : State), NumbersOk s →
    ∃ t, exec (.dsb crm) s = .next t ∧
      (∀ x ∈ s.inflight, AwaitedByDsb s crm x → (∀ y ∈ t.inflight, y.id ≠ x.id) ∧
        (x.attr.isDevice = true → ∃ y ∈ t.arrived, y.id = x.id)) ∧
      (∀ y ∈ s.inflight, ((y.obs ≠ s.cur ∧ s.early = []) ∨ ∀ x ∈ s.inflight, AwaitedByDsb s crm x → x.id < y.id) →
        y ∈ t.inflight) ∧
      t.me.marks = s.me.marks ++ [{ kind := .dsb, option := crm.toNat, at_ := s.nextId }]) ∧
  (∀ (crm : BitVec 4) (s : State),
    (∀ x ∈ s.inflight, x.obs = s.cur → x.dir = .write → x.dt = some .nGnRnE →
      ∀ b ∈ x.bs, (regionAt s.platform b.pa).ackRequired = false) →
    ∃ t, exec (.dsb crm) s = .next t ∧ t.inflight = s.inflight ∧ t.mem = s.mem ∧ t.arrivals = s.arrivals ∧
      t.me = { s.me with marks := s.me.marks ++ [{ kind := .dsb, option := crm.toNat, at_ := s.nextId }] })

/-! ### What instructions leave unchanged -/

/-- The frame of every load but LDRAA and LDRAB, under every plan and with accesses of earlier instructions in flight:
no register but its destinations, no byte of memory, no mark but an acquire's, no FFR but of a First-fault or Non-fault
load, no reservation but a Load-Exclusive's, and the syndrome, the slot and the handler only by an exception. That an exception
other than the Alignment fault of 60_exceptions.md R243 leaves the syndrome as it was is the model's choice (log 21). -/
def Obligations.LoadsFrame : Prop :=
  ∀ (i : Instr) (s t : State) (l : LoadForm), loadForm i s = some l → exec i s = .next t →
    Untouched s t (regsWritten l.file l.all) (fun _ => False) ∧ OnlyByException s t ∧
    ((∀ es, i ≠ .sveFirstFault es) → (∀ es, i ≠ .sveNonFault es) → t.me.ffr = s.me.ffr) ∧
    ((∀ simd es, i ≠ .loadAcq ⟨simd, es⟩) → (∀ es, i ≠ .loadExcl ⟨true, es⟩) → t.me.marks = s.me.marks) ∧
    ((∀ acq es, i ≠ .loadExcl ⟨acq, es⟩) → (∀ x ∈ s.inflight, x.obs = s.cur) → t.me.excl = s.me.excl) ∧
    ((∀ x ∈ s.inflight, x.dir = .read) → ∀ o, o ≠ s.cur → (t.getObs o).excl = (s.getObs o).excl)

/-- The frame of every store but Store-Exclusive: no register, no byte of memory outside the locations of its
footprint, no FFR, no mark but a release's, no reservation of its own. That a Memory Set leaves its registers is the model's
choice (log 33): the spec does not say what it leaves there; and so is that an exception other than the Alignment fault of
60_exceptions.md R243 leaves the syndrome as it was (log 21). -/
def Obligations.StoresFrame : Prop :=
  ∀ (i : Instr) (s t : State) (c : AccessClass) (f : RegFile) (es : List Elem), storeForm i = some (c, f, es) →
    exec i s = .next t →
    Untouched s t [] (fun pa => pa ∈ placesOf s f es) ∧ OnlyByException s t ∧ t.me.ffr = s.me.ffr ∧
    (releases i = false → t.me.marks = s.me.marks) ∧
    ((∀ x ∈ s.inflight, x.obs = s.cur) → t.me.excl = s.me.excl)

/-- The frame of the instructions with operands in registers beside their addresses: Store-Exclusive (its status
register and its footprint; a mark as a Store-Release), LDRAA and LDRAB (the loaded register and, with W, the base), DSB
(nothing), CPY (the bytes it holds and the locations of the destination range, taken after the reads in flight for its
registers). That CPY changes no general-purpose register is the model's choice (log 32): the spec does not say what a copy leaves
there; and so is that an exception other than the Alignment fault of 60_exceptions.md R243 leaves the syndrome as it was (log 21). -/
def Obligations.OtherInstructionsFrame : Prop :=
  (∀ (rel : Bool) (rs : RegNum) (es : List Elem) (s t : State), exec (.storeExcl rs ⟨rel, es⟩) s = .next t →
    Untouched s t (if rs = 31 then [] else [(.gp, rs)]) (fun pa => pa ∈ placesOf s .gp es) ∧ OnlyByException s t ∧
    t.me.ffr = s.me.ffr ∧ (rel = false → t.me.marks = s.me.marks)) ∧
  (∀ (i : Instr) (sb : BitVec 1) (imm9 : BitVec 9) (w : BitVec 1) (rn rt : RegNum) (s t : State),
    i = .ldraa sb imm9 w rn rt ∨ i = .ldrab sb imm9 w rn rt → exec i s = .next t →
    Untouched s t ((if rt = 31 then [] else [(.gp, rt)]) ++ (if w = 1 then [(.gp, rn)] else [])) (fun _ => False) ∧
    OnlyByException s t ∧ t.me.ffr = s.me.ffr ∧ t.me.marks = s.me.marks ∧
    ((∀ x ∈ s.inflight, x.obs = s.cur) → t.me.excl = s.me.excl)) ∧
  (∀ (crm : BitVec 4) (s t : State), exec (.dsb crm) s = .next t →
    Untouched s t [] (fun _ => False) ∧ t.me.handler = s.me.handler ∧ t.me.current = s.me.current ∧
    t.me.esr = s.me.esr ∧ t.me.ffr = s.me.ffr ∧ ((∀ x ∈ s.inflight, x.obs = s.cur) → t.me.excl = s.me.excl)) ∧
  (∀ (rd rs rn : RegNum) (s t u : State), u = s.settle s.cur [(.gp, rd), (.gp, rs), (.gp, rn)] →
    exec (.cpy rd rs rn) s = .next t →
    Untouched s t [(.copy, 0)] (fun pa => pa ∈ placesOf u .copy (copyElems (u.me.xreg rd).toNat (u.me.xreg rn).toNat u.nextId)) ∧
    OnlyByException s t ∧ t.me.ffr = s.me.ffr ∧ t.me.marks = s.me.marks ∧
    ((∀ x ∈ s.inflight, x.obs = s.cur) → t.me.excl = s.me.excl))

/-! ### Refusals and exceptions -/

/-- An instruction whose adjacent bytes of one direction differ in memory type or Shareability is refused, and so is
one that makes more than one access, all to Device memory, in more than one smallest granule
(22_access_restrictions.md R190, R194; D38; which accesses count and by which addresses: log 24); the refusal wins over any
fault (R197). -/
def Obligations.BoundaryCrossingsAreRefused : Prop :=
  ∀ (i : Instr) (s : State) (m : MemForm) (rd wr first : List RElem), Reaches i s m rd wr first →
    (((∃ a ∈ allBytes rd, ∃ b ∈ allBytes rd, b.tr.pa = a.tr.pa + 1 ∧ differ a.tr.attr b.tr.attr) ∨
      (∃ a ∈ allBytes wr, ∃ b ∈ allBytes wr, b.tr.pa = a.tr.pa + 1 ∧ differ a.tr.attr b.tr.attr)) →
      exec i s = .refused .attributeBoundary) ∧
    (isSequence s.platform m.cls (m.rd ++ m.wr) = true →
      (∀ b ∈ allBytes rd ++ allBytes wr, b.tr.attr.isDevice = true) →
      (∃ a ∈ allBytes rd ++ allBytes wr, ∃ b ∈ allBytes rd ++ allBytes wr,
        a.tr.pa / s.platform.minGranule ≠ b.tr.pa / s.platform.minGranule) →
      exec i s = .refused .attributeBoundary ∨ exec i s = .refused .granuleBoundary)

/-- An access with a Normal record to a location that is not idempotent, and one with a record that differs in more
than the hints from the record of an earlier access to the location, are refused: by an instruction, with its explicit
bytes, the extra ones of Device memory and the walks for them, by a fetch and by its walk (20_memory.md R63, R81;
21_device_memory.md R158; logs 22, 23, 58). Under the launch premises, with only such accesses made before, none is
(70_reset_and_hazards.md R261). -/
def Obligations.NonIdempotentAndMismatchedAreRefused : Prop :=
  (∀ (i : Instr) (s : State) (m : MemForm) (rd wr first : List RElem), Reaches i s m rd wr first →
    (∃ b ∈ s.reached m.cls rd wr (pasOf first), Clashes s b) →
    ∃ q, exec i s = .refused q ∧
      (q = .attributeBoundary ∨ q = .granuleBoundary ∨ q = .mismatchedAttributes ∨ q = .nonIdempotentNormal)) ∧
  (∀ (s : State) (slot : Slot) (va : Nat) (t : Tr), slot.va = some va → fetchTr s.me.ctl va = some t →
    ((∃ b ∈ walkBytes s.platform s.me.ctl t.walk, Clashes s b) ∨
      (Clashes s (fetchByte va t) ∧ (∀ w ∈ t.walk, walkFaults s.platform s.me.ctl w = false) ∧ s.me.ctl.el ∉ t.xn ∧
        (t.attr.isDevice = true → s.plan.fetchAsNC = true))) →
    s.fetchAccess slot = .refuse .mismatchedAttributes ∨ s.fetchAccess slot = .refuse .nonIdempotentNormal) ∧
  (∀ (s : State) (os pas : List Nat), LaunchPremises s os pas →
    (∀ q ∈ s.touched, ∃ a, ReachedWith s q.1 a ∧ a.eraseHints = q.2) →
    (∀ (i : Instr) (m : MemForm) (rd wr first : List RElem), Reaches i s m rd wr first →
      exec i s ≠ .refused .mismatchedAttributes ∧ exec i s ≠ .refused .nonIdempotentNormal) ∧
    ∀ (slot : Slot) (q : Refusal), s.fetchAccess slot ≠ .refuse q)

/-- An unaligned access to Device memory takes an Alignment fault, at the first stage that defined as Device a location
that cannot support it (21_device_memory.md R134), or one at all where the implementation does not (R135), before any of the
instruction's accesses is made; only where the plan abandons a sequence, or makes accesses of its other parts first, do some
come before the exception (60_exceptions.md R244); the registers are then as before the instruction (of the bytes a copy holds
nothing is said), which is the model's choice (logs 49, 57), and so is that the virtual address is the one that is not a multiple of the size (log 19). Where neither
holds for any byte, no Alignment fault is taken and the access is made (R135). What the syndrome holds where R243 does not say it, its
old value, is the model's choice (log 21). -/
def Obligations.UnalignedDeviceAccessesFault : Prop :=
  ∀ (i : Instr) (s : State) (m : MemForm) (rd wr first : List RElem), Reaches i s m rd wr first →
    breaksRestriction s m.cls rd wr first = false →
    (∀ w ∈ walksOf (allBytes rd ++ allBytes wr), walkFaults s.platform s.me.ctl w = false) →
    (s.platform.unalignedAccessEnabled = true ∨ unalignedNormal (rd ++ wr) = false) →
    ((∃ r ∈ rd ++ wr, unalignedElem r.e = true ∧ ∃ b ∈ r.bs, b.tr.attr.isDevice = true ∧
        ((regionAt s.platform b.tr.pa).supportsUnaligned = false ∨ s.platform.deviceUnalignedFault = true)) →
      ∃ r ∈ rd ++ wr, unalignedElem r.e = true ∧ ∃ b ∈ r.bs, b.tr.attr.isDevice = true ∧
        ((regionAt s.platform b.tr.pa).supportsUnaligned = false ∨ s.platform.deviceUnalignedFault = true) ∧
        (s.plan.abandon = false → s.plan.midway = false →
          exec i s = .next (s.takeException (.alignment b.tr.stage) false)) ∧
        ∃ t c again, exec i s = .next t ∧ (c = .alignment b.tr.stage ∨ s.plan.abandon = true ∧ c = .abandoned) ∧
          (again = true → s.plan.abandon = true ∨ s.plan.midway = true) ∧
          t.me = { s.me with
            copyBuf := t.me.copyBuf, esr := t.me.esr
            handler := some { cause := c, slot := s.me.current, restarts := again }, current := none }) ∧
    ((∀ r ∈ rd ++ wr, unalignedElem r.e = true → ∀ b ∈ r.bs, b.tr.attr.isDevice = true →
        (regionAt s.platform b.tr.pa).supportsUnaligned = true ∧ s.platform.deviceUnalignedFault = false) →
      s.verdict m.cls rd wr (pasOf first) = .go ∧ ∃ t, exec i s = .next t)

/-- With TGE 1 and DC 0 every data location of the EL1&0 regime is Device, its Alignment fault is at stage 1 and the
syndrome's ISS[24] is 0 (21_device_memory.md R137; 60_exceptions.md R243). -/
def Obligations.TgeFaultsAreAtStageOne : Prop :=
  ∀ s : State, s.platform.haveEL2 = true → s.me.ctl.hcrTGE = true → s.me.ctl.hcrDC = false →
    s.me.ctl.el = .el0 ∨ s.me.ctl.el = .el1 →
    (∀ va t, dataTr s.platform s.me.ctl va = some t → t.attr.isDevice = true ∧ t.stage = .s1) ∧
    ∀ st again, (s.takeException (.alignment st) again).me.esr.getLsbD 24 = false

/-- With PTW 1, an instruction whose stage 1 walk goes to Device memory takes a stage 2 Permission fault instead of its
accesses, and so does a fetch (21_device_memory.md R140; 60_exceptions.md R242); of a speculative walk only what does not
fault is made. Without PTW such walks read the device: those of an instruction, before its own accesses, and those made
speculatively, with no instruction asking for them (21_device_memory.md R139). That every instruction makes the walks for its
bytes, but those the plan says were kept from one it made before, and all before its accesses, is the model's choice (log 27), and so are
the way they arrive (log 55), that only the reads of a speculative walk of Gathering memory may stay in flight, to be gathered with others (log 66),
the fault of a walk for an element of a Non-fault or First-fault load (log 52), the syndrome, which keeps its value (log 21), and the
registers after a sequence that an exception ends: as before it, of the bytes a copy holds nothing is said (logs 49, 57). -/
def Obligations.WalksOfDeviceMemory : Prop :=
  (∀ (i : Instr) (s : State) (m : MemForm) (rd wr first : List RElem), Reaches i s m rd wr first →
    breaksRestriction s m.cls rd wr first = false →
    (s.platform.unalignedAccessEnabled = true ∨ unalignedNormal (rd ++ wr) = false) → s.me.ctl.hcrPTW = true →
    (∃ w ∈ walksOf (allBytes rd ++ allBytes wr), (walkAttr s.platform s.me.ctl w).isDevice = true) →
    (s.plan.abandon = false → s.plan.midway = false → exec i s = .next (s.takeException .permissionWalk false)) ∧
    ∃ t c again, exec i s = .next t ∧ (c = .permissionWalk ∨ s.plan.abandon = true ∧ c = .abandoned) ∧
      (again = true → s.plan.abandon = true ∨ s.plan.midway = true) ∧
      t.me = { s.me with
        copyBuf := t.me.copyBuf, esr := t.me.esr
        handler := some { cause := c, slot := s.me.current, restarts := again }, current := none }) ∧
  (∀ (s : State) (slot : Slot) (va : Nat) (t : Tr), slot.va = some va → fetchTr s.me.ctl va = some t →
    s.recordRefusal (walkBytes s.platform s.me.ctl t.walk) = none → s.me.ctl.hcrPTW = true →
    (∃ w ∈ t.walk, (walkAttr s.platform s.me.ctl w).isDevice = true) → s.fetchAccess slot = .take .permissionWalk) ∧
  (∀ (i : Instr) (s : State) (m : MemForm) (rd wr first : List RElem), Reaches i s m rd wr first →
    s.verdict m.cls rd wr (pasOf first) = .go → s.me.ctl.hcrPTW = false →
    ∃ t ws l, exec i s = .next t ∧ ws = s.dueWalks s.cur s.me.ctl s.plan.kept (s.instrWalks m.cls rd wr (pasOf first)) ∧
      t.arrivals = s.arrivals ++ ws.map (fun w => (walkAccess s.platform s.cur s.me.ctl w).arrival s.platform) ++ l ∧
      ∀ w ∈ walksOf (allBytes rd ++ allBytes wr), w ∈ ws ∨ (w.pa ∈ s.plan.kept ∧
        ∃ e ∈ s.arrivals, ∃ x ∈ e.accesses, x.kind = .walkRead ∧ x.obs = some s.cur ∧ x.bytes = w.bytes)) ∧
  (∀ (s : State) (o va : Nat) (t : Tr), dataTr s.platform (s.getObs o).ctl va = some t →
    s.recordRefusal (walkBytes s.platform (s.getObs o).ctl t.walk) = none →
    (∃ u, s.handle (.specWalk o va none) = .next u ∧ u = { s with arrivals := u.arrivals, mem := u.mem, touched := u.touched } ∧
      u.arrivals = s.arrivals ++ (t.walk.filter (fun w => !(s.getObs o).ctl.hcrPTW ||
        !(walkAttr s.platform (s.getObs o).ctl w).isDevice)).map
          (fun w => (walkAccess s.platform o (s.getObs o).ctl w).arrival s.platform)) ∧
    ∀ n, ∃ u xs, s.handle (.specWalk o va (some n)) = .next u ∧
      u = { s with arrivals := u.arrivals, mem := u.mem, touched := u.touched, inflight := s.inflight ++ xs,
                   nextId := u.nextId, nextInstr := u.nextInstr } ∧
      u.arrivals = s.arrivals ++ ((madeWalks s.platform (s.getObs o).ctl t.walk).filter
        (fun w => !mayLinger s.platform (walkAttr s.platform (s.getObs o).ctl w))).map
          (fun w => (walkAccess s.platform o (s.getObs o).ctl w).arrival s.platform) ∧
      xs.map (fun x => (x.touchedBytes, x.attr)) = ((madeWalks s.platform (s.getObs o).ctl t.walk).filter
        (fun w => mayLinger s.platform (walkAttr s.platform (s.getObs o).ctl w))).map
          (fun w => (w.bytes, walkAttr s.platform (s.getObs o).ctl w)) ∧
      ∀ x ∈ xs, x.obs = o ∧ x.cls = .walk ∧ x.dir = .read ∧ x.dst = none ∧ x.fuel = n)

/-- An instruction fetch from a Device location that is not execute-never at the current level is made, with the record of
Normal Non-cacheable memory, or takes a Permission fault, as the implementation chooses at this fetch (21_device_memory.md
R141). The step takes a fetch's exception instead of running the instruction. That the fetch keeps its location's XS attribute
and is judged by its Device record, and that each fetch makes its walk, but for reads the plan says were kept from one made before,
are the model's choices (logs 27, 58), and so is that its exception leaves the syndrome as it was (log 21). -/
def Obligations.DeviceFetchesAreMadeOrFault : Prop :=
  (∀ (s : State) (slot : Slot) (va : Nat) (t : Tr), slot.va = some va → fetchTr s.me.ctl va = some t →
    (∀ w ∈ t.walk, walkFaults s.platform s.me.ctl w = false) → t.attr.isDevice = true →
    s.recordRefusal (fetchByte va t :: walkBytes s.platform s.me.ctl t.walk) = none →
    (s.me.ctl.el ∉ t.xn → s.plan.fetchAsNC = true →
      ∃ u a, s.fetchAccess slot = .go u ∧ u = { s with arrivals := u.arrivals, mem := u.mem, touched := u.touched } ∧
        u.arrivals = (s.walkReads s.cur s.me.ctl (s.dueWalks s.cur s.me.ctl s.plan.fetchKept t.walk)).arrivals ++
          [(fetchAccessOf s.cur t a).arrival s.platform] ∧
        a.isNormalNC = true ∧ a.effSh = .osh ∧ a.xs = t.attr.xs) ∧
    (s.me.ctl.el ∉ t.xn → s.plan.fetchAsNC = false →
      s.fetchAccess slot = .take (.permissionFetch s.plan.faultStage))) ∧
  (∀ (s : State) (p : Plan) (rest : List Event) (slot : Slot) (more : List Slot) (r : Raise),
    s.inputs = .run p :: rest → s.me.handler = none → s.me.program = slot :: more →
    (({ s with inputs := rest, plan := p } : State).begin slot more).fetchAccess slot = .take r →
    step s = .next ((({ s with inputs := rest, plan := p } : State).begin slot more).takeException r false).tick)

/-- A speculative instruction fetch reads a Device location unless it is execute-never for all Exception levels (after its
walk, which must not fault), and no register and no cache changes: at once, or, where it is asked to stay and the
implementation treats the location as Gathering, as a read in flight. One that is execute-never for all of them is never
fetched from, speculatively or otherwise (21_device_memory.md R136). That a speculative fetch makes its walk reads first, but for
those kept from before (log 27), that the levels are these four on every platform (log 63), and how it is gathered (log 66), are
the model's choices. -/
def Obligations.SpeculativeFetchesReachDevices : Prop :=
  (∀ (s : State) (o va : Nat) (kept : List Nat) (late : Option Nat) (t : Tr), fetchTr (s.getObs o).ctl va = some t →
    t.attr.isDevice = true →
    ((∀ l : EL, l ∈ t.xn) → s.handle (.specFetch o va kept late) = .next s) ∧
    ((∃ l : EL, l ∉ t.xn) → (∀ w ∈ t.walk, walkFaults s.platform (s.getObs o).ctl w = false) →
      s.recordRefusal (fetchByte va t :: walkBytes s.platform (s.getObs o).ctl t.walk) = none →
      ((late = none ∨ mayLinger s.platform t.attr = false) →
        ∃ u, s.handle (.specFetch o va kept late) = .next u ∧
          u = { s with arrivals := u.arrivals, mem := u.mem, touched := u.touched } ∧
          u.arrivals = (s.walkReads o (s.getObs o).ctl (s.dueWalks o (s.getObs o).ctl kept t.walk)).arrivals ++
            [(fetchAccessOf o t t.attr).arrival s.platform]) ∧
      ∀ n, late = some n → mayLinger s.platform t.attr = true →
        ∃ u x, s.handle (.specFetch o va kept late) = .next u ∧
          u = { s with arrivals := u.arrivals, mem := u.mem, touched := u.touched, inflight := s.inflight ++ [x],
                       nextId := u.nextId, nextInstr := u.nextInstr } ∧
          u.arrivals = (s.walkReads o (s.getObs o).ctl (s.dueWalks o (s.getObs o).ctl kept t.walk)).arrivals ∧
          x.touchedBytes = [t.pa] ∧ x.attr = t.attr ∧ x.obs = o ∧ x.cls = .fetch ∧ x.dir = .read ∧ x.dst = none ∧
          x.fuel = n)) ∧
  (∀ (s u : State) (slot : Slot) (va : Nat) (t : Tr), slot.va = some va → fetchTr s.me.ctl va = some t →
    t.attr.isDevice = true → (∀ l : EL, l ∈ t.xn) → s.fetchAccess slot ≠ .go u)

/-- Speculative data reads are of Normal memory, at any time and of any set of locations; they raise nothing, write no
register and no memory, and keep every copy a cache holds: they only add clean ones, with the value the observer reads there, at
once or, `late`, on their way to the cache, which has them after a fill (20_memory.md R51, R55; 10_state.md R36; log 35); Device memory is not read (21_device_memory.md R115). A location that is not idempotent, or was
accessed with a mismatched record, is refused instead (20_memory.md R63, R81). -/
def Obligations.SpeculativeReadsOnlyFillCaches : Prop :=
  ∀ (s : State) (o va size unit : Nat) (late : Bool),
    (s.recordRefusal (s.specBytes o (List.range' va size)) = none →
      ∃ t, s.handle (.specRead o va size unit late) = .next t ∧ OnlyFills s t o unit late (List.range' va size) ∧
        ((∀ k, k < size → ∀ r, dataTr s.platform (s.getObs o).ctl (va + k) = some r → r.attr.isDevice = true) → t = s)) ∧
    (∀ k t, k < size → dataTr s.platform (s.getObs o).ctl (va + k) = some t → t.attr.isNormal = true →
      (∀ w ∈ t.walk, walkFaults s.platform (s.getObs o).ctl w = false) → Clashes s (fetchByte (va + k) t) →
      s.handle (.specRead o va size unit late) = .refused .mismatchedAttributes ∨
        s.handle (.specRead o va size unit late) = .refused .nonIdempotentNormal)

/-- An exception in the middle of a sequence: exactly the accesses the plan names are performed and stay so, those it leaves
stay in flight, the others are not made, the registers are as before the instruction, and on return it runs again from its start, whatever
the cause, while memory, caches and what arrived stay (20_memory.md R52; 60_exceptions.md R244; log 49). So it is where a part of the sequence
itself faults after accesses of other parts: those are made only of what does not fault (log 57). A copy reads a byte before
it writes it: the reads of the bytes that its named writes write are made, too, each before its write (log 32). That the
performances and the exception are one step is the model's choice, too (log 49), and so is that the syndrome keeps its value under
every exception but the fault of R243 (log 21). -/
def Obligations.AbandonedInstructionsRestart : Prop :=
  (∀ (i : Instr) (s : State) (m : MemForm) (rd wr first : List RElem) (c : Raise) (xs : List Xact),
    Reaches i s m rd wr first →
    (∀ rel n es, i = .storeExcl n ⟨rel, es⟩ → s.exclSucceeds wr = true) →
    isSequence s.platform m.cls (m.rd ++ m.wr) = true →
    ((s.verdict m.cls rd wr (pasOf first) = .go ∧ s.plan.abandon = true ∧ c = .abandoned ∧
        xs = (accessesOf i s m rd wr first).map Xact.unheeded) ∨
      ∃ e, s.verdict m.cls rd wr (pasOf first) = .take e ∧
        ((s.plan.abandon = true ∧ c = .abandoned) ∨ (s.plan.abandon = false ∧ s.plan.midway = true ∧ c = e)) ∧
        xs = (sparedAccesses i s m rd wr first).map Xact.unheeded) →
    ∃ t, exec i s = .next t ∧
      StoppedAfter s t xs c ((s.reached m.cls rd wr (pasOf first)).map (fun b => b.tr.pa))) ∧
  (∀ (s t : State) (c : Raise) (retry : Bool), t.me.program = s.me.program → t.cur = s.cur →
    t.me.handler = some { cause := c, slot := s.me.current, restarts := true } →
    ∃ u, t.handle (.exceptionReturn s.cur retry) = .next u ∧ u = { t with obs := u.obs } ∧
      u.me = { t.me with handler := none, program := s.me.current.toList ++ s.me.program })

/-! ### Which bytes a load touches -/

/-- Under every plan, the bytes of Device memory that an instruction reads, before it ends or with reads it leaves in
flight, lie in the rows of the permitted bytes for its class, its explicit and its First active element's bytes
(21_device_memory.md R115 to R124); under the relaxations of R182 and R184 the type asked about may be Gathering (log 37).
A transaction of instructions touches the bytes of its accesses alone. -/
def Obligations.DeviceReadsStayInTheirWindows : Prop :=
  ∀ (i : Instr) (s t : State) (m : MemForm), memForm i s = some m → s.inflight = [] → exec i s = .next t →
    (∀ x, x ∈ t.arrived ∨ x ∈ t.inflight → x ∉ s.arrived → x.dir = .read → ∀ d, x.attr.deviceType = some d →
      ∀ b ∈ x.bs, PermittedRead m.cls (windowType s.platform s.me.ctl s.plan m.cls d).gathering
        (placesOf s m.file m.rd) (placesOf s m.file m.first) b.pa) ∧
    ∃ l, t.arrivals = s.arrivals ++ l ∧ ∀ a ∈ l, a.xs ≠ [] → ∀ q ∈ a.bytes, ∃ x ∈ a.xs, ∃ b ∈ x.bs, b.pa = q

/-- No element of a Non-fault load, and none of a First-fault load but the First active one, reads Device memory
(21_device_memory.md R178); what else a First-fault load may read there are the extra bytes around that element. -/
def Obligations.SuppressedElementsReadNoDeviceMemory : Prop :=
  ∀ (es : List Elem) (s t : State), s.inflight = [] →
    (exec (.sveNonFault es) s = .next t → ∀ x, x ∈ t.arrived ∨ x ∈ t.inflight → x ∉ s.arrived → x.attr.isDevice = false) ∧
    (exec (.sveFirstFault es) s = .next t → ∀ x, x ∈ t.arrived ∨ x ∈ t.inflight → x ∉ s.arrived →
      x.attr.isDevice = true → x.extra = false → ∀ b ∈ x.bs, b.pa ∈ placesOf s .vec (firstActive es))

/-- The rules an access follows: the configured record decides mismatches, and a relaxation creates and removes none, nor any
other verdict on the explicit bytes and their walks (21_device_memory.md R183); its Gathering, Reordering and Early Write
Acknowledgement are those the implementation treats the type as (R114; that these rules follow that type: log 36), or, for an
SVE access, and for a SIMD&FP one in Streaming SVE mode (which SME gives) without FA64, as if all three were set, where the
plan says so, for all of an instruction's accesses (R182, R184; log 9). -/
def Obligations.RelaxedAccessesBehaveAsGre : Prop :=
  (∀ (s : State) (r : Req) (x : Xact), x ∈ xactsOf s r →
    (∃ b ∈ allBytes r.rs ++ r.ex, x.attr = b.tr.attr) ∧ (x.attr.isNormal = true → x.dt = none) ∧
    ∀ d, x.attr.deviceType = some d →
      ((r.cls.isSVE = true ∨ (r.cls.isSimdFp = true ∧ s.platform.haveSME = true ∧ s.me.ctl.streamingSve = true ∧
          ¬ (s.platform.featSmeFA64 = true ∧ s.me.ctl.fa64Enabled = true))) → s.plan.relaxed = true → x.dt = some .GRE) ∧
      (s.plan.relaxed = false ∨ ¬ (r.cls.isSVE = true ∨ (r.cls.isSimdFp = true ∧ s.platform.haveSME = true ∧
          s.me.ctl.streamingSve = true ∧ ¬ (s.platform.featSmeFA64 = true ∧ s.me.ctl.fa64Enabled = true))) →
        x.dt = some (implDevice s.platform d))) ∧
  (∀ (s : State) (v : Bool) (cls : AccessClass) (rd wr : List RElem) (F : List Nat),
    (∀ bs, ({ s with plan := { s.plan with relaxed := v } } : State).recordRefusal bs = s.recordRefusal bs) ∧
    (s.plan.extra = [] → ({ s with plan := { s.plan with relaxed := v } } : State).verdict cls rd wr F = s.verdict cls rd wr F))

/-! ### The memory system -/

/-- A read of a non-Gathering location comes from the endpoint: it is never answered from a buffered write or a cache;
when it is performed it arrives at the endpoint, its register receives what the endpoint holds then, and after that the
peripheral may change (21_device_memory.md R149, R110); that the register receives the value before the peripheral's
transition is the model's choice (log 38), and so is that it receives none where a later load or write has taken it over, and
that a store in flight that waits for the bytes holds them (log 61). -/
def Obligations.NonGatheringReadsComeFromTheEndpoint : Prop :=
  ∀ (s : State) (x : Xact) (again : List Nat) (d : DeviceType), x.dir = .read → x.attr.isDevice = true → x.dt = some d →
    d.gathering = false →
    s.forwardSource x = none ∧
    (s.performOne x again).arrivals = s.arrivals ++ [arrivalOf s.platform .read x.touchedBytes [x] []] ∧
    (s.performOne x again).mem = Memory.react s.platform .read s.mem x.touchedBytes ∧
    ∀ f, x.dst = some f → (s.performOne x again).getObs x.obs =
      { (s.getObs x.obs).putBytes f x.id x.bs (x.bs.map (fun b => Memory.read s.mem b.pa)) with
        held := ((s.performOne x again).getObs x.obs).held }

/-- A peripheral is a transition system the platform supplies: an access to Device memory that arrives makes it take the
first of its transitions that fits, which sets cells of that peripheral alone; locations that are idempotent have none
(21_device_memory.md R110; 20_memory.md R62; log 38). A read that is not answered from a buffered write puts into its register
what was there before that transition (log 38), unless a later load or write has taken the register over (log 61). -/
def Obligations.PeripheralsReactToArrivals : Prop :=
  (∀ (s : State) (x : Xact) (again : List Nat), x.attr.isDevice = true → s.forwardSource x = none →
    (s.performOne x again).mem = (match x.dir with
      | .read => Memory.react s.platform .read s.mem x.touchedBytes
      | .write => Memory.react s.platform .write (Memory.writeBytes s.mem (s.filled x).bs) x.touchedBytes) ∧
    ∀ f, x.dir = .read → x.dst = some f → (s.performOne x again).getObs x.obs =
      { (s.getObs x.obs).putBytes f x.id x.bs (x.bs.map (fun b => Memory.read s.mem b.pa)) with
        held := ((s.performOne x again).getObs x.obs).held }) ∧
  (∀ (p : Platform) (d : Dir) (m : List Host.Cell) (pa : Nat), (regionAt p pa).idempotent = true ∨
      (∀ r ∈ p.reactions, r.dir = d → r.pa = pa → ∃ c ∈ r.given, Memory.read m c.1 ≠ c.2) →
    Memory.react p d m [pa] = m) ∧
  (∀ (p : Platform) (d : Dir) (m : List Host.Cell) (pa : Nat) (us vs : List Reaction) (r : Reaction),
    Memory.wf m = true → (regionAt p pa).idempotent = false → p.reactions = us ++ r :: vs →
    (∀ q ∈ us, q.dir = d → q.pa = pa → ∃ c ∈ q.given, Memory.read m c.1 ≠ c.2) →
    r.dir = d → r.pa = pa → (∀ c ∈ r.given, Memory.read m c.1 = c.2) →
    ∀ q, Memory.read (Memory.react p d m [pa]) q =
      (match r.sets.reverse.find? (fun c => c.1 == q) with
        | some c => if (regionAt p q).idempotent = false ∧ blockOf p q = blockOf p pa then c.2 else Memory.read m q
        | none => Memory.read m q))

/-- A read of a Gathering location answered from a buffered write: only from an earlier Device write of the same observer
that has not arrived, with no DMB or DSB that affects both between them, no other ordering, and not from a Store-Release;
then nothing arrives at the endpoint for it and it returns the write's bytes, for a copy's write those the copy has read
(21_device_memory.md R150; logs 29, 32, 43), which its register receives unless a later load or write has taken it over (log
61). -/
def Obligations.ForwardingKeepsItsConditions : Prop :=
  ∀ (s : State) (x u : Xact) (again : List Nat), s.forwardSource x = some u →
    ∃ w ∈ s.inflight, u = s.filled w ∧ w.dir = .write ∧ w.attr.isDevice = true ∧ w.obs = x.obs ∧ w.id < x.id ∧ x.dir = .read ∧
    (∀ a ∈ s.arrivals, ∀ y ∈ a.xs, y.id ≠ w.id) ∧
    (∃ e, x.dt = some e ∧ e.gathering = true) ∧
    barrierBetween s.platform (s.getObs x.obs).marks [.dmb, .dsb] w x = false ∧
    acqRelBetween (s.getObs x.obs).marks w x = false ∧ s.ob w x = false ∧ w.release = false ∧
    (∀ b ∈ x.bs, ∃ c ∈ w.bs, c.pa = b.pa) ∧
    (s.performOne x again).arrivals = s.arrivals ∧ (s.performOne x again).mem = s.mem ∧
    ∀ f, x.dst = some f → (s.performOne x again).getObs x.obs =
      { (s.getObs x.obs).putBytes f x.id x.bs (x.bs.map (fun b => (lastVal u.bs b.pa).getD 0)) with
        held := ((s.performOne x again).getObs x.obs).held }

/-- Two accesses of which one is barrier-ordered-before the other are not gathered (21_device_memory.md R147), nor are
two Device writes to one location that are both non-Gathering or ordered-before related (R132), nor two Normal writes to
one location that are ordered-before related (20_memory.md R58), nor two accesses of different instructions to Device memory
neither of which is Gathering (21_device_memory.md R142, R145); Memory Copy and Memory Set accesses are excepted (R148,
D32). An input that asks for one transaction of them does nothing, and a plan that asks for one gets a transaction for each
access. -/
def Obligations.OrderedAccessesAreNotGathered : Prop :=
  ∀ (s : State) (ids again : List Nat) (a b : Xact), a ∈ s.select ids → b ∈ s.select ids → a ≠ b →
    ¬ (a.cls.isMops = true ∧ b.cls.isMops = true) →
    ((s.bob a b = true ∨ s.bob b a = true) ∨
      (a.dir = .write ∧ b.dir = .write ∧ a.overlaps b = true ∧ (s.ob a b = true ∨ s.ob b a = true)) ∨
      ∃ d e, a.dt = some d ∧ b.dt = some e ∧ d.gathering = false ∧ e.gathering = false ∧
        (a.instr ≠ b.instr ∨ (a.dir = .write ∧ b.dir = .write ∧ a.overlaps b = true))) →
    s.deliverGroup ids again = s ∧
    ∃ l, (s.forceGroup ids again).arrivals = s.arrivals ++ l ∧ ∀ e ∈ l, e.xs.length = 1

/-- Accesses of one direction to Gathering or Normal memory with no ordering between them may travel as one transaction
(21_device_memory.md R142, R144; 20_memory.md R58, R62), and so may two of one instruction of several registers to other
locations each, whatever the type (R171, R173), and any two of Memory Copy and Memory Set instructions (R148): the endpoint
then sees one. Each of the two stays in flight to be performed again, whether or not the other does, where the input asks for it,
where it may be performed more than once (R122, R174), and where it must not precede the other (log 60). -/
def Obligations.UnorderedAccessesMayBeGathered : Prop :=
  ∀ (s : State) (ids again : List Nat) (a b : Xact), s.select ids = [a, b] → s.required [a, b] = [] → a.dir = b.dir →
    ((a.cls.isMops = true ∧ b.cls.isMops = true) ∨
      (s.ob a b = false ∧ s.ob b a = false ∧
        ((a.dt = none ∧ b.dt = none) ∨
          ∃ d e, a.dt = some d ∧ b.dt = some e ∧
            ((d.gathering = true ∧ e.gathering = true) ∨
              (a.instr = b.instr ∧ a.multi = true ∧ b.multi = true ∧ a.overlaps b = false))))) →
    s.deliverGroup ids again = s.transact [a, b] (s.recurring [a, b] again) ∧
    (a.attr.isDevice = true → b.attr.isDevice = true →
      (s.deliverGroup ids again).arrivals = s.arrivals ++
        [arrivalOf s.platform a.dir (a.touchedBytes ++ b.touchedBytes) [a, b] []] ∧
      (a.id ≠ b.id → ∀ x, x = a ∨ x = b → (x ∈ (s.deliverGroup ids again).inflight ↔
        x.id ∈ again ∧ x.repeatable = true ∧ s.mustPrecede x a = false ∧ s.mustPrecede x b = false)))

/-- What orders two accesses of one observer: the non-Reordering attribute, only two data accesses to one peripheral, and
not those of Memory Copy and Memory Set instructions (21_device_memory.md R154, R160, R162), ordered-before (log 14), or a
common location (log 15); of several locations any counts (log 64). The accesses of one instruction are in no order: R172 and 20_memory.md R89 say so of several
general-purpose registers, and of every other instruction it is the model's reading (log 16). That a write waits for the reads
of the bytes it writes, a copy's or those of an earlier load of the register stored, is the model's choice (logs 16, 32, 61). -/
def Obligations.OnlyTheseAccessesAreOrdered : Prop :=
  ∀ (s : State) (a b : Xact), s.mustPrecede a b = true →
    a.obs = b.obs ∧ a.id < b.id ∧ (a.instr = b.instr → a.feeds b = true) ∧
    (a.feeds b = true ∨ (∃ d e, a.dt = some d ∧ b.dt = some e ∧ d.reordering = false ∧ e.reordering = false ∧ a.cls.isMops = false ∧
        b.cls.isMops = false ∧ ∃ x ∈ a.bs, ∃ y ∈ b.bs, blockOf s.platform x.pa = blockOf s.platform y.pa ∧
          inPeripheral s.platform x.pa = true) ∨
      s.ob a b = true ∨ ∃ x ∈ a.bs, ∃ y ∈ b.bs, x.pa = y.pa)

/-- In states that meet the arrival order invariant, the accesses of one observer with the non-Reordering attribute
arrive at a peripheral in program order, reads and writes and both such types together (21_device_memory.md R154);
accesses of Memory Copy and Memory Set are not among them (R162). An access of several locations is one to a peripheral as soon
as one of them is in it, which is the model's choice (log 64). -/
def Obligations.NonReorderingAccessesArriveInProgramOrder : Prop :=
  ∀ s : State, ArrivalOrderOk s → s.arrivals.Pairwise (fun e l => ∀ a ∈ e.xs, ∀ b ∈ l.xs, a.obs = b.obs →
    a.instr ≠ b.instr → a.cls.isMops = false → b.cls.isMops = false →
    (∃ d, a.dt = some d ∧ d.reordering = false) → (∃ d, b.dt = some d ∧ d.reordering = false) →
    (∃ x ∈ a.bs, ∃ y ∈ b.bs, blockOf s.platform x.pa = blockOf s.platform y.pa ∧ inPeripheral s.platform y.pa = true) →
    a.id ≤ b.id)

/-- A change of a location without a write is observed by every observer that reads the location as Device
(21_device_memory.md R128). -/
def Obligations.EndpointChangesAreObservedByAll : Prop :=
  ∀ (s : State) (pa : Nat) (v : Byte), Memory.wf s.mem = true → (regionAt s.platform pa).idempotent = false →
    ∃ t, s.handle (.endpointChange pa v) = .next t ∧ t.obs = s.obs ∧
      (∀ (o id : Nat) (a : MemAttr), a.isDevice = true → t.byteFor o id a pa = v) ∧
      ∀ (q o id : Nat) (a : MemAttr), q ≠ pa → t.byteFor o id a q = s.byteFor o id a q

/-- A weaker Device type admits whatever a stronger one does: it is ordered, must be acknowledged by its endpoint, and is
waited for by a DSB, only where the stronger one is, is forwarded and gathered wherever that one is, and leaves the sizes of
accesses free (R146) and permits extra bytes (R116 to R124) wherever that one does (21_device_memory.md R186, R152, R159). -/
def Obligations.WeakerTypesAdmitMore : Prop :=
  (∀ (s : State) (a b : Xact) (d e : DeviceType), d.strength ≤ e.strength →
    (s.mustPrecede { a with dt := some d } b = true → s.mustPrecede { a with dt := some e } b = true) ∧
    (s.mustPrecede a { b with dt := some d } = true → s.mustPrecede a { b with dt := some e } = true) ∧
    (s.mayForward a { b with dt := some e } = true → s.mayForward a { b with dt := some d } = true) ∧
    (s.mayForward { a with dt := some e } b = true → s.mayForward { a with dt := some d } b = true) ∧
    (s.mayGather { a with dt := some e } b = true → s.mayGather { a with dt := some d } b = true) ∧
    (s.mayGather a { b with dt := some e } = true → s.mayGather a { b with dt := some d } = true) ∧
    (s.endpointMustAck { a with dt := some d } = true → s.endpointMustAck { a with dt := some e } = true) ∧
    ∀ option, s.dsbWaitsFor option { a with dt := some d } = true → s.dsbWaitsFor option { a with dt := some e } = true) ∧
  (∀ (cls : AccessClass) (d e : DeviceType) (X A F S : List Nat) (b : Nat), d.strength ≤ e.strength →
    permittedDeviceRead cls e X A F S b = true → permittedDeviceRead cls d X A F S b = true) ∧
  (∀ (s : State) (r : Req) (bs : List RByte) (weaker : RByte → RByte),
    (∀ b ∈ bs, ∃ d e, (weaker b).tr.attr.deviceType = some d ∧ b.tr.attr.deviceType = some e ∧
      (effType s.platform s.me.ctl s.plan r.cls d).strength ≤ (effType s.platform s.me.ctl s.plan r.cls e).strength) →
    freeSizes s r bs = true → freeSizes s r (bs.map weaker) = true)

/-! ### Whole-machine rules -/

/-- Every step keeps the numbers of accesses in order, endpoint memory in its canonical form, every configured record a
record (10_state.md R39), and the parameters and the relations supplied from outside as they are (logs 12, 14). -/
def Obligations.StepsKeepTheMachineWellFormed : Prop :=
  ∀ s t : State, NumbersOk s → step s = .next t →
    NumbersOk t ∧ (Memory.wf s.mem = true → Memory.wf t.mem = true) ∧ (RecordsOk s → RecordsOk t) ∧
    t.platform = s.platform ∧ t.obIn = s.obIn ∧ t.bobIn = s.bobIn

/-- No step lets an access arrive before one that must precede it: non-Reordering accesses to one peripheral, pairs that
are barrier-ordered-before or ordered-before, and accesses to one location (21_device_memory.md R154, R133; 20_memory.md
R84; log 15), of accesses of several locations as soon as one of them asks for it (log 64). -/
def Obligations.StepsKeepTheArrivalOrder : Prop :=
  ∀ s t : State, NumbersOk s → ArrivalOrderOk s → step s = .next t → ArrivalOrderOk t

/-- No step puts Device memory into a cache; no read with a Device record is answered from one; and what a cache writes
back has a Normal record (21_device_memory.md R130). -/
def Obligations.CachesNeverHoldDeviceMemory : Prop :=
  (∀ s t : State, NumbersOk s → CachesHoldNormal s → step s = .next t → CachesHoldNormal t) ∧
  (∀ (s : State) (o id : Nat) (a : MemAttr) (pa : Nat), a.isDevice = true → s.byteFor o id a pa = Memory.read s.mem pa) ∧
  (∀ (s : State) (sel : Line → Bool), CachesHoldNormal s →
    ∃ l, (s.writebackToMem sel).arrivals = s.arrivals ++ l ∧
      ∀ a ∈ l, ∀ pa ∈ a.bytes, ∃ m ∈ s.lines, m.pa = pa ∧ m.dirty = true ∧ m.attr.isNormal = true)

/-- Every step keeps this: a No Early Write Acknowledgement write to an endpoint that must acknowledge is acknowledged
by that endpoint alone, after it has arrived there (21_device_memory.md R165). Any other Device write may be
acknowledged earlier (R166). A write of several locations is one of the first kind as soon as one of them must be acknowledged,
which is the model's choice (log 64). -/
def Obligations.OnlyEndpointsAcknowledgeNEWrites : Prop :=
  (∀ s t : State, NumbersOk s → AcksOk s → step s = .next t → AcksOk t) ∧
  (∀ (s : State) (x : Xact), s.findXact x.id = some x → x.dir = .write → x.attr.isDevice = true →
    (∀ a ∈ s.acks, a.x.id ≠ x.id) →
    ((x.dt = some .nGnRnE ∧ ∃ b ∈ x.bs, (regionAt s.platform b.pa).ackRequired = true) →
      s.handle (.earlyAck x.id) = .next s) ∧
    ((x.dt ≠ some .nGnRnE ∨ ∀ b ∈ x.bs, (regionAt s.platform b.pa).ackRequired = false) →
      s.handle (.earlyAck x.id) = .next { s with acks := s.acks ++ [{ x := x, byEndpoint := false }] }))

/-- Every step keeps this: an access arrives once, unless it may be repeated (21_device_memory.md R145, R122, R174;
20_memory.md R61), and what travels as one transaction may be gathered by its types (21_device_memory.md R142, R145,
R148, R171, R173; never Normal and Device memory together: log 66). Exactly the accesses of a sequence (R122) and those of an instruction on several registers, accessed or not (R174; which
instructions have several: log 40), may be repeated; an instruction that is one single-copy atomic access is one access, of all its bytes, unless it is of Gathering memory,
or of several registers, SIMD&FP or SVE ones and Normal memory, where its size may change (R145, R146; 20_memory.md R88, R90; log
50). -/
def Obligations.AccessesArriveOnceAndGatheredOnlyIfAllowed : Prop :=
  (∀ s t : State, NumbersOk s → step s = .next t → (ArrivesOnce s → ArrivesOnce t) ∧ (GatheredOk s → GatheredOk t)) ∧
  (∀ (s : State) (r : Req) (x : Xact), x ∈ xactsOf s r →
    (x.repeatable = true ↔ isSequence s.platform r.cls r.parts = true ∨ severalRegs r.cls r.all = true) ∧
    (x.multi = true → isSequence s.platform r.cls r.parts = true)) ∧
  (∀ (s : State) (r : Req), isSequence s.platform r.cls r.parts = false → allBytes r.rs ≠ [] →
    (∀ b ∈ allBytes r.rs, ∀ c ∈ allBytes r.rs, b.tr.attr.mismatched c.tr.attr = false) →
    ((r.cls.isMulti = false ∧ r.parts.length ≤ 1) ∨ ∀ b ∈ allBytes r.rs, b.tr.attr.isDevice = true) →
    (∀ b ∈ allBytes r.rs, ∀ d, b.tr.attr.deviceType = some d → (effType s.platform s.me.ctl s.plan r.cls d).gathering = false) →
    ∃ x, (xactsOf s r).filter (fun y => !y.extra) = [x] ∧ x.touchedBytes = (allBytes r.rs).map (fun b => b.tr.pa) ∧
      x.repeatable = severalRegs r.cls r.all ∧ x.multi = false)

/-- Accesses complete in finite time: each carries a bound, which every step lowers; within so many steps it is performed, and
a write to Device memory, or to Normal memory Non-cacheable or Write-Through at both levels, has then arrived at its endpoint; the
step that finds the bound reached makes it arrive (20_memory.md R56, R57; 21_device_memory.md R127, R131; log 11). -/
def Obligations.AccessesCompleteInFiniteTime : Prop :=
  (∀ (n : Nat) (s t : State) (x : Xact), NumbersOk s → Host.Core.run Sys2Proof.core n s = .next t → x ∈ s.inflight →
    x.fuel < n → (∀ y ∈ t.inflight, y.id ≠ x.id) ∧
      (x.dir = .write → (x.attr.isDevice = true ∨ (x.attr.cacheAt .inner ≠ .wb ∧ x.attr.cacheAt .outer ≠ .wb)) →
        ∃ y ∈ t.arrived, y.id = x.id)) ∧
  (∀ (s : State) (x : Xact), NumbersOk s → x ∈ s.inflight → x.fuel = 0 → x.dir = .write →
    (x.attr.isDevice = true ∨ (x.attr.cacheAt .inner ≠ .wb ∧ x.attr.cacheAt .outer ≠ .wb)) →
    ∃ y ∈ s.tick.arrived, y.id = x.id)
end

