-- ==== Sys2Proof/Laws/State.lean ====
section
/-! SUPPORT. One lemma for each field and each update of the state, so that no proof unfolds a record update; and
the laws of the list of observers. -/

namespace Sys2Proof.Machine

open Sys2Proof

/-! ### The list of observers -/

@[simp] theorem Observers.get_set_self (l : List (Nat × Observer)) (o : Nat) (v : Observer) :
    Observers.get (Observers.set l o v) o = v := by
  induction l with
  | nil => simp [Observers.set, Observers.get]
  | cons h t ih => obtain ⟨k, w⟩ := h; by_cases hk : o = k <;> simp [Observers.set, Observers.get, hk, ih]

theorem Observers.get_set_ne (l : List (Nat × Observer)) {o o' : Nat} (v : Observer) (h : o' ≠ o) :
    Observers.get (Observers.set l o v) o' = Observers.get l o' := by
  induction l with
  | nil => simp [Observers.set, Observers.get, h]
  | cons e t ih =>
    obtain ⟨k, w⟩ := e
    by_cases hk : o = k
    · subst hk; simp [Observers.set, Observers.get, h]
    · by_cases hk' : o' = k <;> simp [Observers.set, Observers.get, hk, hk', ih]

/-- What a map over the entries that keeps every number does to the observer of a number. -/
theorem Observers.get_map (f : Nat × Observer → Nat × Observer) (hf : ∀ e, (f e).1 = e.1)
    (l : List (Nat × Observer)) (o : Nat) :
    Observers.get (l.map f) o = Observers.get l o ∨
    ∃ v, (o, v) ∈ l ∧ Observers.get l o = v ∧ Observers.get (l.map f) o = (f (o, v)).2 := by
  induction l with
  | nil => exact .inl rfl
  | cons e t ih =>
    obtain ⟨k, w⟩ := e
    have hk := hf (k, w)
    obtain ⟨k', w'⟩ : Nat × Observer := f (k, w)
    by_cases ho : o = k
    · subst ho
      refine .inr ⟨w, by simp, by simp [Observers.get], ?_⟩
      rw [List.map_cons]
      have : f (o, w) = (o, (f (o, w)).2) := Prod.ext (hf (o, w)) rfl
      rw [this]; simp [Observers.get]
    · have h1 : Observers.get ((f (k, w)) :: t.map f) o = Observers.get (t.map f) o := by
        have : f (k, w) = (k, (f (k, w)).2) := Prod.ext (hf (k, w)) rfl
        rw [this]; simp [Observers.get, ho]
      have h2 : Observers.get ((k, w) :: t) o = Observers.get t o := by simp [Observers.get, ho]
      rw [List.map_cons, h1, h2]
      rcases ih with h | ⟨v, hm, hg, h⟩
      · exact .inl h
      · exact .inr ⟨v, by simp [hm], hg, h⟩

@[simp] theorem State.getObs_setObs_self (s : State) (o : Nat) (v : Observer) : (s.setObs o v).getObs o = v :=
  Observers.get_set_self s.obs o v

theorem State.getObs_setObs_ne (s : State) {o o' : Nat} (v : Observer) (h : o' ≠ o) :
    (s.setObs o v).getObs o' = s.getObs o' := Observers.get_set_ne s.obs v h

theorem State.getObs_setObs (s : State) (o o' : Nat) (v : Observer) :
    (s.setObs o v).getObs o' = if o' = o then v else s.getObs o' := by
  split
  · next h => subst h; simp
  · next h => exact s.getObs_setObs_ne v h

/-- The observers are all that `getObs` reads. -/
theorem State.getObs_congr {s t : State} (h : s.obs = t.obs) (o : Nat) : s.getObs o = t.getObs o := by
  simp [State.getObs, h]

/-! ### One lemma for each field and update -/

@[simp] theorem State.setObs_platform (s : State) (o : Nat) (v : Observer) : (s.setObs o v).platform = s.platform := rfl
@[simp] theorem State.setObs_cur (s : State) (o : Nat) (v : Observer) : (s.setObs o v).cur = s.cur := rfl
@[simp] theorem State.setObs_mem (s : State) (o : Nat) (v : Observer) : (s.setObs o v).mem = s.mem := rfl
@[simp] theorem State.setObs_lines (s : State) (o : Nat) (v : Observer) : (s.setObs o v).lines = s.lines := rfl
@[simp] theorem State.setObs_inflight (s : State) (o : Nat) (v : Observer) : (s.setObs o v).inflight = s.inflight := rfl
@[simp] theorem State.setObs_arrivals (s : State) (o : Nat) (v : Observer) : (s.setObs o v).arrivals = s.arrivals := rfl
@[simp] theorem State.setObs_acks (s : State) (o : Nat) (v : Observer) : (s.setObs o v).acks = s.acks := rfl
@[simp] theorem State.setObs_touched (s : State) (o : Nat) (v : Observer) : (s.setObs o v).touched = s.touched := rfl
@[simp] theorem State.setObs_obIn (s : State) (o : Nat) (v : Observer) : (s.setObs o v).obIn = s.obIn := rfl
@[simp] theorem State.setObs_early (s : State) (o : Nat) (v : Observer) : (s.setObs o v).early = s.early := rfl
@[simp] theorem State.setObs_bobIn (s : State) (o : Nat) (v : Observer) : (s.setObs o v).bobIn = s.bobIn := rfl
@[simp] theorem State.setObs_nextId (s : State) (o : Nat) (v : Observer) : (s.setObs o v).nextId = s.nextId := rfl
@[simp] theorem State.setObs_nextInstr (s : State) (o : Nat) (v : Observer) : (s.setObs o v).nextInstr = s.nextInstr := rfl
@[simp] theorem State.setObs_inputs (s : State) (o : Nat) (v : Observer) : (s.setObs o v).inputs = s.inputs := rfl
@[simp] theorem State.setObs_plan (s : State) (o : Nat) (v : Observer) : (s.setObs o v).plan = s.plan := rfl
@[simp] theorem State.setObs_clock (s : State) (o : Nat) (v : Observer) : (s.setObs o v).clock = s.clock := rfl

@[simp] theorem State.setMe_eq (s : State) (v : Observer) : s.setMe v = s.setObs s.cur v := rfl
theorem State.me_eq (s : State) : s.me = s.getObs s.cur := rfl
@[simp] theorem State.me_setObs_cur (s : State) (v : Observer) : (s.setObs s.cur v).me = v := by simp [State.me_eq]

@[simp] theorem State.logArrival_platform (s : State) (a : Arrival) : (s.logArrival a).platform = s.platform := rfl
@[simp] theorem State.logArrival_obs (s : State) (a : Arrival) : (s.logArrival a).obs = s.obs := rfl
@[simp] theorem State.logArrival_cur (s : State) (a : Arrival) : (s.logArrival a).cur = s.cur := rfl
@[simp] theorem State.logArrival_mem (s : State) (a : Arrival) : (s.logArrival a).mem = s.mem := rfl
@[simp] theorem State.logArrival_lines (s : State) (a : Arrival) : (s.logArrival a).lines = s.lines := rfl
@[simp] theorem State.logArrival_inflight (s : State) (a : Arrival) : (s.logArrival a).inflight = s.inflight := rfl
@[simp] theorem State.logArrival_acks (s : State) (a : Arrival) : (s.logArrival a).acks = s.acks := rfl
@[simp] theorem State.logArrival_touched (s : State) (a : Arrival) : (s.logArrival a).touched = s.touched := rfl
@[simp] theorem State.logArrival_obIn (s : State) (a : Arrival) : (s.logArrival a).obIn = s.obIn := rfl
@[simp] theorem State.logArrival_early (s : State) (a : Arrival) : (s.logArrival a).early = s.early := rfl
@[simp] theorem State.logArrival_bobIn (s : State) (a : Arrival) : (s.logArrival a).bobIn = s.bobIn := rfl
@[simp] theorem State.logArrival_nextId (s : State) (a : Arrival) : (s.logArrival a).nextId = s.nextId := rfl
@[simp] theorem State.logArrival_nextInstr (s : State) (a : Arrival) : (s.logArrival a).nextInstr = s.nextInstr := rfl
@[simp] theorem State.logArrival_inputs (s : State) (a : Arrival) : (s.logArrival a).inputs = s.inputs := rfl
@[simp] theorem State.logArrival_plan (s : State) (a : Arrival) : (s.logArrival a).plan = s.plan := rfl
@[simp] theorem State.logArrival_clock (s : State) (a : Arrival) : (s.logArrival a).clock = s.clock := rfl

@[simp] theorem State.logArrival_arrivals (s : State) (a : Arrival) : (s.logArrival a).arrivals = s.arrivals ++ [a] := rfl

@[simp] theorem State.touch_platform (s : State) (bs : List RByte) : (s.touch bs).platform = s.platform := rfl
@[simp] theorem State.touch_obs (s : State) (bs : List RByte) : (s.touch bs).obs = s.obs := rfl
@[simp] theorem State.touch_cur (s : State) (bs : List RByte) : (s.touch bs).cur = s.cur := rfl
@[simp] theorem State.touch_mem (s : State) (bs : List RByte) : (s.touch bs).mem = s.mem := rfl
@[simp] theorem State.touch_lines (s : State) (bs : List RByte) : (s.touch bs).lines = s.lines := rfl
@[simp] theorem State.touch_inflight (s : State) (bs : List RByte) : (s.touch bs).inflight = s.inflight := rfl
@[simp] theorem State.touch_arrivals (s : State) (bs : List RByte) : (s.touch bs).arrivals = s.arrivals := rfl
@[simp] theorem State.touch_acks (s : State) (bs : List RByte) : (s.touch bs).acks = s.acks := rfl
@[simp] theorem State.touch_obIn (s : State) (bs : List RByte) : (s.touch bs).obIn = s.obIn := rfl
@[simp] theorem State.touch_early (s : State) (bs : List RByte) : (s.touch bs).early = s.early := rfl
@[simp] theorem State.touch_bobIn (s : State) (bs : List RByte) : (s.touch bs).bobIn = s.bobIn := rfl
@[simp] theorem State.touch_nextId (s : State) (bs : List RByte) : (s.touch bs).nextId = s.nextId := rfl
@[simp] theorem State.touch_nextInstr (s : State) (bs : List RByte) : (s.touch bs).nextInstr = s.nextInstr := rfl
@[simp] theorem State.touch_inputs (s : State) (bs : List RByte) : (s.touch bs).inputs = s.inputs := rfl
@[simp] theorem State.touch_plan (s : State) (bs : List RByte) : (s.touch bs).plan = s.plan := rfl
@[simp] theorem State.touch_clock (s : State) (bs : List RByte) : (s.touch bs).clock = s.clock := rfl

@[simp] theorem State.issue_platform (s : State) (xs : List Xact) : (s.issue xs).platform = s.platform := rfl
@[simp] theorem State.issue_obs (s : State) (xs : List Xact) : (s.issue xs).obs = s.obs := rfl
@[simp] theorem State.issue_cur (s : State) (xs : List Xact) : (s.issue xs).cur = s.cur := rfl
@[simp] theorem State.issue_mem (s : State) (xs : List Xact) : (s.issue xs).mem = s.mem := rfl
@[simp] theorem State.issue_lines (s : State) (xs : List Xact) : (s.issue xs).lines = s.lines := rfl
@[simp] theorem State.issue_arrivals (s : State) (xs : List Xact) : (s.issue xs).arrivals = s.arrivals := rfl
@[simp] theorem State.issue_acks (s : State) (xs : List Xact) : (s.issue xs).acks = s.acks := rfl
@[simp] theorem State.issue_touched (s : State) (xs : List Xact) : (s.issue xs).touched = s.touched := rfl
@[simp] theorem State.issue_obIn (s : State) (xs : List Xact) : (s.issue xs).obIn = s.obIn := rfl
@[simp] theorem State.issue_early (s : State) (xs : List Xact) : (s.issue xs).early = s.early := rfl
@[simp] theorem State.issue_bobIn (s : State) (xs : List Xact) : (s.issue xs).bobIn = s.bobIn := rfl
@[simp] theorem State.issue_inputs (s : State) (xs : List Xact) : (s.issue xs).inputs = s.inputs := rfl
@[simp] theorem State.issue_plan (s : State) (xs : List Xact) : (s.issue xs).plan = s.plan := rfl
@[simp] theorem State.issue_clock (s : State) (xs : List Xact) : (s.issue xs).clock = s.clock := rfl

@[simp] theorem State.issue_inflight (s : State) (xs : List Xact) : (s.issue xs).inflight = s.inflight ++ xs := rfl
@[simp] theorem State.issue_nextId (s : State) (xs : List Xact) : (s.issue xs).nextId = s.nextId + xs.length := rfl
@[simp] theorem State.issue_nextInstr (s : State) (xs : List Xact) : (s.issue xs).nextInstr = s.nextInstr + 1 := rfl

@[simp] theorem State.retire_platform (s : State) (x : Xact) : (s.retire x).platform = s.platform := rfl
@[simp] theorem State.retire_obs (s : State) (x : Xact) : (s.retire x).obs = s.obs := rfl
@[simp] theorem State.retire_cur (s : State) (x : Xact) : (s.retire x).cur = s.cur := rfl
@[simp] theorem State.retire_mem (s : State) (x : Xact) : (s.retire x).mem = s.mem := rfl
@[simp] theorem State.retire_lines (s : State) (x : Xact) : (s.retire x).lines = s.lines := rfl
@[simp] theorem State.retire_arrivals (s : State) (x : Xact) : (s.retire x).arrivals = s.arrivals := rfl
@[simp] theorem State.retire_acks (s : State) (x : Xact) : (s.retire x).acks = s.acks := rfl
@[simp] theorem State.retire_touched (s : State) (x : Xact) : (s.retire x).touched = s.touched := rfl
@[simp] theorem State.retire_obIn (s : State) (x : Xact) : (s.retire x).obIn = s.obIn := rfl
@[simp] theorem State.retire_early (s : State) (x : Xact) : (s.retire x).early = s.early := rfl
@[simp] theorem State.retire_bobIn (s : State) (x : Xact) : (s.retire x).bobIn = s.bobIn := rfl
@[simp] theorem State.retire_nextId (s : State) (x : Xact) : (s.retire x).nextId = s.nextId := rfl
@[simp] theorem State.retire_nextInstr (s : State) (x : Xact) : (s.retire x).nextInstr = s.nextInstr := rfl
@[simp] theorem State.retire_inputs (s : State) (x : Xact) : (s.retire x).inputs = s.inputs := rfl
@[simp] theorem State.retire_plan (s : State) (x : Xact) : (s.retire x).plan = s.plan := rfl
@[simp] theorem State.retire_clock (s : State) (x : Xact) : (s.retire x).clock = s.clock := rfl

@[simp] theorem State.retire_inflight (s : State) (x : Xact) : (s.retire x).inflight = s.inflight.filter (fun y => y.id != x.id) := rfl

@[simp] theorem State.clearReservations_platform (s : State) (x : Xact) : (s.clearReservations x).platform = s.platform := rfl
@[simp] theorem State.clearReservations_cur (s : State) (x : Xact) : (s.clearReservations x).cur = s.cur := rfl
@[simp] theorem State.clearReservations_mem (s : State) (x : Xact) : (s.clearReservations x).mem = s.mem := rfl
@[simp] theorem State.clearReservations_lines (s : State) (x : Xact) : (s.clearReservations x).lines = s.lines := rfl
@[simp] theorem State.clearReservations_inflight (s : State) (x : Xact) : (s.clearReservations x).inflight = s.inflight := rfl
@[simp] theorem State.clearReservations_arrivals (s : State) (x : Xact) : (s.clearReservations x).arrivals = s.arrivals := rfl
@[simp] theorem State.clearReservations_acks (s : State) (x : Xact) : (s.clearReservations x).acks = s.acks := rfl
@[simp] theorem State.clearReservations_touched (s : State) (x : Xact) : (s.clearReservations x).touched = s.touched := rfl
@[simp] theorem State.clearReservations_obIn (s : State) (x : Xact) : (s.clearReservations x).obIn = s.obIn := rfl
@[simp] theorem State.clearReservations_early (s : State) (x : Xact) : (s.clearReservations x).early = s.early := rfl
@[simp] theorem State.clearReservations_bobIn (s : State) (x : Xact) : (s.clearReservations x).bobIn = s.bobIn := rfl
@[simp] theorem State.clearReservations_nextId (s : State) (x : Xact) : (s.clearReservations x).nextId = s.nextId := rfl
@[simp] theorem State.clearReservations_nextInstr (s : State) (x : Xact) : (s.clearReservations x).nextInstr = s.nextInstr := rfl
@[simp] theorem State.clearReservations_inputs (s : State) (x : Xact) : (s.clearReservations x).inputs = s.inputs := rfl
@[simp] theorem State.clearReservations_plan (s : State) (x : Xact) : (s.clearReservations x).plan = s.plan := rfl
@[simp] theorem State.clearReservations_clock (s : State) (x : Xact) : (s.clearReservations x).clock = s.clock := rfl

@[simp] theorem State.deliverTo_platform (s : State) (x : Xact) (vals : List Byte) : (s.deliverTo x vals).platform = s.platform := by unfold State.deliverTo; split <;> rfl
@[simp] theorem State.deliverTo_cur (s : State) (x : Xact) (vals : List Byte) : (s.deliverTo x vals).cur = s.cur := by unfold State.deliverTo; split <;> rfl
@[simp] theorem State.deliverTo_mem (s : State) (x : Xact) (vals : List Byte) : (s.deliverTo x vals).mem = s.mem := by unfold State.deliverTo; split <;> rfl
@[simp] theorem State.deliverTo_lines (s : State) (x : Xact) (vals : List Byte) : (s.deliverTo x vals).lines = s.lines := by unfold State.deliverTo; split <;> rfl
@[simp] theorem State.deliverTo_inflight (s : State) (x : Xact) (vals : List Byte) : (s.deliverTo x vals).inflight = s.inflight := by unfold State.deliverTo; split <;> rfl
@[simp] theorem State.deliverTo_arrivals (s : State) (x : Xact) (vals : List Byte) : (s.deliverTo x vals).arrivals = s.arrivals := by unfold State.deliverTo; split <;> rfl
@[simp] theorem State.deliverTo_acks (s : State) (x : Xact) (vals : List Byte) : (s.deliverTo x vals).acks = s.acks := by unfold State.deliverTo; split <;> rfl
@[simp] theorem State.deliverTo_touched (s : State) (x : Xact) (vals : List Byte) : (s.deliverTo x vals).touched = s.touched := by unfold State.deliverTo; split <;> rfl
@[simp] theorem State.deliverTo_obIn (s : State) (x : Xact) (vals : List Byte) : (s.deliverTo x vals).obIn = s.obIn := by unfold State.deliverTo; split <;> rfl
@[simp] theorem State.deliverTo_early (s : State) (x : Xact) (vals : List Byte) : (s.deliverTo x vals).early = s.early := by unfold State.deliverTo; split <;> rfl
@[simp] theorem State.deliverTo_bobIn (s : State) (x : Xact) (vals : List Byte) : (s.deliverTo x vals).bobIn = s.bobIn := by unfold State.deliverTo; split <;> rfl
@[simp] theorem State.deliverTo_nextId (s : State) (x : Xact) (vals : List Byte) : (s.deliverTo x vals).nextId = s.nextId := by unfold State.deliverTo; split <;> rfl
@[simp] theorem State.deliverTo_nextInstr (s : State) (x : Xact) (vals : List Byte) : (s.deliverTo x vals).nextInstr = s.nextInstr := by unfold State.deliverTo; split <;> rfl
@[simp] theorem State.deliverTo_inputs (s : State) (x : Xact) (vals : List Byte) : (s.deliverTo x vals).inputs = s.inputs := by unfold State.deliverTo; split <;> rfl
@[simp] theorem State.deliverTo_plan (s : State) (x : Xact) (vals : List Byte) : (s.deliverTo x vals).plan = s.plan := by unfold State.deliverTo; split <;> rfl
@[simp] theorem State.deliverTo_clock (s : State) (x : Xact) (vals : List Byte) : (s.deliverTo x vals).clock = s.clock := by unfold State.deliverTo; split <;> rfl

@[simp] theorem State.commit_platform (s : State) (x : Xact) : (s.commit x).platform = s.platform := by unfold State.commit; dsimp only; split <;> (try split) <;> rfl
@[simp] theorem State.commit_cur (s : State) (x : Xact) : (s.commit x).cur = s.cur := by unfold State.commit; dsimp only; split <;> (try split) <;> rfl
@[simp] theorem State.commit_inflight (s : State) (x : Xact) : (s.commit x).inflight = s.inflight := by unfold State.commit; dsimp only; split <;> (try split) <;> rfl
@[simp] theorem State.commit_arrivals (s : State) (x : Xact) : (s.commit x).arrivals = s.arrivals := by unfold State.commit; dsimp only; split <;> (try split) <;> rfl
@[simp] theorem State.commit_acks (s : State) (x : Xact) : (s.commit x).acks = s.acks := by unfold State.commit; dsimp only; split <;> (try split) <;> rfl
@[simp] theorem State.commit_touched (s : State) (x : Xact) : (s.commit x).touched = s.touched := by unfold State.commit; dsimp only; split <;> (try split) <;> rfl
@[simp] theorem State.commit_obIn (s : State) (x : Xact) : (s.commit x).obIn = s.obIn := by unfold State.commit; dsimp only; split <;> (try split) <;> rfl
@[simp] theorem State.commit_early (s : State) (x : Xact) : (s.commit x).early = s.early := by unfold State.commit; dsimp only; split <;> (try split) <;> rfl
@[simp] theorem State.commit_bobIn (s : State) (x : Xact) : (s.commit x).bobIn = s.bobIn := by unfold State.commit; dsimp only; split <;> (try split) <;> rfl
@[simp] theorem State.commit_nextId (s : State) (x : Xact) : (s.commit x).nextId = s.nextId := by unfold State.commit; dsimp only; split <;> (try split) <;> rfl
@[simp] theorem State.commit_nextInstr (s : State) (x : Xact) : (s.commit x).nextInstr = s.nextInstr := by unfold State.commit; dsimp only; split <;> (try split) <;> rfl
@[simp] theorem State.commit_inputs (s : State) (x : Xact) : (s.commit x).inputs = s.inputs := by unfold State.commit; dsimp only; split <;> (try split) <;> rfl
@[simp] theorem State.commit_plan (s : State) (x : Xact) : (s.commit x).plan = s.plan := by unfold State.commit; dsimp only; split <;> (try split) <;> rfl
@[simp] theorem State.commit_clock (s : State) (x : Xact) : (s.commit x).clock = s.clock := by unfold State.commit; dsimp only; split <;> (try split) <;> rfl

@[simp] theorem State.commit_obs (s : State) (x : Xact) : (s.commit x).obs = (s.clearReservations x).obs := by unfold State.commit; dsimp only; split <;> (try split) <;> rfl

@[simp] theorem State.filled_id (s : State) (x : Xact) : (s.filled x).id = x.id := by unfold State.filled; split <;> rfl
@[simp] theorem State.filled_instr (s : State) (x : Xact) : (s.filled x).instr = x.instr := by unfold State.filled; split <;> rfl
@[simp] theorem State.filled_obs (s : State) (x : Xact) : (s.filled x).obs = x.obs := by unfold State.filled; split <;> rfl
@[simp] theorem State.filled_cls (s : State) (x : Xact) : (s.filled x).cls = x.cls := by unfold State.filled; split <;> rfl
@[simp] theorem State.filled_dir (s : State) (x : Xact) : (s.filled x).dir = x.dir := by unfold State.filled; split <;> rfl
@[simp] theorem State.filled_extra (s : State) (x : Xact) : (s.filled x).extra = x.extra := by unfold State.filled; split <;> rfl
@[simp] theorem State.filled_release (s : State) (x : Xact) : (s.filled x).release = x.release := by unfold State.filled; split <;> rfl
@[simp] theorem State.filled_attr (s : State) (x : Xact) : (s.filled x).attr = x.attr := by unfold State.filled; split <;> rfl
@[simp] theorem State.filled_dt (s : State) (x : Xact) : (s.filled x).dt = x.dt := by unfold State.filled; split <;> rfl
@[simp] theorem State.filled_dst (s : State) (x : Xact) : (s.filled x).dst = x.dst := by unfold State.filled; split <;> rfl
@[simp] theorem State.filled_repeatable (s : State) (x : Xact) : (s.filled x).repeatable = x.repeatable := by unfold State.filled; split <;> rfl
@[simp] theorem State.filled_multi (s : State) (x : Xact) : (s.filled x).multi = x.multi := by unfold State.filled; split <;> rfl
@[simp] theorem State.filled_fwd (s : State) (x : Xact) : (s.filled x).fwd = x.fwd := by unfold State.filled; split <;> rfl
@[simp] theorem State.filled_hold (s : State) (x : Xact) : (s.filled x).hold = x.hold := by unfold State.filled; split <;> rfl
@[simp] theorem State.filled_fuel (s : State) (x : Xact) : (s.filled x).fuel = x.fuel := by unfold State.filled; split <;> rfl
@[simp] theorem State.filledByte_pa (s : State) (x : Xact) (b : ByteAcc) : (s.filledByte x b).pa = b.pa := by
  unfold State.filledByte; split
  · rfl
  · split <;> rfl
@[simp] theorem State.filledByte_reg (s : State) (x : Xact) (b : ByteAcc) : (s.filledByte x b).reg = b.reg := by
  unfold State.filledByte; split
  · rfl
  · split <;> rfl
@[simp] theorem State.filledByte_lane (s : State) (x : Xact) (b : ByteAcc) : (s.filledByte x b).lane = b.lane := by
  unfold State.filledByte; split
  · rfl
  · split <;> rfl

@[simp] theorem State.filled_touchedBytes (s : State) (x : Xact) : (s.filled x).touchedBytes = x.touchedBytes := by
  unfold State.filled Xact.touchedBytes; split <;> simp

/-- Only writes are filled, and of them those that may lack their bytes. -/
theorem State.filled_eq (s : State) (x : Xact) (h : x.dir = .read ∨ x.lacksBytes = false) : s.filled x = x := by
  unfold State.filled
  split
  · rfl
  · next hd =>
    rw [hd] at h
    simp only [reduceCtorEq, false_or, Xact.lacksBytes, Bool.or_eq_false_iff, beq_eq_false_iff_ne, ne_eq, List.any_eq_false,
      Bool.not_eq_true, Option.isSome_eq_false_iff, Option.isNone_iff_eq_none] at h
    have : x.bs.map (s.filledByte x) = x.bs := by
      refine (List.map_congr_left fun b hb => ?_).trans (List.map_id _)
      simp [State.filledByte, h.1, h.2 b hb]
    rw [this]

/-- A filled write writes the locations it was issued for. -/
theorem State.mem_filled_bs (s : State) (x : Xact) (b : ByteAcc) (h : b ∈ (s.filled x).bs) :
    ∃ c ∈ x.bs, c.pa = b.pa ∧ c.reg = b.reg ∧ c.lane = b.lane := by
  unfold State.filled at h
  split at h
  · exact ⟨b, h, rfl, rfl, rfl⟩
  · obtain ⟨c, hc, rfl⟩ := List.mem_map.1 h; exact ⟨c, hc, by simp⟩

@[simp] theorem State.perform_platform (s : State) (x : Xact) : (s.perform x).platform = s.platform := by unfold State.perform; split <;> simp
@[simp] theorem State.perform_cur (s : State) (x : Xact) : (s.perform x).cur = s.cur := by unfold State.perform; split <;> simp
@[simp] theorem State.perform_inflight (s : State) (x : Xact) : (s.perform x).inflight = s.inflight := by unfold State.perform; split <;> simp
@[simp] theorem State.perform_arrivals (s : State) (x : Xact) : (s.perform x).arrivals = s.arrivals := by unfold State.perform; split <;> simp
@[simp] theorem State.perform_acks (s : State) (x : Xact) : (s.perform x).acks = s.acks := by unfold State.perform; split <;> simp
@[simp] theorem State.perform_touched (s : State) (x : Xact) : (s.perform x).touched = s.touched := by unfold State.perform; split <;> simp
@[simp] theorem State.perform_obIn (s : State) (x : Xact) : (s.perform x).obIn = s.obIn := by unfold State.perform; split <;> simp
@[simp] theorem State.perform_early (s : State) (x : Xact) : (s.perform x).early = s.early := by unfold State.perform; split <;> simp
@[simp] theorem State.perform_bobIn (s : State) (x : Xact) : (s.perform x).bobIn = s.bobIn := by unfold State.perform; split <;> simp
@[simp] theorem State.perform_nextId (s : State) (x : Xact) : (s.perform x).nextId = s.nextId := by unfold State.perform; split <;> simp
@[simp] theorem State.perform_nextInstr (s : State) (x : Xact) : (s.perform x).nextInstr = s.nextInstr := by unfold State.perform; split <;> simp
@[simp] theorem State.perform_inputs (s : State) (x : Xact) : (s.perform x).inputs = s.inputs := by unfold State.perform; split <;> simp
@[simp] theorem State.perform_plan (s : State) (x : Xact) : (s.perform x).plan = s.plan := by unfold State.perform; split <;> simp
@[simp] theorem State.perform_clock (s : State) (x : Xact) : (s.perform x).clock = s.clock := by unfold State.perform; split <;> simp

@[simp] theorem State.endpointAck_platform (s : State) (x : Xact) : (s.endpointAck x).platform = s.platform := by unfold State.endpointAck; split <;> rfl
@[simp] theorem State.endpointAck_obs (s : State) (x : Xact) : (s.endpointAck x).obs = s.obs := by unfold State.endpointAck; split <;> rfl
@[simp] theorem State.endpointAck_cur (s : State) (x : Xact) : (s.endpointAck x).cur = s.cur := by unfold State.endpointAck; split <;> rfl
@[simp] theorem State.endpointAck_mem (s : State) (x : Xact) : (s.endpointAck x).mem = s.mem := by unfold State.endpointAck; split <;> rfl
@[simp] theorem State.endpointAck_lines (s : State) (x : Xact) : (s.endpointAck x).lines = s.lines := by unfold State.endpointAck; split <;> rfl
@[simp] theorem State.endpointAck_inflight (s : State) (x : Xact) : (s.endpointAck x).inflight = s.inflight := by unfold State.endpointAck; split <;> rfl
@[simp] theorem State.endpointAck_arrivals (s : State) (x : Xact) : (s.endpointAck x).arrivals = s.arrivals := by unfold State.endpointAck; split <;> rfl
@[simp] theorem State.endpointAck_touched (s : State) (x : Xact) : (s.endpointAck x).touched = s.touched := by unfold State.endpointAck; split <;> rfl
@[simp] theorem State.endpointAck_obIn (s : State) (x : Xact) : (s.endpointAck x).obIn = s.obIn := by unfold State.endpointAck; split <;> rfl
@[simp] theorem State.endpointAck_early (s : State) (x : Xact) : (s.endpointAck x).early = s.early := by unfold State.endpointAck; split <;> rfl
@[simp] theorem State.endpointAck_bobIn (s : State) (x : Xact) : (s.endpointAck x).bobIn = s.bobIn := by unfold State.endpointAck; split <;> rfl
@[simp] theorem State.endpointAck_nextId (s : State) (x : Xact) : (s.endpointAck x).nextId = s.nextId := by unfold State.endpointAck; split <;> rfl
@[simp] theorem State.endpointAck_nextInstr (s : State) (x : Xact) : (s.endpointAck x).nextInstr = s.nextInstr := by unfold State.endpointAck; split <;> rfl
@[simp] theorem State.endpointAck_inputs (s : State) (x : Xact) : (s.endpointAck x).inputs = s.inputs := by unfold State.endpointAck; split <;> rfl
@[simp] theorem State.endpointAck_plan (s : State) (x : Xact) : (s.endpointAck x).plan = s.plan := by unfold State.endpointAck; split <;> rfl
@[simp] theorem State.endpointAck_clock (s : State) (x : Xact) : (s.endpointAck x).clock = s.clock := by unfold State.endpointAck; split <;> rfl

@[simp] theorem State.finish_platform (s : State) (b : List Nat) (x : Xact) : (State.finish b s x).platform = s.platform := by unfold State.finish; split <;> simp
@[simp] theorem State.finish_obs (s : State) (b : List Nat) (x : Xact) : (State.finish b s x).obs = s.obs := by unfold State.finish; split <;> simp
@[simp] theorem State.finish_cur (s : State) (b : List Nat) (x : Xact) : (State.finish b s x).cur = s.cur := by unfold State.finish; split <;> simp
@[simp] theorem State.finish_mem (s : State) (b : List Nat) (x : Xact) : (State.finish b s x).mem = s.mem := by unfold State.finish; split <;> simp
@[simp] theorem State.finish_lines (s : State) (b : List Nat) (x : Xact) : (State.finish b s x).lines = s.lines := by unfold State.finish; split <;> simp
@[simp] theorem State.finish_arrivals (s : State) (b : List Nat) (x : Xact) : (State.finish b s x).arrivals = s.arrivals := by unfold State.finish; split <;> simp
@[simp] theorem State.finish_touched (s : State) (b : List Nat) (x : Xact) : (State.finish b s x).touched = s.touched := by unfold State.finish; split <;> simp
@[simp] theorem State.finish_obIn (s : State) (b : List Nat) (x : Xact) : (State.finish b s x).obIn = s.obIn := by unfold State.finish; split <;> simp
@[simp] theorem State.finish_early (s : State) (b : List Nat) (x : Xact) : (State.finish b s x).early = s.early := by unfold State.finish; split <;> simp
@[simp] theorem State.finish_bobIn (s : State) (b : List Nat) (x : Xact) : (State.finish b s x).bobIn = s.bobIn := by unfold State.finish; split <;> simp
@[simp] theorem State.finish_nextId (s : State) (b : List Nat) (x : Xact) : (State.finish b s x).nextId = s.nextId := by unfold State.finish; split <;> simp
@[simp] theorem State.finish_nextInstr (s : State) (b : List Nat) (x : Xact) : (State.finish b s x).nextInstr = s.nextInstr := by unfold State.finish; split <;> simp
@[simp] theorem State.finish_inputs (s : State) (b : List Nat) (x : Xact) : (State.finish b s x).inputs = s.inputs := by unfold State.finish; split <;> simp
@[simp] theorem State.finish_plan (s : State) (b : List Nat) (x : Xact) : (State.finish b s x).plan = s.plan := by unfold State.finish; split <;> simp
@[simp] theorem State.finish_clock (s : State) (b : List Nat) (x : Xact) : (State.finish b s x).clock = s.clock := by unfold State.finish; split <;> simp

@[simp] theorem State.logGroup_platform (s : State) (xs : List Xact) : (s.logGroup xs).platform = s.platform := by unfold State.logGroup; split <;> rfl
@[simp] theorem State.logGroup_obs (s : State) (xs : List Xact) : (s.logGroup xs).obs = s.obs := by unfold State.logGroup; split <;> rfl
@[simp] theorem State.logGroup_cur (s : State) (xs : List Xact) : (s.logGroup xs).cur = s.cur := by unfold State.logGroup; split <;> rfl
@[simp] theorem State.logGroup_mem (s : State) (xs : List Xact) : (s.logGroup xs).mem = s.mem := by unfold State.logGroup; split <;> rfl
@[simp] theorem State.logGroup_lines (s : State) (xs : List Xact) : (s.logGroup xs).lines = s.lines := by unfold State.logGroup; split <;> rfl
@[simp] theorem State.logGroup_inflight (s : State) (xs : List Xact) : (s.logGroup xs).inflight = s.inflight := by unfold State.logGroup; split <;> rfl
@[simp] theorem State.logGroup_acks (s : State) (xs : List Xact) : (s.logGroup xs).acks = s.acks := by unfold State.logGroup; split <;> rfl
@[simp] theorem State.logGroup_touched (s : State) (xs : List Xact) : (s.logGroup xs).touched = s.touched := by unfold State.logGroup; split <;> rfl
@[simp] theorem State.logGroup_obIn (s : State) (xs : List Xact) : (s.logGroup xs).obIn = s.obIn := by unfold State.logGroup; split <;> rfl
@[simp] theorem State.logGroup_early (s : State) (xs : List Xact) : (s.logGroup xs).early = s.early := by unfold State.logGroup; split <;> rfl
@[simp] theorem State.logGroup_bobIn (s : State) (xs : List Xact) : (s.logGroup xs).bobIn = s.bobIn := by unfold State.logGroup; split <;> rfl
@[simp] theorem State.logGroup_nextId (s : State) (xs : List Xact) : (s.logGroup xs).nextId = s.nextId := by unfold State.logGroup; split <;> rfl
@[simp] theorem State.logGroup_nextInstr (s : State) (xs : List Xact) : (s.logGroup xs).nextInstr = s.nextInstr := by unfold State.logGroup; split <;> rfl
@[simp] theorem State.logGroup_inputs (s : State) (xs : List Xact) : (s.logGroup xs).inputs = s.inputs := by unfold State.logGroup; split <;> rfl
@[simp] theorem State.logGroup_plan (s : State) (xs : List Xact) : (s.logGroup xs).plan = s.plan := by unfold State.logGroup; split <;> rfl
@[simp] theorem State.logGroup_clock (s : State) (xs : List Xact) : (s.logGroup xs).clock = s.clock := by unfold State.logGroup; split <;> rfl

@[simp] theorem State.allocate_platform (s : State) (o u : Nat) (l : Bool) (a : MemAttr) (pa : Nat) : (s.allocate o u l a pa).platform = s.platform := by unfold State.allocate; split <;> (try split) <;> rfl
@[simp] theorem State.allocate_obs (s : State) (o u : Nat) (l : Bool) (a : MemAttr) (pa : Nat) : (s.allocate o u l a pa).obs = s.obs := by unfold State.allocate; split <;> (try split) <;> rfl
@[simp] theorem State.allocate_cur (s : State) (o u : Nat) (l : Bool) (a : MemAttr) (pa : Nat) : (s.allocate o u l a pa).cur = s.cur := by unfold State.allocate; split <;> (try split) <;> rfl
@[simp] theorem State.allocate_mem (s : State) (o u : Nat) (l : Bool) (a : MemAttr) (pa : Nat) : (s.allocate o u l a pa).mem = s.mem := by unfold State.allocate; split <;> (try split) <;> rfl
@[simp] theorem State.allocate_inflight (s : State) (o u : Nat) (l : Bool) (a : MemAttr) (pa : Nat) : (s.allocate o u l a pa).inflight = s.inflight := by unfold State.allocate; split <;> (try split) <;> rfl
@[simp] theorem State.allocate_arrivals (s : State) (o u : Nat) (l : Bool) (a : MemAttr) (pa : Nat) : (s.allocate o u l a pa).arrivals = s.arrivals := by unfold State.allocate; split <;> (try split) <;> rfl
@[simp] theorem State.allocate_acks (s : State) (o u : Nat) (l : Bool) (a : MemAttr) (pa : Nat) : (s.allocate o u l a pa).acks = s.acks := by unfold State.allocate; split <;> (try split) <;> rfl
@[simp] theorem State.allocate_touched (s : State) (o u : Nat) (l : Bool) (a : MemAttr) (pa : Nat) : (s.allocate o u l a pa).touched = s.touched := by unfold State.allocate; split <;> (try split) <;> rfl
@[simp] theorem State.allocate_obIn (s : State) (o u : Nat) (l : Bool) (a : MemAttr) (pa : Nat) : (s.allocate o u l a pa).obIn = s.obIn := by unfold State.allocate; split <;> (try split) <;> rfl
@[simp] theorem State.allocate_early (s : State) (o u : Nat) (l : Bool) (a : MemAttr) (pa : Nat) : (s.allocate o u l a pa).early = s.early := by unfold State.allocate; split <;> (try split) <;> rfl
@[simp] theorem State.allocate_bobIn (s : State) (o u : Nat) (l : Bool) (a : MemAttr) (pa : Nat) : (s.allocate o u l a pa).bobIn = s.bobIn := by unfold State.allocate; split <;> (try split) <;> rfl
@[simp] theorem State.allocate_nextId (s : State) (o u : Nat) (l : Bool) (a : MemAttr) (pa : Nat) : (s.allocate o u l a pa).nextId = s.nextId := by unfold State.allocate; split <;> (try split) <;> rfl
@[simp] theorem State.allocate_nextInstr (s : State) (o u : Nat) (l : Bool) (a : MemAttr) (pa : Nat) : (s.allocate o u l a pa).nextInstr = s.nextInstr := by unfold State.allocate; split <;> (try split) <;> rfl
@[simp] theorem State.allocate_inputs (s : State) (o u : Nat) (l : Bool) (a : MemAttr) (pa : Nat) : (s.allocate o u l a pa).inputs = s.inputs := by unfold State.allocate; split <;> (try split) <;> rfl
@[simp] theorem State.allocate_plan (s : State) (o u : Nat) (l : Bool) (a : MemAttr) (pa : Nat) : (s.allocate o u l a pa).plan = s.plan := by unfold State.allocate; split <;> (try split) <;> rfl
@[simp] theorem State.allocate_clock (s : State) (o u : Nat) (l : Bool) (a : MemAttr) (pa : Nat) : (s.allocate o u l a pa).clock = s.clock := by unfold State.allocate; split <;> (try split) <;> rfl

@[simp] theorem State.dropClean_platform (s : State) (pas : List Nat) : (s.dropClean pas).platform = s.platform := rfl
@[simp] theorem State.dropClean_obs (s : State) (pas : List Nat) : (s.dropClean pas).obs = s.obs := rfl
@[simp] theorem State.dropClean_cur (s : State) (pas : List Nat) : (s.dropClean pas).cur = s.cur := rfl
@[simp] theorem State.dropClean_mem (s : State) (pas : List Nat) : (s.dropClean pas).mem = s.mem := rfl
@[simp] theorem State.dropClean_inflight (s : State) (pas : List Nat) : (s.dropClean pas).inflight = s.inflight := rfl
@[simp] theorem State.dropClean_arrivals (s : State) (pas : List Nat) : (s.dropClean pas).arrivals = s.arrivals := rfl
@[simp] theorem State.dropClean_acks (s : State) (pas : List Nat) : (s.dropClean pas).acks = s.acks := rfl
@[simp] theorem State.dropClean_touched (s : State) (pas : List Nat) : (s.dropClean pas).touched = s.touched := rfl
@[simp] theorem State.dropClean_obIn (s : State) (pas : List Nat) : (s.dropClean pas).obIn = s.obIn := rfl
@[simp] theorem State.dropClean_early (s : State) (pas : List Nat) : (s.dropClean pas).early = s.early := rfl
@[simp] theorem State.dropClean_bobIn (s : State) (pas : List Nat) : (s.dropClean pas).bobIn = s.bobIn := rfl
@[simp] theorem State.dropClean_nextId (s : State) (pas : List Nat) : (s.dropClean pas).nextId = s.nextId := rfl
@[simp] theorem State.dropClean_nextInstr (s : State) (pas : List Nat) : (s.dropClean pas).nextInstr = s.nextInstr := rfl
@[simp] theorem State.dropClean_inputs (s : State) (pas : List Nat) : (s.dropClean pas).inputs = s.inputs := rfl
@[simp] theorem State.dropClean_plan (s : State) (pas : List Nat) : (s.dropClean pas).plan = s.plan := rfl
@[simp] theorem State.dropClean_clock (s : State) (pas : List Nat) : (s.dropClean pas).clock = s.clock := rfl

@[simp] theorem State.writebackToUnit_platform (s : State) (sel : Line → Bool) (u : Nat) : (s.writebackToUnit sel u).platform = s.platform := rfl
@[simp] theorem State.writebackToUnit_obs (s : State) (sel : Line → Bool) (u : Nat) : (s.writebackToUnit sel u).obs = s.obs := rfl
@[simp] theorem State.writebackToUnit_cur (s : State) (sel : Line → Bool) (u : Nat) : (s.writebackToUnit sel u).cur = s.cur := rfl
@[simp] theorem State.writebackToUnit_mem (s : State) (sel : Line → Bool) (u : Nat) : (s.writebackToUnit sel u).mem = s.mem := rfl
@[simp] theorem State.writebackToUnit_inflight (s : State) (sel : Line → Bool) (u : Nat) : (s.writebackToUnit sel u).inflight = s.inflight := rfl
@[simp] theorem State.writebackToUnit_arrivals (s : State) (sel : Line → Bool) (u : Nat) : (s.writebackToUnit sel u).arrivals = s.arrivals := rfl
@[simp] theorem State.writebackToUnit_acks (s : State) (sel : Line → Bool) (u : Nat) : (s.writebackToUnit sel u).acks = s.acks := rfl
@[simp] theorem State.writebackToUnit_touched (s : State) (sel : Line → Bool) (u : Nat) : (s.writebackToUnit sel u).touched = s.touched := rfl
@[simp] theorem State.writebackToUnit_obIn (s : State) (sel : Line → Bool) (u : Nat) : (s.writebackToUnit sel u).obIn = s.obIn := rfl
@[simp] theorem State.writebackToUnit_early (s : State) (sel : Line → Bool) (u : Nat) : (s.writebackToUnit sel u).early = s.early := rfl
@[simp] theorem State.writebackToUnit_bobIn (s : State) (sel : Line → Bool) (u : Nat) : (s.writebackToUnit sel u).bobIn = s.bobIn := rfl
@[simp] theorem State.writebackToUnit_nextId (s : State) (sel : Line → Bool) (u : Nat) : (s.writebackToUnit sel u).nextId = s.nextId := rfl
@[simp] theorem State.writebackToUnit_nextInstr (s : State) (sel : Line → Bool) (u : Nat) : (s.writebackToUnit sel u).nextInstr = s.nextInstr := rfl
@[simp] theorem State.writebackToUnit_inputs (s : State) (sel : Line → Bool) (u : Nat) : (s.writebackToUnit sel u).inputs = s.inputs := rfl
@[simp] theorem State.writebackToUnit_plan (s : State) (sel : Line → Bool) (u : Nat) : (s.writebackToUnit sel u).plan = s.plan := rfl
@[simp] theorem State.writebackToUnit_clock (s : State) (sel : Line → Bool) (u : Nat) : (s.writebackToUnit sel u).clock = s.clock := rfl

@[simp] theorem State.writebackToMem_platform (s : State) (sel : Line → Bool) : (s.writebackToMem sel).platform = s.platform := by unfold State.writebackToMem; split <;> rfl
@[simp] theorem State.writebackToMem_obs (s : State) (sel : Line → Bool) : (s.writebackToMem sel).obs = s.obs := by unfold State.writebackToMem; split <;> rfl
@[simp] theorem State.writebackToMem_cur (s : State) (sel : Line → Bool) : (s.writebackToMem sel).cur = s.cur := by unfold State.writebackToMem; split <;> rfl
@[simp] theorem State.writebackToMem_inflight (s : State) (sel : Line → Bool) : (s.writebackToMem sel).inflight = s.inflight := by unfold State.writebackToMem; split <;> rfl
@[simp] theorem State.writebackToMem_acks (s : State) (sel : Line → Bool) : (s.writebackToMem sel).acks = s.acks := by unfold State.writebackToMem; split <;> rfl
@[simp] theorem State.writebackToMem_touched (s : State) (sel : Line → Bool) : (s.writebackToMem sel).touched = s.touched := by unfold State.writebackToMem; split <;> rfl
@[simp] theorem State.writebackToMem_obIn (s : State) (sel : Line → Bool) : (s.writebackToMem sel).obIn = s.obIn := by unfold State.writebackToMem; split <;> rfl
@[simp] theorem State.writebackToMem_early (s : State) (sel : Line → Bool) : (s.writebackToMem sel).early = s.early := by unfold State.writebackToMem; split <;> rfl
@[simp] theorem State.writebackToMem_bobIn (s : State) (sel : Line → Bool) : (s.writebackToMem sel).bobIn = s.bobIn := by unfold State.writebackToMem; split <;> rfl
@[simp] theorem State.writebackToMem_nextId (s : State) (sel : Line → Bool) : (s.writebackToMem sel).nextId = s.nextId := by unfold State.writebackToMem; split <;> rfl
@[simp] theorem State.writebackToMem_nextInstr (s : State) (sel : Line → Bool) : (s.writebackToMem sel).nextInstr = s.nextInstr := by unfold State.writebackToMem; split <;> rfl
@[simp] theorem State.writebackToMem_inputs (s : State) (sel : Line → Bool) : (s.writebackToMem sel).inputs = s.inputs := by unfold State.writebackToMem; split <;> rfl
@[simp] theorem State.writebackToMem_plan (s : State) (sel : Line → Bool) : (s.writebackToMem sel).plan = s.plan := by unfold State.writebackToMem; split <;> rfl
@[simp] theorem State.writebackToMem_clock (s : State) (sel : Line → Bool) : (s.writebackToMem sel).clock = s.clock := by unfold State.writebackToMem; split <;> rfl

@[simp] theorem arrivalOf_dir (p : Platform) (d : Dir) (bs : List Nat) (xs : List Xact) (l : List Access) : (arrivalOf p d bs xs l).dir = d := rfl
@[simp] theorem arrivalOf_bytes (p : Platform) (d : Dir) (bs : List Nat) (xs : List Xact) (l : List Access) : (arrivalOf p d bs xs l).bytes = bs := rfl
@[simp] theorem arrivalOf_xs (p : Platform) (d : Dir) (bs : List Nat) (xs : List Xact) (l : List Access) : (arrivalOf p d bs xs l).xs = xs := rfl
@[simp] theorem arrivalOf_others (p : Platform) (d : Dir) (bs : List Nat) (xs : List Xact) (l : List Access) : (arrivalOf p d bs xs l).others = l := rfl
@[simp] theorem Access.arrival_dir (p : Platform) (a : Access) : (a.arrival p).dir = a.dir := rfl
@[simp] theorem Access.arrival_bytes (p : Platform) (a : Access) : (a.arrival p).bytes = a.bytes := rfl
@[simp] theorem Access.arrival_xs (p : Platform) (a : Access) : (a.arrival p).xs = [] := rfl
@[simp] theorem Access.arrival_others (p : Platform) (a : Access) : (a.arrival p).others = [a] := rfl

@[simp] theorem State.keepRecords_platform (s : State) (l : List (Nat × MemAttr)) : (s.keepRecords l).platform = s.platform := rfl
@[simp] theorem State.keepRecords_obs (s : State) (l : List (Nat × MemAttr)) : (s.keepRecords l).obs = s.obs := rfl
@[simp] theorem State.keepRecords_cur (s : State) (l : List (Nat × MemAttr)) : (s.keepRecords l).cur = s.cur := rfl
@[simp] theorem State.keepRecords_mem (s : State) (l : List (Nat × MemAttr)) : (s.keepRecords l).mem = s.mem := rfl
@[simp] theorem State.keepRecords_lines (s : State) (l : List (Nat × MemAttr)) : (s.keepRecords l).lines = s.lines := rfl
@[simp] theorem State.keepRecords_inflight (s : State) (l : List (Nat × MemAttr)) : (s.keepRecords l).inflight = s.inflight := rfl
@[simp] theorem State.keepRecords_arrivals (s : State) (l : List (Nat × MemAttr)) : (s.keepRecords l).arrivals = s.arrivals := rfl
@[simp] theorem State.keepRecords_acks (s : State) (l : List (Nat × MemAttr)) : (s.keepRecords l).acks = s.acks := rfl
@[simp] theorem State.keepRecords_obIn (s : State) (l : List (Nat × MemAttr)) : (s.keepRecords l).obIn = s.obIn := rfl
@[simp] theorem State.keepRecords_early (s : State) (l : List (Nat × MemAttr)) : (s.keepRecords l).early = s.early := rfl
@[simp] theorem State.keepRecords_bobIn (s : State) (l : List (Nat × MemAttr)) : (s.keepRecords l).bobIn = s.bobIn := rfl
@[simp] theorem State.keepRecords_nextId (s : State) (l : List (Nat × MemAttr)) : (s.keepRecords l).nextId = s.nextId := rfl
@[simp] theorem State.keepRecords_nextInstr (s : State) (l : List (Nat × MemAttr)) : (s.keepRecords l).nextInstr = s.nextInstr := rfl
@[simp] theorem State.keepRecords_inputs (s : State) (l : List (Nat × MemAttr)) : (s.keepRecords l).inputs = s.inputs := rfl
@[simp] theorem State.keepRecords_plan (s : State) (l : List (Nat × MemAttr)) : (s.keepRecords l).plan = s.plan := rfl
@[simp] theorem State.keepRecords_clock (s : State) (l : List (Nat × MemAttr)) : (s.keepRecords l).clock = s.clock := rfl

@[simp] theorem State.react_platform (s : State) (d : Dir) (pas : List Nat) : (s.react d pas).platform = s.platform := rfl
@[simp] theorem State.react_obs (s : State) (d : Dir) (pas : List Nat) : (s.react d pas).obs = s.obs := rfl
@[simp] theorem State.react_cur (s : State) (d : Dir) (pas : List Nat) : (s.react d pas).cur = s.cur := rfl
@[simp] theorem State.react_lines (s : State) (d : Dir) (pas : List Nat) : (s.react d pas).lines = s.lines := rfl
@[simp] theorem State.react_inflight (s : State) (d : Dir) (pas : List Nat) : (s.react d pas).inflight = s.inflight := rfl
@[simp] theorem State.react_arrivals (s : State) (d : Dir) (pas : List Nat) : (s.react d pas).arrivals = s.arrivals := rfl
@[simp] theorem State.react_acks (s : State) (d : Dir) (pas : List Nat) : (s.react d pas).acks = s.acks := rfl
@[simp] theorem State.react_touched (s : State) (d : Dir) (pas : List Nat) : (s.react d pas).touched = s.touched := rfl
@[simp] theorem State.react_obIn (s : State) (d : Dir) (pas : List Nat) : (s.react d pas).obIn = s.obIn := rfl
@[simp] theorem State.react_early (s : State) (d : Dir) (pas : List Nat) : (s.react d pas).early = s.early := rfl
@[simp] theorem State.react_bobIn (s : State) (d : Dir) (pas : List Nat) : (s.react d pas).bobIn = s.bobIn := rfl
@[simp] theorem State.react_nextId (s : State) (d : Dir) (pas : List Nat) : (s.react d pas).nextId = s.nextId := rfl
@[simp] theorem State.react_nextInstr (s : State) (d : Dir) (pas : List Nat) : (s.react d pas).nextInstr = s.nextInstr := rfl
@[simp] theorem State.react_inputs (s : State) (d : Dir) (pas : List Nat) : (s.react d pas).inputs = s.inputs := rfl
@[simp] theorem State.react_plan (s : State) (d : Dir) (pas : List Nat) : (s.react d pas).plan = s.plan := rfl
@[simp] theorem State.react_clock (s : State) (d : Dir) (pas : List Nat) : (s.react d pas).clock = s.clock := rfl
@[simp] theorem State.react_mem (s : State) (d : Dir) (pas : List Nat) : (s.react d pas).mem = Memory.react s.platform d s.mem pas := rfl

@[simp] theorem State.arrive_platform (s : State) (a : Access) : (s.arrive a).platform = s.platform := rfl
@[simp] theorem State.arrive_obs (s : State) (a : Access) : (s.arrive a).obs = s.obs := rfl
@[simp] theorem State.arrive_cur (s : State) (a : Access) : (s.arrive a).cur = s.cur := rfl
@[simp] theorem State.arrive_lines (s : State) (a : Access) : (s.arrive a).lines = s.lines := rfl
@[simp] theorem State.arrive_inflight (s : State) (a : Access) : (s.arrive a).inflight = s.inflight := rfl
@[simp] theorem State.arrive_acks (s : State) (a : Access) : (s.arrive a).acks = s.acks := rfl
@[simp] theorem State.arrive_touched (s : State) (a : Access) : (s.arrive a).touched = s.touched := rfl
@[simp] theorem State.arrive_obIn (s : State) (a : Access) : (s.arrive a).obIn = s.obIn := rfl
@[simp] theorem State.arrive_early (s : State) (a : Access) : (s.arrive a).early = s.early := rfl
@[simp] theorem State.arrive_bobIn (s : State) (a : Access) : (s.arrive a).bobIn = s.bobIn := rfl
@[simp] theorem State.arrive_nextId (s : State) (a : Access) : (s.arrive a).nextId = s.nextId := rfl
@[simp] theorem State.arrive_nextInstr (s : State) (a : Access) : (s.arrive a).nextInstr = s.nextInstr := rfl
@[simp] theorem State.arrive_inputs (s : State) (a : Access) : (s.arrive a).inputs = s.inputs := rfl
@[simp] theorem State.arrive_plan (s : State) (a : Access) : (s.arrive a).plan = s.plan := rfl
@[simp] theorem State.arrive_clock (s : State) (a : Access) : (s.arrive a).clock = s.clock := rfl
@[simp] theorem State.arrive_arrivals (s : State) (a : Access) : (s.arrive a).arrivals = s.arrivals ++ [a.arrival s.platform] := rfl
@[simp] theorem State.arrive_mem (s : State) (a : Access) : (s.arrive a).mem = Memory.react s.platform a.dir s.mem a.bytes := rfl

@[simp] theorem State.reactGroup_platform (s : State) (xs : List Xact) : (s.reactGroup xs).platform = s.platform := by unfold State.reactGroup; split <;> rfl
@[simp] theorem State.reactGroup_obs (s : State) (xs : List Xact) : (s.reactGroup xs).obs = s.obs := by unfold State.reactGroup; split <;> rfl
@[simp] theorem State.reactGroup_cur (s : State) (xs : List Xact) : (s.reactGroup xs).cur = s.cur := by unfold State.reactGroup; split <;> rfl
@[simp] theorem State.reactGroup_lines (s : State) (xs : List Xact) : (s.reactGroup xs).lines = s.lines := by unfold State.reactGroup; split <;> rfl
@[simp] theorem State.reactGroup_inflight (s : State) (xs : List Xact) : (s.reactGroup xs).inflight = s.inflight := by unfold State.reactGroup; split <;> rfl
@[simp] theorem State.reactGroup_arrivals (s : State) (xs : List Xact) : (s.reactGroup xs).arrivals = s.arrivals := by unfold State.reactGroup; split <;> rfl
@[simp] theorem State.reactGroup_acks (s : State) (xs : List Xact) : (s.reactGroup xs).acks = s.acks := by unfold State.reactGroup; split <;> rfl
@[simp] theorem State.reactGroup_touched (s : State) (xs : List Xact) : (s.reactGroup xs).touched = s.touched := by unfold State.reactGroup; split <;> rfl
@[simp] theorem State.reactGroup_obIn (s : State) (xs : List Xact) : (s.reactGroup xs).obIn = s.obIn := by unfold State.reactGroup; split <;> rfl
@[simp] theorem State.reactGroup_early (s : State) (xs : List Xact) : (s.reactGroup xs).early = s.early := by unfold State.reactGroup; split <;> rfl
@[simp] theorem State.reactGroup_bobIn (s : State) (xs : List Xact) : (s.reactGroup xs).bobIn = s.bobIn := by unfold State.reactGroup; split <;> rfl
@[simp] theorem State.reactGroup_nextId (s : State) (xs : List Xact) : (s.reactGroup xs).nextId = s.nextId := by unfold State.reactGroup; split <;> rfl
@[simp] theorem State.reactGroup_nextInstr (s : State) (xs : List Xact) : (s.reactGroup xs).nextInstr = s.nextInstr := by unfold State.reactGroup; split <;> rfl
@[simp] theorem State.reactGroup_inputs (s : State) (xs : List Xact) : (s.reactGroup xs).inputs = s.inputs := by unfold State.reactGroup; split <;> rfl
@[simp] theorem State.reactGroup_plan (s : State) (xs : List Xact) : (s.reactGroup xs).plan = s.plan := by unfold State.reactGroup; split <;> rfl
@[simp] theorem State.reactGroup_clock (s : State) (xs : List Xact) : (s.reactGroup xs).clock = s.clock := by unfold State.reactGroup; split <;> rfl

/-- What walks do: their reads arrive, the peripherals react, and their records are kept. -/
theorem State.walkReads_frame (s : State) (o : Nat) (c : PeCtl) (ws : List WalkRef) :
    s.walkReads o c ws = { s with
      arrivals := s.arrivals ++ (madeWalks s.platform c ws).map (fun w => (walkAccess s.platform o c w).arrival s.platform)
      mem := (madeWalks s.platform c ws).foldl (fun m w => Memory.react s.platform .read m w.bytes) s.mem
      touched := (s.walkReads o c ws).touched } := by
  have h : ∀ (p : Platform) (l : List WalkRef) (t : State), t.platform = p →
      l.foldl (fun t w => t.arrive (walkAccess p o c w)) t = { t with
        arrivals := t.arrivals ++ l.map (fun w => (walkAccess p o c w).arrival p)
        mem := l.foldl (fun m w => Memory.react p .read m w.bytes) t.mem } := by
    intro p l
    induction l with
    | nil => intro t _; simp
    | cons w l ih =>
      intro t ht
      rw [List.foldl_cons, ih _ (by simpa using ht), ← ht]
      simp [State.arrive, State.logArrival, State.react, walkAccess, Access.arrival]
  unfold State.walkReads
  rw [h s.platform _ s rfl]
  rfl

@[simp] theorem State.walkReads_platform (s : State) (o : Nat) (c : PeCtl) (ws : List WalkRef) : (s.walkReads o c ws).platform = s.platform := by rw [State.walkReads_frame]
@[simp] theorem State.walkReads_obs (s : State) (o : Nat) (c : PeCtl) (ws : List WalkRef) : (s.walkReads o c ws).obs = s.obs := by rw [State.walkReads_frame]
@[simp] theorem State.walkReads_cur (s : State) (o : Nat) (c : PeCtl) (ws : List WalkRef) : (s.walkReads o c ws).cur = s.cur := by rw [State.walkReads_frame]
@[simp] theorem State.walkReads_lines (s : State) (o : Nat) (c : PeCtl) (ws : List WalkRef) : (s.walkReads o c ws).lines = s.lines := by rw [State.walkReads_frame]
@[simp] theorem State.walkReads_inflight (s : State) (o : Nat) (c : PeCtl) (ws : List WalkRef) : (s.walkReads o c ws).inflight = s.inflight := by rw [State.walkReads_frame]
@[simp] theorem State.walkReads_acks (s : State) (o : Nat) (c : PeCtl) (ws : List WalkRef) : (s.walkReads o c ws).acks = s.acks := by rw [State.walkReads_frame]
@[simp] theorem State.walkReads_obIn (s : State) (o : Nat) (c : PeCtl) (ws : List WalkRef) : (s.walkReads o c ws).obIn = s.obIn := by rw [State.walkReads_frame]
@[simp] theorem State.walkReads_early (s : State) (o : Nat) (c : PeCtl) (ws : List WalkRef) : (s.walkReads o c ws).early = s.early := by rw [State.walkReads_frame]
@[simp] theorem State.walkReads_bobIn (s : State) (o : Nat) (c : PeCtl) (ws : List WalkRef) : (s.walkReads o c ws).bobIn = s.bobIn := by rw [State.walkReads_frame]
@[simp] theorem State.walkReads_nextId (s : State) (o : Nat) (c : PeCtl) (ws : List WalkRef) : (s.walkReads o c ws).nextId = s.nextId := by rw [State.walkReads_frame]
@[simp] theorem State.walkReads_nextInstr (s : State) (o : Nat) (c : PeCtl) (ws : List WalkRef) : (s.walkReads o c ws).nextInstr = s.nextInstr := by rw [State.walkReads_frame]
@[simp] theorem State.walkReads_inputs (s : State) (o : Nat) (c : PeCtl) (ws : List WalkRef) : (s.walkReads o c ws).inputs = s.inputs := by rw [State.walkReads_frame]
@[simp] theorem State.walkReads_plan (s : State) (o : Nat) (c : PeCtl) (ws : List WalkRef) : (s.walkReads o c ws).plan = s.plan := by rw [State.walkReads_frame]
@[simp] theorem State.walkReads_clock (s : State) (o : Nat) (c : PeCtl) (ws : List WalkRef) : (s.walkReads o c ws).clock = s.clock := by rw [State.walkReads_frame]

@[simp] theorem State.takeException_eq (s : State) (r : Raise) (b : Bool) :
    s.takeException r b = s.setObs s.cur { s.me with
      esr := esrAfter s.platform s.me.ctl r s.plan.syndrome s.me.esr
      handler := some { cause := r, slot := s.me.current, restarts := b }
      current := none } := rfl
@[simp] theorem State.addMark_eq (s : State) (k : MarkKind) (n : Nat) :
    s.addMark k n = s.setObs s.cur { s.me with marks := s.me.marks ++ [{ kind := k, option := n, at_ := s.nextId }] } := rfl
@[simp] theorem State.endSlot_eq (s : State) (o : Nat) : s.endSlot o = s.setObs o { s.getObs o with current := none } := rfl
@[simp] theorem State.begin_eq (s : State) (sl : Slot) (r : List Slot) :
    s.begin sl r = s.setObs s.cur { s.me with program := r, current := some sl } := rfl
@[simp] theorem State.scrambleAll_eq (s : State) (f : RegFile) (es : List Elem) :
    s.scrambleAll f es = s.setObs s.cur (s.me.prepare s.plan f s.nextId es) := rfl
@[simp] theorem State.walk_eq (s : State) (ws : List WalkRef) :
    s.walk ws = s.walkReads s.cur s.me.ctl (s.dueWalks s.cur s.me.ctl s.plan.kept ws) := rfl
@[simp] theorem State.reportSuppressed_eq (s : State) (is : List Nat) :
    s.reportSuppressed is = s.setObs s.cur (s.me.reportAll is) := rfl
@[simp] theorem State.exclDone_eq (s : State) (rs : RegNum) (st : Word) :
    s.exclDone rs st = s.setObs s.cur (({ s.me with excl := none } : Observer).overwriteX rs st s.nextId) := rfl

end Sys2Proof.Machine
end

