-- ==== Sys2Proof/Laws/Memory.lean ====
section
/-! SUPPORT. Endpoint memory: every operation keeps the canonical form, a read after a write, and that equal
memories are equal data; and the bytes of registers. -/

namespace Sys2Proof.Machine

open Sys2Proof

/-! ### The canonical form -/

theorem Memory.all_lt_write (m : List Host.Cell) (b a : Nat) (v : Byte) (hm : m.all (fun c => decide (b < c.1)) = true)
    (hb : b < a) : (Memory.write m a v).all (fun c => decide (b < c.1)) = true := by
  induction m with
  | nil => unfold Memory.write; split <;> simp [hb]
  | cons e t ih =>
    obtain ⟨k, w⟩ := e
    simp only [List.all_cons, Bool.and_eq_true, decide_eq_true_eq] at hm
    unfold Memory.write
    split
    · split
      · simp only [List.all_cons, Bool.and_eq_true, decide_eq_true_eq]; exact hm
      · simp only [List.all_cons, Bool.and_eq_true, decide_eq_true_eq]; exact ⟨hb, hm⟩
    · split
      · split
        · exact hm.2
        · simp only [List.all_cons, Bool.and_eq_true, decide_eq_true_eq]; exact ⟨hb, hm.2⟩
      · simp only [List.all_cons, Bool.and_eq_true, decide_eq_true_eq]; exact ⟨hm.1, ih hm.2⟩

/-- A write keeps the canonical form. -/
theorem Memory.wf_write (m : List Host.Cell) (a : Nat) (v : Byte) (h : Memory.wf m = true) :
    Memory.wf (Memory.write m a v) = true := by
  induction m with
  | nil => unfold Memory.write; split <;> simp_all [Memory.wf]
  | cons e t ih =>
    obtain ⟨k, w⟩ := e
    have h0 := h
    simp only [Memory.wf, Bool.and_eq_true] at h
    unfold Memory.write
    split
    · next hlt =>
      split
      · exact h0
      · next hv =>
        simp only [Memory.wf, Bool.and_eq_true, List.all_cons, bne_iff_ne, ne_eq, decide_eq_true_eq] at h ⊢
        refine ⟨⟨hv, hlt, ?_⟩, h⟩
        have := h.1.2
        simp only [List.all_eq_true, decide_eq_true_eq] at this ⊢
        exact fun x hx => Nat.lt_trans hlt (this x hx)
    · split
      · next heq =>
        subst heq
        split
        · exact h.2
        · next hv => simpa [Memory.wf, hv] using ⟨by simpa using h.1.2, h.2⟩
      · next hne hne' =>
        simp only [Memory.wf, Bool.and_eq_true]
        exact ⟨⟨h.1.1, Memory.all_lt_write t k a v h.1.2 (by omega)⟩, ih h.2⟩

/-- The write of an access keeps the canonical form. -/
theorem Memory.wf_writeBytes (m : List Host.Cell) (bs : List ByteAcc) (h : Memory.wf m = true) :
    Memory.wf (Memory.writeBytes m bs) = true := by
  induction bs generalizing m with
  | nil => exact h
  | cons b t ih => exact ih _ (Memory.wf_write m b.pa b.val h)

/-- The machine's memory at reset has the canonical form. -/
theorem State.wf_reset : Memory.wf State.reset.mem = true := rfl

/-! ### Reading after writing -/

theorem Memory.read_of_all_lt (m : List Host.Cell) (a : Nat) (h : m.all (fun c => decide (a < c.1)) = true) :
    Memory.read m a = Memory.unlisted := by
  induction m with
  | nil => rfl
  | cons e t ih =>
    obtain ⟨k, w⟩ := e
    simp only [List.all_cons, Bool.and_eq_true, decide_eq_true_eq] at h
    have : ¬ a = k := by omega
    simp [Memory.read, this, ih h.2]

/-- Reading what was written. -/
theorem Memory.read_write_self (m : List Host.Cell) (a : Nat) (v : Byte) (h : Memory.wf m = true) :
    Memory.read (Memory.write m a v) a = v := by
  induction m with
  | nil => unfold Memory.write; split <;> simp_all [Memory.read]
  | cons e t ih =>
    obtain ⟨k, w⟩ := e
    simp only [Memory.wf, Bool.and_eq_true] at h
    unfold Memory.write
    split
    · next hlt =>
      split
      · next hv =>
        have hne : ¬ a = k := by omega
        have ht : t.all (fun c => decide (a < c.1)) = true := by
          have := h.1.2
          simp only [List.all_eq_true, decide_eq_true_eq] at this ⊢
          exact fun x hx => Nat.lt_trans hlt (this x hx)
        simp [Memory.read, hne, Memory.read_of_all_lt t a ht, hv]
      · simp [Memory.read]
    · split
      · next heq =>
        subst heq
        split
        · next hv => rw [Memory.read_of_all_lt t a h.1.2, hv]
        · simp [Memory.read]
      · next hne => simp [Memory.read, hne, ih h.2]

/-- A write leaves every other location alone. -/
theorem Memory.read_write_ne (m : List Host.Cell) {a b : Nat} (v : Byte) (h : b ≠ a) :
    Memory.read (Memory.write m a v) b = Memory.read m b := by
  induction m with
  | nil => unfold Memory.write; split <;> simp [Memory.read, h]
  | cons e t ih =>
    obtain ⟨k, w⟩ := e
    unfold Memory.write
    split
    · split <;> simp [Memory.read, h]
    · split
      · next heq => subst heq; split <;> simp [Memory.read, h]
      · by_cases hb : b = k <;> simp [Memory.read, hb, ih]

/-- The write of an access leaves every location it does not name alone. -/
theorem Memory.read_writeBytes_ne (m : List Host.Cell) (bs : List ByteAcc) {a : Nat} (h : ∀ b ∈ bs, b.pa ≠ a) :
    Memory.read (Memory.writeBytes m bs) a = Memory.read m a := by
  induction bs generalizing m with
  | nil => rfl
  | cons b t ih =>
    rw [show Memory.writeBytes m (b :: t) = Memory.writeBytes (Memory.write m b.pa b.val) t from rfl]
    rw [ih _ (fun c hc => h c (by simp [hc])), Memory.read_write_ne m b.val (fun e => h b (by simp) e.symm)]

/-- The write of an access of distinct locations puts each of its values there. -/
theorem Memory.read_writeBytes_mem (m : List Host.Cell) (bs : List ByteAcc) (h : Memory.wf m = true)
    (hn : (bs.map ByteAcc.pa).Nodup) (b : ByteAcc) (hb : b ∈ bs) :
    Memory.read (Memory.writeBytes m bs) b.pa = b.val := by
  induction bs generalizing m with
  | nil => cases hb
  | cons c t ih =>
    simp only [List.map_cons, List.nodup_cons] at hn
    rw [show Memory.writeBytes m (c :: t) = Memory.writeBytes (Memory.write m c.pa c.val) t from rfl]
    rcases List.mem_cons.1 hb with rfl | hb
    · rw [Memory.read_writeBytes_ne _ _ (fun d hd e => hn.1 (by rw [← e]; exact List.mem_map_of_mem hd)),
        Memory.read_write_self m _ _ h]
    · exact ih _ (Memory.wf_write m _ _ h) hn.2 hb

/-! ### Peripherals -/

/-- A transition of a peripheral keeps the canonical form. -/
theorem wf_applyReaction (p : Platform) (r : Reaction) (m : List Host.Cell) (h : Memory.wf m = true) :
    Memory.wf (applyReaction p r m) = true := by
  unfold applyReaction
  induction r.sets.filter (fun c => mayChange p r.pa c.1) generalizing m with
  | nil => exact h
  | cons c t ih => exact ih _ (Memory.wf_write m _ _ h)

/-- So do the transitions after a transaction. -/
theorem Memory.wf_react (p : Platform) (d : Dir) (m : List Host.Cell) (pas : List Nat) (h : Memory.wf m = true) :
    Memory.wf (Memory.react p d m pas) = true := by
  unfold Memory.react
  induction pas.eraseDups generalizing m with
  | nil => exact h
  | cons a t ih =>
    rw [List.foldl_cons]
    refine ih _ ?_
    split
    · exact h
    · exact wf_applyReaction p _ m h

/-- The transition that is taken is one of the platform's, of a location that is not idempotent. -/
theorem reactionAt_some (p : Platform) (m : List Host.Cell) (d : Dir) (pa : Nat) (r : Reaction)
    (h : reactionAt p m d pa = some r) :
    r ∈ p.reactions ∧ r.pa = pa ∧ r.dir = d ∧ (regionAt p pa).idempotent = false := by
  unfold reactionAt at h
  split at h
  · cases h
  · next hi =>
    have := List.find?_some h
    simp only [Bool.and_eq_true, beq_iff_eq] at this
    exact ⟨List.mem_of_find?_eq_some h, this.1.2, this.1.1, by simpa using hi⟩

/-- A transition sets only its peripheral's own locations that are not idempotent. -/
theorem read_applyReaction (p : Platform) (r : Reaction) (m : List Host.Cell) (q : Nat)
    (h : ∀ c ∈ r.sets, mayChange p r.pa c.1 = true → c.1 ≠ q) :
    Memory.read (applyReaction p r m) q = Memory.read m q := by
  unfold applyReaction
  have h' : ∀ c ∈ r.sets.filter (fun c => mayChange p r.pa c.1), c.1 ≠ q := by
    intro c hc
    obtain ⟨h1, h2⟩ := List.mem_filter.1 hc
    exact h c h1 h2
  revert h'
  induction r.sets.filter (fun c => mayChange p r.pa c.1) generalizing m with
  | nil => intro _; rfl
  | cons c t ih =>
    intro h'
    rw [List.foldl_cons, ih _ (fun c hc => h' c (by simp [hc]))]
    exact Memory.read_write_ne m _ (fun e => h' c (by simp) e.symm)

/-- A location no transition of these accesses sets is read as before. -/
theorem Memory.read_react (p : Platform) (d : Dir) (m : List Host.Cell) (pas : List Nat) (q : Nat)
    (h : ∀ pa ∈ pas, ∀ r ∈ p.reactions, r.pa = pa → (regionAt p pa).idempotent = false →
      ∀ c ∈ r.sets, mayChange p r.pa c.1 = true → c.1 ≠ q) :
    Memory.read (Memory.react p d m pas) q = Memory.read m q := by
  unfold Memory.react
  have h' : ∀ pa ∈ pas.eraseDups, ∀ r ∈ p.reactions, r.pa = pa → (regionAt p pa).idempotent = false →
      ∀ c ∈ r.sets, mayChange p r.pa c.1 = true → c.1 ≠ q :=
    fun pa hp => h pa (List.mem_eraseDups.1 hp)
  revert h'
  induction pas.eraseDups generalizing m with
  | nil => intro _; rfl
  | cons a t ih =>
    intro h'
    rw [List.foldl_cons, ih _ (fun pa hp => h' pa (by simp [hp]))]
    split
    · rfl
    · next r hr =>
      obtain ⟨h1, h2, -, h4⟩ := reactionAt_some p m d a r hr
      exact read_applyReaction p r m q (fun c hc hm => h' a (by simp) r h1 h2 h4 c hc hm)

/-- Where no location has a transition, nothing changes. -/
theorem Memory.react_quiet (p : Platform) (d : Dir) (m : List Host.Cell) (pas : List Nat)
    (h : ∀ pa ∈ pas, (regionAt p pa).idempotent = true ∨ ∀ r ∈ p.reactions, r.pa ≠ pa) :
    Memory.react p d m pas = m := by
  unfold Memory.react
  have h' : ∀ pa ∈ pas.eraseDups, (regionAt p pa).idempotent = true ∨ ∀ r ∈ p.reactions, r.pa ≠ pa :=
    fun pa hp => h pa (List.mem_eraseDups.1 hp)
  revert h'
  induction pas.eraseDups with
  | nil => intro _; rfl
  | cons a t ih =>
    intro h'
    rw [List.foldl_cons]
    have : reactionAt p m d a = none := by
      rcases hr : reactionAt p m d a with _ | r
      · rfl
      · obtain ⟨h1, h2, -, h4⟩ := reactionAt_some p m d a r hr
        rcases h' a (by simp) with h | h
        · rw [h] at h4; cases h4
        · exact absurd h2 (h r h1)
    rw [this]
    exact ih (fun pa hp => h' pa (by simp [hp]))

theorem Memory.head_le_of_read (m : List Host.Cell) (k : Nat) (w : Byte) (a : Nat)
    (h : Memory.wf ((k, w) :: m) = true) (ha : a < k) : Memory.read ((k, w) :: m) a = Memory.unlisted := by
  refine Memory.read_of_all_lt _ a ?_
  simp only [Memory.wf, Bool.and_eq_true, List.all_eq_true, decide_eq_true_eq] at h
  simp only [List.all_cons, Bool.and_eq_true, decide_eq_true_eq, List.all_eq_true]
  exact ⟨ha, fun x hx => Nat.lt_trans ha (h.1.2 x hx)⟩

/-- Memories in canonical form that read the same everywhere are the same data. -/
theorem Memory.ext_of_wf (m n : List Host.Cell) (hm : Memory.wf m = true) (hn : Memory.wf n = true)
    (h : ∀ a, Memory.read m a = Memory.read n a) : m = n := by
  induction m generalizing n with
  | nil =>
    cases n with
    | nil => rfl
    | cons e t =>
      obtain ⟨k, w⟩ := e
      have := h k
      simp only [Memory.read, if_pos] at this
      simp only [Memory.wf, Bool.and_eq_true, bne_iff_ne] at hn
      exact absurd this.symm hn.1.1
  | cons e t ih =>
    obtain ⟨k, w⟩ := e
    cases n with
    | nil =>
      have := h k
      simp only [Memory.read, if_pos] at this
      simp only [Memory.wf, Bool.and_eq_true, bne_iff_ne] at hm
      exact absurd this hm.1.1
    | cons f u =>
      obtain ⟨j, v⟩ := f
      have hm' := hm
      have hn' := hn
      simp only [Memory.wf, Bool.and_eq_true, bne_iff_ne] at hm hn
      have hkj : k = j := by
        rcases Nat.lt_trichotomy k j with hlt | heq | hlt
        · have := h k
          rw [Memory.head_le_of_read u j v k hn' hlt] at this
          simp only [Memory.read, if_pos] at this
          exact absurd this hm.1.1
        · exact heq
        · have := h j
          rw [Memory.head_le_of_read t k w j hm' hlt] at this
          simp only [Memory.read, if_pos] at this
          exact absurd this.symm hn.1.1
      subst hkj
      have hw : w = v := by simpa [Memory.read] using h k
      subst hw
      congr 1
      refine ih u hm.2 hn.2 (fun a => ?_)
      have := h a
      simp only [Memory.read] at this
      by_cases ha : a = k
      · subst ha; rw [Memory.read_of_all_lt t a hm.1.2, Memory.read_of_all_lt u a hn.1.2]
      · simpa [ha] using this

/-! ### Bytes of registers -/

/-- A byte put into a register is read there. -/
theorem getLane_setLane_self {w : Nat} (v : BitVec w) (k : Nat) (b : Byte) (h : 8 * k + 8 ≤ w) :
    getLane (setLane v k b) k = b := by
  apply BitVec.eq_of_getLsbD_eq
  intro i hi
  simp only [getLane, setLane, BitVec.getLsbD_extractLsb', BitVec.getLsbD_or, BitVec.getLsbD_and, BitVec.getLsbD_not,
    BitVec.getLsbD_shiftLeft, BitVec.getLsbD_setWidth]
  have h1 : 8 * k + i < w := by omega
  have h2 : 8 * k + i - 8 * k = i := by omega
  have h3 : ¬ 8 * k + i < 8 * k := by omega
  have h4 : i < w := by omega
  have h5 : (0xFF#8).getLsbD i = true := by
    have : i = 0 ∨ i = 1 ∨ i = 2 ∨ i = 3 ∨ i = 4 ∨ i = 5 ∨ i = 6 ∨ i = 7 := by omega
    rcases this with h | h | h | h | h | h | h | h <;> subst h <;> rfl
  have h6 : (0xFF#8)[i] = true := by rw [← BitVec.getLsbD_eq_getElem hi]; exact h5
  simp [hi, h1, h2, h3, h4, h6]

/-- A byte put into a register leaves its other bytes alone. -/
theorem getLane_setLane_ne {w : Nat} (v : BitVec w) {k j : Nat} (b : Byte) (h : j ≠ k) :
    getLane (setLane v k b) j = getLane v j := by
  apply BitVec.eq_of_getLsbD_eq
  intro i hi
  simp only [getLane, setLane, BitVec.getLsbD_extractLsb', BitVec.getLsbD_or, BitVec.getLsbD_and, BitVec.getLsbD_not,
    BitVec.getLsbD_shiftLeft, BitVec.getLsbD_setWidth]
  rcases Nat.lt_or_gt_of_ne h with hlt | hgt
  · have h3 : 8 * j + i < 8 * k := by omega
    simp only [h3, decide_true, Bool.not_true, Bool.and_false, Bool.false_and, Bool.not_false, Bool.or_false]
    by_cases hw : 8 * j + i < w
    · simp [hw]
    · simp [BitVec.getLsbD_of_ge v (8 * j + i) (by omega)]
  · have h4 : ¬ 8 * j + i - 8 * k < 8 := by omega
    have hb : b.getLsbD (8 * j + i - 8 * k) = false := BitVec.getLsbD_of_ge b _ (by omega)
    have hf : (0xFF#8).getLsbD (8 * j + i - 8 * k) = false := BitVec.getLsbD_of_ge _ _ (by omega)
    rw [hb, hf]
    by_cases hw : 8 * j + i < w
    · simp [hw]
    · simp [BitVec.getLsbD_of_ge v (8 * j + i) (by omega)]

end Sys2Proof.Machine
end

