-- ==== Sys2Proof/Laws/Memsys.lean ====
section
/-! SUPPORT. What performing accesses can do: the fields it keeps, which accesses it takes out of flight, what
arrives, and that the accesses it performs first are closed under `waitsFor`. -/

namespace Sys2Proof.Machine

open Sys2Proof

/-- A fold keeps what each of its steps keeps. -/
theorem foldl_keeps {α β γ : Type} (F : α → γ) (g : α → β → α) (h : ∀ s x, F (g s x) = F s) (l : List β) (s : α) :
    F (l.foldl g s) = F s := by
  induction l generalizing s with
  | nil => rfl
  | cons x t ih => rw [List.foldl_cons, ih, h]

/-- A fold keeps a property each of its steps keeps. -/
theorem foldl_property {α β : Type} (P : α → Prop) (g : α → β → α) (l : List β) (s : α) (hs : P s)
    (h : ∀ s x, x ∈ l → P s → P (g s x)) : P (l.foldl g s) := by
  induction l generalizing s with
  | nil => exact hs
  | cons x t ih => exact ih _ (h s x (by simp) hs) (fun s y hy => h s y (by simp [hy]))

/-! ### What one performance keeps -/

/-- Everything but registers, reservations, memory and caches. -/
structure SameShape (s t : State) : Prop where
  platform : t.platform = s.platform
  cur : t.cur = s.cur
  touched : t.touched = s.touched
  obIn : t.obIn = s.obIn
  bobIn : t.bobIn = s.bobIn
  early : t.early = s.early
  nextId : t.nextId = s.nextId
  nextInstr : t.nextInstr = s.nextInstr
  inputs : t.inputs = s.inputs
  plan : t.plan = s.plan
  clock : t.clock = s.clock
  marks : ∀ o, (t.getObs o).marks = (s.getObs o).marks
  ctl : ∀ o, (t.getObs o).ctl = (s.getObs o).ctl

theorem SameShape.refl (s : State) : SameShape s s := ⟨rfl, rfl, rfl, rfl, rfl, rfl, rfl, rfl, rfl, rfl, rfl, fun _ => rfl, fun _ => rfl⟩

theorem SameShape.trans {s t u : State} (h : SameShape s t) (k : SameShape t u) : SameShape s u :=
  ⟨k.platform.trans h.platform, k.cur.trans h.cur, k.touched.trans h.touched, k.obIn.trans h.obIn,
   k.bobIn.trans h.bobIn, k.early.trans h.early, k.nextId.trans h.nextId, k.nextInstr.trans h.nextInstr, k.inputs.trans h.inputs,
   k.plan.trans h.plan, k.clock.trans h.clock, fun o => (k.marks o).trans (h.marks o), fun o => (k.ctl o).trans (h.ctl o)⟩

theorem SameShape.foldl {β : Type} (g : State → β → State) (h : ∀ s x, SameShape s (g s x)) (l : List β) (s : State) :
    SameShape s (l.foldl g s) := by
  induction l generalizing s with
  | nil => exact SameShape.refl s
  | cons x t ih => exact (h s x).trans (ih _)

/-- The relation `mustPrecede` reads nothing that a performance changes. -/
theorem SameShape.mustPrecede {s t : State} (h : SameShape s t) (a b : Xact) : t.mustPrecede a b = s.mustPrecede a b := by
  simp [State.mustPrecede, State.ob, State.bob, h.platform, h.obIn, h.bobIn, h.marks]

theorem Observer.setRegByte_keeps (o : Observer) (f : RegFile) (n : RegNum) (k : Nat) (b : Byte) :
    ∃ g v c, o.setRegByte f n k b = { o with gpr := g, vreg := v, copyBuf := c } := by
  unfold Observer.setRegByte
  split
  · unfold Observer.setX
    split
    · exact ⟨_, _, _, rfl⟩
    · exact ⟨_, _, _, rfl⟩
  · exact ⟨_, _, _, rfl⟩
  · exact ⟨_, _, _, rfl⟩

theorem Observer.putByte_keeps (o : Observer) (f : RegFile) (id : Nat) (b : ByteAcc) (x : Byte) :
    ∃ g v c, o.putByte f id b x = { o with gpr := g, vreg := v, copyBuf := c } := by
  unfold Observer.putByte
  split
  · exact o.setRegByte_keeps f b.reg b.lane x
  · exact ⟨_, _, _, rfl⟩

theorem Observer.putBytes_keeps (o : Observer) (f : RegFile) (id : Nat) (bs : List ByteAcc) (vs : List Byte) :
    ∃ g v c, o.putBytes f id bs vs = { o with gpr := g, vreg := v, copyBuf := c } := by
  unfold Observer.putBytes
  refine foldl_property (fun x : Observer => ∃ g v c, x = { o with gpr := g, vreg := v, copyBuf := c }) _ _ _
    ⟨o.gpr, o.vreg, o.copyBuf, rfl⟩ ?_
  rintro _ x - ⟨g, v, c, rfl⟩
  obtain ⟨g', v', c', h⟩ := Observer.putByte_keeps { o with gpr := g, vreg := v, copyBuf := c } f id x.1 x.2
  exact ⟨g', v', c', by rw [h]⟩

/-- What a delivered read does to the observer of a number: registers of one observer, nothing else. -/
theorem State.getObs_deliverTo (s : State) (x : Xact) (vals : List Byte) (o : Nat) :
    ∃ g v c l, (s.deliverTo x vals).getObs o = { s.getObs o with gpr := g, vreg := v, copyBuf := c, held := l } := by
  unfold State.deliverTo
  split
  · exact ⟨_, _, _, _, rfl⟩
  · next f _ =>
    rw [State.getObs_setObs]
    split
    · next h =>
      subst h
      obtain ⟨g, v, c, h⟩ := Observer.putBytes_keeps (s.getObs x.obs) f x.id x.bs vals
      exact ⟨g, v, c, _, by rw [h]; rfl⟩
    · exact ⟨_, _, _, _, rfl⟩

/-- An observer as it was, or with its reservation lost. -/
def Observer.MayLose (a b : Observer) : Prop :=
  b = a ∨ ∃ r, a.excl = some r ∧ b = { a with excl := some { r with lost := true } }

theorem Observer.MayLose.trans {a b c : Observer} (h : a.MayLose b) (k : b.MayLose c) : a.MayLose c := by
  rcases h with rfl | ⟨r, hr, rfl⟩
  · exact k
  · rcases k with rfl | ⟨q, hq, rfl⟩
    · exact .inr ⟨r, hr, rfl⟩
    · cases hq; exact .inr ⟨r, hr, rfl⟩

/-- A reservation may be lost: nothing else of the observer changes, and none comes or goes. -/
theorem Observer.MayLose.eq {a b : Observer} (h : a.MayLose b) : ∃ e, b = { a with excl := e } := by
  rcases h with rfl | ⟨r, -, rfl⟩
  · exact ⟨_, rfl⟩
  · exact ⟨_, rfl⟩

/-- What a completed write does to the observer of a number: it may lose its reservation, if it is another's. -/
theorem State.getObs_clearReservations (s : State) (x : Xact) (o : Nat) :
    (s.getObs o).MayLose ((s.clearReservations x).getObs o) ∧
    (o = x.obs → (s.clearReservations x).getObs o = s.getObs o) := by
  unfold State.clearReservations State.getObs
  rcases Observers.get_map (fun e =>
      match e.2.excl with
      | some r =>
        if e.1 != x.obs && r.takesAccount s.platform x e.1 then
          (e.1, { e.2 with excl := some { r with lost := true } })
        else e
      | none => e) (fun e => by dsimp only; split <;> (try split) <;> rfl) s.obs o with h | ⟨v, -, hv, h⟩
  · exact ⟨.inl h, fun _ => h⟩
  · rw [hv]
    dsimp only at h
    split at h
    · next r hr =>
      split at h
      · next hc =>
        simp only [Bool.and_eq_true, bne_iff_ne] at hc
        exact ⟨.inr ⟨r, hr, h⟩, fun e => absurd e hc.1⟩
      · exact ⟨.inl h, fun _ => h⟩
    · exact ⟨.inl h, fun _ => h⟩

theorem State.getObs_commit (s : State) (x : Xact) (o : Nat) :
    (s.getObs o).MayLose ((s.commit x).getObs o) ∧ (o = x.obs → (s.commit x).getObs o = s.getObs o) := by
  rw [State.getObs_congr (State.commit_obs s x)]
  exact s.getObs_clearReservations x o

theorem State.deliverTo_sameShape (s : State) (x : Xact) (vals : List Byte) : SameShape s (s.deliverTo x vals) := by
  refine ⟨by simp, by simp, by simp, by simp, by simp, by simp, by simp, by simp, by simp, by simp, by simp, fun o => ?_, fun o => ?_⟩
  all_goals obtain ⟨g, v, c, l, h⟩ := s.getObs_deliverTo x vals o; rw [h]

theorem State.commit_sameShape (s : State) (x : Xact) : SameShape s (s.commit x) := by
  refine ⟨by simp, by simp, by simp, by simp, by simp, by simp, by simp, by simp, by simp, by simp, by simp, fun o => ?_, fun o => ?_⟩
  all_goals obtain ⟨e, h⟩ := (s.getObs_commit x o).1.eq; rw [h]

theorem State.perform_sameShape (s : State) (x : Xact) : SameShape s (s.perform x) := by
  unfold State.perform
  split
  · exact s.deliverTo_sameShape x _
  · exact s.commit_sameShape _

theorem SameShape.of_obs {s t : State} (h : t.obs = s.obs) (h1 : t.platform = s.platform) (h2 : t.cur = s.cur)
    (h3 : t.touched = s.touched) (h4 : t.obIn = s.obIn) (h5 : t.bobIn = s.bobIn) (h11 : t.early = s.early) (h6 : t.nextId = s.nextId)
    (h7 : t.nextInstr = s.nextInstr) (h8 : t.inputs = s.inputs) (h9 : t.plan = s.plan) (h10 : t.clock = s.clock) :
    SameShape s t :=
  ⟨h1, h2, h3, h4, h5, h11, h6, h7, h8, h9, h10, fun o => by rw [State.getObs_congr h], fun o => by rw [State.getObs_congr h]⟩

theorem State.logGroup_sameShape (s : State) (xs : List Xact) : SameShape s (s.logGroup xs) := by
  apply SameShape.of_obs <;> simp

theorem State.reactGroup_sameShape (s : State) (xs : List Xact) : SameShape s (s.reactGroup xs) := by
  apply SameShape.of_obs <;> simp

theorem State.finish_sameShape (b : List Nat) (s : State) (x : Xact) : SameShape s (State.finish b s x) := by
  apply SameShape.of_obs <;> simp

theorem State.retire_sameShape (s : State) (x : Xact) : SameShape s (s.retire x) := by
  apply SameShape.of_obs <;> simp

theorem State.transact_sameShape (s : State) (xs : List Xact) (again : List Nat) : SameShape s (s.transact xs again) :=
  (((s.logGroup_sameShape xs).trans (SameShape.foldl _ State.perform_sameShape xs _)).trans
    (State.reactGroup_sameShape _ xs)).trans (SameShape.foldl _ (State.finish_sameShape again) xs _)

theorem State.performOne_sameShape (s : State) (x : Xact) (again : List Nat) : SameShape s (s.performOne x again) := by
  unfold State.performOne
  split
  · exact (s.deliverTo_sameShape x _).trans (State.retire_sameShape _ x)
  · exact s.transact_sameShape [x] again

theorem State.force_sameShape (s : State) (id : Nat) (again : List Nat) : SameShape s (s.force id again) := by
  unfold State.force
  split
  · exact SameShape.refl s
  · next x _ =>
    split
    · exact (s.deliverTo_sameShape x _).trans (State.retire_sameShape _ x)
    · exact (SameShape.foldl _ (fun s y => s.performOne_sameShape y []) _ s).trans (State.performOne_sameShape _ x again)

theorem State.forceAll_sameShape (s : State) (ids : List Nat) : SameShape s (s.forceAll ids) :=
  SameShape.foldl _ (fun s id => s.force_sameShape id []) ids s

theorem State.forceGroup_sameShape (s : State) (ids again : List Nat) : SameShape s (s.forceGroup ids again) := by
  unfold State.forceGroup
  split
  · exact SameShape.refl s
  · exact s.force_sameShape _ _
  · split
    · exact (SameShape.foldl _ (fun s y => s.performOne_sameShape y []) _ s).trans (State.transact_sameShape _ _ _)
    · exact s.forceAll_sameShape _

theorem State.settle_sameShape (s : State) (o : Nat) (regs : List (RegFile × RegNum)) : SameShape s (s.settle o regs) :=
  s.forceAll_sameShape _

/-! ### Which accesses leave, and what arrives -/

theorem State.finish_false_inflight (s : State) (x : Xact) :
    (State.finish [] s x).inflight = s.inflight.filter (fun y => y.id != x.id) := by
  simp [State.finish]

theorem State.foldl_finish_false_inflight (xs : List Xact) (s : State) :
    (xs.foldl (State.finish []) s).inflight = s.inflight.filter (fun y => xs.all (fun x => y.id != x.id)) := by
  induction xs generalizing s with
  | nil => exact (List.filter_eq_self.2 (by simp)).symm
  | cons x t ih =>
    rw [List.foldl_cons, ih, State.finish_false_inflight, List.filter_filter]
    congr 1; funext y; simp [Bool.and_comm]

/-- A group performed leaves the accesses in flight, but for those to be performed again. -/
theorem State.foldl_finish_inflight (again : List Nat) (xs : List Xact) (s : State) :
    (xs.foldl (State.finish again) s).inflight =
      s.inflight.filter (fun y => xs.all (fun x => again.contains x.id && x.repeatable || y.id != x.id)) := by
  induction xs generalizing s with
  | nil => exact (List.filter_eq_self.2 (by simp)).symm
  | cons x t ih =>
    rw [List.foldl_cons, ih]
    unfold State.finish
    cases hr : (again.contains x.id && x.repeatable)
    · simp only [Bool.false_eq_true, if_false, State.retire_inflight, State.endpointAck_inflight, List.filter_filter]
      congr 1; funext y; rw [List.all_cons, hr, Bool.false_or, Bool.and_comm]
    · simp only [if_true]
      congr 1; funext y; rw [List.all_cons, hr, Bool.true_or, Bool.true_and]

theorem State.foldl_perform_inflight (xs : List Xact) (s : State) : (xs.foldl State.perform s).inflight = s.inflight :=
  foldl_keeps State.inflight State.perform (fun s x => State.perform_inflight s x) xs s

theorem State.foldl_perform_arrivals (xs : List Xact) (s : State) : (xs.foldl State.perform s).arrivals = s.arrivals :=
  foldl_keeps State.arrivals State.perform (fun s x => State.perform_arrivals s x) xs s

theorem State.foldl_finish_arrivals (b : List Nat) (xs : List Xact) (s : State) :
    (xs.foldl (State.finish b) s).arrivals = s.arrivals :=
  foldl_keeps State.arrivals (State.finish b) (fun s x => State.finish_arrivals s b x) xs s

theorem State.transact_inflight_again (s : State) (xs : List Xact) (again : List Nat) :
    (s.transact xs again).inflight =
      s.inflight.filter (fun y => xs.all (fun x => again.contains x.id && x.repeatable || y.id != x.id)) := by
  rw [State.transact, State.foldl_finish_inflight, State.reactGroup_inflight, State.foldl_perform_inflight]; simp

/-- A group performed once leaves the accesses in flight. -/
theorem State.transact_inflight (s : State) (xs : List Xact) :
    (s.transact xs []).inflight = s.inflight.filter (fun y => xs.all (fun x => y.id != x.id)) := by
  rw [State.transact_inflight_again]; simp

/-- One access performed leaves, or stays to be performed again if it is repeatable. -/
theorem State.transact_one_inflight (s : State) (x : Xact) (again : List Nat) :
    (s.transact [x] again).inflight =
      if again.contains x.id && x.repeatable then s.inflight else s.inflight.filter (fun y => y.id != x.id) := by
  simp only [State.transact, List.foldl_cons, List.foldl_nil]
  unfold State.finish
  split <;> simp

/-- What a group adds to the arrivals: at most one transaction, of those of its accesses seen at an endpoint. -/
theorem State.logGroup_arrivals (s : State) (xs : List Xact) :
    (s.logGroup xs).arrivals = s.arrivals ∧ xs.filter s.reachesEndpoint = [] ∨
    ∃ a, (s.logGroup xs).arrivals = s.arrivals ++ [a] ∧ a.others = [] ∧ a.xs = xs.filter s.reachesEndpoint ∧
      a.bytes = a.xs.flatMap Xact.touchedBytes ∧ ∃ y ∈ a.xs, a.dir = y.dir := by
  unfold State.logGroup
  split
  · next h => exact .inl ⟨rfl, h⟩
  · next y ys h => exact .inr ⟨_, rfl, rfl, h.symm, rfl, y, List.mem_cons_self, rfl⟩

theorem State.transact_arrivals (s : State) (xs : List Xact) (again : List Nat) :
    (s.transact xs again).arrivals = (s.logGroup xs).arrivals := by
  rw [State.transact, State.foldl_finish_arrivals, State.reactGroup_arrivals, State.foldl_perform_arrivals]

theorem State.performOne_inflight (s : State) (x : Xact) :
    (s.performOne x []).inflight = s.inflight.filter (fun y => y.id != x.id) := by
  unfold State.performOne
  split
  · simp
  · simp [State.transact_inflight]

theorem State.foldl_performOne_inflight (L : List Xact) (s : State) :
    (L.foldl (fun s y => s.performOne y []) s).inflight = s.inflight.filter (fun y => L.all (fun x => y.id != x.id)) := by
  induction L generalizing s with
  | nil => exact (List.filter_eq_self.2 (by simp)).symm
  | cons x t ih =>
    rw [List.foldl_cons, ih, State.performOne_inflight, List.filter_filter]
    congr 1; funext y; simp [Bool.and_comm]

/-- A forced access is no longer in flight. -/
theorem State.force_inflight (s : State) (id : Nat) : ∀ y ∈ (s.force id []).inflight, y ∈ s.inflight ∧ y.id ≠ id := by
  unfold State.force
  split
  · next h =>
    intro y hy
    refine ⟨hy, fun e => ?_⟩
    have := List.find?_eq_none.1 h y hy
    simp [e] at this
  · next x h =>
    have hx : x.id = id := by simpa using List.find?_some h
    split
    · intro y hy
      simp only [State.retire_inflight, State.deliverTo_inflight, List.mem_filter, bne_iff_ne] at hy
      exact ⟨hy.1, hx ▸ hy.2⟩
    · intro y hy
      rw [State.performOne_inflight, State.foldl_performOne_inflight] at hy
      simp only [List.mem_filter, bne_iff_ne] at hy
      exact ⟨hy.1.1, hx ▸ hy.2⟩

theorem State.forceAll_inflight (ids : List Nat) (s : State) :
    ∀ y ∈ (s.forceAll ids).inflight, y ∈ s.inflight ∧ y.id ∉ ids := by
  induction ids generalizing s with
  | nil => intro y hy; exact ⟨hy, by simp⟩
  | cons i t ih =>
    intro y hy
    have h1 := ih (s.force i []) y hy
    have h2 := s.force_inflight i y h1.1
    exact ⟨h2.1, by simp [h2.2, h1.2]⟩

/-! ### What must be performed first -/

/-- Only an access that is earlier in program order must precede another. -/
theorem State.mustPrecede_lt {s : State} {a b : Xact} (h : s.mustPrecede a b = true) : a.id < b.id := by
  simp only [State.mustPrecede, Bool.and_eq_true, decide_eq_true_eq] at h; exact h.1.2

/-- What must precede an access is performed before it. -/
theorem State.waitsFor_of_mustPrecede {s : State} {a b : Xact} (h : s.mustPrecede a b = true) : s.waitsFor b a = true := by
  simp [State.waitsFor, h]

/-- Only an access issued earlier is performed before another. -/
theorem State.waitsFor_lt {s : State} {a b : Xact} (h : s.waitsFor b a = true) : a.id < b.id := by
  simp only [State.waitsFor, State.seenBefore, Bool.or_eq_true, Bool.and_eq_true, decide_eq_true_eq] at h
  rcases h with h | h
  · exact State.mustPrecede_lt h
  · exact h.1.1.1.1.1.1.2

theorem State.required_step (s : State) (xs L : List Xact) :
    (L.foldr (fun y acc => if (acc ++ xs).any (fun z => s.waitsFor z y) then y :: acc else acc) []).Sublist L := by
  induction L with
  | nil => simp
  | cons y t ih =>
    rw [List.foldr_cons]
    split
    · exact ih.cons_cons y
    · exact ih.cons y

/-- Of accesses in rising order, the ones `required` finds are closed under `waitsFor`. -/
theorem State.required_closed (s : State) (xs L : List Xact) (hL : L.Pairwise (fun a b => a.id < b.id)) (y z : Xact)
    (hy : y ∈ L)
    (hz : z ∈ L.foldr (fun y acc => if (acc ++ xs).any (fun z => s.waitsFor z y) then y :: acc else acc) [] ++ xs)
    (h : s.waitsFor z y = true) :
    y ∈ L.foldr (fun y acc => if (acc ++ xs).any (fun z => s.waitsFor z y) then y :: acc else acc) [] := by
  have hlt : y.id < z.id := by
    exact State.waitsFor_lt h
  induction L with
  | nil => cases hy
  | cons w t ih =>
    rw [List.pairwise_cons] at hL
    rw [List.foldr_cons] at hz ⊢
    rcases List.mem_cons.1 hy with rfl | hy'
    · split
      · simp
      · next hn =>
        rw [if_neg hn] at hz
        exact absurd (List.any_eq_true.2 ⟨z, hz, h⟩) hn
    · split at hz
      · next hp =>
        rw [if_pos hp]
        rcases List.mem_append.1 hz with hz | hz
        · rcases List.mem_cons.1 hz with rfl | hz
          · exact absurd (hL.1 y hy') (by omega)
          · exact List.mem_cons_of_mem _ (ih hL.2 hy' (List.mem_append_left _ hz))
        · exact List.mem_cons_of_mem _ (ih hL.2 hy' (List.mem_append_right _ hz))
      · next hn => rw [if_neg hn]; exact ih hL.2 hy' hz

/-- Every access `required` finds is older than some access of the group. -/
theorem State.required_older (s : State) (xs L : List Xact) (n : Nat) (hx : ∀ x ∈ xs, x.id ≤ n) :
    ∀ y ∈ L.foldr (fun y acc => if (acc ++ xs).any (fun z => s.waitsFor z y) then y :: acc else acc) [], y.id < n := by
  induction L with
  | nil => intro y hy; cases hy
  | cons w t ih =>
    intro y hy
    rw [List.foldr_cons] at hy
    split at hy
    · next hp =>
      rcases List.mem_cons.1 hy with rfl | hy
      · obtain ⟨z, hz, h⟩ := List.any_eq_true.1 hp
        have hlt : y.id < z.id := by
          exact State.waitsFor_lt h
        rcases List.mem_append.1 hz with hz | hz
        · exact Nat.lt_trans hlt (ih z hz)
        · exact Nat.lt_of_lt_of_le hlt (hx z hz)
      · exact ih y hy
    · exact ih y hy

end Sys2Proof.Machine
end

