-- ==== Sys2Proof/Laws/Records.lean ====
section
/-! SUPPORT. Records that differ only in the hints: everything the rules read of a record is the same
(20_memory.md R81, R85). -/

namespace Sys2Proof.Machine

open Sys2Proof

theorem MemAttr.mismatched_false (a b : MemAttr) : a.mismatched b = false ↔ a.eraseHints = b.eraseHints := by
  simp [MemAttr.mismatched]

theorem MemAttr.mismatched_self (a : MemAttr) : a.mismatched a = false := by simp [MemAttr.mismatched]

theorem MemAttr.eraseHints_eraseHints (a : MemAttr) : a.eraseHints.eraseHints = a.eraseHints := by
  obtain ⟨ty, xs⟩ := a
  cases ty <;> rfl

theorem MemAttr.isDevice_erase (a : MemAttr) : a.eraseHints.isDevice = a.isDevice := by
  obtain ⟨ty, xs⟩ := a; cases ty <;> rfl

theorem MemAttr.isNormal_erase (a : MemAttr) : a.eraseHints.isNormal = a.isNormal := by
  obtain ⟨ty, xs⟩ := a; cases ty <;> rfl

theorem MemAttr.deviceType_erase (a : MemAttr) : a.eraseHints.deviceType = a.deviceType := by
  obtain ⟨ty, xs⟩ := a; cases ty <;> rfl

theorem MemAttr.cacheAt_erase (a : MemAttr) (l : CacheLevel) : a.eraseHints.cacheAt l = a.cacheAt l := by
  obtain ⟨ty, xs⟩ := a; cases ty <;> cases l <;> rfl

theorem MemAttr.isNormalNC_erase (a : MemAttr) : a.eraseHints.isNormalNC = a.isNormalNC := by
  obtain ⟨ty, xs⟩ := a; cases ty <;> rfl

theorem MemAttr.effSh_erase (a : MemAttr) : a.eraseHints.effSh = a.effSh := by
  obtain ⟨ty, xs⟩ := a; cases ty <;> rfl

theorem coherentFor_erase (p : Platform) (a : MemAttr) (w o : Nat) : coherentFor p a.eraseHints w o = coherentFor p a w o := by
  simp [coherentFor, MemAttr.isDevice_erase, MemAttr.isNormalNC_erase, MemAttr.effSh_erase]

theorem mustSee_erase (p : Platform) (a : MemAttr) (w o : Nat) : mustSee p a.eraseHints w o = mustSee p a w o := by
  simp [mustSee, visibleAcross, coherentFor_erase, MemAttr.cacheAt_erase]

/-- What a read returns does not depend on the hints. -/
theorem State.byteFor_erase (s : State) (o id : Nat) (a : MemAttr) (pa : Nat) :
    s.byteFor o id a.eraseHints pa = s.byteFor o id a pa := by
  simp [State.byteFor, State.valueFor, MemAttr.isDevice_erase, MemAttr.cacheAt_erase]

theorem State.byteFor_hints (s : State) (o id : Nat) {a b : MemAttr} (pa : Nat) (h : a.eraseHints = b.eraseHints) :
    s.byteFor o id a pa = s.byteFor o id b pa := by
  rw [← s.byteFor_erase o id a, ← s.byteFor_erase o id b, h]

theorem MemAttr.isDevice_hints {a b : MemAttr} (h : a.eraseHints = b.eraseHints) : a.isDevice = b.isDevice := by
  rw [← MemAttr.isDevice_erase a, ← MemAttr.isDevice_erase b, h]

theorem MemAttr.isNormal_hints {a b : MemAttr} (h : a.eraseHints = b.eraseHints) : a.isNormal = b.isNormal := by
  rw [← MemAttr.isNormal_erase a, ← MemAttr.isNormal_erase b, h]

theorem MemAttr.deviceType_hints {a b : MemAttr} (h : a.eraseHints = b.eraseHints) : a.deviceType = b.deviceType := by
  rw [← MemAttr.deviceType_erase a, ← MemAttr.deviceType_erase b, h]

theorem MemAttr.cacheAt_hints {a b : MemAttr} (h : a.eraseHints = b.eraseHints) (l : CacheLevel) : a.cacheAt l = b.cacheAt l := by
  rw [← MemAttr.cacheAt_erase a, ← MemAttr.cacheAt_erase b, h]

theorem mustSee_hints (p : Platform) {a b : MemAttr} (h : a.eraseHints = b.eraseHints) (w o : Nat) :
    mustSee p a w o = mustSee p b w o := by
  rw [← mustSee_erase p a, ← mustSee_erase p b, h]

end Sys2Proof.Machine
end

