-- ==== Sys2Proof/Laws/Change.lean ====
section
/-! SUPPORT. Everything a step can do: `Change` is one primitive change with its guard, `Changes` some of them one
after the other. What every primitive change keeps, every step keeps (`Laws/Steps.lean` proves that a step is
such changes). -/

namespace Sys2Proof.Machine

open Sys2Proof

/-- Accesses numbered from the next number on, of the next instruction. -/
def Fresh (s : State) (xs : List Xact) : Prop :=
  ∀ j x, xs[j]? = some x → x.id = s.nextId + j ∧ x.instr = s.nextInstr

/-- One primitive change, in a step before which the next access had the number `lo`. -/
inductive Change (lo : Nat) : State → State → Prop
  /-- an observer's registers, program or controls (only to records that are records); marks of an abandoned
  instruction go -/
  | observer (s : State) (o : Nat) (v : Observer) (hm : ∀ m ∈ v.marks, m ∈ (s.getObs o).marks)
      (hc : v.ctl = (s.getObs o).ctl ∨ v.ctl.valid s.platform = true) : Change lo s (s.setObs o v)
  /-- a mark before the next access -/
  | mark (s : State) (k : MarkKind) (n : Nat) : Change lo s (s.addMark k n)
  /-- records are kept -/
  | touch (s : State) (l : List (Nat × MemAttr)) : Change lo s (s.keepRecords l)
  /-- the accesses of one instruction are put in flight -/
  | issue (s : State) (xs : List Xact) (h : Fresh s xs) : Change lo s (s.issue xs)
  /-- accesses of the newest instruction, issued in this step, are not made -/
  | abandon (s : State) (p : Xact → Bool) (h : ∀ y ∈ s.inflight, p y = false → y.instr + 1 = s.nextInstr ∧ lo ≤ y.id) :
      Change lo s { s with inflight := s.inflight.filter p }
  /-- accesses that may be gathered are performed, with nothing in flight that must precede one of them; repeatable ones
  may stay -/
  | transact (s : State) (xs : List Xact) (again : List Nat) (hs : xs.Sublist s.inflight)
      (hp : ∀ y ∈ s.inflight, (∀ x ∈ xs, y.id ≠ x.id) → ∀ x ∈ xs, s.mustPrecede y x = false)
      (hg : s.allGather xs = true) (ha : ∀ x ∈ xs, x.id ∈ again → ∀ y ∈ xs, s.mustPrecede x y = false) :
      Change lo s (s.transact xs again)
  /-- a read is answered without reaching an endpoint -/
  | answer (s : State) (x : Xact) (vals : List Byte) (hx : x ∈ s.inflight) (hd : x.dir = .read) :
      Change lo s ((s.deliverTo x vals).retire x)
  /-- an early acknowledgement -/
  | earlyAck (s : State) (id : Nat) : Change lo s (s.earlyAckOf id)
  /-- an observer sees a write before it completes -/
  | early (s : State) (l : List (Nat × Nat)) : Change lo s { s with early := l }
  /-- an access that no instruction makes explicitly arrives -/
  | arrive (s : State) (a : Arrival) (h : a.xs = []) : Change lo s (s.logArrival a)
  /-- the peripherals react to one -/
  | react (s : State) (d : Dir) (pas : List Nat) : Change lo s (s.react d pas)
  /-- caches allocate, drop, or pass bytes on -/
  | caches (s : State) (ls : List Line) (h : ∀ l ∈ ls, l.attr.isNormal = true ∨ ∃ m ∈ s.lines, l.attr = m.attr) :
      Change lo s { s with lines := ls }
  /-- dirty bytes go to the endpoint -/
  | writeback (s : State) (sel : Line → Bool) : Change lo s (s.writebackToMem sel)
  /-- a location that is not idempotent changes -/
  | endpoint (s : State) (pa : Nat) (v : Byte) (h : (regionAt s.platform pa).idempotent = false) :
      Change lo s { s with mem := Memory.write s.mem pa v }
  /-- time passes -/
  | age (s : State) (h : ∀ x ∈ s.inflight, x.fuel ≠ 0) :
      Change lo s { s with clock := s.clock + 1, inflight := s.inflight.map (fun x => { x with fuel := x.fuel - 1 }) }
  /-- the step takes its input -/
  | driver (s : State) (c : Nat) (i : List Event) (p : Plan) : Change lo s { s with cur := c, inputs := i, plan := p }

/-- Some primitive changes. -/
inductive Changes (lo : Nat) : State → State → Prop
  | refl (s : State) : Changes lo s s
  | tail {s t u : State} (h : Changes lo s t) (k : Change lo t u) : Changes lo s u

variable {lo : Nat}

theorem Changes.single {s t : State} (h : Change lo s t) : Changes lo s t := (Changes.refl s).tail h

theorem Changes.trans {s t u : State} (h : Changes lo s t) (k : Changes lo t u) : Changes lo s u := by
  induction k with
  | refl => exact h
  | tail _ k ih => exact ih.tail k

theorem Changes.head {s t u : State} (h : Change lo s t) (k : Changes lo t u) : Changes lo s u := (Changes.single h).trans k

/-- What every change keeps, changes keep. -/
theorem Changes.keeps {P : State → Prop} (hP : ∀ s t, P s → Change lo s t → P t) {s t : State} (h : Changes lo s t) (hs : P s) :
    P t := by
  induction h with
  | refl => exact hs
  | tail _ k ih => exact hP _ _ ih k

theorem Changes.of_eq {s t : State} (h : t = s) : Changes lo s t := by rw [h]; exact Changes.refl s

/-! ### Facts every change keeps -/

/-- No step writes the platform's parameters. -/
theorem Change.platform {s t : State} (h : Change lo s t) : t.platform = s.platform := by
  cases h <;> try rfl
  case transact xs again _ _ _ _ => exact (s.transact_sameShape xs again).platform
  case answer x vals _ _ => simp
  case earlyAck id => unfold State.earlyAckOf; split <;> (try split) <;> rfl
  case writeback sel => simp

/-- Nor the relations supplied from outside. -/
theorem Change.relations {s t : State} (h : Change lo s t) : t.obIn = s.obIn ∧ t.bobIn = s.bobIn := by
  cases h <;> try exact ⟨rfl, rfl⟩
  case transact xs again _ _ _ _ => exact ⟨(s.transact_sameShape xs again).obIn, (s.transact_sameShape xs again).bobIn⟩
  case answer x vals _ _ => simp
  case earlyAck id => unfold State.earlyAckOf; split <;> (try split) <;> exact ⟨rfl, rfl⟩
  case writeback sel => simp

theorem State.mem_perform_wf (s : State) (x : Xact) (h : Memory.wf s.mem = true) : Memory.wf (s.perform x).mem = true := by
  unfold State.perform
  split
  · simpa using h
  · unfold State.commit
    dsimp only
    split
    · exact Memory.wf_writeBytes _ _ (by simpa using h)
    · split
      · simpa using h
      · exact Memory.wf_writeBytes _ _ (by simpa using h)

theorem State.transact_mem (s : State) (xs : List Xact) (again : List Nat) :
    (s.transact xs again).mem = ((xs.foldl State.perform (s.logGroup xs)).reactGroup xs).mem :=
  foldl_keeps State.mem (State.finish again) (fun s x => State.finish_mem s again x) xs _

theorem State.transact_lines (s : State) (xs : List Xact) (again : List Nat) :
    (s.transact xs again).lines = (xs.foldl State.perform (s.logGroup xs)).lines := by
  rw [State.transact, foldl_keeps State.lines (State.finish again) (fun s x => State.finish_lines s again x) xs _,
    State.reactGroup_lines]

theorem State.mem_reactGroup_wf (s : State) (xs : List Xact) (h : Memory.wf s.mem = true) :
    Memory.wf (s.reactGroup xs).mem = true := by
  unfold State.reactGroup
  split
  · exact h
  · exact Memory.wf_react _ _ _ _ h

/-! ### Numbers -/

theorem State.getObs_addMark_marks (s : State) (k : MarkKind) (n o : Nat) :
    ((s.addMark k n).getObs o).marks = (s.getObs o).marks ∨
    ((s.addMark k n).getObs o).marks = (s.getObs o).marks ++ [{ kind := k, option := n, at_ := s.nextId }] := by
  rw [State.addMark_eq, State.getObs_setObs]
  split
  · next h => subst h; exact .inr rfl
  · exact .inl rfl

/-- What a change does to the accesses that arrived: some of those in flight arrive, as they are. -/
theorem Change.arrived {s t : State} (h : Change lo s t) :
    ∃ xs, t.arrived = s.arrived ++ xs ∧ xs.Sublist s.inflight := by
  cases h with
  | transact xs again hs hp hg =>
    rcases s.logGroup_arrivals xs with ⟨h, -⟩ | ⟨a, h, -, hx, -, -⟩
    · exact ⟨[], by simp [State.arrived, State.transact_arrivals, h], by simp⟩
    · refine ⟨a.xs, by simp [State.arrived, State.transact_arrivals, h], ?_⟩
      rw [hx]; exact List.filter_sublist.trans hs
  | answer x vals => exact ⟨[], by simp [State.arrived], by simp⟩
  | earlyAck id =>
    refine ⟨[], ?_, by simp⟩
    unfold State.earlyAckOf; split <;> (try split) <;> simp [State.arrived]
  | arrive a h => exact ⟨[], by simp [State.arrived, h], by simp⟩
  | writeback sel =>
    refine ⟨[], ?_, by simp⟩
    unfold State.writebackToMem State.arrived; split <;> simp
  | _ => exact ⟨[], by simp [State.arrived], by simp⟩

/-- Numbers stay in order through every change. -/
theorem Change.numbersOk {s t : State} (h : Change lo s t) (hs : NumbersOk s) : NumbersOk t := by
  obtain ⟨h1, h2, h3, h4⟩ := hs
  have keep : ∀ u : State, u.inflight.Sublist s.inflight → u.nextId = s.nextId → u.nextInstr = s.nextInstr →
      (∃ xs, u.arrived = s.arrived ++ xs ∧ xs.Sublist s.inflight) → (∀ o, ∀ m ∈ (u.getObs o).marks, m ∈ (s.getObs o).marks) →
      NumbersOk u := by
    intro u hi hn hm ⟨xs, ha, hx⟩ ho
    refine ⟨h1.sublist hi, fun x hx => ?_, fun x hx' => ?_, fun o m hm' => ?_⟩
    · rw [hn, hm]; exact h2 x (hi.subset hx)
    · rw [hn, hm]
      rw [ha] at hx'
      rcases List.mem_append.1 hx' with h | h
      · exact h3 x h
      · exact h2 x (hx.subset h)
    · rw [hn]; exact h4 o m (ho o m hm')
  have harr := h.arrived
  cases h with
  | observer o v hm hc =>
    refine keep _ (by simp) rfl rfl harr (fun o' => ?_)
    rw [State.getObs_setObs]; split
    · next h => subst h; exact hm
    · exact fun _ h => h
  | mark k n =>
    refine ⟨h1, h2, h3, fun o m hm => ?_⟩
    rcases s.getObs_addMark_marks k n o with h | h
    · rw [h] at hm; exact h4 o m hm
    · rw [h] at hm
      rcases List.mem_append.1 hm with hm | hm
      · exact h4 o m hm
      · rw [List.mem_singleton.1 hm]; exact Nat.le_refl _
  | touch bs => exact ⟨h1, h2, h3, h4⟩
  | issue xs hf =>
    have hid : ∀ x ∈ xs, s.nextId ≤ x.id ∧ x.id < s.nextId + xs.length ∧ x.instr = s.nextInstr := by
      intro x hx
      obtain ⟨j, hj, rfl⟩ := List.getElem_of_mem hx
      have := hf j xs[j] (by simp [hj])
      omega
    refine ⟨?_, ?_, ?_, ?_⟩
    · simp only [State.issue_inflight, List.pairwise_append]
      refine ⟨h1, ?_, fun a ha b hb => Nat.lt_of_lt_of_le (h2 a ha).1 (hid b hb).1⟩
      rw [List.pairwise_iff_getElem]
      intro i j hi hj hij
      have a := hf i xs[i] (by simp [hi])
      have b := hf j xs[j] (by simp [hj])
      omega
    · intro x hx
      simp only [State.issue_inflight, List.mem_append, State.issue_nextId, State.issue_nextInstr] at hx ⊢
      rcases hx with hx | hx
      · have := h2 x hx; omega
      · have := hid x hx; omega
    · intro x hx
      have := h3 x hx
      simp only [State.issue_nextId, State.issue_nextInstr]; omega
    · intro o m hm
      have := h4 o m hm
      simp only [State.issue_nextId]; omega
  | abandon p hp => exact keep _ List.filter_sublist rfl rfl harr (fun _ _ h => h)
  | transact xs again hx hp hg ha =>
    have hsh := s.transact_sameShape xs again
    refine keep _ ?_ hsh.nextId hsh.nextInstr harr (fun o m h => hsh.marks o ▸ h)
    rw [State.transact_inflight_again]; exact List.filter_sublist
  | answer x vals hx hd =>
    have hsh := (s.deliverTo_sameShape x vals).trans (State.retire_sameShape _ x)
    exact keep _ (by simp [List.filter_sublist]) hsh.nextId hsh.nextInstr harr (fun o m h => hsh.marks o ▸ h)
  | earlyAck id =>
    refine keep _ ?_ ?_ ?_ harr ?_ <;> unfold State.earlyAckOf <;> split <;> (try split) <;>
      first | exact List.Sublist.refl _ | rfl | exact fun _ _ h => h
  | arrive a h => exact keep _ (List.Sublist.refl _) rfl rfl harr (fun _ _ h => h)
  | early l => exact keep _ (List.Sublist.refl _) rfl rfl harr (fun _ _ h => h)
  | react d pas => exact keep _ (List.Sublist.refl _) rfl rfl harr (fun _ _ h => h)
  | caches ls h => exact keep _ (List.Sublist.refl _) rfl rfl harr (fun _ _ h => h)
  | writeback sel =>
    refine keep _ (by simp) (by simp) (by simp) harr (fun o => ?_)
    rw [State.getObs_congr (s.writebackToMem_obs sel)]; exact fun _ h => h
  | endpoint pa v h => exact keep _ (List.Sublist.refl _) rfl rfl harr (fun _ _ h => h)
  | age hf =>
    refine ⟨?_, ?_, h3, h4⟩
    · rw [List.pairwise_map]; exact h1
    · intro x hx
      obtain ⟨y, hy, rfl⟩ := List.mem_map.1 hx
      exact h2 y hy
  | driver c i p => exact keep _ (List.Sublist.refl _) rfl rfl harr (fun _ _ h => h)

/-- The next number never falls. -/
theorem Change.nextId_le {s t : State} (h : Change lo s t) : s.nextId ≤ t.nextId := by
  cases h <;> try exact Nat.le_refl _
  case issue xs _ => exact Nat.le_add_right _ _
  case transact xs again _ _ _ _ => exact Nat.le_of_eq (s.transact_sameShape xs again).nextId.symm
  case answer x vals _ _ => simp
  case earlyAck id => unfold State.earlyAckOf; split <;> (try split) <;> exact Nat.le_refl _
  case writeback sel => simp

theorem Changes.nextId_le {s t : State} (h : Changes lo s t) : s.nextId ≤ t.nextId :=
  h.keeps (P := fun u => s.nextId ≤ u.nextId) (fun _ _ hs k => Nat.le_trans hs k.nextId_le) (Nat.le_refl _)

theorem Changes.numbersOk {s t : State} (h : Changes lo s t) (hs : NumbersOk s) : NumbersOk t :=
  h.keeps (fun _ _ hs k => k.numbersOk hs) hs

/-- A state of a step that began with the next number `lo`: its numbers are in order, and the next is no less. -/
structure Since (lo : Nat) (s : State) : Prop where
  numbers : NumbersOk s
  low : lo ≤ s.nextId

theorem Changes.since {s t : State} (h : Changes lo s t) (hs : Since lo s) : Since lo t :=
  ⟨h.numbersOk hs.numbers, Nat.le_trans hs.low h.nextId_le⟩

end Sys2Proof.Machine
end

