-- ==== Sys2Proof/Laws/Steps.lean ====
section
/-! SUPPORT. Every operation, every meaning and every step is a run of primitive changes (`Changes`), from a state
whose accesses are numbered in order (`NumbersOk`). -/

namespace Sys2Proof.Machine

open Sys2Proof

variable {lo : Nat}

/-! ### Performing accesses -/

/-- A read is answered only from a write that may answer it: of the same observer, earlier, in flight, the newest that
touches its bytes, and not arrived (21_device_memory.md R150). -/
theorem State.forwardSource_some (s : State) (r w : Xact) (h : s.forwardSource r = some w) :
    ∃ v ∈ s.inflight, w = s.filled v ∧ r.fwd = true ∧ s.mayForward v r = true ∧ s.hasArrived v = false ∧ s.hasBytes v = true := by
  unfold State.forwardSource at h
  split at h
  · next hf =>
    split at h
    · next w' hw =>
      split at h
      · next hm =>
        cases h
        simp only [Bool.and_eq_true, Bool.not_eq_true'] at hm
        exact ⟨w', List.mem_reverse.1 (List.mem_of_find?_eq_some hw), rfl, hf, hm.1.1, hm.1.2, hm.2⟩
      · cases h
    · cases h
  · cases h

/-- What `mayForward` asks. -/
theorem State.mayForward_spec (s : State) (w r : Xact) (h : s.mayForward w r = true) :
    w.dir = .write ∧ r.dir = .read ∧ w.obs = r.obs ∧ w.id < r.id ∧ w.instr ≠ r.instr ∧ w.attr.isDevice = true ∧
    (∃ e, r.dt = some e ∧ e.gathering = true) ∧ (∀ b ∈ r.bs, ∃ c ∈ w.bs, c.pa = b.pa) ∧ r.extra = false ∧
    barrierBetween s.platform (s.getObs r.obs).marks [.dmb, .dsb] w r = false ∧
    acqRelBetween (s.getObs r.obs).marks w r = false ∧ s.ob w r = false ∧ w.release = false := by
  unfold State.mayForward at h
  simp only [Bool.and_eq_true, beq_iff_eq, bne_iff_ne, ne_eq, decide_eq_true_eq, Bool.not_eq_true', List.all_eq_true,
    List.any_eq_true] at h
  obtain ⟨⟨⟨⟨⟨⟨⟨⟨⟨⟨⟨⟨h1, h2⟩, h3⟩, h4⟩, h5⟩, h6⟩, h7⟩, h8⟩, h9⟩, h10⟩, h11⟩, h12⟩, h13⟩ := h
  refine ⟨h1, h2, h3, h4, h5, h6, ?_, h8, h9, h10, h11, h12, h13⟩
  split at h7
  · next e he => exact ⟨e, he, h7⟩
  · cases h7

theorem State.forwardSource_read (s : State) (r w : Xact) (h : s.forwardSource r = some w) : r.dir = .read := by
  obtain ⟨v, -, -, -, hm, -⟩ := s.forwardSource_some r w h
  exact (s.mayForward_spec v r hm).2.1

theorem State.performOne_changes (s : State) (x : Xact) (again : List Nat) (hx : x ∈ s.inflight)
    (hp : ∀ y ∈ s.inflight, y.id ≠ x.id → s.mustPrecede y x = false) : Changes lo s (s.performOne x again) := by
  unfold State.performOne
  split
  · next w hw => exact .single (.answer s x _ hx (s.forwardSource_read x w hw))
  · exact .single (.transact s [x] again (List.singleton_sublist.2 hx)
      (fun y hy h z hz => List.mem_singleton.1 hz ▸ hp y hy (h x (by simp))) (by simp [State.allGather]) (by simp [State.mustPrecede]))

/-- Accesses closed under `mustPrecede`, performed in rising order. -/
theorem State.foldl_performOne_changes (L : List Xact) (s : State) (hL : L.Pairwise (fun a b => a.id < b.id))
    (hin : ∀ y ∈ L, y ∈ s.inflight)
    (hc : ∀ y ∈ s.inflight, ∀ z ∈ L, s.mustPrecede y z = true → ∃ y' ∈ L, y'.id = y.id) :
    Changes lo s (L.foldl (fun s y => s.performOne y []) s) := by
  induction L generalizing s with
  | nil => exact .refl s
  | cons x t ih =>
    rw [List.pairwise_cons] at hL
    rw [List.foldl_cons]
    have h1 : Changes lo s (s.performOne x []) := by
      refine s.performOne_changes x [] (hin x (by simp)) (fun y hy hne => ?_)
      refine Bool.eq_false_iff.2 (fun hm => ?_)
      obtain ⟨y', hy', he⟩ := hc y hy x (by simp) hm
      have hlt : y.id < x.id := State.mustPrecede_lt hm
      rcases List.mem_cons.1 hy' with rfl | hy'
      · exact hne he.symm
      · have := hL.1 y' hy'; omega
    refine h1.trans (ih (s.performOne x []) hL.2 (fun y hy => ?_) (fun y hy z hz hm => ?_))
    · rw [State.performOne_inflight, List.mem_filter]
      have := hL.1 y hy
      exact ⟨hin y (by simp [hy]), by simp; omega⟩
    · rw [State.performOne_inflight, List.mem_filter] at hy
      rw [(s.performOne_sameShape x []).mustPrecede] at hm
      obtain ⟨y', hy', he⟩ := hc y hy.1 z (by simp [hz]) hm
      rcases List.mem_cons.1 hy' with rfl | hy'
      · have := hy.2; simp [he] at this
      · exact ⟨y', hy', he⟩

theorem State.findXact_some (s : State) (id : Nat) (x : Xact) (h : s.findXact id = some x) : x ∈ s.inflight ∧ x.id = id :=
  ⟨List.mem_of_find?_eq_some h, by simpa using List.find?_some h⟩

theorem NumbersOk.eq_of_id {s : State} (hs : NumbersOk s) {x y : Xact} (hx : x ∈ s.inflight) (hy : y ∈ s.inflight)
    (h : x.id = y.id) : x = y := by
  obtain ⟨i, hi, rfl⟩ := List.getElem_of_mem hx
  obtain ⟨j, hj, rfl⟩ := List.getElem_of_mem hy
  have hp := List.pairwise_iff_getElem.1 hs.1
  rcases Nat.lt_trichotomy i j with hlt | rfl | hlt
  · have := hp i j hi hj hlt; omega
  · rfl
  · have := hp j i hj hi hlt; omega

/-- What `required` finds is in flight, outside the group, and closed under `mustPrecede`. -/
theorem State.required_spec (s : State) (xs : List Xact) (hs : NumbersOk s)
    (hold : ∀ y ∈ s.required xs, ∀ x ∈ xs, y.id < x.id) :
    (s.required xs).Pairwise (fun a b => a.id < b.id) ∧ (∀ y ∈ s.required xs, y ∈ s.inflight) ∧
    (∀ y ∈ s.inflight, ∀ z ∈ s.required xs, s.mustPrecede y z = true → y ∈ s.required xs) ∧
    ∀ y ∈ s.inflight, (∀ x ∈ xs, y.id ≠ x.id) → ∀ x ∈ xs, s.mustPrecede y x = true → y ∈ s.required xs := by
  let L := s.inflight.filter (fun y => !(xs.any (fun x => x.id == y.id)))
  have hLs : L.Pairwise (fun a b => a.id < b.id) := hs.1.sublist List.filter_sublist
  have hsub : (s.required xs).Sublist L := s.required_step xs L
  have hLm : ∀ y, y ∈ L ↔ y ∈ s.inflight ∧ ∀ x ∈ xs, y.id ≠ x.id := by
    intro y
    simp only [L, List.mem_filter, Bool.not_eq_true', List.any_eq_false, beq_iff_eq]
    exact ⟨fun h => ⟨h.1, fun x hx e => h.2 x hx e.symm⟩, fun h => ⟨h.1, fun x hx e => h.2 x hx e.symm⟩⟩
  refine ⟨hLs.sublist hsub, fun y hy => ((hLm y).1 (hsub.subset hy)).1, fun y hy z hz hm => ?_, fun y hy hne x hx hm => ?_⟩
  · have hlt : y.id < z.id := State.mustPrecede_lt hm
    refine s.required_closed xs L hLs y z ((hLm y).2 ⟨hy, fun x hx e => ?_⟩) (List.mem_append_left _ hz) (State.waitsFor_of_mustPrecede hm)
    have := hold z hz x hx
    omega
  · exact s.required_closed xs L hLs y x ((hLm y).2 ⟨hy, hne⟩) (List.mem_append_right _ hx)
      (State.waitsFor_of_mustPrecede hm)

/-- The relation `mayGather` reads nothing that a performance changes. -/
theorem SameShape.mayGather {s t : State} (h : SameShape s t) (a b : Xact) : t.mayGather a b = s.mayGather a b := by
  simp [State.mayGather, State.ob, State.bob, h.platform, h.obIn, h.bobIn, h.marks]

theorem SameShape.allGather {s t : State} (h : SameShape s t) (xs : List Xact) : t.allGather xs = s.allGather xs := by
  induction xs with
  | nil => rfl
  | cons x l ih => simp [State.allGather, ih, h.mayGather]

/-- An access of a group that may recur must precede none of it. -/
theorem State.recurring_spec (s : State) (xs : List Xact) (again : List Nat) :
    ∀ x ∈ xs, x.id ∈ s.recurring xs again → ∀ y ∈ xs, s.mustPrecede x y = false := by
  intro x hx hm y hy
  simp only [State.recurring, List.mem_filter, List.all_eq_true, Bool.or_eq_true, Bool.not_eq_true', bne_iff_ne] at hm
  rcases hm.2 x hx with h | h
  · exact absurd rfl h
  · exact Bool.eq_false_iff.2 (fun hp => by simpa [State.waitsFor_of_mustPrecede hp] using h y hy)

/-- What must precede a group is performed, then the group as one transaction. -/
theorem State.group_changes (s : State) (xs : List Xact) (again : List Nat) (hs : Since lo s) (hsub : xs.Sublist s.inflight)
    (hg : s.allGather xs = true) (hold : ∀ y ∈ s.required xs, ∀ x ∈ xs, y.id < x.id)
    (ha : ∀ x ∈ xs, x.id ∈ again → ∀ y ∈ xs, s.mustPrecede x y = false) :
    Changes lo s (((s.required xs).foldl (fun s y => s.performOne y []) s).transact xs again) := by
  obtain ⟨h1, h2, h3, h4⟩ := s.required_spec xs hs.numbers hold
  have hc := State.foldl_performOne_changes (lo := lo) (s.required xs) s h1 h2 (fun y hy z hz hm => ⟨y, h3 y hy z hz hm, rfl⟩)
  have hsh := SameShape.foldl (fun s y => State.performOne s y []) (fun s y => s.performOne_sameShape y [])
    (s.required xs) s
  refine hc.tail (.transact _ xs again ?_ (fun y hy hne x hx => ?_) (by rw [hsh.allGather]; exact hg)
    (fun x hx h y hy => by rw [hsh.mustPrecede]; exact ha x hx h y hy))
  · rw [State.foldl_performOne_inflight]
    have he := hsub.filter (fun y => (s.required xs).all (fun x => y.id != x.id))
    rwa [List.filter_eq_self.2 (fun x hx => by
      rw [List.all_eq_true]
      intro y hy
      have := hold y hy x hx
      simp; omega)] at he
  · rw [State.foldl_performOne_inflight, List.mem_filter, List.all_eq_true] at hy
    rw [hsh.mustPrecede]
    refine Bool.eq_false_iff.2 (fun hm => ?_)
    have := hy.2 y (h4 y hy.1 hne x hx hm)
    simp at this

theorem State.force_changes (s : State) (id : Nat) (again : List Nat) (hs : Since lo s) : Changes lo s (s.force id again) := by
  unfold State.force
  split
  · exact .refl s
  · next x hf =>
    obtain ⟨hx, hid⟩ := s.findXact_some id x hf
    split
    · next w hw => exact .single (.answer s x _ hx (s.forwardSource_read x w hw))
    · have hold : ∀ y ∈ s.required [x], ∀ z ∈ [x], y.id < z.id := fun y hy z hz =>
        List.mem_singleton.1 hz ▸ s.required_older [x] _ x.id (by simp) y hy
      obtain ⟨h1, h2, h3, h4⟩ := s.required_spec [x] hs.numbers hold
      have hc := State.foldl_performOne_changes (lo := lo) (s.required [x]) s h1 h2 (fun y hy z hz hm => ⟨y, h3 y hy z hz hm, rfl⟩)
      have hsh := SameShape.foldl (fun s y => State.performOne s y []) (fun s y => s.performOne_sameShape y [])
        (s.required [x]) s
      refine hc.trans (State.performOne_changes _ x again ?_ (fun y hy hne => ?_))
      · rw [State.foldl_performOne_inflight, List.mem_filter]
        refine ⟨hx, ?_⟩
        rw [List.all_eq_true]
        intro z hz
        have := hold z hz x (by simp)
        simp; omega
      · rw [State.foldl_performOne_inflight, List.mem_filter, List.all_eq_true] at hy
        rw [hsh.mustPrecede]
        refine Bool.eq_false_iff.2 (fun hm => ?_)
        have := hy.2 y (h4 y hy.1 (by simpa using hne) x (by simp) hm)
        simp at this

theorem State.forceAll_changes (ids : List Nat) (s : State) (hs : Since lo s) : Changes lo s (s.forceAll ids) := by
  induction ids generalizing s with
  | nil => exact .refl s
  | cons i t ih =>
    have h := s.force_changes i [] hs
    exact h.trans (ih _ (h.since hs))

theorem State.select_sub (s : State) (ids : List Nat) : (s.select ids).Sublist s.inflight := List.filter_sublist

theorem State.forceGroup_changes (s : State) (ids again : List Nat) (hs : Since lo s) :
    Changes lo s (s.forceGroup ids again) := by
  unfold State.forceGroup
  split
  · exact .refl s
  · exact s.force_changes _ _ hs
  · split
    · next h =>
      simp only [Bool.and_eq_true, List.all_eq_true, decide_eq_true_eq] at h
      exact s.group_changes _ _ hs (s.select_sub ids) h.1 h.2
        (s.recurring_spec _ _)
    · exact s.forceAll_changes _ hs

theorem State.settle_changes (s : State) (o : Nat) (regs : List (RegFile × RegNum)) (hs : Since lo s) :
    Changes lo s (s.settle o regs) := s.forceAll_changes _ hs

theorem State.tick_changes (s : State) (hs : Since lo s) : Changes lo s s.tick := by
  unfold State.tick
  refine (s.forceAll_changes _ hs).tail (.age _ (fun x hx h0 => ?_))
  have h := State.forceAll_inflight _ s x hx
  exact h.2 (List.mem_map.2 ⟨x, List.mem_filter.2 ⟨h.1, by simp [h0]⟩, rfl⟩)

theorem State.act_changes (xs : List Xact) (s : State) (a : Act) (hs : Since lo s) : Changes lo s (State.act xs s a) := by
  exact s.forceGroup_changes _ _ hs

theorem State.performPlan_changes (s : State) (xs : List Xact) (acts : List Act) (rest : Bool) (hs : Since lo s) :
    Changes lo s (s.performPlan xs acts rest) := by
  have h : Changes lo s (acts.foldl (State.act xs) s) := by
    induction acts generalizing s with
    | nil => exact .refl s
    | cons a t ih => exact (s.act_changes xs a hs).trans (ih _ ((s.act_changes xs a hs).since hs))
  unfold State.performPlan
  dsimp only
  split
  · exact h.trans (State.forceAll_changes _ _ (h.since hs))
  · exact h

theorem State.act_sameShape (xs : List Xact) (s : State) (a : Act) : SameShape s (State.act xs s a) := by
  exact s.forceGroup_sameShape _ _

theorem State.performPlan_sameShape (s : State) (xs : List Xact) (acts : List Act) (rest : Bool) :
    SameShape s (s.performPlan xs acts rest) := by
  have h := SameShape.foldl (State.act xs) (State.act_sameShape xs) acts s
  unfold State.performPlan
  dsimp only
  split
  · exact h.trans (State.forceAll_sameShape _ _)
  · exact h

/-! ### Observers -/

theorem State.takeException_changes (s : State) (r : Raise) (b : Bool) : Changes lo s (s.takeException r b) := by
  rw [State.takeException_eq]; exact .single (.observer s s.cur _ (fun _ h => h) (.inl rfl))

theorem State.arrive_changes (s : State) (a : Access) : Changes lo s (s.arrive a) :=
  (Changes.single (.arrive s _ rfl)).tail (.react _ _ _)

theorem State.foldl_arrive_changes (l : List Access) (s : State) : Changes lo s (l.foldl State.arrive s) := by
  induction l generalizing s with
  | nil => exact .refl s
  | cons a t ih => exact (s.arrive_changes a).trans (ih _)

theorem State.walkReads_changes (s : State) (o : Nat) (c : PeCtl) (ws : List WalkRef) : Changes lo s (s.walkReads o c ws) := by
  unfold State.walkReads
  have h := State.foldl_arrive_changes (lo := lo) ((madeWalks s.platform c ws).map (walkAccess s.platform o c)) s
  rw [List.foldl_map] at h
  exact h.tail (.touch _ _)

theorem State.walk_changes (s : State) (ws : List WalkRef) : Changes lo s (s.walk ws) := s.walkReads_changes _ _ _

theorem Observer.setX_keeps (o : Observer) (n : RegNum) (v : Word) : ∃ g, o.setX n v = { o with gpr := g } := by
  unfold Observer.setX; split
  · exact ⟨o.gpr, rfl⟩
  · exact ⟨_, rfl⟩

theorem Observer.scramble_keeps (o : Observer) (f : RegFile) (n : RegNum) (v : VReg) :
    ∃ g w, o.scramble f n v = { o with gpr := g, vreg := w } := by
  unfold Observer.scramble; split
  · obtain ⟨g, h⟩ := o.setX_keeps n (v.setWidth 64); exact ⟨g, _, h⟩
  · exact ⟨_, _, rfl⟩
  · exact ⟨_, _, rfl⟩

/-- Overwriting a register changes what it holds and which loads still deliver there. -/
theorem Observer.overwriteX_keeps (o : Observer) (n : RegNum) (v : Word) (id : Nat) :
    ∃ g a b, o.overwriteX n v id = { o with gpr := g, gprFrom := a, vregFrom := b } := by
  unfold Observer.overwriteX Observer.setX
  split <;> exact ⟨_, _, _, rfl⟩

theorem Observer.claim_keeps (o : Observer) (f : RegFile) (n : RegNum) (id : Nat) :
    ∃ a b, o.claim f n id = { o with gprFrom := a, vregFrom := b } := by
  unfold Observer.claim; split <;> exact ⟨_, _, rfl⟩

/-- What preparing registers for their bytes can do. -/
theorem Observer.prepare_keeps (o : Observer) (p : Plan) (f : RegFile) (id : Nat) (es : List Elem) :
    ∃ g w a b, o.prepare p f id es = { o with gpr := g, vreg := w, gprFrom := a, vregFrom := b } := by
  unfold Observer.prepare
  refine foldl_property (fun x : Observer => ∃ g w a b, x = { o with gpr := g, vreg := w, gprFrom := a, vregFrom := b }) _ _ _
    ⟨_, _, _, _, rfl⟩ ?_
  rintro _ e - ⟨g, w, a, b, rfl⟩
  obtain ⟨g', w', h⟩ := Observer.scramble_keeps { o with gpr := g, vreg := w, gprFrom := a, vregFrom := b } f e.reg (junkOf p e.reg)
  obtain ⟨a', b', k⟩ := Observer.claim_keeps { o with gpr := g', vreg := w', gprFrom := a, vregFrom := b } f e.reg id
  exact ⟨g', w', a', b', by rw [h, k]⟩

/-- An effect beside the accesses of an instruction: registers and marks of the current observer. -/
structure Beside (pre : State → State) : Prop where
  changes : ∀ lo s, Changes lo s (pre s)
  nextId : ∀ s, (pre s).nextId = s.nextId
  nextInstr : ∀ s, (pre s).nextInstr = s.nextInstr
  cur : ∀ s, (pre s).cur = s.cur

theorem Beside.id : Beside (fun s => s) := ⟨fun _ => .refl, fun _ => rfl, fun _ => rfl, fun _ => rfl⟩

theorem Beside.comp {f g : State → State} (hf : Beside f) (hg : Beside g) : Beside (fun s => g (f s)) :=
  ⟨fun lo s => (hf.changes lo s).trans (hg.changes lo _), fun s => (hg.nextId _).trans (hf.nextId s),
   fun s => (hg.nextInstr _).trans (hf.nextInstr s), fun s => (hg.cur _).trans (hf.cur s)⟩

theorem Beside.setMe (v : State → Observer) (hm : ∀ s, (v s).marks = s.me.marks) (hc : ∀ s, (v s).ctl = s.me.ctl) :
    Beside (fun s => s.setMe (v s)) :=
  ⟨fun _ s => .single (.observer s s.cur (v s) (fun _ h => hm s ▸ h) (.inl (hc s))), fun _ => rfl, fun _ => rfl, fun _ => rfl⟩

theorem Beside.addMark (k : MarkKind) (n : Nat) : Beside (fun s => s.addMark k n) :=
  ⟨fun _ s => .single (.mark s k n), fun _ => rfl, fun _ => rfl, fun _ => rfl⟩

theorem Beside.scrambleAll (f : RegFile) (es : List Elem) : Beside (fun s => s.scrambleAll f es) := by
  refine Beside.setMe _ (fun s => ?_) (fun s => ?_)
  all_goals
    obtain ⟨g, w, a, b, h⟩ := s.me.prepare_keeps s.plan f s.nextId es
    rw [h]

theorem Beside.reportSuppressed (is : List Nat) : Beside (fun s => s.reportSuppressed is) :=
  Beside.setMe _ (fun _ => rfl) (fun _ => rfl)

theorem Beside.reserve (rs : List RElem) : Beside (fun s => s.reserve rs) :=
  Beside.setMe (fun s => { s.me with excl := some { bytes := (allBytes rs).map (fun b => (b.tr.pa, b.tr.attr)), lost := false } })
    (fun _ => rfl) (fun _ => rfl)

theorem Beside.exclDone (rs : RegNum) (st : Word) : Beside (fun s => s.exclDone rs st) := by
  refine Beside.setMe _ (fun s => ?_) (fun s => ?_)
  all_goals
    obtain ⟨g, a, b, h⟩ := Observer.overwriteX_keeps { s.me with excl := none } rs st s.nextId
    rw [h]

/-! ### The shared operation behind loads and stores -/

theorem mkXact_number (s : State) (r : Req) (e : Bool) (g : List RByte) (j : Nat) :
    (mkXact s r e g j).id = s.nextId + j ∧ (mkXact s r e g j).instr = s.nextInstr :=
  ⟨rfl, rfl⟩

/-- The accesses of a request are numbered in the order of its footprint. -/
theorem xactsFrom_number (s : State) (r : Req) (k j : Nat) (x : Xact) (h : (xactsFrom s r k)[j]? = some x) :
    x.id = s.nextId + (k + j) ∧ x.instr = s.nextInstr := by
  simp only [xactsFrom, List.getElem?_map, Option.map_eq_some_iff] at h
  obtain ⟨q, hq, rfl⟩ := h
  rw [List.getElem?_zipIdx] at hq
  simp only [Option.map_eq_some_iff] at hq
  obtain ⟨a, -, rfl⟩ := hq
  exact mkXact_number s r _ _ _

theorem xactsOf_fresh (s : State) (r : Req) : Fresh s (xactsOf s r) := by
  intro j x h
  simpa using xactsFrom_number s r 0 j x h

/-- The accesses of a copy are numbered, the reads first. -/
theorem State.copyXacts_fresh (s : State) (rd wr : List RElem) : Fresh s (s.copyXacts rd wr) := by
  intro j x h
  unfold State.copyXacts at h
  by_cases hj : j < (xactsOf s (s.copyReads rd wr)).length
  · rw [List.getElem?_append_left hj] at h
    exact xactsOf_fresh _ _ j x h
  · rw [List.getElem?_append_right (by omega)] at h
    obtain ⟨h1, h2⟩ := xactsFrom_number _ _ _ _ _ h
    exact ⟨by omega, h2⟩

theorem Fresh.congr {s t : State} {xs : List Xact} (h : Fresh s xs) (h1 : t.nextId = s.nextId) (h2 : t.nextInstr = s.nextInstr) :
    Fresh t xs := by
  intro j x hx; rw [h1, h2]; exact h j x hx

theorem State.inflight_filter_instr (s : State) (n : Nat) (xs : List Xact)
    (hx : ∀ x ∈ xs, x.instr + 1 = n) (hlo : ∀ x ∈ xs, lo ≤ x.id) (hx' : ∀ x ∈ xs, ∀ y ∈ s.inflight, x.id = y.id → y.instr = x.instr) :
    ∀ y ∈ s.inflight, (!xs.any (fun x => x.id == y.id)) = false → y.instr + 1 = n ∧ lo ≤ y.id := by
  intro y hy h
  simp only [Bool.not_eq_eq_eq_not, Bool.not_false, List.any_eq_true, beq_iff_eq] at h
  obtain ⟨x, hxm, he⟩ := h
  exact ⟨by rw [hx' x hxm y hy he]; exact hx x hxm, he ▸ hlo x hxm⟩

theorem Fresh.instr {s : State} {xs : List Xact} (h : Fresh s xs) : ∀ x ∈ xs, x.instr = s.nextInstr := by
  intro x hx
  obtain ⟨j, hj, rfl⟩ := List.getElem_of_mem hx
  exact (h j xs[j] (by simp [hj])).2

theorem Fresh.id_ge {s : State} {xs : List Xact} (h : Fresh s xs) : ∀ x ∈ xs, s.nextId ≤ x.id := by
  intro x hx
  obtain ⟨j, hj, rfl⟩ := List.getElem_of_mem hx
  have := (h j xs[j] (by simp [hj])).1
  omega

theorem State.foldl_performOne_sub (L : List Xact) (s : State) :
    ∀ y ∈ (L.foldl (fun s y => s.performOne y []) s).inflight, y ∈ s.inflight := by
  intro y hy; rw [State.foldl_performOne_inflight] at hy; exact (List.mem_filter.1 hy).1

theorem State.performOne_sub (s : State) (x : Xact) (again : List Nat) : ∀ y ∈ (s.performOne x again).inflight, y ∈ s.inflight := by
  intro y hy
  unfold State.performOne at hy
  split at hy
  · simp only [State.retire_inflight, State.deliverTo_inflight] at hy; exact (List.mem_filter.1 hy).1
  · rw [State.transact_one_inflight] at hy
    split at hy
    · exact hy
    · exact (List.mem_filter.1 hy).1

theorem State.force_sub (s : State) (id : Nat) (again : List Nat) : ∀ y ∈ (s.force id again).inflight, y ∈ s.inflight := by
  intro y hy
  unfold State.force at hy
  split at hy
  · exact hy
  · split at hy
    · simp only [State.retire_inflight, State.deliverTo_inflight] at hy; exact (List.mem_filter.1 hy).1
    · exact State.foldl_performOne_sub _ s y (State.performOne_sub _ _ again y hy)

theorem State.transact_sub (s : State) (xs : List Xact) (again : List Nat) :
    ∀ y ∈ (s.transact xs again).inflight, y ∈ s.inflight := by
  intro y hy
  rw [State.transact_inflight_again] at hy
  exact (List.mem_filter.1 hy).1

theorem State.forceAll_sub (ids : List Nat) (s : State) : ∀ y ∈ (s.forceAll ids).inflight, y ∈ s.inflight :=
  fun y hy => (s.forceAll_inflight ids y hy).1

theorem State.forceGroup_sub (s : State) (ids again : List Nat) :
    ∀ y ∈ (s.forceGroup ids again).inflight, y ∈ s.inflight := by
  unfold State.forceGroup
  split
  · exact fun _ h => h
  · exact s.force_sub _ _
  · split
    · exact fun y hy => State.foldl_performOne_sub _ s y (State.transact_sub _ _ _ y hy)
    · exact State.forceAll_sub _ _

theorem State.performPlan_sub (s : State) (xs : List Xact) (acts : List Act) (rest : Bool) :
    ∀ y ∈ (s.performPlan xs acts rest).inflight, y ∈ s.inflight := by
  have h : ∀ y ∈ (acts.foldl (State.act xs) s).inflight, y ∈ s.inflight := by
    refine foldl_property (fun t : State => ∀ y ∈ t.inflight, y ∈ s.inflight) _ _ _ (fun _ h => h) ?_
    intro t a _ ht y hy
    exact ht y (State.forceGroup_sub t _ _ y hy)
  intro y hy
  unfold State.performPlan at hy
  dsimp only at hy
  split at hy
  · exact h y (State.forceAll_sub _ _ y hy)
  · exact h y hy

/-- Performances of freshly issued accesses, and abandoning those of the rest that the plan does not leave in flight. -/
theorem State.issue_abandon_changes (s : State) (xs : List Xact) (acts : List Act) (e : Raise)
    (hs : Since lo s) (hf : Fresh s xs) : Changes lo s (((s.issue xs).performPlan xs acts false).abandonSeq xs e) := by
  have h1 : Changes lo s (s.issue xs) := .single (.issue s xs hf)
  have hs1 := h1.since hs
  have h2 := State.performPlan_changes (s.issue xs) xs acts false hs1
  have hsh := State.performPlan_sameShape (s.issue xs) xs acts false
  generalize hu : (s.issue xs).performPlan xs acts false = u at h2 hsh ⊢
  refine ((h1.trans h2).tail (.abandon u _ (fun y hy h => ?_))).trans (State.takeException_changes _ _ _)
  refine State.inflight_filter_instr u u.nextInstr xs (fun x hx => ?_)
    (fun x hx => Nat.le_trans hs.low (hf.id_ge x hx)) (fun x hx y hy he => ?_) y hy (Bool.or_eq_false_iff.1 h).1
  · rw [hf.instr x hx, hsh.nextInstr]; rfl
  · have hy' : y ∈ (s.issue xs).inflight := by
      subst hu; exact State.performPlan_sub _ xs acts false y hy
    have hx' : x ∈ (s.issue xs).inflight := by simp [hx]
    rw [hs1.numbers.eq_of_id hx' hy' he]

/-- That its instruction heeds a read no more changes no number. -/
theorem Fresh.unheeded {s : State} {xs : List Xact} (h : Fresh s xs) : Fresh s (xs.map Xact.unheeded) := by
  intro j x hx
  simp only [List.getElem?_map, Option.map_eq_some_iff] at hx
  obtain ⟨y, hy, rfl⟩ := hx
  exact h j y hy

theorem State.touch_changes (s : State) (bs : List RByte) : Changes lo s (s.touch bs) := .single (.touch s _)

theorem State.runAccesses_changes (s : State) (bs : List RByte) (xs : List Xact) (stop : Option Raise) (pre : State → State)
    (hx : Fresh s xs) (hp : Beside pre) (hs : Since lo s) : Changes lo s (s.runAccesses bs xs stop pre) := by
  unfold State.runAccesses
  split
  · have h1 : Changes lo s ((pre s).touch bs) := (hp.changes _ s).trans (State.touch_changes _ _)
    have h2 := h1.trans (.single (.issue _ xs (hx.congr (hp.nextId s) (hp.nextInstr s))))
    exact h2.trans (State.performPlan_changes _ _ _ _ (h2.since hs))
  · have h1 : Changes lo s (s.touch bs) := s.touch_changes bs
    exact h1.trans (State.issue_abandon_changes _ _ _ _ (h1.since hs) (hx.unheeded.congr rfl rfl))

theorem State.runReq_changes (s : State) (r : Req) (stop : Option Raise) (pre : State → State) (hp : Beside pre)
    (hs : Since lo s) : Changes lo s (s.runReq r stop pre) :=
  s.runAccesses_changes _ _ stop pre (xactsOf_fresh s r) hp hs

theorem Beside.ite (b : Bool) {f g : State → State} (hf : Beside f) (hg : Beside g) :
    Beside (fun s => if b then f s else g s) := by
  cases b
  · exact hg
  · exact hf

theorem Beside.noEffect (rs : List RElem) : Beside (noEffect rs) := Beside.id

/-! ### Every meaning -/

/-- A next state is reached by changes. -/
def OutChanges (lo : Nat) (s : State) (o : Out) : Prop := ∀ t, o = .next t → Changes lo s t

theorem OutChanges.next {s t : State} (h : Changes lo s t) : OutChanges lo s (.next t) := by
  intro u hu; cases hu; exact h

theorem OutChanges.fault {s : State} (f : Fault) : OutChanges lo s (.fault f) := by intro u hu; cases hu

theorem OutChanges.refused {s : State} (r : Refusal) : OutChanges lo s (.refused r) := by intro u hu; cases hu

theorem OutChanges.after {s t : State} {o : Out} (h : Changes lo s t) (k : OutChanges lo t o) : OutChanges lo s o :=
  fun u hu => h.trans (k u hu)

theorem OutChanges.requireFeature {s : State} {o : Out} (b : Bool) (f : Feature) (h : OutChanges lo s o) :
    OutChanges lo s (requireFeature b f o) := by
  unfold Sys2Proof.Machine.requireFeature; split
  · exact h
  · exact .refused _

theorem State.request_changes (s : State) (cls : AccessClass) (dir : Dir) (f : RegFile) (rel : Bool) (all : List Elem)
    (rs : List RElem) (F : List Nat) (pre : State → State) (hp : Beside pre) (hs : Since lo s) :
    OutChanges lo s (s.request cls dir f rel all rs F pre) := by
  unfold State.request
  dsimp only
  split
  · exact .refused _
  · split
    · have h := s.walk_changes (lo := lo) (walksOf (allBytes ((s.reqOf cls dir f rel all rs F).spared s.platform s.me.ctl).rs))
      exact .next (h.trans (State.runReq_changes _ _ _ _ hp (h.since hs)))
    · exact .next (s.takeException_changes _ _)
  · have h := s.walk_changes (lo := lo) (s.instrWalks cls (readParts dir rs) (writtenParts dir rs) F)
    exact .next (h.trans (State.runReq_changes _ _ _ _ hp (h.since hs)))

theorem State.access_changes (s : State) (cls : AccessClass) (dir : Dir) (f : RegFile) (rel : Bool)
    (all es first : List Elem) (pre : List RElem → State → State) (hp : ∀ rs, Beside (pre rs)) (hs : Since lo s) :
    OutChanges lo s (s.access cls dir f rel all es first pre) := by
  unfold State.access
  split
  · exact .fault _
  · exact .fault _
  · exact s.request_changes _ _ _ _ _ _ _ _ (hp _) hs

theorem State.load_changes (s : State) (cls : AccessClass) (f : RegFile) (all es first : List Elem)
    (pre : List RElem → State → State) (hp : ∀ rs, Beside (pre rs)) (hs : Since lo s) :
    OutChanges lo s (s.load cls f all es first pre) := by
  exact s.access_changes _ _ _ _ _ _ _ _ (fun rs => (hp rs).comp (Beside.scrambleAll f all)) hs

theorem State.store_changes (s : State) (cls : AccessClass) (f : RegFile) (rel : Bool) (all es : List Elem)
    (pre : List RElem → State → State) (hp : ∀ rs, Beside (pre rs)) (hs : Since lo s) :
    OutChanges lo s (s.store cls f rel all es pre) := by
  exact s.access_changes _ _ _ _ _ _ _ _ hp hs

theorem State.plainLoad_changes (s : State) (cls : AccessClass) (f : RegFile) (es : List Elem) (hs : Since lo s) :
    OutChanges lo s (s.plainLoad cls f es) := s.load_changes _ _ _ _ _ _ Beside.noEffect hs

theorem State.plainStore_changes (s : State) (cls : AccessClass) (f : RegFile) (es : List Elem) (hs : Since lo s) :
    OutChanges lo s (s.plainStore cls f es) := s.store_changes _ _ _ _ _ _ Beside.noEffect hs

theorem State.loadPair_changes (s : State) (cls : AccessClass) (f : RegFile) (size : Nat) (imm7 : BitVec 7)
    (rt2 rn rt : RegNum) (hs : Since lo s) : OutChanges lo s (s.loadPair cls f size imm7 rt2 rn rt) := by
  have h := s.settle_changes s.cur [(.gp, rn)] hs
  exact .after h (State.plainLoad_changes _ _ _ _ (h.since hs))

theorem State.simd_changes (s : State) (d : Dir) (es : List Elem) (hs : Since lo s) : OutChanges lo s (s.simd d es) := by
  cases d
  · exact s.plainLoad_changes _ _ _ hs
  · exact s.plainStore_changes _ _ _ hs

theorem State.caches_filter (s : State) (p : Line → Bool) : Changes lo s { s with lines := s.lines.filter p } :=
  .single (.caches s _ (fun l hl => .inr ⟨l, (List.mem_filter.1 hl).1, rfl⟩))

theorem State.allocate_changes (s : State) (o unit : Nat) (late : Bool) (a : MemAttr) (pa : Nat) :
    Changes lo s (s.allocate o unit late a pa) := by
  unfold State.allocate
  split
  · exact .refl s
  · split
    · next h =>
      refine .single (.caches s _ (fun l hl => ?_))
      rcases List.mem_append.1 hl with hl | hl
      · exact .inr ⟨l, hl, rfl⟩
      · simp only [Bool.and_eq_true] at h
        rw [List.mem_singleton.1 hl]; exact .inl h.1.1.1.1
    · exact .refl s

theorem State.speculate_changes (s : State) (o unit : Nat) (late : Bool) (b : RByte) : Changes lo s (s.speculate o unit late b) :=
  ((s.touch_changes _).tail (.arrive _ _ rfl)).trans (State.allocate_changes _ _ _ _ _ _)

theorem State.foldl_speculate_changes (bs : List RByte) (s : State) (o unit : Nat) (late : Bool) :
    Changes lo s (bs.foldl (fun s b => s.speculate o unit late b) s) := by
  induction bs generalizing s with
  | nil => exact .refl s
  | cons a t ih => exact (s.speculate_changes o unit late a).trans (ih _)

theorem State.speculateAll_changes (s : State) (o unit : Nat) (late : Bool) (vas : List Nat) :
    OutChanges lo s (s.speculateAll o unit late vas) := by
  unfold State.speculateAll
  split
  · exact .refused _
  · exact .next (State.foldl_speculate_changes _ s o unit late)

theorem State.authFail_changes (s : State) (rt : RegNum) : Changes lo s (s.authFail rt) := by
  unfold State.authFail
  split
  · exact s.takeException_changes _ _
  · obtain ⟨g, a, b, h⟩ := s.me.overwriteX_keeps rt s.plan.freeVal s.nextId
    exact .single (.observer s s.cur _ (by rw [h]; exact fun _ h => h) (.inl (by rw [h]; rfl)))

theorem State.failedRead_changes (s : State) (r : Req) (hs : Since lo s) : Changes lo s (s.failedRead r) := by
  unfold State.failedRead
  split
  · next g _ _ =>
    dsimp only
    split
    · have h := ((s.walk_changes (lo := lo) (walksOf (allBytes r.rs))).trans
        (State.touch_changes _ (allBytes r.rs))).tail
          (.issue _ [{ mkXact s r false g 0 with repeatable := false, dst := none }] (by
            intro j x hx
            cases j with
            | zero =>
              simp only [List.getElem?_cons_zero, Option.some.injEq] at hx; subst hx
              exact ⟨by simp [mkXact], by simp [mkXact]⟩
            | succ n => simp at hx))
      split
      · exact h.trans (State.force_changes _ _ _ (h.since hs))
      · exact h
    · exact .refl s
  · exact .refl s

theorem Beside.writeBack (w : BitVec 1) (rn : RegNum) (addr : Word) : Beside (fun s => s.writeBack w rn addr) := by
  unfold State.writeBack
  by_cases h : w = 1
  · simp only [h, if_true]
    exact Beside.setMe (fun t => t.me.setBase rn addr) (fun _ => rfl) (fun _ => rfl)
  · simp only [h, if_false]; exact Beside.id

theorem State.loadAuth_changes (s : State) (sbit : BitVec 1) (imm9 : BitVec 9) (w : BitVec 1) (rn rt : RegNum)
    (hs : Since lo s) : OutChanges lo s (s.loadAuth sbit imm9 w rn rt) := by
  have h := s.settle_changes s.cur [(.gp, rn)] hs
  refine .after h ?_
  have hs' := h.since hs
  unfold State.loadAuth
  dsimp only
  generalize s.settle s.cur [(.gp, rn)] = u at hs' ⊢
  split
  · split
    · exact .fault _
    · exact .next (u.authFail_changes rt)
  · split
    · exact State.request_changes _ _ _ _ _ _ _ _ _ ((Beside.writeBack w rn _).comp (Beside.scrambleAll .gp _)) hs'
    · split
      · exact .next ((u.failedRead_changes _ hs').trans (State.authFail_changes _ rt))
      · exact .next (u.authFail_changes rt)

theorem State.writebackDrop_changes (s : State) (sel : Line → Bool) (pas : List Nat) :
    Changes lo s ((s.writebackToMem sel).dropClean pas) :=
  .head (.writeback s sel) (State.caches_filter _ _)

theorem OutChanges.verdict {s : State} (v : Verdict) (o : Out) (ho : OutChanges lo s o) :
    OutChanges lo s (match v with
      | .refuse q => .refused q
      | .take e => .next (s.takeException e false)
      | .go => o) := by
  cases v with
  | refuse q => exact .refused _
  | take e => exact .next (s.takeException_changes e false)
  | go => exact ho

theorem State.runCopy_changes (s : State) (rd wr : List RElem) (stop : Option Raise) (hs : Since lo s) :
    Changes lo s (s.runCopy rd wr stop) :=
  s.runAccesses_changes _ _ stop _ (s.copyXacts_fresh rd wr) Beside.id hs

/-- Every meaning is a run of changes. -/
theorem exec_changes (i : Instr) (s : State) (hs : Since lo s) : OutChanges lo s (exec i s) := by
  cases i with
  | dmb crm => exact .next (.single (.mark s _ _))
  | dsb crm =>
    have h := s.forceAll_changes ((s.inflight.filter (s.dsbWaitsFor crm.toNat)).map Xact.id) hs
    exact .next (h.tail (.mark _ _ _))
  | ldnpGp sf imm7 rt2 rn rt => exact s.loadPair_changes _ _ _ _ _ _ _ hs
  | ldnpFp opc imm7 rt2 rn rt => exact s.loadPair_changes _ _ _ _ _ _ _ hs
  | ldraa sb imm9 w rn rt => exact .requireFeature _ _ (s.loadAuth_changes _ _ _ _ _ hs)
  | ldrab sb imm9 w rn rt => exact .requireFeature _ _ (s.loadAuth_changes _ _ _ _ _ hs)
  | cpy rd rs rn =>
    unfold exec execCpy
    refine .requireFeature _ _ ?_
    have h := s.settle_changes s.cur [(.gp, rd), (.gp, rs), (.gp, rn)] hs
    refine .after h ?_
    have hs' := h.since hs
    generalize s.settle s.cur [(.gp, rd), (.gp, rs), (.gp, rn)] = u at hs' ⊢
    dsimp only
    split
    · exact .fault _
    · exact .fault _
    · next src dst _ _ =>
      split
      · exact .refused _
      · split
        · refine .next ?_
          have hw := u.walk_changes (lo := lo) (u.instrWalks .memCopy
            (sparedCopy u.platform u.me.ctl src dst).1 (sparedCopy u.platform u.me.ctl src dst).2 [])
          exact hw.trans (State.runCopy_changes _ _ _ _ (hw.since hs'))
        · exact .next (u.takeException_changes _ _)
      · refine .next ?_
        have hw := u.walk_changes (lo := lo) (u.instrWalks .memCopy src dst [])
        exact hw.trans (State.runCopy_changes _ _ _ _ (hw.since hs'))
  | memSet addr len rs => exact .requireFeature _ _ (s.store_changes _ _ _ _ _ _ Beside.noEffect hs)
  | ld1 es => exact s.simd_changes .read es hs
  | st1 es => exact s.simd_changes .write es hs
  | loadExcl f =>
    exact s.load_changes _ _ _ _ _ _
      (fun rs => Beside.ite f.also ((Beside.reserve rs).comp (Beside.addMark .acquire 0)) (Beside.reserve rs)) hs
  | storeExcl rs f =>
    unfold exec execStoreExcl
    dsimp only
    split
    · exact .fault _
    · split
      · exact State.request_changes _ _ _ _ _ _ _ _ _
          ((Beside.ite f.also (Beside.addMark .release 0) Beside.id).comp (Beside.exclDone rs 0)) hs
      · unfold State.exclFail
        refine OutChanges.verdict _ _ (.next ?_)
        exact (s.walk_changes _).trans ((Beside.exclDone rs 1).changes _ _)
  | loadAcq f =>
    show OutChanges lo s (execLoadAcq f s)
    unfold execLoadAcq
    split
    · exact s.load_changes _ _ _ _ _ _ (fun _ => Beside.addMark .acquire 0) hs
    · exact s.load_changes _ _ _ _ _ _ (fun _ => Beside.addMark .acquire 0) hs
  | storeRel f =>
    show OutChanges lo s (execStoreRel f s)
    unfold execStoreRel
    split
    · exact s.store_changes _ _ _ _ _ _ (fun _ => Beside.addMark .release 0) hs
    · exact s.store_changes _ _ _ _ _ _ (fun _ => Beside.addMark .release 0) hs
  | gpSingle d e =>
    cases d
    · exact s.plainLoad_changes _ _ _ hs
    · exact s.plainStore_changes _ _ _ hs
  | gpMulti d es =>
    cases d
    · exact s.plainLoad_changes _ _ _ hs
    · exact s.plainStore_changes _ _ _ hs
  | simdFp d es => exact s.simd_changes _ _ hs
  | simdFpStreaming d es => exact s.simd_changes _ _ hs
  | sveUnpred es => exact .requireFeature _ _ (s.plainLoad_changes _ _ _ hs)
  | svePred es => exact .requireFeature _ _ (s.load_changes _ _ _ _ _ _ Beside.noEffect hs)
  | svePredNT es => exact .requireFeature _ _ (s.load_changes _ _ _ _ _ _ Beside.noEffect hs)
  | sveFirstFault es =>
    exact .requireFeature _ _ (s.load_changes _ _ _ _ _ _ (fun _ => Beside.reportSuppressed _) hs)
  | sveNonFault es =>
    exact .requireFeature _ _ (s.load_changes _ _ _ _ _ _ (fun _ => Beside.reportSuppressed _) hs)
  | svePrefetch es =>
    refine .requireFeature _ _ ?_
    split
    · exact .next (.refl s)
    · exact s.speculateAll_changes _ _ _ _
  | sveStore es => exact .requireFeature _ _ (s.store_changes _ _ _ _ _ _ Beside.noEffect hs)
  | cacheMaint addr len =>
    unfold exec execCacheMaint
    dsimp only
    split
    · exact .fault _
    · refine .next ?_
      split
      · exact s.writebackDrop_changes _ _
      · exact .refl s

/-! ### Inputs and the step -/

theorem State.setObs_changes (s : State) (o : Nat) (v : Observer) (hm : v.marks = (s.getObs o).marks)
    (hc : v.ctl = (s.getObs o).ctl) : Changes lo s (s.setObs o v) :=
  .single (.observer s o v (fun _ h => hm ▸ h) (.inl hc))

theorem State.allGather_of_filter_eq (s : State) : s.allGather [] = true := rfl

theorem State.deliverGroup_changes (s : State) (ids again : List Nat) (hs : Since lo s) :
    Changes lo s (s.deliverGroup ids again) := by
  unfold State.deliverGroup
  have hsub := s.select_sub ids
  have free : ∀ xs : List Xact, (s.required xs).isEmpty = true → ∀ y ∈ s.inflight, (∀ x ∈ xs, y.id ≠ x.id) →
      ∀ x ∈ xs, s.mustPrecede y x = false := by
    intro xs he y hy hne x hx
    refine Bool.eq_false_iff.2 (fun hm => ?_)
    have hyL : y ∈ s.inflight.filter (fun y => !xs.any (fun x => x.id == y.id)) := by
      rw [List.mem_filter]
      refine ⟨hy, ?_⟩
      simp only [Bool.not_eq_true', List.any_eq_false, beq_iff_eq]
      exact fun z hz e => hne z hz e.symm
    have := s.required_closed xs _ (hs.numbers.1.sublist List.filter_sublist) y x hyL (List.mem_append_right _ hx)
      (State.waitsFor_of_mustPrecede hm)
    have he' : s.required xs = [] := List.isEmpty_iff.1 he
    rw [State.required] at he'
    rw [he'] at this
    cases this
  split
  · exact .refl s
  · next x hx =>
    rw [hx] at hsub
    have hmem : x ∈ s.inflight := List.singleton_sublist.1 hsub
    split
    · next hor =>
      rcases Bool.or_eq_true _ _ |>.mp hor with h | h
      · exact s.performOne_changes x again hmem (fun y hy hne => free [x] h y hy (by simpa using hne) x (by simp))
      · obtain ⟨w, hw⟩ := Option.isSome_iff_exists.1 h
        unfold State.performOne
        rw [hw]
        exact .single (.answer s x _ hmem (s.forwardSource_read x w hw))
    · exact .refl s
  · split
    · next h =>
      simp only [Bool.and_eq_true] at h
      exact .single (.transact s _ _ hsub (free _ h.1) h.2
        (s.recurring_spec _ _))
    · exact .refl s

theorem State.writebackEvent_changes (s : State) (unit : Option Nat) (pas : List Nat) (dest : Option Nat) :
    Changes lo s (s.writebackEvent unit pas dest) := by
  unfold State.writebackEvent
  dsimp only
  split
  · exact .single (.writeback s _)
  · split
    · refine .single (.caches s _ (fun l hl => .inr ?_))
      obtain ⟨m, hm, rfl⟩ := List.mem_map.1 hl
      refine ⟨m, (List.mem_filter.1 hm).1, ?_⟩
      unfold Line.moveTo; split <;> rfl
    · exact .refl s

/-- Reads that stay in flight are numbered. -/
theorem State.lingering_changes (s : State) (o : Nat) (cls : AccessClass) (n : Nat) (rs : List (List Nat × MemAttr)) :
    Changes lo s (s.lingering o cls n rs) := by
  unfold State.lingering
  refine (Changes.single (.touch s _)).tail (.issue _ _ (fun j x hx => ?_))
  simp only [List.getElem?_map, Option.map_eq_some_iff, List.getElem?_zipIdx] at hx
  obtain ⟨q, ⟨a, -, rfl⟩, rfl⟩ := hx
  exact ⟨by simp [lateRead, State.keepRecords], rfl⟩

/-- Every input is a run of changes. -/
theorem State.handle_changes (s : State) (e : Event) (hs : Since lo s) : OutChanges lo s (s.handle e) := by
  cases e with
  | run p => exact .next (.single (.driver s s.cur s.inputs p))
  | schedule o => exact .next (.single (.driver s o s.inputs s.plan))
  | specRead o va size unit late => exact s.speculateAll_changes _ _ _ _
  | fill unit pa =>
    refine .next (.single (.caches s _ (fun l hl => .inr ?_)))
    obtain ⟨m, hm, rfl⟩ := List.mem_map.1 hl
    exact ⟨m, hm, by split <;> rfl⟩
  | specFetch o va kept late =>
    unfold State.handle State.specFetch
    dsimp only
    split
    · exact .next (.refl s)
    · split
      · exact .next (.refl s)
      · split
        · exact .refused _
        · split
          · exact .next ((s.walkReads_changes _ _ _).trans (State.lingering_changes _ _ _ _ _))
          · exact .next (((s.walkReads_changes _ _ _).trans (State.touch_changes _ _)).trans (State.arrive_changes _ _))
  | specWalk o va late =>
    unfold State.handle State.specWalk
    dsimp only
    split
    · exact .next (.refl s)
    · split
      · exact .refused _
      · split
        · exact .next (s.walkReads_changes _ _ _)
        · exact .next ((s.walkReads_changes _ _ _).trans (State.lingering_changes _ _ _ _ _))
  | observe o id =>
    refine .next ?_
    unfold State.observeEvent
    split
    · exact .refl s
    · dsimp only
      split
      · exact .single (.early s _)
      · exact .refl s
  | deliver ids again => exact .next (s.deliverGroup_changes _ _ hs)
  | earlyAck id => exact .next (.single (.earlyAck s id))
  | writeback unit pas dest => exact .next (s.writebackEvent_changes _ _ _)
  | evict unit pa => exact .next (s.caches_filter _)
  | endpointChange pa v =>
    refine .next ?_
    unfold State.endpointChangeEvent
    split
    · exact .refl s
    · next h => exact (Changes.single (.endpoint s pa v (by simpa using h))).tail (.arrive _ _ rfl)
  | exception o =>
    refine .next ?_
    unfold State.externalException
    split
    · exact .refl s
    · exact s.setObs_changes o _ rfl rfl
  | exceptionReturn o retry =>
    refine .next ?_
    unfold State.returnFromException
    split
    · exact .refl s
    · exact s.setObs_changes o _ rfl rfl
  | load o p => exact .next (s.setObs_changes o _ rfl rfl)
  | configure o c =>
    refine .next ?_
    unfold State.configureEvent
    split
    · next h => exact .single (.observer s o _ (fun _ h => h) (.inr h))
    · exact .refl s
  | setGp o n v => exact .next (s.setObs_changes o _ rfl rfl)
  | setVec o n v => exact .next (s.setObs_changes o _ rfl rfl)
  | setFfr o v => exact .next (s.setObs_changes o _ rfl rfl)

theorem State.begin_changes (s : State) (sl : Slot) (r : List Slot) : Changes lo s (s.begin sl r) :=
  s.setObs_changes s.cur _ rfl rfl

theorem State.fetchAccess_changes (s : State) (sl : Slot) (t : State) (h : s.fetchAccess sl = .go t) : Changes lo s t := by
  unfold State.fetchAccess at h
  split at h
  · cases h; exact .refl s
  · dsimp only at h
    split at h
    · cases h
    · split at h
      · cases h
      · split at h
        · cases h
        · split at h
          · cases h
          · split at h
            · cases h
            · cases h
              exact ((s.walkReads_changes _ _ _).trans (State.touch_changes _ _)).trans (State.arrive_changes _ _)

/-- Finding the next instruction is a run of changes. -/
theorem State.nextInstruction_changes (s : State) :
    (∀ t, s.nextInstruction = .exception t → Changes lo s t) ∧ ∀ i t, s.nextInstruction = .run i t → Changes lo s t := by
  unfold State.nextInstruction
  split
  · exact ⟨fun _ h => (nomatch h), fun _ _ h => (nomatch h)⟩
  · exact ⟨fun _ h => (nomatch h), fun _ _ h => (nomatch h)⟩
  · next slot rest _ _ =>
    split
    · exact ⟨fun _ h => (nomatch h), fun _ _ h => (nomatch h)⟩
    · exact ⟨fun _ h => (nomatch h), fun _ _ h => (nomatch h)⟩
    · refine ⟨fun t h => ?_, fun _ _ h => nomatch h⟩
      cases h; exact (s.begin_changes _ _).trans (State.takeException_changes _ _ _)
    · next t ht =>
      have hc := (s.begin_changes (lo := lo) slot rest).trans (State.fetchAccess_changes _ _ _ ht)
      split
      · exact ⟨fun _ h => (nomatch h), fun _ _ h => (nomatch h)⟩
      · refine ⟨fun _ h => (nomatch h), fun _ _ h => ?_⟩
        cases h; exact hc

theorem State.after_changes (s : State) (o : Nat) (hs : Since lo s) : Changes lo s (s.after o) := by
  have h : Changes lo s (s.endSlot o) := s.setObs_changes o _ rfl rfl
  exact h.trans (State.tick_changes _ (h.since hs))

theorem State.runNext_changes (s : State) (hs : Since lo s) : OutChanges lo s s.runNext := by
  unfold State.runNext
  split
  · exact .next (s.tick_changes hs)
  · exact .fault _
  · next t ht =>
    have h := (s.nextInstruction_changes (lo := lo)).1 t ht
    exact .next (h.trans (t.tick_changes (h.since hs)))
  · exact .refused _
  · next i t ht =>
    have h := (s.nextInstruction_changes (lo := lo)).2 i t ht
    split
    · next u hu =>
      have k := h.trans (exec_changes i t (h.since hs) u hu)
      exact .next (k.trans (u.after_changes _ (k.since hs)))
    · exact .fault _
    · exact .refused _

/-- EVERYTHING A STEP CAN DO: a step from a state whose accesses are numbered in order is a run of primitive changes. -/
theorem step_changes (s t : State) (hn : NumbersOk s) (h : step s = .next t) : Changes s.nextId s t := by
  have hs : Since s.nextId s := ⟨hn, Nat.le_refl _⟩
  unfold step at h
  split at h
  · have k : Changes s.nextId s { s with plan := Config.freePlan s.clock } := .single (.driver s s.cur s.inputs _)
    exact k.trans (State.runNext_changes _ (k.since hs) t h)
  · next p rest hi =>
    have k : Changes s.nextId s { s with inputs := rest, plan := p } := .single (.driver s s.cur rest p)
    exact k.trans (State.runNext_changes _ (k.since hs) t h)
  · next e rest _ _ =>
    have k : Changes s.nextId s { s with inputs := rest } := .single (.driver s s.cur rest s.plan)
    split at h
    · next u hu =>
      cases h
      have k2 := k.trans (State.handle_changes _ e (k.since hs) u hu)
      exact k2.trans (u.tick_changes (k2.since hs))
    · cases h
    · cases h

/-- A write from before the step stays in flight as it is, but for its bound, or has arrived. -/
theorem Change.write_lands {s t : State} (h : Change lo s t) (hs : NumbersOk s) {x : Xact} (hx : x ∈ s.inflight) (hid : x.id < lo)
    (hd : x.dir = .write) (hr : s.reachesEndpoint x = true) :
    (∃ n, { x with fuel := n } ∈ t.inflight) ∨ ∃ y ∈ t.arrived, y.id = x.id := by
  cases h with
  | issue xs h => exact .inl ⟨x.fuel, by simp [hx]⟩
  | abandon p hp =>
    refine .inl ⟨x.fuel, List.mem_filter.2 ⟨hx, ?_⟩⟩
    cases hb : p x with
    | true => rfl
    | false => exact absurd (hp x hx hb).2 (Nat.not_le.2 hid)
  | transact xs again hsub hp hg ha =>
    by_cases hm : x ∈ xs
    · refine .inr ⟨x, ?_, rfl⟩
      have hf : x ∈ xs.filter s.reachesEndpoint := List.mem_filter.2 ⟨hm, hr⟩
      rcases s.logGroup_arrivals xs with ⟨-, h⟩ | ⟨a, h, -, he, -, -⟩
      · exact absurd hf (by simp [h])
      · simp only [State.arrived, State.transact_arrivals, h, List.flatMap_append, List.mem_append]
        exact .inr (by simpa [he] using List.mem_filter.1 hf)
    · refine .inl ⟨x.fuel, ?_⟩
      rw [State.transact_inflight_again, List.mem_filter, List.all_eq_true]
      refine ⟨hx, fun y hy => ?_⟩
      have : x.id ≠ y.id := fun h => hm (hs.eq_of_id hx (hsub.subset hy) h ▸ hy)
      simp [this]
  | answer y vals hy hyd =>
    refine .inl ⟨x.fuel, ?_⟩
    have : x.id ≠ y.id := fun h => by rw [hs.eq_of_id hx hy h, hyd] at hd; cases hd
    simp [hx, this]
  | earlyAck id => refine .inl ⟨x.fuel, ?_⟩; unfold State.earlyAckOf; split <;> (try split) <;> exact hx
  | writeback sel => exact .inl ⟨x.fuel, by simpa using hx⟩
  | age hf => exact .inl ⟨x.fuel - 1, List.mem_map.2 ⟨x, hx, rfl⟩⟩
  | _ => exact .inl ⟨x.fuel, hx⟩

/-- So it is after any number of changes. -/
theorem Changes.write_lands {s t : State} (h : Changes lo s t) (hs : NumbersOk s) {x : Xact} (hx : x ∈ s.inflight) (hid : x.id < lo)
    (hd : x.dir = .write) (hr : ∀ u : State, u.platform = s.platform → ∀ n, u.reachesEndpoint { x with fuel := n } = true) :
    (∃ n, { x with fuel := n } ∈ t.inflight) ∨ ∃ y ∈ t.arrived, y.id = x.id := by
  induction h with
  | refl => exact .inl ⟨x.fuel, hx⟩
  | tail h k ih =>
    rcases ih with ⟨n, hn⟩ | ⟨y, hy, he⟩
    · exact k.write_lands (x := { x with fuel := n }) (h.numbersOk hs) hn hid hd
        (hr _ (h.keeps (P := fun u => u.platform = s.platform) (fun _ _ e k => k.platform.trans e) rfl) n)
    · obtain ⟨zs, hz, -⟩ := k.arrived
      exact .inr ⟨y, by rw [hz]; exact List.mem_append.2 (.inl hy), he⟩

end Sys2Proof.Machine
end

