-- ==== Sys2Proof/Laws/Frame.lean ====
section
/-! SUPPORT. What the accesses of one instruction keep: a property kept by each delivery, each completed write and
the bookkeeping around them is kept by every way the accesses can be performed. -/

namespace Sys2Proof.Machine

open Sys2Proof

/-- `P` is kept by performing accesses of which `Q` holds. -/
structure Performable (P : State → Prop) (Q : Xact → Prop) : Prop where
  deliver : ∀ u x vals, P u → Q x → x.dir = .read → P (u.deliverTo x vals)
  commit : ∀ u x, P u → Q x → x.dir = .write → P (u.commit (u.filled x))
  log : ∀ u a, P u → (∀ x ∈ a.xs, Q x) → P (u.logArrival a)
  ack : ∀ u a, P u → P { u with acks := u.acks ++ [a] }
  retire : ∀ u x, P u → Q x → P (u.retire x)
  react : ∀ u d pas, P u → P (u.react d pas)

namespace Performable

variable {P : State → Prop} {Q : Xact → Prop}

theorem perform (h : Performable P Q) (u : State) (x : Xact) (hu : P u) (hx : Q x) : P (u.perform x) := by
  unfold State.perform
  split
  · next hd => exact h.deliver u x _ hu hx hd
  · next hd => exact h.commit u x hu hx hd

theorem logGroup (h : Performable P Q) (u : State) (xs : List Xact) (hu : P u) (hx : ∀ x ∈ xs, Q x) : P (u.logGroup xs) := by
  unfold State.logGroup
  split
  · exact hu
  · next y ys he =>
    refine h.log u _ hu (fun x hm => hx x ?_)
    have : x ∈ xs.filter u.reachesEndpoint := he ▸ hm
    exact (List.mem_filter.1 this).1

theorem endpointAck (h : Performable P Q) (u : State) (x : Xact) (hu : P u) : P (u.endpointAck x) := by
  unfold State.endpointAck
  split
  · exact h.ack u _ hu
  · exact hu

theorem reactGroup (h : Performable P Q) (u : State) (xs : List Xact) (hu : P u) : P (u.reactGroup xs) := by
  unfold State.reactGroup
  split
  · exact hu
  · exact h.react u _ _ hu

theorem finish (h : Performable P Q) (again : List Nat) (u : State) (x : Xact) (hu : P u) (hx : Q x) : P (State.finish again u x) := by
  unfold State.finish
  split
  · exact hu
  · exact h.retire _ x (h.endpointAck u x hu) hx

theorem transact (h : Performable P Q) (u : State) (xs : List Xact) (again : List Nat) (hu : P u) (hx : ∀ x ∈ xs, Q x) :
    P (u.transact xs again) := by
  unfold State.transact
  refine foldl_property P _ _ _ ?_ (fun s x hxs hs => h.finish again s x hs (hx x hxs))
  refine h.reactGroup _ xs ?_
  exact foldl_property P _ _ _ (h.logGroup u xs hu hx) (fun s x hxs hs => h.perform s x hs (hx x hxs))

theorem performOne (h : Performable P Q) (u : State) (x : Xact) (again : List Nat) (hu : P u) (hx : Q x) :
    P (u.performOne x again) := by
  unfold State.performOne
  split
  · next w hw => exact h.retire _ x (h.deliver u x _ hu hx (u.forwardSource_read x w hw)) hx
  · exact h.transact u [x] again hu (by simpa using hx)

theorem force (h : Performable P Q) (u : State) (id : Nat) (again : List Nat) (hu : P u) (hq : ∀ x ∈ u.inflight, Q x) :
    P (u.force id again) := by
  unfold State.force
  split
  · exact hu
  · next x hf =>
    have hx := (u.findXact_some id x hf).1
    split
    · next w hw => exact h.retire _ x (h.deliver u x _ hu (hq x hx) (u.forwardSource_read x w hw)) (hq x hx)
    · refine h.performOne _ x again (foldl_property P _ _ _ hu (fun s y hy hs => h.performOne s y [] hs (hq y ?_))) (hq x hx)
      exact List.filter_sublist.subset ((u.required_step [x] _).subset hy)

theorem forceAll (h : Performable P Q) (ids : List Nat) (u : State) (hu : P u) (hq : ∀ x ∈ u.inflight, Q x) :
    P (u.forceAll ids) := by
  induction ids generalizing u with
  | nil => exact hu
  | cons i t ih => exact ih _ (h.force u i [] hu hq) (fun x hx => hq x (u.force_inflight i x hx).1)

theorem forceGroup (h : Performable P Q) (u : State) (ids again : List Nat) (hu : P u) (hq : ∀ x ∈ u.inflight, Q x) :
    P (u.forceGroup ids again) := by
  unfold State.forceGroup
  split
  · exact hu
  · exact h.force u _ _ hu hq
  · split
    · refine h.transact _ _ _ (foldl_property P _ _ _ hu (fun s y hy hs => h.performOne s y [] hs (hq y ?_)))
        (fun x hx => hq x ((u.select_sub ids).subset hx))
      exact List.filter_sublist.subset ((u.required_step _ _).subset hy)
    · exact h.forceAll _ u hu hq

theorem act (h : Performable P Q) (xs : List Xact) (u : State) (a : Act) (hu : P u) (hq : ∀ x ∈ u.inflight, Q x) :
    P (State.act xs u a) := h.forceGroup u _ _ hu hq

theorem performPlan (h : Performable P Q) (xs : List Xact) (acts : List Act) (rest : Bool) (u : State) (hu : P u)
    (hq : ∀ x ∈ u.inflight, Q x) : P (u.performPlan xs acts rest) := by
  have hfold : P (acts.foldl (State.act xs) u) ∧ ∀ x ∈ (acts.foldl (State.act xs) u).inflight, Q x := by
    refine foldl_property (fun s => P s ∧ ∀ x ∈ s.inflight, Q x) _ _ _ ⟨hu, hq⟩ ?_
    rintro s a - ⟨hs, hqs⟩
    exact ⟨h.act xs s a hs hqs, fun x hx => hqs x (s.forceGroup_sub _ _ x hx)⟩
  unfold State.performPlan
  dsimp only
  split
  · exact h.forceAll _ _ hfold.1 hfold.2
  · exact hfold.1

end Performable

/-! ### The accesses of a request -/

@[simp] theorem State.accByte_pa (s : State) (r : Req) (b : RByte) : (s.accByte r b).pa = b.tr.pa := rfl
@[simp] theorem State.accByte_reg (s : State) (r : Req) (b : RByte) : (s.accByte r b).reg = b.reg := rfl
@[simp] theorem State.accByte_lane (s : State) (r : Req) (b : RByte) : (s.accByte r b).lane = b.lane := rfl
@[simp] theorem State.accByte_val (s : State) (r : Req) (b : RByte) : (s.accByte r b).val = b.val := rfl

/-- With nothing in flight a register comes from no load. -/
theorem State.sourceOf_idle (s : State) (f : RegFile) (n : RegNum) (k : Nat) (h : s.inflight = []) : s.sourceOf f n k = none := by
  simp [State.sourceOf, h]

/-- A byte that is read, that a copy writes, or that is stored with nothing in flight comes from no load. -/
theorem State.accByte_src (s : State) (r : Req) (b : RByte) (h : r.dir = .read ∨ r.file = .copy ∨ s.inflight = []) :
    (s.accByte r b).src = none := by
  simp only [State.accByte]
  split
  · next hd =>
    rcases h with h | h | h
    · rw [hd] at h; cases h
    · simp [State.sourceOf, h]
    · exact s.sourceOf_idle _ _ _ h
  · rfl

/-- What an access of a request is. -/
theorem mem_xactsFrom (s : State) (r : Req) (k : Nat) (x : Xact) (h : x ∈ xactsFrom s r k) :
    (x.cls = r.cls ∧ x.dir = r.dir ∧ x.obs = s.cur ∧ x.instr = s.nextInstr) ∧
    (x.release = r.release ∧ x.repeatable = r.mayRepeat s.platform ∧
      x.multi = ((r.cls.isMulti || decide (1 < r.parts.length)) && r.isSeq s.platform) ∧
      x.dt = x.attr.deviceType.map (effType s.platform s.me.ctl s.plan r.cls)) ∧
    ∃ q ∈ piecesOf s r, x.bs = q.2.map (s.accByte r) ∧
      x.dst = (if r.dir = .read ∧ q.1 = false then some r.file else none) ∧ x.extra = q.1 ∧
      x.attr = (match q.2 with
        | [] => { ty := .device .nGnRnE, xs := none }
        | b :: _ => b.tr.attr) := by
  simp only [xactsFrom, List.mem_map] at h
  obtain ⟨q, hq, rfl⟩ := h
  refine ⟨⟨rfl, rfl, rfl, rfl⟩, ⟨rfl, rfl, rfl, rfl⟩, q.1, ?_, rfl, rfl, rfl, rfl⟩
  obtain ⟨a, n⟩ := q
  exact (List.mem_zipIdx hq).2.2 ▸ List.getElem_mem _

theorem mem_xactsOf (s : State) (r : Req) (x : Xact) (h : x ∈ xactsOf s r) :
    (x.cls = r.cls ∧ x.dir = r.dir ∧ x.obs = s.cur ∧ x.instr = s.nextInstr) ∧
    (x.release = r.release ∧ x.repeatable = r.mayRepeat s.platform ∧
      x.multi = ((r.cls.isMulti || decide (1 < r.parts.length)) && r.isSeq s.platform) ∧
      x.dt = x.attr.deviceType.map (effType s.platform s.me.ctl s.plan r.cls)) ∧
    ∃ q ∈ piecesOf s r, x.bs = q.2.map (s.accByte r) ∧
      x.dst = (if r.dir = .read ∧ q.1 = false then some r.file else none) ∧ x.extra = q.1 ∧
      x.attr = (match q.2 with
        | [] => { ty := .device .nGnRnE, xs := none }
        | b :: _ => b.tr.attr) := mem_xactsFrom s r 0 x h

/-- A piece of a request is a group of its bytes, or one extra byte. -/
theorem mem_piecesOf (s : State) (r : Req) (q : Bool × List RByte) (h : q ∈ piecesOf s r) :
    (∃ g ∈ groupsOf s r, q = (false, g)) ∨ ∃ b ∈ r.ex, q = (true, [b]) := by
  rcases List.mem_append.1 h with h | h
  · obtain ⟨g, hg, rfl⟩ := List.mem_map.1 h; exact .inl ⟨g, hg, rfl⟩
  · obtain ⟨b, hb, rfl⟩ := List.mem_map.1 h; exact .inr ⟨b, hb, rfl⟩

/-- Cutting loses no byte and changes no order. -/
theorem cutGroups_flatten (free : Bool) (cuts : List Nat) (bs : List RByte) : (cutGroups free cuts bs).flatten = bs := by
  induction bs with
  | nil => rfl
  | cons b t ih =>
    unfold cutGroups
    split
    · next h => rw [h] at ih; simp at ih; simp [← ih]
    · next h => rw [h] at ih; simp at ih; simp [ih]
    · next c g gs h =>
      rw [h] at ih
      split
      · simp at ih ⊢; exact ih
      · simp at ih ⊢; exact ih

/-- The records of the bytes of a group differ in the hints only. -/
theorem cutGroups_attr (free : Bool) (cuts : List Nat) (bs : List RByte) :
    ∀ g ∈ cutGroups free cuts bs, g ≠ [] ∧ ∀ a ∈ g, ∀ b ∈ g, a.tr.attr.eraseHints = b.tr.attr.eraseHints := by
  induction bs with
  | nil => simp [cutGroups]
  | cons b t ih =>
    unfold cutGroups
    split
    · intro g hg; rw [List.mem_singleton.1 hg]; simp
    · next gs h =>
      intro g hg
      exact absurd rfl (ih [] (by rw [h]; simp)).1
    · next c g gs h =>
      rw [h] at ih
      split
      · next hc =>
        simp only [Bool.and_eq_true, Bool.not_eq_true', MemAttr.mismatched_false] at hc
        intro g' hg'
        rcases List.mem_cons.1 hg' with rfl | hg'
        · refine ⟨by simp, ?_⟩
          have hcg := (ih (c :: g) (by simp)).2
          have hb : ∀ a ∈ c :: g, a.tr.attr.eraseHints = b.tr.attr.eraseHints := fun a ha => (hcg a ha c (by simp)).trans hc.1.symm
          have ha : ∀ a ∈ b :: c :: g, a.tr.attr.eraseHints = b.tr.attr.eraseHints := by
            intro a ha
            rcases List.mem_cons.1 ha with rfl | ha
            · rfl
            · exact hb a ha
          exact fun a h b' h' => (ha a h).trans (ha b' h').symm
        · exact ih g' (by simp [hg'])
      · intro g' hg'
        rcases List.mem_cons.1 hg' with rfl | hg'
        · simp
        · exact ih g' hg'

/-- The units of a request are its bytes, part by part. -/
theorem unitsOf_bytes (p : Platform) (r : Req) : (unitsOf p r).flatten = allBytes r.rs := by
  unfold unitsOf
  split
  · rw [allBytes, List.flatMap_def]
  · simp

/-- The groups of a request are its bytes, part by part. -/
theorem groupsOf_bytes (s : State) (r : Req) : (groupsOf s r).flatten = allBytes r.rs := by
  rw [← unitsOf_bytes s.platform r, groupsOf]
  generalize unitsOf s.platform r = us
  induction us with
  | nil => rfl
  | cons u t ih => rw [List.flatMap_cons, List.flatten_append, ih, cutGroups_flatten, List.flatten_cons]

/-- The bytes of a group of a request are bytes of its parts, whose records differ in the hints only. -/
theorem groupsOf_mem (s : State) (r : Req) (g : List RByte) (h : g ∈ groupsOf s r) :
    g ≠ [] ∧ (∀ a ∈ g, ∀ b ∈ g, a.tr.attr.eraseHints = b.tr.attr.eraseHints) ∧ ∀ b ∈ g, ∃ p ∈ r.rs, b ∈ p.bs := by
  have hin : ∀ b ∈ g, b ∈ allBytes r.rs := fun b hb => by
    rw [← groupsOf_bytes s r]; exact List.mem_flatten.2 ⟨g, h, hb⟩
  simp only [groupsOf, List.mem_flatMap] at h
  obtain ⟨u, -, hg⟩ := h
  have ha := cutGroups_attr _ _ _ g hg
  exact ⟨ha.1, ha.2, fun b hb => List.mem_flatMap.1 (hin b hb)⟩

/-- Every byte of an access of a request is a byte of the request, made with that byte's record but for the hints: an
explicit one, which goes to its register, or an extra one, which goes nowhere. -/
theorem mem_xactsFrom_byte (s : State) (r : Req) (k : Nat) (x : Xact) (h : x ∈ xactsFrom s r k) (b : ByteAcc) (hb : b ∈ x.bs) :
    ∃ c : RByte, b = s.accByte r c ∧ x.attr.eraseHints = c.tr.attr.eraseHints ∧
      ((x.extra = false ∧ (∃ p ∈ r.rs, c ∈ p.bs) ∧ x.dst = (if r.dir = .read then some r.file else none)) ∨
       (x.extra = true ∧ c ∈ r.ex ∧ x.dst = none)) := by
  obtain ⟨-, -, q, hq, hbs, hdst, hex, hattr⟩ := mem_xactsFrom s r k x h
  rw [hbs] at hb
  obtain ⟨c, hc, rfl⟩ := List.mem_map.1 hb
  rcases mem_piecesOf s r q hq with ⟨g, hg, rfl⟩ | ⟨d, hd, rfl⟩
  · obtain ⟨hne, hsame, hsub⟩ := groupsOf_mem s r g hg
    refine ⟨c, rfl, ?_, .inl ⟨hex, hsub c hc, by rw [hdst]; simp⟩⟩
    rw [hattr]
    dsimp only
    split
    · exact absurd rfl hne
    · exact hsame _ (by simp) c hc
  · rw [List.mem_singleton.1 hc]
    exact ⟨d, rfl, by rw [hattr], .inr ⟨hex, hd, by rw [hdst]; simp⟩⟩

theorem mem_xactsOf_byte (s : State) (r : Req) (x : Xact) (h : x ∈ xactsOf s r) (b : ByteAcc) (hb : b ∈ x.bs) :
    ∃ c : RByte, b = s.accByte r c ∧ x.attr.eraseHints = c.tr.attr.eraseHints ∧
      ((x.extra = false ∧ (∃ p ∈ r.rs, c ∈ p.bs) ∧ x.dst = (if r.dir = .read then some r.file else none)) ∨
       (x.extra = true ∧ c ∈ r.ex ∧ x.dst = none)) := mem_xactsFrom_byte s r 0 x h b hb

/-! ### The resolution of a footprint -/

/-- The parts resolved are the parts asked for, each with its bytes in order. -/
theorem resolveBytes_eq (p : Platform) (c : PeCtl) (e : Elem) (val : Nat → Byte) (ks : List Nat) (bs : List RByte)
    (h : resolveBytes p c e val ks = .ok bs) :
    (∀ k ∈ ks, ∃ t, dataTr p c (e.addr + k) = some t) ∧
    bs = ks.filterMap (fun k => (dataTr p c (e.addr + k)).map (fun t =>
      { va := e.addr + k, tr := t, reg := e.reg, lane := laneOf p e k, val := val k })) := by
  induction ks generalizing bs with
  | nil => cases h; simp
  | cons k t ih =>
    unfold resolveBytes at h
    split at h
    · cases h
    · next u hu =>
      split at h
      · cases h
      · next cs hcs =>
        cases h
        obtain ⟨h1, h2⟩ := ih cs hcs
        refine ⟨?_, ?_⟩
        · intro j hj
          rcases List.mem_cons.1 hj with rfl | hj
          · exact ⟨u, hu⟩
          · exact h1 j hj
        · rw [List.filterMap_cons, hu, h2]; rfl

theorem resolve_eq (p : Platform) (o : Observer) (f : RegFile) (es : List Elem) (rs : List RElem)
    (h : resolve p o f es = .ok rs) :
    rs.map RElem.e = es ∧ ∀ r ∈ rs, resolveBytes p o.ctl r.e (fun k => o.regByte f r.e.reg (laneOf p r.e k))
      (List.range r.e.size) = .ok r.bs := by
  induction es generalizing rs with
  | nil => cases h; simp
  | cons e t ih =>
    unfold resolve at h
    split at h
    · cases h
    · next bs hbs =>
      split at h
      · cases h
      · next us hus =>
        cases h
        obtain ⟨h1, h2⟩ := ih us hus
        refine ⟨by simp [h1], ?_⟩
        intro r hr
        rcases List.mem_cons.1 hr with rfl | hr
        · exact hbs
        · exact h2 r hr

/-- The bytes of a part go to, or come from, the part's register. -/
theorem resolve_reg (p : Platform) (o : Observer) (f : RegFile) (es : List Elem) (rs : List RElem)
    (h : resolve p o f es = .ok rs) : ∀ r ∈ rs, ∀ b ∈ r.bs, b.reg = r.e.reg := by
  intro r hr b hb
  obtain ⟨-, he⟩ := resolveBytes_eq _ _ _ _ _ _ ((resolve_eq p o f es rs h).2 r hr)
  rw [he] at hb
  obtain ⟨k, -, hk⟩ := List.mem_filterMap.1 hb
  obtain ⟨t, -, rfl⟩ := Option.map_eq_some_iff.1 hk
  rfl

/-- Which addresses translate does not depend on the registers. -/
theorem resolveBytes_ctl (p : Platform) (c : PeCtl) (e : Elem) (v w : Nat → Byte) (ks : List Nat) (bs : List RByte)
    (h : resolveBytes p c e v ks = .ok bs) :
    ∃ cs, resolveBytes p c e w ks = .ok cs ∧ cs.map (fun b => (b.va, b.tr, b.reg, b.lane)) = bs.map (fun b => (b.va, b.tr, b.reg, b.lane)) := by
  induction ks generalizing bs with
  | nil => cases h; exact ⟨[], rfl, rfl⟩
  | cons k t ih =>
    unfold resolveBytes at h ⊢
    split at h
    · cases h
    · next u hu =>
      split at h
      · cases h
      · next cs hcs =>
        cases h
        obtain ⟨ds, h1, h2⟩ := ih cs hcs
        rw [h1]
        exact ⟨_, rfl, by simp [h2]⟩

end Sys2Proof.Machine
end

