-- ==== Sys2Proof/Laws/Sequential.lean ====
section
/-! SUPPORT. The accesses of one instruction in a simple sequential execution (`Sequential`): each is performed once,
in order, and nothing else happens. -/

namespace Sys2Proof.Machine

open Sys2Proof

/-- The state with other accesses in flight, arrivals and acknowledgements. -/
def State.withTraffic (u : State) (l : List Xact) (as : List Arrival) (ks : List Ack) : State :=
  { u with inflight := l, arrivals := as, acks := ks }

theorem State.withTraffic_self (u : State) : u.withTraffic u.inflight u.arrivals u.acks = u := rfl

@[simp] theorem State.withTraffic_withTraffic (u : State) (l l' : List Xact) (as as' : List Arrival) (ks ks' : List Ack) :
    (u.withTraffic l as ks).withTraffic l' as' ks' = u.withTraffic l' as' ks' := rfl

/-- No byte of the access comes from a load in flight. -/
def Xact.Sourceless (y : Xact) : Prop := ∀ b ∈ y.bs, b.src = none

/-- An access of no copy that takes no byte from a load has all its bytes. -/
theorem Xact.Sourceless.complete {x : Xact} (h : x.Sourceless) (hc : x.cls ≠ .memCopy) : x.lacksBytes = false := by
  simp only [Xact.lacksBytes, Bool.or_eq_false_iff, beq_eq_false_iff_ne, ne_eq, hc, not_false_eq_true, true_and,
    List.any_eq_false, Bool.not_eq_true, Option.isSome_eq_false_iff, Option.isNone_iff_eq_none]
  exact h

/-- No read of the observer takes its value from this access while it is in flight, nor gives it one. -/
def Xact.Unread (y : Xact) (o : Nat) : Prop := (y.dir = .read ∨ (y.cls = .memCopy ∧ y.obs = o)) ∧ y.Sourceless

/-- What decides whether a write is found. -/
theorem State.not_finds (u : State) (o id : Nat) (y : Xact) (h : y.Unread o) : u.finds o id y = false := by
  rcases h.1 with e | ⟨e, e'⟩ <;> simp [State.finds, Xact.lacksBytes, *]

/-- With nothing in flight that a read takes its value from, it looks at memory and caches alone. -/
theorem State.byteFor_of_reads (u : State) (o id : Nat) (a : MemAttr) (pa : Nat) (h : ∀ y ∈ u.inflight, y.Unread o) :
    u.byteFor o id a pa = if a.isDevice then Memory.read u.mem pa else u.valueFor o a pa := by
  have : u.ownPending o id pa = none := by
    unfold State.ownPending
    rw [List.find?_eq_none.2, Option.bind_none]
    intro y hy
    simp [u.not_finds o id y (h y (List.mem_reverse.1 hy))]
  simp [State.byteFor, this]

/-- What a read returns depends on the parameters, memory and caches alone when nothing it could take its value from is in flight. -/
theorem State.byteFor_congr (u v : State) (o i j : Nat) (a : MemAttr) (pa : Nat) (hp : u.platform = v.platform)
    (hm : u.mem = v.mem) (hl : u.lines = v.lines) (hu : ∀ y ∈ u.inflight, y.Unread o) (hv : ∀ y ∈ v.inflight, y.Unread o) :
    u.byteFor o i a pa = v.byteFor o j a pa := by
  rw [u.byteFor_of_reads o i a pa hu, v.byteFor_of_reads o j a pa hv]
  simp [State.valueFor, hp, hm, hl]

theorem State.clearReservations_withTraffic (u : State) (x : Xact) (l : List Xact) (as : List Arrival) (ks : List Ack) :
    (u.withTraffic l as ks).clearReservations x = (u.clearReservations x).withTraffic l as ks := rfl

theorem State.commit_withTraffic (u : State) (x : Xact) (l : List Xact) (as : List Arrival) (ks : List Ack) :
    (u.withTraffic l as ks).commit x = (u.commit x).withTraffic l as ks := by
  unfold State.commit
  dsimp only
  rw [State.clearReservations_withTraffic]
  split
  · rfl
  · have : ((u.clearReservations x).withTraffic l as ks).holdUnit x = (u.clearReservations x).holdUnit x := rfl
    rw [this]
    split <;> rfl

/-- With no store in flight that waits for loaded bytes, a read delivers to its registers alone. -/
theorem State.deliverTo_unawaited (u : State) (x : Xact) (vs : List Byte) (h : ∀ y ∈ u.inflight, y.Sourceless) :
    u.deliverTo x vs = match x.dst with
      | none => u
      | some f => u.setObs x.obs ((u.getObs x.obs).putBytes f x.id x.bs vs) := by
  unfold State.deliverTo
  cases x.dst with
  | none => rfl
  | some f =>
    have : ∀ p : ByteAcc × Byte, u.isAwaited x f p.1 = false := by
      intro p
      simp only [State.isAwaited, Xact.awaitsByte, List.any_eq_false, Bool.and_eq_true, beq_iff_eq, not_and, Bool.not_eq_true]
      intro y hy _ _ b hb
      simp [h y hy b hb]
    have hf : (x.bs.zip vs).filter (fun p => u.isAwaited x f p.1) = [] := List.filter_eq_nil_iff.2 (by simp [this])
    dsimp only
    rw [hf]
    rfl

theorem State.deliverTo_withTraffic (u : State) (x : Xact) (vs : List Byte) (l : List Xact) (as : List Arrival) (ks : List Ack)
    (h : (∀ y ∈ l, y.Sourceless) ∧ ∀ y ∈ u.inflight, y.Sourceless) :
    (u.withTraffic l as ks).deliverTo x vs = (u.deliverTo x vs).withTraffic l as ks := by
  rw [u.deliverTo_unawaited x vs h.2, (u.withTraffic l as ks).deliverTo_unawaited x vs h.1]
  cases x.dst <;> rfl

theorem State.perform_withTraffic (u : State) (x : Xact) (l : List Xact) (as : List Arrival) (ks : List Ack)
    (h : x.dir = .read → (∀ y ∈ l, y.Unread x.obs) ∧ ∀ y ∈ u.inflight, y.Unread x.obs) :
    (u.withTraffic l as ks).perform x = (u.perform x).withTraffic l as ks := by
  unfold State.perform
  split
  · next hd =>
    have : (u.withTraffic l as ks).readVals x = u.readVals x := by
      unfold State.readVals
      congr 1
      funext b
      exact State.byteFor_congr _ _ _ _ _ _ _ rfl rfl rfl (h hd).1 (h hd).2
    rw [this, State.deliverTo_withTraffic u x _ l as ks ⟨fun y hy => ((h hd).1 y hy).2, fun y hy => ((h hd).2 y hy).2⟩]
  · exact u.commit_withTraffic (u.filled x) l as ks

/-- One access performed alone, and what the peripherals do then. -/
def State.performed (u : State) (x : Xact) : State := (u.perform x).reactGroup [x]

theorem State.reactGroup_withTraffic (u : State) (xs : List Xact) (l : List Xact) (as : List Arrival) (ks : List Ack) :
    (u.withTraffic l as ks).reactGroup xs = (u.reactGroup xs).withTraffic l as ks := by
  unfold State.reactGroup
  have : (u.withTraffic l as ks).reachesEndpoint = u.reachesEndpoint := rfl
  rw [this]
  split <;> rfl

theorem State.performed_withTraffic (u : State) (x : Xact) (l : List Xact) (as : List Arrival) (ks : List Ack)
    (h : x.dir = .read → (∀ y ∈ l, y.Unread x.obs) ∧ ∀ y ∈ u.inflight, y.Unread x.obs) :
    (u.withTraffic l as ks).performed x = (u.performed x).withTraffic l as ks := by
  unfold State.performed
  rw [State.perform_withTraffic u x l as ks h, State.reactGroup_withTraffic]

/-- No peripheral has a transition for an access of this one. -/
def Xact.Quiet (p : Platform) (x : Xact) : Prop :=
  ∀ b ∈ x.bs, (regionAt p b.pa).idempotent = true ∨ ∀ r ∈ p.reactions, r.pa ≠ b.pa

/-- Where no peripheral reacts, an access performed is performed. -/
theorem State.performed_quiet (u : State) (x : Xact) (h : x.Quiet u.platform) : u.performed x = u.perform x := by
  unfold State.performed State.reactGroup
  split
  · rfl
  · next y ys hf =>
    have hm : ∀ z ∈ y :: ys, z = x := fun z hz => by
      rw [← hf] at hz; exact List.mem_singleton.1 (List.mem_filter.1 hz).1
    unfold State.react
    rw [Memory.react_quiet]
    intro pa hpa
    obtain ⟨z, hz, hb⟩ := List.mem_flatMap.1 hpa
    rw [hm z hz] at hb
    obtain ⟨b, hbx, rfl⟩ := List.mem_map.1 hb
    rw [State.perform_platform]
    exact h b hbx

theorem State.foldl_performed_quiet (xs : List Xact) (u : State) (h : ∀ x ∈ xs, x.Quiet u.platform) :
    xs.foldl State.performed u = xs.foldl State.perform u := by
  induction xs generalizing u with
  | nil => rfl
  | cons x t ih =>
    rw [List.foldl_cons, List.foldl_cons, State.performed_quiet u x (h x (by simp))]
    exact ih _ (fun y hy => by rw [State.perform_platform]; exact h y (by simp [hy]))

/-- An access whose companions in flight are of its own instruction, and none of them earlier, waits for none and is answered
by none. -/
theorem State.alone_required (u : State) (x : Xact) (h : ∀ y ∈ u.inflight, y.instr = x.instr ∧ x.id ≤ y.id) :
    u.forwardSource x = none ∧ u.required [x] = [] := by
  constructor
  · cases hf : u.forwardSource x with
    | none => rfl
    | some w =>
      obtain ⟨v, hv, -, -, hm, -⟩ := u.forwardSource_some x w hf
      exact absurd (h v hv).1 (u.mayForward_spec v x hm).2.2.2.2.1
  · unfold State.required
    have key : ∀ L : List Xact, (∀ y ∈ L, y.instr = x.instr ∧ x.id ≤ y.id) →
        L.foldr (fun y acc => if (acc ++ [x]).any (fun z => u.waitsFor z y) then y :: acc else acc) [] = [] := by
      intro L hL
      induction L with
      | nil => rfl
      | cons y t ih =>
        rw [List.foldr_cons, ih (fun z hz => hL z (by simp [hz]))]
        have : u.waitsFor x y = false := by
          rw [Bool.eq_false_iff]; intro e; have := State.waitsFor_lt e; have := (hL y (by simp)).2; omega
        simp [this]
    exact key _ (fun y hy => h y (List.mem_filter.1 hy).1)

theorem State.transact_one_withTraffic (u : State) (x : Xact) (rest : List Xact) (as : List Arrival) (ks : List Ack)
    (hid : ∀ y ∈ rest, y.id ≠ x.id)
    (h : x.dir = .read → (∀ y ∈ x :: rest, y.Unread x.obs) ∧ ∀ y ∈ u.inflight, y.Unread x.obs) :
    ∃ as' ks', (u.withTraffic (x :: rest) as ks).transact [x] [] = (u.performed x).withTraffic rest (as ++ as') (ks ++ ks') ∧
      (∀ a ∈ as', a.others = [] ∧ a.dir = x.dir ∧ a.bytes = x.touchedBytes ∧ a.xs = [x]) ∧
      (x.dir = .read → ks' = []) ∧ (∀ k ∈ ks', k = { x := x, byEndpoint := true }) := by
  have hret : ∀ v : State, ∀ as ks, State.retire (v.withTraffic (x :: rest) as ks) x = v.withTraffic rest as ks := by
    intro v as ks
    unfold State.retire State.withTraffic
    have : (x :: rest).filter (fun y => y.id != x.id) = rest := by
      rw [List.filter_cons_of_neg (by simp)]
      exact List.filter_eq_self.2 (fun y hy => by simpa using hid y hy)
    simp [this]
  have hlog : ∃ as', (u.withTraffic (x :: rest) as ks).logGroup [x] = u.withTraffic (x :: rest) (as ++ as') ks ∧
      ∀ a ∈ as', a.others = [] ∧ a.dir = x.dir ∧ a.bytes = x.touchedBytes ∧ a.xs = [x] := by
    unfold State.logGroup
    split
    · exact ⟨[], by simp, by simp⟩
    · next y ys hf =>
      have : [x].filter (u.withTraffic (x :: rest) as ks).reachesEndpoint = [x] ∨
          [x].filter (u.withTraffic (x :: rest) as ks).reachesEndpoint = [] := by
        by_cases hr : (u.withTraffic (x :: rest) as ks).reachesEndpoint x = true
        · exact .inl (by simp [List.filter, hr])
        · exact .inr (by simp [List.filter, hr])
      rcases this with h1 | h1
      · rw [h1] at hf
        cases hf
        exact ⟨[_], rfl, by simp⟩
      · rw [h1] at hf; cases hf
  obtain ⟨as', hlog, has⟩ := hlog
  simp only [State.transact, List.foldl_cons, List.foldl_nil]
  rw [hlog, State.perform_withTraffic u x _ _ _ h, State.reactGroup_withTraffic]
  unfold State.finish
  simp only [List.contains_nil, Bool.false_and, Bool.false_eq_true, if_false]
  unfold State.endpointAck
  split
  · next hack =>
    simp only [Bool.and_eq_true, beq_iff_eq] at hack
    refine ⟨as', [{ x := x, byEndpoint := true }], ?_, has, fun hd => ?_, by simp⟩
    · exact hret (u.performed x) _ _
    · rw [hack.1.1] at hd; cases hd
  · exact ⟨as', [], by rw [hret]; simp [State.performed], has, fun _ => rfl, by simp⟩

/-- Forcing the accesses of one instruction, all that are in flight, performs each once and in order. -/
theorem State.forceAll_alone (xs : List Xact) (u : State) (as : List Arrival) (ks : List Ack) (n o : Nat)
    (hn : ∀ x ∈ xs, x.instr = n) (hd : (∀ x ∈ xs, x.Unread o ∧ x.obs = o) ∨ ∀ x ∈ xs, x.dir = .write)
    (hp : xs.Pairwise (fun a b => a.id < b.id)) (hu : u.inflight = []) :
    ∃ as' ks', (u.withTraffic xs as ks).forceAll (xs.map Xact.id) =
      (xs.foldl State.performed u).withTraffic [] (as ++ as') (ks ++ ks') ∧
      (∀ a ∈ as', ∃ x ∈ xs, a.others = [] ∧ a.dir = x.dir ∧ a.bytes = x.touchedBytes ∧ a.xs = [x]) ∧
      ((∀ x ∈ xs, x.dir = .read) → ks' = []) ∧ (∀ k ∈ ks', k.byEndpoint = true ∧ k.x ∈ xs) := by
  induction xs generalizing u as ks with
  | nil => exact ⟨[], [], by simp [State.forceAll], by simp, fun _ => rfl, by simp⟩
  | cons x t ih =>
    rw [List.pairwise_cons] at hp
    have hfind : (u.withTraffic (x :: t) as ks).findXact x.id = some x := by
      simp [State.findXact, State.withTraffic]
    obtain ⟨h1, h2⟩ := State.alone_required (u.withTraffic (x :: t) as ks) x
      (fun y hy => ⟨(hn y hy).trans (hn x (by simp)).symm, by
        rcases List.mem_cons.1 hy with rfl | hy
        · exact Nat.le_refl _
        · exact Nat.le_of_lt (hp.1 y hy)⟩)
    have hforce : (u.withTraffic (x :: t) as ks).force x.id [] = (u.withTraffic (x :: t) as ks).transact [x] [] := by
      unfold State.force
      rw [hfind]
      dsimp only
      rw [h1, h2]
      dsimp only [List.foldl_nil]
      unfold State.performOne
      rw [h1]
    have hdx : x.dir = .read → (∀ y ∈ x :: t, y.Unread x.obs) ∧ ∀ y ∈ u.inflight, y.Unread x.obs := by
      intro hx
      refine ⟨?_, by simp [hu]⟩
      rcases hd with hd | hd
      · rw [(hd x (by simp)).2]; exact fun y hy => (hd y hy).1
      · rw [hd x (by simp)] at hx; cases hx
    obtain ⟨as1, ks1, ht, ha1, hr1, hk1⟩ := State.transact_one_withTraffic u x t as ks
      (fun y hy => by have := hp.1 y hy; omega) hdx
    have hu' : (u.performed x).inflight = [] := by rw [State.performed, State.reactGroup_inflight, State.perform_inflight, hu]
    obtain ⟨as2, ks2, h3, ha2, hr2, hk2⟩ := ih (u.performed x) (as ++ as1) (ks ++ ks1) (fun y hy => hn y (by simp [hy]))
      (hd.imp (fun hd y hy => hd y (by simp [hy])) (fun hd y hy => hd y (by simp [hy]))) hp.2 hu'
    refine ⟨as1 ++ as2, ks1 ++ ks2, ?_, ?_, ?_, ?_⟩
    · unfold State.forceAll at h3 ⊢
      rw [List.map_cons, List.foldl_cons, hforce, ht, h3, List.foldl_cons]
      simp
    · intro a ha
      rcases List.mem_append.1 ha with ha | ha
      · exact ⟨x, by simp, ha1 a ha⟩
      · obtain ⟨y, hy, h⟩ := ha2 a ha; exact ⟨y, by simp [hy], h⟩
    · intro he
      rw [hr1 (he x (by simp)), hr2 (fun y hy => he y (by simp [hy]))]; rfl
    · intro k hk
      rcases List.mem_append.1 hk with hk | hk
      · rw [hk1 k hk]; simp
      · exact ⟨(hk2 k hk).1, by simp [(hk2 k hk).2]⟩

theorem Fresh.pairwise {s : State} {xs : List Xact} (h : Fresh s xs) : xs.Pairwise (fun a b => a.id < b.id) := by
  rw [List.pairwise_iff_getElem]
  intro i j hi hj hij
  have a := (h i xs[i] (by simp [hi])).1
  have b := (h j xs[j] (by simp [hj])).1
  omega

/-- THE ACCESSES OF AN INSTRUCTION IN A SIMPLE SEQUENTIAL EXECUTION: the effect beside them, then each access performed once
and in order; nothing is left in flight. -/
theorem State.runAccesses_sequential (s : State) (bs : List RByte) (xs : List Xact) (pre : State → State) (h : Sequential s)
    (v : Observer) (hpre : pre s = s.setObs s.cur v) (hf : Fresh s xs)
    (hd : (∀ x ∈ xs, x.Unread s.cur ∧ x.obs = s.cur) ∨ ∀ x ∈ xs, x.dir = .write) :
    ∃ as ks, s.runAccesses bs xs none pre =
      { ((xs.foldl State.performed ((s.setObs s.cur v).touch bs)).withTraffic [] (s.arrivals ++ as) (s.acks ++ ks)) with
        nextId := s.nextId + xs.length, nextInstr := s.nextInstr + 1 } ∧
      (∀ a ∈ as, ∃ x ∈ xs, a.others = [] ∧ a.dir = x.dir ∧ a.bytes = x.touchedBytes ∧ a.xs = [x]) ∧
      ((∀ x ∈ xs, x.dir = .read) → ks = []) ∧ (∀ k ∈ ks, k.byEndpoint = true ∧ k.x ∈ xs) := by
  obtain ⟨h0, hacts, hrest, hab⟩ := h
  unfold State.runAccesses
  dsimp only
  rw [hpre, hacts, hrest]
  unfold State.performPlan
  simp only [List.foldl_nil, if_true]
  generalize hw : (s.setObs s.cur v).touch bs = w
  have hw0 : w.inflight = [] := by subst hw; simpa using h0
  have hwa : w.arrivals = s.arrivals := by subst hw; simp
  have hwk : w.acks = s.acks := by subst hw; simp
  have hwn : w.nextId = s.nextId := by subst hw; simp
  have hwi : w.nextInstr = s.nextInstr := by subst hw; simp
  let u : State := { w with nextId := s.nextId + xs.length, nextInstr := s.nextInstr + 1 }
  have hissue : w.issue xs = u.withTraffic xs s.arrivals s.acks := by
    simp only [State.issue, State.withTraffic, u, hw0, hwa, hwk, hwn, hwi, List.nil_append]
  rw [hissue]
  obtain ⟨as, ks, he, ha, hr, hk⟩ := State.forceAll_alone xs u s.arrivals s.acks s.nextInstr s.cur hf.instr hd hf.pairwise
    (by simpa [u] using hw0)
  refine ⟨as, ks, ?_, ha, hr, hk⟩
  rw [he]
  have hfold : xs.foldl State.performed u =
      { xs.foldl State.performed w with nextId := s.nextId + xs.length, nextInstr := s.nextInstr + 1 } := by
    have step : ∀ (x : Xact) (a : State), State.perform { a with nextId := s.nextId + xs.length, nextInstr := s.nextInstr + 1 } x =
        { a.perform x with nextId := s.nextId + xs.length, nextInstr := s.nextInstr + 1 } := by
      intro x a
      unfold State.perform
      split
      · unfold State.deliverTo
        split <;> rfl
      · have hfill : State.filled { a with nextId := s.nextId + xs.length, nextInstr := s.nextInstr + 1 } x = a.filled x := rfl
        rw [hfill]
        generalize a.filled x = x
        unfold State.commit
        dsimp only
        split
        · rfl
        · have e : (State.clearReservations { a with nextId := s.nextId + xs.length, nextInstr := s.nextInstr + 1 } x).holdUnit x =
            (a.clearReservations x).holdUnit x := rfl
          rw [e]
          split <;> rfl
    have step' : ∀ (x : Xact) (a : State), State.performed { a with nextId := s.nextId + xs.length, nextInstr := s.nextInstr + 1 } x =
        { a.performed x with nextId := s.nextId + xs.length, nextInstr := s.nextInstr + 1 } := by
      intro x a
      unfold State.performed
      rw [step]
      unfold State.reactGroup
      have e : State.reachesEndpoint { a.perform x with nextId := s.nextId + xs.length, nextInstr := s.nextInstr + 1 } =
        State.reachesEndpoint (a.perform x) := rfl
      rw [e]
      split <;> rfl
    have key : ∀ (l : List Xact) (a : State),
        l.foldl State.performed { a with nextId := s.nextId + xs.length, nextInstr := s.nextInstr + 1 } =
        { l.foldl State.performed a with nextId := s.nextId + xs.length, nextInstr := s.nextInstr + 1 } := by
      intro l
      induction l with
      | nil => intro a; rfl
      | cons x t ih => intro a; rw [List.foldl_cons, step', ih, List.foldl_cons]
    exact key xs w
  rw [hfold]
  rfl

/-- The accesses of a request that reads, of a copy, or issued with nothing in flight take no byte from a load. -/
theorem xactsFrom_sourceless (s : State) (r : Req) (k : Nat) (h : r.dir = .read ∨ r.file = .copy ∨ s.inflight = []) :
    ∀ x ∈ xactsFrom s r k, x.Sourceless := by
  intro x hx b hb
  obtain ⟨c, rfl, -⟩ := mem_xactsFrom_byte s r k x hx b hb
  exact s.accByte_src r c h

theorem xactsOf_sourceless (s : State) (r : Req) (h : r.dir = .read ∨ r.file = .copy ∨ s.inflight = []) :
    ∀ x ∈ xactsOf s r, x.Sourceless := xactsFrom_sourceless s r 0 h

/-- The same for a request. -/
theorem State.runReq_sequential (s : State) (r : Req) (pre : State → State) (h : Sequential s) (v : Observer)
    (hpre : pre s = s.setObs s.cur v) :
    ∃ as ks, s.runReq r none pre =
      { (((xactsOf s r).foldl State.performed ((s.setObs s.cur v).touch (allBytes r.rs ++ r.ex))).withTraffic []
          (s.arrivals ++ as) (s.acks ++ ks)) with
        nextId := s.nextId + (xactsOf s r).length, nextInstr := s.nextInstr + 1 } ∧
      (∀ a ∈ as, ∃ x ∈ xactsOf s r, a.others = [] ∧ a.dir = x.dir ∧ a.bytes = x.touchedBytes ∧ a.xs = [x]) ∧
      (r.dir = .read → ks = []) ∧ (∀ k ∈ ks, k.byEndpoint = true ∧ k.x ∈ xactsOf s r) := by
  have hdir : ∀ x ∈ xactsOf s r, x.dir = r.dir := fun x hx => (mem_xactsOf s r x hx).1.2.1
  obtain ⟨as, ks, h1, h2, h3, h4⟩ := s.runAccesses_sequential (allBytes r.rs ++ r.ex) (xactsOf s r) pre h v hpre
    (xactsOf_fresh s r) (by
      cases hr : r.dir with
      | read => exact .inl (fun x hx => ⟨⟨.inl ((hdir x hx).trans hr), (xactsOf_sourceless s r (.inl hr) x hx)⟩, (mem_xactsOf s r x hx).1.2.2.1⟩)
      | write => exact .inr (fun x hx => (hdir x hx).trans hr))
  exact ⟨as, ks, h1, h2, fun he => h3 (fun x hx => (hdir x hx).trans he), h4⟩

/-! ### From an idle state to the accesses -/

theorem State.forceAll_nil (s : State) : s.forceAll [] = s := rfl

/-- With nothing in flight there is nothing to settle. -/
theorem State.settle_idle (s : State) (o : Nat) (regs : List (RegFile × RegNum)) (h : s.inflight = []) : s.settle o regs = s := by
  simp [State.settle, h, State.forceAll_nil]

theorem State.tick_idle (s : State) (h : s.inflight = []) : s.tick = { s with clock := s.clock + 1 } := by
  simp [State.tick, h, State.forceAll_nil]

theorem Sequential.walkReads {s : State} (h : Sequential s) (o : Nat) (c : PeCtl) (ws : List WalkRef) :
    Sequential (s.walkReads o c ws) := by
  unfold Sequential at *; simpa using h

theorem State.getObs_walkReads (s : State) (o' : Nat) (c : PeCtl) (ws : List WalkRef) (o : Nat) :
    (s.walkReads o' c ws).getObs o = s.getObs o := State.getObs_congr (s.walkReads_obs o' c ws) o

theorem State.me_walkReads (s : State) (o : Nat) (c : PeCtl) (ws : List WalkRef) : (s.walkReads o c ws).me = s.me := by
  rw [State.me_eq, State.me_eq, State.walkReads_cur, State.getObs_walkReads]

theorem Sequential.walk {s : State} (h : Sequential s) (ws : List WalkRef) : Sequential (s.walk ws) := h.walkReads _ _ _

theorem State.me_walk (s : State) (ws : List WalkRef) : (s.walk ws).me = s.me := s.me_walkReads _ _ _

/-- Where no peripheral has a transition for a walk that is made, walks leave memory alone. -/
theorem State.walkReads_mem_quiet (s : State) (o : Nat) (c : PeCtl) (ws : List WalkRef)
    (h : ∀ w ∈ madeWalks s.platform c ws, ∀ pa ∈ w.bytes,
      (regionAt s.platform pa).idempotent = true ∨ ∀ r ∈ s.platform.reactions, r.pa ≠ pa) :
    (s.walkReads o c ws).mem = s.mem := by
  rw [State.walkReads_frame]
  dsimp only
  revert h
  induction madeWalks s.platform c ws with
  | nil => intro _; rfl
  | cons w t ih =>
    intro h
    rw [List.foldl_cons, Memory.react_quiet _ _ _ _ (h w (by simp))]
    exact ih (fun v hv => h v (by simp [hv]))

/-- Only walks that are asked for are due. -/
theorem State.mem_dueWalks {s : State} {o : Nat} {c : PeCtl} {kept : List Nat} {ws : List WalkRef} {w : WalkRef}
    (h : w ∈ madeWalks s.platform c (s.dueWalks o c kept ws)) : w ∈ madeWalks s.platform c ws := by
  simp only [madeWalks, State.dueWalks, List.mem_filter] at h ⊢
  exact ⟨h.1.1, h.2⟩

theorem State.walk_mem_quiet (s : State) (ws : List WalkRef)
    (h : ∀ w ∈ madeWalks s.platform s.me.ctl ws, ∀ pa ∈ w.bytes,
      (regionAt s.platform pa).idempotent = true ∨ ∀ r ∈ s.platform.reactions, r.pa ≠ pa) :
    (s.walk ws).mem = s.mem := s.walkReads_mem_quiet _ _ _ (fun w hw => h w (State.mem_dueWalks hw))

/-- Walks keep the canonical form of memory. -/
theorem State.walkReads_mem_wf (s : State) (o : Nat) (c : PeCtl) (ws : List WalkRef) (h : Memory.wf s.mem = true) :
    Memory.wf (s.walkReads o c ws).mem = true := by
  rw [State.walkReads_frame]
  dsimp only
  generalize s.mem = m at h ⊢
  induction madeWalks s.platform c ws generalizing m with
  | nil => exact h
  | cons w t ih => exact ih _ (Memory.wf_react _ _ _ _ h)

/-- What a write writes depends on its observer alone. -/
theorem State.filled_congr (s t : State) (x : Xact) (h : t.getObs x.obs = s.getObs x.obs) : t.filled x = s.filled x := by
  have hb : t.filledByte x = s.filledByte x := by funext b; simp [State.filledByte, h]
  simp [State.filled, hb]

/-- Walks that leave memory alone do not change what a read returns. -/
theorem State.byteFor_walkReads (s : State) (o' : Nat) (c : PeCtl) (ws : List WalkRef) (o id : Nat) (a : MemAttr) (pa : Nat)
    (h : (s.walkReads o' c ws).mem = s.mem) :
    (s.walkReads o' c ws).byteFor o id a pa = s.byteFor o id a pa := by
  have hf : (s.walkReads o' c ws).filled = s.filled := funext fun x => State.filled_congr _ _ x (s.getObs_walkReads o' c ws x.obs)
  simp [State.byteFor, State.valueFor, State.ownPending, State.finds, hf, h]

/-- AN ADMITTED REQUEST goes from its checks to its accesses. -/
theorem State.request_admitted (s : State) (cls : AccessClass) (dir : Dir) (f : RegFile) (rel : Bool)
    (all : List Elem) (rs : List RElem) (F : List Nat) (pre : State → State) (hv : s.verdict cls (readParts dir rs) (writtenParts dir rs) F = .go)
    (ha : s.plan.abandon = false) :
    s.request cls dir f rel all rs F pre =
      .next ((s.walk (s.instrWalks cls (readParts dir rs) (writtenParts dir rs) F)).runReq
        (s.reqOf cls dir f rel all rs F) none pre) := by
  unfold State.request
  dsimp only
  rw [hv]
  have : ∀ b, s.cutShort b none = none := by intro b; cases b <;> simp [State.cutShort, ha]
  rw [this]

theorem State.access_admitted (s : State) (cls : AccessClass) (dir : Dir) (f : RegFile) (rel : Bool)
    (all es first : List Elem) (pre : List RElem → State → State) (rs fs : List RElem) (hr : resolve s.platform s.me f es = .ok rs)
    (hf : resolve s.platform s.me f first = .ok fs)
    (hv : s.verdict cls (readParts dir rs) (writtenParts dir rs) (pasOf fs) = .go) (ha : s.plan.abandon = false) :
    s.access cls dir f rel all es first pre =
      .next ((s.walk (s.instrWalks cls (readParts dir rs) (writtenParts dir rs) (pasOf fs))).runReq
        (s.reqOf cls dir f rel all rs (pasOf fs)) none (pre rs)) := by
  unfold State.access
  rw [hr, hf]
  exact s.request_admitted _ _ _ _ _ _ _ _ hv ha

end Sys2Proof.Machine
end

