-- ==== Sys2Proof/Laws/Loads.lean ====
section
/-! SUPPORT. Loads in a simple sequential execution: the bytes of the footprint come into their registers, and nothing
else but the arrivals changes. -/

namespace Sys2Proof.Machine

open Sys2Proof

/-- The bytes of parts, from memory as `s` has it, into the registers of an observer. -/
def putAll (s : State) (f : RegFile) (rs : List RElem) (o : Observer) : Observer :=
  (allBytes rs).foldl (fun o b => o.setRegByte f b.reg b.lane (s.byteFor s.cur s.nextId b.tr.attr b.tr.pa)) o

/-- A state that differs from another in the list of observers alone. -/
theorem State.eq_with_obs_trans {a b c : State} (h : b = { a with obs := b.obs }) (k : c = { b with obs := c.obs }) :
    c = { a with obs := c.obs } := by rw [k, h]

theorem State.deliverTo_eq (u : State) (x : Xact) (vs : List Byte) :
    u.deliverTo x vs = { u with obs := (u.deliverTo x vs).obs } := by
  unfold State.deliverTo
  split <;> rfl

/-- What a delivered read does to the registers of its observer. -/
def Observer.receive (o : Observer) (x : Xact) (vs : List Byte) : Observer :=
  match x.dst with
  | none => o
  | some f => o.putBytes f x.id x.bs vs

/-! ### Which reads deliver to a register -/

@[simp] theorem Observer.takes_setRegByte (o : Observer) (f g : RegFile) (n m : RegNum) (k id : Nat) (b : Byte) :
    (o.setRegByte f n k b).takes g m id = o.takes g m id := by
  obtain ⟨x, y, z, h⟩ := o.setRegByte_keeps f n k b
  rw [h]; rfl

theorem Observer.takes_mono (o : Observer) (f : RegFile) (n : RegNum) (i j : Nat) (h : i ≤ j) (ht : o.takes f n i = true) :
    o.takes f n j = true := by
  cases f <;> simp_all [Observer.takes] <;> omega

/-- Preparing registers for reads numbered from `id` on lets these deliver to them. -/
theorem Observer.prepare_takes (o : Observer) (p : Plan) (f : RegFile) (id : Nat) (es : List Elem) (e : Elem) (h : e ∈ es) :
    (o.prepare p f id es).takes f e.reg id = true := by
  have hclaim : ∀ (o : Observer) (n m : RegNum), m = n ∨ o.takes f m id = true → (o.claim f n id).takes f m id = true := by
    intro o n m hm
    cases f
    all_goals
      simp only [Observer.claim, Observer.takes, decide_eq_true_eq, Vector.getElem_set] at hm ⊢
    all_goals
      split
      · exact Nat.le_refl _
      · next hne =>
        rcases hm with rfl | hm
        · exact absurd rfl hne
        · exact hm
  have hscr : ∀ (o : Observer) (n m : RegNum) (v : VReg), (o.scramble f n v).takes f m id = o.takes f m id := by
    intro o n m v
    obtain ⟨x, y, k⟩ := o.scramble_keeps f n v
    rw [k]; rfl
  unfold Observer.prepare
  induction es generalizing o with
  | nil => cases h
  | cons d t ih =>
    rw [List.foldl_cons]
    rcases List.mem_cons.1 h with rfl | h
    · refine foldl_property (fun o : Observer => o.takes f e.reg id = true) _ _ _ (hclaim _ _ _ (.inl rfl)) (fun o d _ ho => ?_)
      exact hclaim _ _ _ (.inr (by rw [hscr]; exact ho))
    · exact ih _ h

theorem State.deliverTo_me (u : State) (x : Xact) (vs : List Byte) (h : x.obs = u.cur) (hi : u.inflight = []) :
    (u.deliverTo x vs).me = u.me.receive x vs ∧ ∀ o, o ≠ u.cur → (u.deliverTo x vs).getObs o = u.getObs o := by
  rw [u.deliverTo_unawaited x vs (by simp [hi])]
  unfold Observer.receive
  cases x.dst with
  | none => exact ⟨rfl, fun _ _ => rfl⟩
  | some p =>
    rw [h]
    exact ⟨by simp [State.me_eq], fun o ho => u.getObs_setObs_ne _ ho⟩

/-- Reads performed one after the other. -/
theorem State.foldl_perform_reads (xs : List Xact) (w : State) (hd : ∀ x ∈ xs, x.dir = .read) (ho : ∀ x ∈ xs, x.obs = w.cur)
    (hw : w.inflight = []) :
    xs.foldl State.perform w = { w with obs := (xs.foldl State.perform w).obs } ∧
    (xs.foldl State.perform w).me = xs.foldl (fun o x => o.receive x (w.readVals x)) w.me ∧
    ∀ o, o ≠ w.cur → (xs.foldl State.perform w).getObs o = w.getObs o := by
  induction xs generalizing w with
  | nil => exact ⟨rfl, rfl, fun _ _ => rfl⟩
  | cons x t ih =>
    have hp : w.perform x = w.deliverTo x (w.readVals x) := by
      unfold State.perform; rw [hd x (by simp)]
    have he := w.deliverTo_eq x (w.readVals x)
    obtain ⟨hm, hoth⟩ := w.deliverTo_me x (w.readVals x) (ho x (by simp)) hw
    have hcur : (w.perform x).cur = w.cur := by rw [hp]; simp
    obtain ⟨h1, h2, h3⟩ := ih (w.perform x) (fun y hy => hd y (by simp [hy]))
      (fun y hy => by rw [hcur]; exact ho y (by simp [hy])) (by rw [hp]; simpa using hw)
    rw [List.foldl_cons, List.foldl_cons]
    refine ⟨State.eq_with_obs_trans (by rw [hp]; exact he) h1, ?_, fun o ho' => ?_⟩
    · rw [h2]
      have : (w.perform x).me = w.me.receive x (w.readVals x) := by rw [hp]; exact hm
      rw [this]
      have hvals : ∀ y, (w.perform x).readVals y = w.readVals y := by
        intro y
        unfold State.readVals
        congr 1
        funext b
        refine State.byteFor_congr _ _ _ _ _ _ _ ?_ ?_ ?_ ?_ ?_
        · rw [hp]; simp
        · rw [hp]; simp
        · rw [hp]; simp
        · rw [hp]; simp [hw]
        · simp [hw]
      simp only [hvals]
    · rw [h3 o (by rw [hcur]; exact ho'), hp]
      exact hoth o ho'

theorem Observer.putBytes_map (o : Observer) (f : RegFile) (id : Nat) (bs : List ByteAcc) (g : ByteAcc → Byte)
    (h : ∀ b ∈ bs, o.takes f b.reg id = true) :
    o.putBytes f id bs (bs.map g) = bs.foldl (fun o b => o.setRegByte f b.reg b.lane (g b)) o := by
  unfold Observer.putBytes
  induction bs generalizing o with
  | nil => rfl
  | cons b t ih =>
    have hb : o.putByte f id b (g b) = o.setRegByte f b.reg b.lane (g b) := by simp [Observer.putByte, h b (by simp)]
    rw [List.map_cons, List.zip_cons_cons, List.foldl_cons, List.foldl_cons]
    dsimp only
    rw [hb, ih _ (fun c hc => by rw [Observer.takes_setRegByte]; exact h c (by simp [hc]))]

theorem foldl_congr_mem {α β : Type} (f g : α → β → α) (l : List β) (a : α) (h : ∀ a, ∀ b ∈ l, f a b = g a b) :
    l.foldl f a = l.foldl g a := by
  induction l generalizing a with
  | nil => rfl
  | cons b t ih => rw [List.foldl_cons, List.foldl_cons, h a b (by simp), ih _ (fun a c hc => h a c (by simp [hc]))]

/-- A read of a group of bytes whose records differ in the hints only puts them into their registers. -/
theorem receive_mkXact (s w : State) (r : Req) (hr : r.dir = .read) (o : Observer) (g : List RByte) (j : Nat)
    (hb : ∀ a pa i, w.byteFor s.cur i a pa = s.byteFor s.cur s.nextId a pa)
    (ht : ∀ b ∈ g, o.takes r.file b.reg s.nextId = true)
    (hsame : ∀ a ∈ g, ∀ b ∈ g, a.tr.attr.eraseHints = b.tr.attr.eraseHints) :
    o.receive (mkXact s r false g j) (w.readVals (mkXact s r false g j)) =
      g.foldl (fun o b => o.setRegByte r.file b.reg b.lane (s.byteFor s.cur s.nextId b.tr.attr b.tr.pa)) o := by
  have hdst : (mkXact s r false g j).dst = some r.file := by simp [mkXact, hr]
  unfold Observer.receive
  rw [hdst]
  dsimp only
  unfold State.readVals
  have hbs : (mkXact s r false g j).bs = g.map (s.accByte r) := rfl
  rw [Observer.putBytes_map _ _ _ _ _ (by
    rw [hbs]
    intro b hbm
    obtain ⟨c, hc, rfl⟩ := List.mem_map.1 hbm
    exact o.takes_mono _ _ _ _ (Nat.le_add_right _ _) (ht c hc)), hbs, List.foldl_map]
  refine foldl_congr_mem _ _ _ _ (fun o b hbm => ?_)
  have hattr : (mkXact s r false g j).attr.eraseHints = b.tr.attr.eraseHints := by
    simp only [mkXact]
    split
    · next h0 => cases hbm
    · next b' t => exact hsame b' (by simp) b hbm
  show o.setRegByte r.file b.reg b.lane (w.byteFor s.cur _ _ b.tr.pa) = _
  rw [State.byteFor_hints w _ _ _ hattr, hb]

/-- The reads of a request put its bytes into their registers, part by part; the extra ones go nowhere. -/
theorem foldl_receive_xactsOf (s w : State) (r : Req) (hr : r.dir = .read) (o : Observer)
    (hb : ∀ a pa i, w.byteFor s.cur i a pa = s.byteFor s.cur s.nextId a pa)
    (ht : ∀ b ∈ allBytes r.rs, o.takes r.file b.reg s.nextId = true) :
    (xactsOf s r).foldl (fun o x => o.receive x (w.readVals x)) o = putAll s r.file r.rs o := by
  have hxs : ∀ (gs : List (List RByte)) (k : Nat) (o : Observer),
      (∀ g ∈ gs, ∀ b ∈ g, o.takes r.file b.reg s.nextId = true) →
      (∀ g ∈ gs, ∀ a ∈ g, ∀ b ∈ g, a.tr.attr.eraseHints = b.tr.attr.eraseHints) →
      (((gs.map (fun g => (false, g))).zipIdx k).map (fun q => mkXact s r q.1.1 q.1.2 q.2)).foldl
        (fun o x => o.receive x (w.readVals x)) o =
        gs.flatten.foldl (fun o b => o.setRegByte r.file b.reg b.lane (s.byteFor s.cur s.nextId b.tr.attr b.tr.pa)) o := by
    intro gs
    induction gs with
    | nil => intro k o _ _; rfl
    | cons g t ih =>
      intro k o ho hsame
      rw [List.map_cons, List.zipIdx_cons, List.map_cons, List.foldl_cons, List.flatten_cons, List.foldl_append,
        receive_mkXact s w r hr o g k hb (ho g (by simp)) (hsame g (by simp)),
        ih (k + 1) _ (fun p hp b hbp => ?_) (fun p hp => hsame p (by simp [hp]))]
      exact foldl_property (fun o : Observer => o.takes r.file b.reg s.nextId = true) _ _ _ (ho p (by simp [hp]) b hbp)
        (fun o c _ hc => by rw [Observer.takes_setRegByte]; exact hc)
  have hex : ∀ (bs : List RByte) (k : Nat) (o : Observer),
      (((bs.map (fun b => (true, [b]))).zipIdx k).map (fun q => mkXact s r q.1.1 q.1.2 q.2)).foldl
        (fun o x => o.receive x (w.readVals x)) o = o := by
    intro bs
    induction bs with
    | nil => intro k o; rfl
    | cons b t ih =>
      intro k o
      rw [List.map_cons, List.zipIdx_cons, List.map_cons, List.foldl_cons, ih (k + 1)]
      simp [Observer.receive, mkXact]
  unfold xactsOf xactsFrom piecesOf putAll
  rw [List.zipIdx_append, List.map_append, List.foldl_append, hex, hxs _ 0 o (fun q hq b hbq => ?_) (fun q hq => (groupsOf_mem s r q hq).2.1),
    groupsOf_bytes]
  obtain ⟨p, hp, hbp⟩ := (groupsOf_mem s r q hq).2.2 b hbq
  exact ht b (List.mem_flatMap.2 ⟨p, hp, hbp⟩)

/-- The request's parts put as the spec says: part by part, byte by byte. -/
theorem putAll_eq_loadElems (s : State) (f : RegFile) (es : List Elem) (rs : List RElem) (o : Observer)
    (h : resolve s.platform s.me f es = .ok rs) : putAll s f rs o = loadElems s f es o := by
  obtain ⟨he, hb⟩ := resolve_eq _ _ _ _ _ h
  clear h
  unfold putAll loadElems allBytes
  subst he
  rw [List.foldl_map, List.foldl_flatMap]
  refine foldl_congr_mem _ _ _ _ (fun o p hp => ?_)
  obtain ⟨htr, hbs⟩ := resolveBytes_eq _ _ _ _ _ _ (hb p hp)
  rw [hbs, List.foldl_filterMap]
  refine foldl_congr_mem _ _ _ _ (fun o k hk => ?_)
  obtain ⟨t, ht⟩ := htr k hk
  unfold loadByte
  rw [ht]
  rfl

/-- A LOAD IN A SIMPLE SEQUENTIAL EXECUTION to which no peripheral reacts, from the effect beside its accesses to the
state it leaves. -/
theorem State.runReq_read (s : State) (r : Req) (pre : State → State) (h : Sequential s) (v : Observer)
    (hpre : pre s = s.setObs s.cur v) (hr : r.dir = .read) (hq : ∀ x ∈ xactsOf s r, x.Quiet s.platform)
    (ht : ∀ b ∈ allBytes r.rs, v.takes r.file b.reg s.nextId = true) :
    ∃ t, s.runReq r none pre = t ∧ t.me = putAll s r.file r.rs v ∧ (∀ o, o ≠ s.cur → t.getObs o = s.getObs o) ∧ t.mem = s.mem ∧
      t.lines = s.lines ∧ t.inflight = [] ∧ t.acks = s.acks ∧ t.platform = s.platform ∧ t.cur = s.cur ∧ t.plan = s.plan ∧
      t.nextId = s.nextId + (xactsOf s r).length ∧
      ∃ as, t.arrivals = s.arrivals ++ as ∧
        ∀ a ∈ as, ∃ x ∈ xactsOf s r, a.others = [] ∧ a.dir = x.dir ∧ a.bytes = x.touchedBytes ∧ a.xs = [x] := by
  obtain ⟨as, ks, he, ha, hk, -⟩ := s.runReq_sequential r pre h v hpre
  refine ⟨_, rfl, ?_⟩
  rw [he, hk hr]
  generalize hw : (s.setObs s.cur v).touch (allBytes r.rs ++ r.ex) = w
  have hw0 : w.inflight = [] := by subst hw; simpa using h.1
  have hcur : w.cur = s.cur := by subst hw; simp
  rw [State.foldl_performed_quiet (xactsOf s r) w (fun x hx => by subst hw; exact hq x hx)]
  obtain ⟨h1, h2, h3⟩ := State.foldl_perform_reads (xactsOf s r) w
    (fun x hx => (mem_xactsOf s r x hx).1.2.1.trans hr) (fun x hx => by rw [hcur]; exact (mem_xactsOf s r x hx).1.2.2.1) hw0
  generalize (xactsOf s r).foldl State.perform w = t at h1 h2 h3
  have hme : w.me = v := by subst hw; exact s.me_setObs_cur v
  have hb : ∀ a pa i, w.byteFor s.cur i a pa = s.byteFor s.cur s.nextId a pa := by
    intro a pa i
    subst hw
    exact State.byteFor_congr _ _ _ _ _ _ _ rfl rfl rfl (by simp [h.1]) (by simp [h.1])
  rw [hme, foldl_receive_xactsOf s w r hr v hb ht] at h2
  have hmem : t.mem = w.mem := by rw [h1]
  have hlines : t.lines = w.lines := by rw [h1]
  have hplat : t.platform = w.platform := by rw [h1]
  have htcur : t.cur = w.cur := by rw [h1]
  have hplan : t.plan = w.plan := by rw [h1]
  refine ⟨h2, fun o ho => ?_, ?_, ?_, rfl, by simp [State.withTraffic], ?_, ?_, ?_, rfl, as, rfl, ha⟩
  · have := h3 o (by rw [hcur]; exact ho)
    refine Eq.trans this ?_
    subst hw
    exact s.getObs_setObs_ne v ho
  · exact hmem.trans (by subst hw; rfl)
  · exact hlines.trans (by subst hw; rfl)
  · exact hplat.trans (by subst hw; rfl)
  · exact htcur.trans hcur
  · exact hplan.trans (by subst hw; rfl)

end Sys2Proof.Machine
end

