-- ==== Sys2Proof/Laws/Stores.lean ====
section
/-! SUPPORT. Stores: what a completed write makes observers read at its locations, that it changes nothing else, and
stores in a simple sequential execution. -/

namespace Sys2Proof.Machine

open Sys2Proof

theorem findSome?_congr_mem {α β : Type} (f g : α → Option β) (l : List α) (h : ∀ x ∈ l, f x = g x) :
    l.findSome? f = l.findSome? g := by
  induction l with
  | nil => rfl
  | cons x t ih => rw [List.findSome?_cons, List.findSome?_cons, h x (by simp), ih (fun y hy => h y (by simp [hy]))]

/-! ### The copies of one location -/

/-- A search for a copy of one location looks at the copies of that location alone. -/
theorem find_copies {L K : List Line} {pa : Nat} (h : L.filter (fun l => l.pa == pa) = K.filter (fun l => l.pa == pa))
    (P : Line → Bool) (hP : ∀ l, P l = true → l.pa = pa) : L.find? P = K.find? P := by
  have key : ∀ M : List Line, M.find? P = (M.filter (fun l => l.pa == pa)).find? P := by
    intro M
    rw [List.find?_filter]
    congr 1
    funext l
    by_cases hl : P l = true
    · simp [hl, hP l hl]
    · simp [Bool.eq_false_iff.2 hl]
  rw [key L, key K, h]

/-- What an observer reads at a location of Normal memory depends on its copies and the endpoint's value alone. -/
theorem State.valueFor_congr (s t : State) (o : Nat) (a : MemAttr) (pa : Nat) (hp : t.platform = s.platform)
    (hl : t.lines.filter (fun l => l.pa == pa) = s.lines.filter (fun l => l.pa == pa))
    (hm : Memory.read t.mem pa = Memory.read s.mem pa) : t.valueFor o a pa = s.valueFor o a pa := by
  have h1 : ∀ u : CacheUnit, t.lines.find? (fun l => l.unit == some u.id && l.pa == pa && !l.pending) =
      s.lines.find? (fun l => l.unit == some u.id && l.pa == pa && !l.pending) := fun u =>
    find_copies hl _ (fun l h => by simp only [Bool.and_eq_true, beq_iff_eq] at h; exact h.1.2)
  have h2 : t.lines.find? (fun l => l.pa == pa && l.dirty && mustSee s.platform l.attr l.writer o) =
      s.lines.find? (fun l => l.pa == pa && l.dirty && mustSee s.platform l.attr l.writer o) :=
    find_copies hl _ (fun l h => by simp only [Bool.and_eq_true, beq_iff_eq] at h; exact h.1.1)
  unfold State.valueFor
  simp only [hp, h1, h2, hm]

/-! ### The copies a write leaves -/

theorem not_mem_bs_any {bs : List ByteAcc} {pa : Nat} (h : ∀ b ∈ bs, b.pa ≠ pa) : bs.any (fun b => b.pa == pa) = false := by
  rw [List.any_eq_false]; intro b hb; simpa using h b hb

theorem Line.afterThrough_some {p : Platform} {x : Xact} {l m : Line} (h : l.afterThrough p x = some m) :
    ∃ u, l.unit = some u ∧ staleUnit p x.attr x.obs u = false ∧ m = { l with dirty := false } := by
  unfold Line.afterThrough at h
  split at h
  · cases h
  · next u hu =>
    split at h
    · cases h
    · next hs => cases h; exact ⟨u, hu, by simpa using hs, rfl⟩

theorem Line.afterHeld_some {p : Platform} {x : Xact} {l m : Line} (h : l.afterHeld p x = some m) :
    (m = l ∨ m = { l with unit := none }) ∧ ∀ u, m.unit = some u → staleUnit p x.attr x.obs u = false := by
  unfold Line.afterHeld at h
  split at h
  · next hu =>
    split at h
    · cases h; exact ⟨.inl rfl, fun u h => by rw [hu] at h; cases h⟩
    · cases h
  · next u hu =>
    split at h
    · split at h
      · cases h; exact ⟨.inr rfl, fun u h => by cases h⟩
      · cases h
    · next hs =>
      cases h
      exact ⟨.inl rfl, fun v h => by rw [hu] at h; cases h; simpa using hs⟩

/-- A copy a write leaves is one that was there, but for its place and whether it is dirty. -/
theorem State.mem_keptLines (s : State) (x : Xact) (keep : Line → Option Line) (m : Line) (h : m ∈ s.keptLines x keep) :
    ∃ l ∈ s.lines, ((∀ b ∈ x.bs, b.pa ≠ l.pa) ∧ m = l) ∨ ((∃ b ∈ x.bs, b.pa = l.pa) ∧ keep l = some m) := by
  unfold State.keptLines at h
  obtain ⟨l, hl, hm⟩ := List.mem_filterMap.1 h
  refine ⟨l, hl, ?_⟩
  split at hm
  · next hb =>
    obtain ⟨b, hb1, hb2⟩ := List.any_eq_true.1 hb
    exact .inr ⟨⟨b, hb1, by simpa using hb2⟩, hm⟩
  · next hb =>
    cases hm
    refine .inl ⟨fun b hb1 he => hb (List.any_eq_true.2 ⟨b, hb1, by simpa using he⟩), rfl⟩

theorem State.keptLines_copies (s : State) (x : Xact) (keep : Line → Option Line) (pa : Nat) (h : ∀ b ∈ x.bs, b.pa ≠ pa)
    (hk : ∀ l m, keep l = some m → m.pa = l.pa) :
    (s.keptLines x keep).filter (fun l => l.pa == pa) = s.lines.filter (fun l => l.pa == pa) := by
  unfold State.keptLines
  induction s.lines with
  | nil => rfl
  | cons l t ih =>
    rw [List.filterMap_cons]
    by_cases hl : l.pa = pa
    · rw [if_neg (by rw [hl, not_mem_bs_any h]; simp), List.filter_cons_of_pos (by simp [hl]),
        List.filter_cons_of_pos (by simp [hl]), ih]
    · rw [List.filter_cons_of_neg (by simp [hl])]
      split
      · exact ih
      · next m hm =>
        have hmp : m.pa = l.pa := by
          split at hm
          · exact hk l m hm
          · cases hm; rfl
        rw [List.filter_cons_of_neg (by simp [hmp, hl]), ih]

theorem mem_dirtyLines {u : Nat} {x : Xact} {l : Line} (h : l ∈ dirtyLines u x) :
    lastVal x.bs l.pa = some l.val ∧ l.dirty = true ∧ l.writer = x.obs ∧ l.attr = x.attr ∧ l.unit = some u := by
  unfold dirtyLines at h
  obtain ⟨pa, -, hm⟩ := List.mem_filterMap.1 h
  obtain ⟨v, hv, rfl⟩ := Option.map_eq_some_iff.1 hm
  exact ⟨hv, rfl, rfl, rfl, rfl⟩

theorem lastVal_some_mem {bs : List ByteAcc} {pa : Nat} {v : Byte} (h : lastVal bs pa = some v) : ∃ b ∈ bs, b.pa = pa := by
  unfold lastVal at h
  obtain ⟨b, hb, -⟩ := Option.map_eq_some_iff.1 h
  exact ⟨b, List.mem_reverse.1 (List.mem_of_find?_eq_some hb), by simpa using List.find?_some hb⟩

theorem dirtyLines_copies (u : Nat) (x : Xact) (pa : Nat) (h : ∀ b ∈ x.bs, b.pa ≠ pa) :
    (dirtyLines u x).filter (fun l => l.pa == pa) = [] := by
  rw [List.filter_eq_nil_iff]
  intro l hl hp
  obtain ⟨b, hb, he⟩ := lastVal_some_mem (mem_dirtyLines hl).1
  exact h b hb (he.trans (by simpa using hp))

/-- A write leaves the copies of other locations as they are. -/
theorem State.commit_copies (s : State) (x : Xact) (pa : Nat) (h : ∀ b ∈ x.bs, b.pa ≠ pa) :
    (s.commit x).lines.filter (fun l => l.pa == pa) = s.lines.filter (fun l => l.pa == pa) := by
  unfold State.commit
  dsimp only
  split
  · rfl
  · split
    · rw [List.filter_append, dirtyLines_copies _ x pa h, List.nil_append]
      exact (s.clearReservations x).keptLines_copies x _ pa h (fun l m e => by
        rcases (Line.afterHeld_some e).1 with rfl | rfl <;> rfl)
    · exact (s.clearReservations x).keptLines_copies x _ pa h (fun l m e => by
        obtain ⟨u, -, -, rfl⟩ := Line.afterThrough_some e; rfl)

theorem State.commit_mem (s : State) (x : Xact) :
    (s.commit x).mem = s.mem ∨ (s.commit x).mem = Memory.writeBytes s.mem x.bs := by
  unfold State.commit
  dsimp only
  split
  · exact .inr rfl
  · split
    · exact .inl rfl
    · exact .inr rfl

theorem State.commit_read_ne (s : State) (x : Xact) (pa : Nat) (h : ∀ b ∈ x.bs, b.pa ≠ pa) :
    Memory.read (s.commit x).mem pa = Memory.read s.mem pa := by
  rcases s.commit_mem x with e | e
  · rw [e]
  · rw [e, Memory.read_writeBytes_ne _ _ h]

/-- A write changes what no observer reads at any other location. -/
theorem State.commit_valueFor_ne (s : State) (x : Xact) (o : Nat) (a : MemAttr) (pa : Nat) (h : ∀ b ∈ x.bs, b.pa ≠ pa) :
    (s.commit x).valueFor o a pa = s.valueFor o a pa :=
  State.valueFor_congr s _ o a pa (s.commit_platform x) (s.commit_copies x pa h) (s.commit_read_ne x pa h)

/-! ### What observers read at the locations of a write -/

theorem Memory.read_writeBytes_last (m : List Host.Cell) (bs : List ByteAcc) (pa : Nat) (v : Byte) (h : Memory.wf m = true)
    (hv : lastVal bs pa = some v) : Memory.read (Memory.writeBytes m bs) pa = v := by
  induction bs generalizing m with
  | nil => simp [lastVal] at hv
  | cons b t ih =>
    rw [show Memory.writeBytes m (b :: t) = Memory.writeBytes (Memory.write m b.pa b.val) t from rfl]
    cases ht : lastVal t pa with
    | some w =>
      have : lastVal (b :: t) pa = some w := by
        unfold lastVal at ht ⊢
        rw [List.reverse_cons, List.find?_append]
        cases hf : t.reverse.find? (fun b => b.pa == pa) with
        | none => rw [hf] at ht; simp at ht
        | some c => rw [hf] at ht; simpa using ht
      rw [this] at hv
      cases hv
      exact ih _ (Memory.wf_write m _ _ h) ht
    | none =>
      have hne : ∀ c ∈ t, c.pa ≠ pa := by
        unfold lastVal at ht
        simp only [Option.map_eq_none_iff, List.find?_eq_none, List.mem_reverse, beq_iff_eq] at ht
        exact ht
      rw [Memory.read_writeBytes_ne _ _ hne]
      have : lastVal (b :: t) pa = if b.pa = pa then some b.val else none := by
        have hn : t.reverse.find? (fun b => b.pa == pa) = none := by
          simpa [lastVal] using ht
        unfold lastVal
        rw [List.reverse_cons, List.find?_append, hn]
        by_cases hb : b.pa = pa <;> simp [hb]
      rw [this] at hv
      split at hv
      · next hb => cases hv; rw [← hb]; exact Memory.read_write_self m _ _ h
      · cases hv

theorem infoOf_mem (p : Platform) (o : Nat) (h : ∃ i ∈ p.observers, i.id = o) :
    infoOf p o ∈ p.observers ∧ (infoOf p o).id = o := by
  unfold infoOf
  split
  · next i hi => exact ⟨List.mem_of_find?_eq_some hi, by simpa using List.find?_some hi⟩
  · next hn =>
    obtain ⟨i, hi, he⟩ := h
    have := List.find?_eq_none.1 hn i hi
    simp [he] at this

/-- An observer that must see a write: the writer, or a listed one that coherency or visibility reaches. -/
def SeesWrite (p : Platform) (a : MemAttr) (w o : Nat) : Prop :=
  o = w ∨ (mustSee p a w o = true ∧ ∃ i ∈ p.observers, i.id = o)

theorem SeesWrite.mustSee {p : Platform} {a : MemAttr} {w o : Nat} (h : SeesWrite p a w o) : Sys2Proof.Machine.mustSee p a w o = true := by
  rcases h with rfl | ⟨h, -⟩
  · simp [Sys2Proof.Machine.mustSee, coherentFor]
  · exact h

/-- No copy on the path of an observer that must see a write is kept. -/
theorem SeesWrite.staleUnit {p : Platform} {a : MemAttr} {w o : Nat} (h : SeesWrite p a w o) (u : CacheUnit)
    (hu : u ∈ (infoOf p o).path) : Sys2Proof.Machine.staleUnit p a w u.id = true := by
  unfold Sys2Proof.Machine.staleUnit
  have hany : (infoOf p o).path.any (fun c => c.id == u.id) = true := List.any_eq_true.2 ⟨u, hu, by simp⟩
  rcases h with rfl | ⟨hm, hl⟩
  · rw [hany]; rfl
  · obtain ⟨hmem, hid⟩ := infoOf_mem p o hl
    rw [Bool.or_eq_true]
    refine .inr (List.any_eq_true.2 ⟨infoOf p o, hmem, ?_⟩)
    rw [hid, hm, hany]; rfl

/-- A state whose copies of a location and whose value at the endpoint are those of a settled one is settled. -/
theorem Settled.congr {s t : State} {pa : Nat} {v : Byte} {O : Nat → Prop} (h : Settled s pa v O) (hp : t.platform = s.platform)
    (hl : t.lines.filter (fun l => l.pa == pa) = s.lines.filter (fun l => l.pa == pa))
    (hm : Memory.read t.mem pa = Memory.read s.mem pa) : Settled t pa v O := by
  refine ⟨fun o ho u hu l hlm hpa => ?_, ?_⟩
  · rw [hp] at hu
    have : l ∈ s.lines.filter (fun l => l.pa == pa) := hl ▸ List.mem_filter.2 ⟨hlm, by simpa using hpa⟩
    exact h.copies o ho u hu l (List.mem_filter.1 this).1 hpa
  · rw [find_copies hl _ (fun l h => by simp only [Bool.and_eq_true, beq_iff_eq] at h; exact h.2), hm, hp]
    exact h.newest

theorem Settled.mono {s : State} {pa : Nat} {v : Byte} {O P : Nat → Prop} (h : Settled s pa v O) (k : ∀ o, P o → O o) :
    Settled s pa v P := by
  refine ⟨fun o ho => h.copies o (k o ho), ?_⟩
  have := h.newest
  split at this
  · exact ⟨this.1, fun o ho => this.2 o (k o ho)⟩
  · exact this

/-- An observer that must see a completed write reads what it wrote, wherever its reads are answered. -/
theorem Settled.valueFor {s : State} {pa : Nat} {v : Byte} {O : Nat → Prop} (h : Settled s pa v O) (o : Nat) (ho : O o)
    (a : MemAttr) : s.valueFor o a pa = v := by
  unfold State.valueFor
  cases hf : (infoOf s.platform o).path.findSome? (fun u => if a.cacheAt u.tag = .nc then none
      else s.lines.find? (fun l => l.unit == some u.id && l.pa == pa && !l.pending)) with
  | some l =>
    dsimp only
    obtain ⟨u, hu, hul⟩ := List.exists_of_findSome?_eq_some hf
    split at hul
    · cases hul
    · have hp := List.find?_some hul
      simp only [Bool.and_eq_true, beq_iff_eq] at hp
      exact h.copies o ho u hu l (List.mem_of_find?_eq_some hul) hp.1.2 hp.1.1
  | none =>
    dsimp only
    have hn := h.newest
    cases hd : s.lines.find? (fun l => l.dirty && l.pa == pa) with
    | none =>
      rw [hd] at hn
      have : s.lines.find? (fun l => l.pa == pa && l.dirty && mustSee s.platform l.attr l.writer o) = none := by
        rw [List.find?_eq_none] at hd ⊢
        intro l hl hp
        simp only [Bool.and_eq_true, beq_iff_eq] at hp
        exact hd l hl (by simp [hp.1.1, hp.1.2])
      rw [this]; exact hn
    | some l =>
      rw [hd] at hn
      have : s.lines.find? (fun l => l.pa == pa && l.dirty && mustSee s.platform l.attr l.writer o) = some l := by
        rw [List.find?_eq_some_iff_append] at hd ⊢
        obtain ⟨hp, as, bs, he, hb⟩ := hd
        simp only [Bool.and_eq_true, beq_iff_eq] at hp
        refine ⟨by simp [hp.1, hp.2, hn.2 o ho], as, bs, he, fun m hm => ?_⟩
        have := hb m hm
        simp only [Bool.not_eq_true', Bool.and_eq_false_iff] at this ⊢
        rcases this with e | e
        · exact .inl (.inr e)
        · exact .inl (.inl e)
      rw [this]; exact hn.1

/-- A COMPLETED WRITE SETTLES its locations for everyone who must see it. -/
theorem State.commit_settled (s : State) (x : Xact) (pa : Nat) (v : Byte) (hwf : Memory.wf s.mem = true)
    (hx : x.attr.isDevice = false) (hv : lastVal x.bs pa = some v) :
    Settled (s.commit x) pa v (SeesWrite s.platform x.attr x.obs) := by
  obtain ⟨b, hb, hbe⟩ := lastVal_some_mem hv
  have hplat := s.commit_platform x
  cases hh : (s.clearReservations x).holdUnit x with
  | none =>
    have hc : (s.commit x).lines = (s.clearReservations x).keptLines x (Line.afterThrough s.platform x) ∧
        (s.commit x).mem = Memory.writeBytes s.mem x.bs := by
      unfold State.commit; dsimp only; rw [if_neg (by simp [hx]), hh]; exact ⟨rfl, rfl⟩
    have hk : ∀ l ∈ (s.commit x).lines, l.pa = pa → l.dirty = false ∧
        ∀ u, l.unit = some u → Sys2Proof.Machine.staleUnit s.platform x.attr x.obs u = false := by
      intro l hl hpa
      rw [hc.1] at hl
      obtain ⟨m, -, ⟨hne, rfl⟩ | ⟨-, hm⟩⟩ := State.mem_keptLines _ _ _ _ hl
      · exact absurd (hbe.trans hpa.symm) (hne b hb)
      · obtain ⟨w, hw, hs, rfl⟩ := Line.afterThrough_some hm
        exact ⟨rfl, fun u hu => by rw [show m.unit = some u from hu] at hw; cases hw; exact hs⟩
    refine ⟨fun o ho u hu l hl hpa hlu => ?_, ?_⟩
    · rw [hplat] at hu
      have := (hk l hl hpa).2 u.id hlu
      rw [ho.staleUnit u hu] at this; cases this
    · rw [List.find?_eq_none.2 (fun l hl hp => by
        simp only [Bool.and_eq_true, beq_iff_eq] at hp
        rw [(hk l hl hp.2).1] at hp; cases hp.1)]
      dsimp only
      rw [hc.2]
      exact Memory.read_writeBytes_last _ _ _ _ hwf hv
  | some u0 =>
    have hc : (s.commit x).lines = dirtyLines u0.id x ++ (s.clearReservations x).keptLines x (Line.afterHeld s.platform x) := by
      unfold State.commit; dsimp only; rw [if_neg (by simp [hx]), hh]; rfl
    refine ⟨fun o ho u hu l hl hpa hlu => ?_, ?_⟩
    · rw [hplat] at hu
      rw [hc] at hl
      rcases List.mem_append.1 hl with hl | hl
      · have := (mem_dirtyLines hl).1
        rw [hpa, hv] at this
        cases this; rfl
      · obtain ⟨m, -, ⟨hne, rfl⟩ | ⟨-, hm⟩⟩ := State.mem_keptLines _ _ _ _ hl
        · exact absurd (hbe.trans hpa.symm) (hne b hb)
        · have := (Line.afterHeld_some hm).2 u.id hlu
          rw [ho.staleUnit u hu] at this; cases this
    · have hex : ∃ l ∈ dirtyLines u0.id x, l.pa = pa := by
        refine ⟨{ unit := some u0.id, pa := pa, val := v, dirty := true, writer := x.obs, attr := x.attr }, ?_, rfl⟩
        unfold dirtyLines
        refine List.mem_filterMap.2 ⟨pa, ?_, by rw [hv]; rfl⟩
        rw [List.mem_eraseDups]
        exact List.mem_map.2 ⟨b, hb, hbe⟩
      have : ∃ l, (dirtyLines u0.id x).find? (fun l => l.dirty && l.pa == pa) = some l := by
        obtain ⟨l, hl, hp⟩ := hex
        cases hf : (dirtyLines u0.id x).find? (fun l => l.dirty && l.pa == pa) with
        | some m => exact ⟨m, rfl⟩
        | none => exact absurd (List.find?_eq_none.1 hf l hl) (by simp [(mem_dirtyLines hl).2.1, hp])
      obtain ⟨l, hl⟩ := this
      have hm := mem_dirtyLines (List.mem_of_find?_eq_some hl)
      have hp := List.find?_some hl
      simp only [Bool.and_eq_true, beq_iff_eq] at hp
      rw [hc, List.find?_append, hl, Option.some_or]
      dsimp only
      rw [hp.2, hv] at hm
      refine ⟨by have := hm.1; cases this; rfl, fun o ho => ?_⟩
      rw [hplat, hm.2.2.2.1, hm.2.2.1]
      exact ho.mustSee

/-- A COMPLETED WRITE IS SEEN: an observer that must see it reads what it wrote, from wherever its reads are answered. -/
theorem State.commit_byteFor (s : State) (x : Xact) (o id : Nat) (a : MemAttr) (pa : Nat) (v : Byte)
    (h0 : ∀ y ∈ s.inflight, y.Unread o) (hwf : Memory.wf s.mem = true) (ha : a.isDevice = x.attr.isDevice)
    (hs : SeesWrite s.platform x.attr x.obs o) (hv : lastVal x.bs pa = some v) : (s.commit x).byteFor o id a pa = v := by
  rw [State.byteFor_of_reads _ _ _ _ _ (by rw [State.commit_inflight]; exact h0), ha]
  split
  · next hdev =>
    have : (s.commit x).mem = Memory.writeBytes s.mem x.bs := by
      unfold State.commit; dsimp only; rw [if_pos hdev]; rfl
    rw [this]
    exact Memory.read_writeBytes_last _ _ _ _ hwf hv
  · next hdev => exact (s.commit_settled x pa v hwf (by simpa using hdev) hv).valueFor o hs a

/-- A write leaves the registers of its own observer alone. -/
theorem State.commit_getObs_self (s : State) (x : Xact) : (s.commit x).getObs x.obs = s.getObs x.obs := by
  exact (s.getObs_commit x x.obs).2 rfl

/-! ### Stores in a simple sequential execution -/

/-- Writes of one observer, performed one after the other, are committed, a copy's with the bytes it has read. -/
theorem State.foldl_perform_writes (xs : List Xact) (w : State) (o : Nat) (hd : ∀ x ∈ xs, x.dir = .write)
    (ho : ∀ x ∈ xs, x.obs = o) : xs.foldl State.perform w = (xs.map w.filled).foldl State.commit w := by
  induction xs generalizing w with
  | nil => rfl
  | cons x t ih =>
    rw [List.foldl_cons, List.map_cons, List.foldl_cons]
    have hp : w.perform x = w.commit (w.filled x) := by unfold State.perform; rw [hd x (by simp)]
    have hf : ∀ y ∈ t, (w.commit (w.filled x)).filled y = w.filled y := by
      intro y hy
      have hself := w.commit_getObs_self (w.filled x)
      rw [State.filled_obs, ho x (by simp)] at hself
      exact State.filled_congr _ _ y (by rw [ho y (by simp [hy]), hself])
    rw [hp, ih _ (fun y hy => hd y (by simp [hy])) (fun y hy => ho y (by simp [hy])), List.map_congr_left hf]

theorem State.foldl_commit_of_writes (xs : List Xact) (w : State) (hd : ∀ x ∈ xs, x.dir = .write) (hc : ∀ x ∈ xs, x.lacksBytes = false) :
    xs.foldl State.perform w = xs.foldl State.commit w :=
  foldl_congr_mem _ _ _ _ (fun a x hx => by unfold State.perform; rw [hd x hx, a.filled_eq x (.inr (hc x hx))])

theorem State.foldl_commit_inflight (xs : List Xact) (w : State) : (xs.foldl State.commit w).inflight = w.inflight :=
  foldl_keeps State.inflight State.commit (fun s x => State.commit_inflight s x) xs w

theorem State.foldl_commit_platform (xs : List Xact) (w : State) : (xs.foldl State.commit w).platform = w.platform :=
  foldl_keeps State.platform State.commit (fun s x => State.commit_platform s x) xs w

theorem State.foldl_commit_wf (xs : List Xact) (w : State) (h : Memory.wf w.mem = true) :
    Memory.wf (xs.foldl State.commit w).mem = true :=
  foldl_property (fun s : State => Memory.wf s.mem = true) _ _ _ h (fun (s : State) x _ hs => by
    rcases s.commit_mem x with e | e
    · rw [e]; exact hs
    · rw [e]; exact Memory.wf_writeBytes _ _ hs)

theorem State.commit_byteFor_ne (s : State) (x : Xact) (o id : Nat) (a : MemAttr) (pa : Nat)
    (h0 : ∀ y ∈ s.inflight, y.Unread o) (h : ∀ b ∈ x.bs, b.pa ≠ pa) :
    (s.commit x).byteFor o id a pa = s.byteFor o id a pa := by
  rw [State.byteFor_of_reads _ _ _ _ _ (by rw [State.commit_inflight]; exact h0), State.byteFor_of_reads _ _ _ _ _ h0,
    s.commit_valueFor_ne x o a pa h]
  have hm : Memory.read (s.commit x).mem pa = Memory.read s.mem pa := by
    rcases s.commit_mem x with e | e
    · rw [e]
    · rw [e, Memory.read_writeBytes_ne _ _ h]
  rw [hm]

/-- Locations that no write of a list names are read as before. -/
theorem State.foldl_commit_byteFor_ne (xs : List Xact) (w : State) (o id : Nat) (a : MemAttr) (pa : Nat)
    (h0 : ∀ y ∈ w.inflight, y.Unread o) (h : ∀ x ∈ xs, ∀ b ∈ x.bs, b.pa ≠ pa) :
    (xs.foldl State.commit w).byteFor o id a pa = w.byteFor o id a pa ∧
    Memory.read (xs.foldl State.commit w).mem pa = Memory.read w.mem pa := by
  induction xs generalizing w with
  | nil => exact ⟨rfl, rfl⟩
  | cons x t ih =>
    have hx := h x (by simp)
    obtain ⟨h1, h2⟩ := ih (w.commit x) (by rw [State.commit_inflight]; exact h0) (fun y hy => h y (by simp [hy]))
    rw [List.foldl_cons]
    refine ⟨h1.trans (w.commit_byteFor_ne x o id a pa h0 hx), h2.trans ?_⟩
    rcases w.commit_mem x with e | e
    · rw [e]
    · rw [e, Memory.read_writeBytes_ne _ _ hx]

/-- The bytes a write puts, with its record. -/
def Xact.stored (x : Xact) : List StoredByte := x.bs.map (fun c => { pa := c.pa, attr := x.attr, val := c.val })

theorem lastStored_append (as bs : List StoredByte) (pa : Nat) :
    lastStored (as ++ bs) pa = (lastStored bs pa).or (lastStored as pa) := by
  simp [lastStored, List.reverse_append, List.find?_append]

theorem Xact.lastStored_stored (x : Xact) (pa : Nat) :
    (lastStored x.stored pa) = (x.bs.reverse.find? (fun c => c.pa == pa)).map (fun c => { pa := c.pa, attr := x.attr, val := c.val }) := by
  unfold lastStored Xact.stored
  rw [← List.map_reverse, List.find?_map]
  rfl

/-- The last byte a list of writes puts at a location is the last of one of them, and none after it names the location. -/
theorem lastStored_split (xs : List Xact) (pa : Nat) (b : StoredByte) (h : lastStored (xs.flatMap Xact.stored) pa = some b) :
    ∃ l₁ x l₂, xs = l₁ ++ x :: l₂ ∧ lastVal x.bs pa = some b.val ∧ x.attr = b.attr ∧ ∀ y ∈ l₂, ∀ c ∈ y.bs, c.pa ≠ pa := by
  induction xs with
  | nil => simp [lastStored] at h
  | cons x t ih =>
    rw [List.flatMap_cons, lastStored_append] at h
    cases ht : lastStored (t.flatMap Xact.stored) pa with
    | some c =>
      rw [ht, Option.some_or] at h
      cases h
      obtain ⟨l₁, y, l₂, rfl, h⟩ := ih ht
      exact ⟨x :: l₁, y, l₂, rfl, h⟩
    | none =>
      rw [ht, Option.none_or, Xact.lastStored_stored] at h
      obtain ⟨c, hc, hb⟩ := Option.map_eq_some_iff.1 h
      refine ⟨[], x, t, rfl, by unfold lastVal; rw [hc, ← hb]; rfl, by rw [← hb], fun y hy c hc he => ?_⟩
      unfold lastStored at ht
      rw [List.find?_eq_none] at ht
      refine ht { pa := c.pa, attr := y.attr, val := c.val } ?_ (by simp [he])
      rw [List.mem_reverse, List.mem_flatMap]
      exact ⟨y, hy, List.mem_map.2 ⟨c, hc, rfl⟩⟩

theorem lastStored_none (xs : List Xact) (pa : Nat) (h : lastStored (xs.flatMap Xact.stored) pa = none) :
    ∀ x ∈ xs, ∀ c ∈ x.bs, c.pa ≠ pa := by
  intro x hx c hc he
  unfold lastStored at h
  rw [List.find?_eq_none] at h
  refine h { pa := c.pa, attr := x.attr, val := c.val } ?_ (by simp [he])
  rw [List.mem_reverse, List.mem_flatMap]
  exact ⟨x, hx, List.mem_map.2 ⟨c, hc, rfl⟩⟩

/-- WRITES ONE AFTER THE OTHER: an observer that must see the last one at a location reads its value. -/
theorem State.foldl_commit_byteFor (xs : List Xact) (w : State) (o id : Nat) (a : MemAttr) (pa : Nat) (b : StoredByte)
    (h0 : w.inflight = []) (hwf : Memory.wf w.mem = true) (hobs : ∀ x ∈ xs, x.obs = w.cur)
    (hb : lastStored (xs.flatMap Xact.stored) pa = some b) (ha : a.isDevice = b.attr.isDevice)
    (hs : SeesWrite w.platform b.attr w.cur o) : (xs.foldl State.commit w).byteFor o id a pa = b.val := by
  obtain ⟨l₁, x, l₂, rfl, hv, hattr, hne⟩ := lastStored_split xs pa b hb
  rw [List.foldl_append, List.foldl_cons]
  have hi : ∀ l, (List.foldl State.commit w l).inflight = [] := fun l => by rw [State.foldl_commit_inflight, h0]
  rw [(State.foldl_commit_byteFor_ne l₂ _ o id a pa (by rw [State.commit_inflight, hi]; simp) hne).1]
  refine State.commit_byteFor _ x o id a pa b.val (by rw [hi]; simp) (State.foldl_commit_wf l₁ w hwf) (by rw [hattr, ha]) ?_ hv
  rw [State.foldl_commit_platform, hattr, hobs x (by simp)]
  exact hs

/-- WRITES ONE AFTER THE OTHER settle each location for everyone who must see the last write there. -/
theorem State.foldl_commit_settled (xs : List Xact) (w : State) (pa : Nat) (b : StoredByte) (hwf : Memory.wf w.mem = true)
    (hobs : ∀ x ∈ xs, x.obs = w.cur) (hb : lastStored (xs.flatMap Xact.stored) pa = some b) (hd : b.attr.isDevice = false) :
    Settled (xs.foldl State.commit w) pa b.val (SeesWrite w.platform b.attr w.cur) := by
  obtain ⟨l₁, x, l₂, rfl, hv, hattr, hne⟩ := lastStored_split xs pa b hb
  rw [List.foldl_append, List.foldl_cons]
  have h := (l₁.foldl State.commit w).commit_settled x pa b.val (State.foldl_commit_wf l₁ w hwf) (by rw [hattr]; exact hd) hv
  rw [State.foldl_commit_platform, hattr, hobs x (by simp)] at h
  refine foldl_property (fun t : State => Settled t pa b.val (SeesWrite w.platform b.attr w.cur)) _ _ _ h (fun t y hy ht => ?_)
  exact ht.congr (t.commit_platform y) (t.commit_copies y pa (hne y hy)) (t.commit_read_ne y pa (hne y hy))

/-- The endpoint has the value where nothing stops the write in a cache. -/
theorem State.commit_reads_mem (s : State) (x : Xact) (pa : Nat) (v : Byte) (hwf : Memory.wf s.mem = true)
    (h : x.attr.isDevice = true ∨ x.hold = none) (hv : lastVal x.bs pa = some v) : Memory.read (s.commit x).mem pa = v := by
  have : (s.commit x).mem = Memory.writeBytes s.mem x.bs := by
    unfold State.commit
    dsimp only
    split
    · rfl
    · next hd =>
      have hh : (s.clearReservations x).holdUnit x = none := by
        rcases h with h | h
        · exact absurd h hd
        · unfold State.holdUnit; rw [h]
      rw [hh]; rfl
  rw [this]
  exact Memory.read_writeBytes_last _ _ _ _ hwf hv

theorem State.foldl_commit_reads_mem (xs : List Xact) (w : State) (pa : Nat) (b : StoredByte) (h0 : w.inflight = [])
    (hwf : Memory.wf w.mem = true) (hb : lastStored (xs.flatMap Xact.stored) pa = some b)
    (h : b.attr.isDevice = true ∨ ∀ x ∈ xs, x.hold = none) : Memory.read (xs.foldl State.commit w).mem pa = b.val := by
  obtain ⟨l₁, x, l₂, rfl, hv, hattr, hne⟩ := lastStored_split xs pa b hb
  rw [List.foldl_append, List.foldl_cons]
  have hi : ∀ l, (List.foldl State.commit w l).inflight = [] := fun l => by rw [State.foldl_commit_inflight, h0]
  rw [(State.foldl_commit_byteFor_ne l₂ _ 0 0 b.attr pa (by rw [State.commit_inflight, hi]; simp) hne).2]
  refine State.commit_reads_mem _ x pa b.val (State.foldl_commit_wf l₁ w hwf) ?_ hv
  rcases h with h | h
  · exact .inl (hattr ▸ h)
  · exact .inr (h x (by simp))

/-- The bytes of a request, as a store puts them. -/
def Req.stored (r : Req) : List StoredByte := (allBytes r.rs).map (fun b => { pa := b.tr.pa, attr := b.tr.attr, val := b.val })

/-- A stored byte without the hints of its record. -/
def StoredByte.erase (b : StoredByte) : StoredByte := { b with attr := b.attr.eraseHints }

theorem lastStored_erase (l : List StoredByte) (pa : Nat) :
    lastStored (l.map StoredByte.erase) pa = (lastStored l pa).map StoredByte.erase := by
  unfold lastStored
  rw [← List.map_reverse, List.find?_map]
  rfl

/-- Lists of stored bytes that differ in the hints only end with the same byte at a location, but for the hints. -/
theorem lastStored_hints {l k : List StoredByte} (h : l.map StoredByte.erase = k.map StoredByte.erase) (pa : Nat) :
    (∀ b, lastStored k pa = some b → ∃ c, lastStored l pa = some c ∧ c.val = b.val ∧ c.attr.eraseHints = b.attr.eraseHints) ∧
    (lastStored k pa = none → lastStored l pa = none) := by
  have hk := lastStored_erase k pa
  rw [← h, lastStored_erase l pa] at hk
  refine ⟨fun b hb => ?_, fun hn => ?_⟩
  · rw [hb] at hk
    obtain ⟨c, hc, he⟩ := Option.map_eq_some_iff.1 hk
    exact ⟨c, hc, (congrArg StoredByte.val he : c.erase.val = b.erase.val), (congrArg StoredByte.attr he : c.erase.attr = b.erase.attr)⟩
  · rw [hn] at hk
    simpa using hk

/-- The bytes the accesses of a request without extra ones put are its bytes, but for the hints. -/
theorem xactsFrom_stored (s : State) (r : Req) (k : Nat) (hex : r.ex = []) :
    ((xactsFrom s r k).flatMap Xact.stored).map StoredByte.erase = r.stored.map StoredByte.erase := by
  have hg : ∀ (gs : List (List RByte)) (k : Nat),
      (∀ g ∈ gs, ∀ a ∈ g, ∀ b ∈ g, a.tr.attr.eraseHints = b.tr.attr.eraseHints) →
      ((((gs.map (fun g => (false, g))).zipIdx k).map (fun q => mkXact s r q.1.1 q.1.2 q.2)).flatMap
        Xact.stored).map StoredByte.erase =
        (gs.flatten.map (fun b => { pa := b.tr.pa, attr := b.tr.attr, val := b.val })).map StoredByte.erase := by
    intro gs
    induction gs with
    | nil => intro k _; rfl
    | cons g t ih =>
      intro k hsame
      rw [List.map_cons, List.zipIdx_cons, List.map_cons, List.flatMap_cons, List.flatten_cons, List.map_append,
        List.map_append, List.map_append, ih (k + 1) (fun p hp => hsame p (by simp [hp]))]
      congr 1
      have hbs : (mkXact s r false g k).bs = g.map (s.accByte r) := rfl
      unfold Xact.stored
      rw [hbs, List.map_map, List.map_map, List.map_map]
      refine List.map_congr_left (fun b hb => ?_)
      have hattr : (mkXact s r false g k).attr.eraseHints = b.tr.attr.eraseHints := by
        simp only [mkXact]
        split
        · next h0 => cases hb
        · next b' t => exact hsame _ (by simp) b' (by simp) b hb
      simp [StoredByte.erase, hattr]
  unfold xactsFrom piecesOf Req.stored
  rw [hex, List.map_nil, List.append_nil, hg _ _ (fun q hq => (groupsOf_mem s r q hq).2.1), groupsOf_bytes]

theorem xactsOf_stored (s : State) (r : Req) (hex : r.ex = []) :
    ((xactsOf s r).flatMap Xact.stored).map StoredByte.erase = r.stored.map StoredByte.erase := by
  have := xactsFrom_stored s r 0 hex
  exact this

theorem stored_eq_storeBytes (s : State) (f : RegFile) (es : List Elem) (rs : List RElem) (h : resolve s.platform s.me f es = .ok rs) :
    (allBytes rs).map (fun b => { pa := b.tr.pa, attr := b.tr.attr, val := b.val }) = storeBytes s f es := by
  obtain ⟨he, hb⟩ := resolve_eq _ _ _ _ _ h
  clear h
  unfold allBytes storeBytes
  subst he
  rw [List.map_flatMap, List.flatMap_map]
  unfold List.flatMap
  congr 1
  refine List.map_congr_left (fun p hp => ?_)
  obtain ⟨-, hbs⟩ := resolveBytes_eq _ _ _ _ _ _ (hb p hp)
  rw [hbs, List.map_filterMap]
  congr 1
  funext k
  rw [Option.map_map]
  rfl

theorem mkXact_hold (s : State) (r : Req) (k : Nat) (x : Xact) (h : x ∈ xactsFrom s r k) : x.hold = s.plan.hold := by
  simp only [xactsFrom, List.mem_map] at h
  obtain ⟨q, -, rfl⟩ := h
  rfl

theorem SeesWrite.hints {p : Platform} {a b : MemAttr} {w o : Nat} (h : SeesWrite p a w o) (e : a.eraseHints = b.eraseHints) :
    SeesWrite p b w o := by
  rcases h with h | ⟨h, k⟩
  · exact .inl h
  · exact .inr ⟨by rw [← mustSee_hints p e]; exact h, k⟩

/-- A STORE IN A SIMPLE SEQUENTIAL EXECUTION to which no peripheral reacts, from the effect beside its accesses to the
state it leaves. -/
theorem State.runReq_write (s : State) (r : Req) (pre : State → State) (h : Sequential s) (v : Observer)
    (hpre : pre s = s.setObs s.cur v) (hr : r.dir = .write) (hex : r.ex = []) (hwf : Memory.wf s.mem = true)
    (hc : r.cls ≠ .memCopy) (hq : ∀ x ∈ xactsOf s r, x.Quiet s.platform) :
    ∃ t, s.runReq r none pre = t ∧ t.me = v ∧
      (∀ o, o ≠ s.cur → (s.getObs o).MayLose (t.getObs o)) ∧
      t.inflight = [] ∧ t.platform = s.platform ∧ t.cur = s.cur ∧ Memory.wf t.mem = true ∧
      (∀ pa b, lastStored r.stored pa = some b →
        (∀ o id a, SeesWrite s.platform b.attr s.cur o → a.isDevice = b.attr.isDevice → t.byteFor o id a pa = b.val) ∧
        (b.attr.isDevice = false → Settled t pa b.val (SeesWrite s.platform b.attr s.cur)) ∧
        (b.attr.isDevice = true ∨ s.plan.hold = none → Memory.read t.mem pa = b.val)) ∧
      (∀ pa, lastStored r.stored pa = none →
        (∀ o id a, t.byteFor o id a pa = s.byteFor o id a pa) ∧ Memory.read t.mem pa = Memory.read s.mem pa) ∧
      ∃ as, t.arrivals = s.arrivals ++ as ∧
        ∀ a ∈ as, ∃ x ∈ xactsOf s r, a.others = [] ∧ a.dir = x.dir ∧ a.bytes = x.touchedBytes ∧ a.xs = [x] := by
  obtain ⟨as, ks, he, ha, -, -⟩ := s.runReq_sequential r pre h v hpre
  refine ⟨_, rfl, ?_⟩
  rw [he]
  generalize hw : (s.setObs s.cur v).touch (allBytes r.rs ++ r.ex) = w
  have hw0 : w.inflight = [] := by subst hw; simpa using h.1
  have hcur : w.cur = s.cur := by subst hw; simp
  have hplat : w.platform = s.platform := by subst hw; simp
  have hmem : w.mem = s.mem := by subst hw; simp
  have hlines : w.lines = s.lines := by subst hw; simp
  have hwm : w.me = v := by subst hw; exact s.me_setObs_cur v
  have hwo : ∀ o, o ≠ s.cur → w.getObs o = s.getObs o := by
    intro o ho; subst hw; exact s.getObs_setObs_ne v ho
  rw [State.foldl_performed_quiet (xactsOf s r) w (fun x hx => by rw [hplat]; exact hq x hx),
    State.foldl_commit_of_writes _ _ (fun x hx => (mem_xactsOf s r x hx).1.2.1.trans hr)
      (fun x hx => (xactsOf_sourceless s r (.inr (.inr h.1)) x hx).complete (by rw [(mem_xactsOf s r x hx).1.1]; exact hc))]
  have hobs : ∀ x ∈ xactsOf s r, x.obs = w.cur := fun x hx => (mem_xactsOf s r x hx).1.2.2.1.trans hcur.symm
  have hst := xactsOf_stored s r hex
  have hhold : ∀ x ∈ xactsOf s r, x.hold = s.plan.hold := fun x hx => mkXact_hold s r 0 x hx
  clear hq
  generalize xactsOf s r = xs at hobs hst hhold ha
  have hme : (xs.foldl State.commit w).getObs w.cur = w.getObs w.cur ∧
      ∀ o, o ≠ w.cur → (w.getObs o).MayLose ((xs.foldl State.commit w).getObs o) := by
    refine foldl_property (fun t : State => t.getObs w.cur = w.getObs w.cur ∧
      ∀ o, o ≠ w.cur → (w.getObs o).MayLose (t.getObs o)) _ _ _
      ⟨rfl, fun _ _ => .inl rfl⟩ ?_
    rintro t x hx ⟨h1, h2⟩
    refine ⟨?_, fun o ho => ?_⟩
    · have := t.commit_getObs_self x
      rw [hobs x hx] at this
      exact this.trans h1
    · exact (h2 o ho).trans (t.getObs_commit x o).1
  have hin : ∀ o, ∀ y ∈ w.inflight, y.Unread o := by rw [hw0]; simp
  have hbyte : ∀ (u : State) (o id : Nat) (a : MemAttr) (pa : Nat), u.inflight = [] →
      State.byteFor { (u.withTraffic [] (s.arrivals ++ as) (s.acks ++ ks)) with
        nextId := s.nextId + xs.length, nextInstr := s.nextInstr + 1 } o id a pa = u.byteFor o id a pa := by
    intro u o id a pa hu
    exact State.byteFor_congr _ _ _ _ _ _ _ rfl rfl rfl (by simp [State.withTraffic]) (by simp [hu])
  have hfi : (xs.foldl State.commit w).inflight = [] := by rw [State.foldl_commit_inflight, hw0]
  have hfp : (xs.foldl State.commit w).platform = w.platform := State.foldl_commit_platform xs w
  have hfc : (xs.foldl State.commit w).cur = w.cur :=
    foldl_keeps State.cur State.commit (fun s x => State.commit_cur s x) xs w
  have hsb : ∀ o id a pa, w.byteFor o id a pa = s.byteFor o id a pa := fun o id a pa =>
    State.byteFor_congr _ _ _ _ _ _ _ hplat hmem hlines (hin o) (by simp [h.1])
  refine ⟨?_, ?_, rfl, hfp.trans hplat, hfc.trans hcur, State.foldl_commit_wf xs w (hmem ▸ hwf), ?_, ?_, as, rfl, ha⟩
  · show (xs.foldl State.commit w).getObs (xs.foldl State.commit w).cur = v
    rw [hfc, hme.1]; exact hwm
  · intro o ho
    have := hme.2 o (by rw [hcur]; exact ho)
    rw [hwo o ho] at this
    exact this
  · intro pa b hb
    obtain ⟨c, hc, hval, hattr⟩ := (lastStored_hints hst pa).1 b hb
    rw [← hval]
    refine ⟨fun o id a hs hd => ?_, fun hd => ?_, fun hd => ?_⟩
    · rw [hbyte _ _ _ _ _ hfi]
      exact State.foldl_commit_byteFor xs w o id a pa c hw0 (hmem ▸ hwf) hobs hc
        (by rw [hd, MemAttr.isDevice_hints hattr]) (by rw [hplat, hcur]; exact hs.hints hattr.symm)
    · have := State.foldl_commit_settled xs w pa c (hmem ▸ hwf) hobs hc (by rw [MemAttr.isDevice_hints hattr]; exact hd)
      rw [hplat, hcur] at this
      exact (this.congr (t := { ((xs.foldl State.commit w).withTraffic [] (s.arrivals ++ as) (s.acks ++ ks)) with
        nextId := s.nextId + xs.length, nextInstr := s.nextInstr + 1 }) rfl rfl rfl).mono (fun o ho => ho.hints hattr.symm)
    · refine State.foldl_commit_reads_mem xs w pa c hw0 (hmem ▸ hwf) hc ?_
      rcases hd with hd | hd
      · exact .inl (by rw [MemAttr.isDevice_hints hattr]; exact hd)
      · exact .inr (fun x hx => (hhold x hx).trans hd)
  · intro pa hn
    have hne := lastStored_none xs pa ((lastStored_hints hst pa).2 hn)
    refine ⟨fun o id a => ?_, ?_⟩
    · rw [hbyte _ _ _ _ _ hfi, (State.foldl_commit_byteFor_ne xs w o id a pa (hin o) hne).1, hsb]
    · exact ((State.foldl_commit_byteFor_ne xs w 0 0 (MemAttr.normalNC none) pa (hin 0) hne).2).trans (by rw [hmem])

end Sys2Proof.Machine
end

