-- ==== Sys2Proof/Laws/Caches.lean ====
section
/-! SUPPORT. What the caches do by themselves keeps what a completed write has settled: no write back, to the endpoint or to
another cache, no eviction and no speculative read gives an observer an older value than the one it must see; and what an
observer that need not see a write reads. -/

namespace Sys2Proof.Machine

open Sys2Proof

/-- Two tests that agree on a list find the same element of it. -/
theorem find_congr {α : Type} {p q : α → Bool} {l : List α} (h : ∀ a ∈ l, p a = q a) : l.find? p = l.find? q := by
  induction l with
  | nil => rfl
  | cons a t ih => rw [List.find?_cons, List.find?_cons, h a (by simp), ih (fun b hb => h b (by simp [hb]))]

/-- An observer with a cache on its path is listed. -/
theorem infoOf_path_listed {p : Platform} {o : Nat} {u : CacheUnit} (h : u ∈ (infoOf p o).path) :
    o ∈ p.observers.map ObserverInfo.id := by
  unfold infoOf at h
  split at h
  · next i hi =>
    exact List.mem_map.2 ⟨i, List.mem_of_find?_eq_some hi, by simpa using List.find?_some hi⟩
  · cases h

/-! ### Write backs to the endpoint -/

theorem Line.mem_cleaned {l m : Line} (h : m ∈ l.cleaned) : m = { l with dirty := false } := by
  unfold Line.cleaned at h
  split at h
  · cases h
  · exact List.mem_singleton.1 h

/-- A write back moves no copy and changes no value. -/
theorem mem_linesAfter (sel : Line → Bool) (newer : List Nat) (L : List Line) (m : Line) (h : m ∈ linesAfter sel newer L) :
    ∃ l ∈ L, m = l ∨ m = { l with dirty := false } := by
  induction L generalizing newer with
  | nil => cases h
  | cons l t ih =>
    unfold linesAfter at h
    have tail : ∀ n, m ∈ linesAfter sel n t → ∃ l' ∈ l :: t, m = l' ∨ m = { l' with dirty := false } := by
      intro n hm; obtain ⟨l', h1, h2⟩ := ih n hm; exact ⟨l', by simp [h1], h2⟩
    split at h
    · rcases List.mem_cons.1 h with rfl | h
      · exact ⟨m, by simp, .inl rfl⟩
      · exact tail _ h
    · split at h
      · exact tail _ h
      · split at h
        · rcases List.mem_append.1 h with h | h
          · exact ⟨l, by simp, .inr (Line.mem_cleaned h)⟩
          · exact tail _ h
        · rcases List.mem_cons.1 h with rfl | h
          · exact ⟨m, by simp, .inl rfl⟩
          · exact tail _ h

/-- The newest dirty copy of a location after a write back: the one there was, unless it was written back. -/
theorem find_linesAfter (sel : Line → Bool) (newer : List Nat) (L : List Line) (pa : Nat) :
    (linesAfter sel newer L).find? (fun l => l.dirty && l.pa == pa) =
      if pa ∈ newer then none
      else match L.find? (fun l => l.dirty && l.pa == pa) with
        | some d => if sel d then none else some d
        | none => none := by
  induction L generalizing newer with
  | nil => simp [linesAfter]
  | cons l t ih =>
    unfold linesAfter
    by_cases hd : l.dirty = true
    · by_cases hpa : l.pa = pa
      · by_cases hs : sel l = true
        · simp [hd, hs, ih, hpa]
        · by_cases hn : pa ∈ newer
          · have hc : (l.cleaned).find? (fun l => l.dirty && l.pa == pa) = none := by
              rw [List.find?_eq_none]
              intro m hm; rw [Line.mem_cleaned hm]; simp
            simp [hd, hs, hpa, hn, List.find?_append, hc, ih]
          · simp [hd, hs, hpa, hn]
      · by_cases hs : sel l = true
        · have hne : pa ≠ l.pa := fun e => hpa e.symm
          simp [hd, hs, ih, hpa, hne]
        · by_cases hn : l.pa ∈ newer
          · have hc : (l.cleaned).find? (fun l => l.dirty && l.pa == pa) = none := by
              rw [List.find?_eq_none]
              intro m hm; rw [Line.mem_cleaned hm]; simp
            simp [hd, hs, hpa, hn, List.find?_append, hc, ih]
          · simp [hd, hs, hpa, hn, ih]
    · simp [hd, ih]

/-- What a write back leaves at the endpoint: the newest of the selected dirty copies. -/
theorem lastVal_dirty (K : List Line) (pa : Nat) :
    lastVal (K.reverse.map (fun (m : Line) => ({ pa := m.pa, reg := 0, lane := 0, val := m.val } : ByteAcc))) pa =
      (K.find? (fun l => l.pa == pa)).map Line.val := by
  unfold lastVal
  rw [← List.map_reverse, List.reverse_reverse, List.find?_map, Option.map_map]
  rfl

/-- A write back to the endpoint: the newest selected copy of each location goes there, and the others stay as `linesAfter`
says. -/
theorem State.writebackToMem_spec (s : State) (sel : Line → Bool) (hwf : Memory.wf s.mem = true) (pa : Nat) :
    (s.writebackToMem sel).lines.find? (fun l => l.dirty && l.pa == pa) =
      (match s.lines.find? (fun l => l.dirty && l.pa == pa) with
        | some d => if sel d then none else some d
        | none => none) ∧
    (∀ m ∈ (s.writebackToMem sel).lines, ∃ l ∈ s.lines, m = l ∨ m = { l with dirty := false }) ∧
    Memory.wf (s.writebackToMem sel).mem = true ∧
    ((∀ l ∈ s.lines, l.dirty = true → l.pa = pa → sel l = false) → Memory.read (s.writebackToMem sel).mem pa = Memory.read s.mem pa) ∧
    (∀ d, s.lines.find? (fun l => l.dirty && l.pa == pa) = some d → sel d = true → Memory.read (s.writebackToMem sel).mem pa = d.val) := by
  unfold State.writebackToMem
  split
  · next h =>
    have hno : ∀ l ∈ s.lines, l.dirty = true → sel l = false := by
      intro l hl hd
      unfold State.dirtyOf at h
      rw [List.reverse_eq_nil_iff, List.filter_eq_nil_iff] at h
      have := h l hl
      rw [hd, Bool.true_and] at this
      simpa using this
    refine ⟨?_, fun m hm => ⟨m, hm, .inl rfl⟩, hwf, fun _ => rfl, fun d hd hs => ?_⟩
    · split
      · next d hd =>
        have hp := List.find?_some hd
        simp only [Bool.and_eq_true] at hp
        rw [if_neg (by rw [hno d (List.mem_of_find?_eq_some hd) hp.1]; simp)]
        exact hd
      · next hd => exact hd
    · have hp := List.find?_some hd
      simp only [Bool.and_eq_true] at hp
      rw [hno d (List.mem_of_find?_eq_some hd) hp.1] at hs
      cases hs
  · next l ls h =>
    rw [← h]
    have hk : s.dirtyOf sel = (s.lines.filter (fun l => l.dirty && sel l)).reverse := rfl
    refine ⟨?_, fun m hm => mem_linesAfter sel [] s.lines m hm, Memory.wf_writeBytes _ _ hwf, fun hno => ?_, fun d hd hs => ?_⟩
    · show (linesAfter sel [] s.lines).find? _ = _
      rw [find_linesAfter]
      simp
    · refine Memory.read_writeBytes_ne _ _ (fun b hb e => ?_)
      obtain ⟨m, hm, rfl⟩ := List.mem_map.1 hb
      rw [hk, List.mem_reverse, List.mem_filter] at hm
      simp only [Bool.and_eq_true] at hm
      rw [hno m hm.1 hm.2.1 e] at hm
      cases hm.2.2
    · refine Memory.read_writeBytes_last _ _ _ _ hwf ?_
      rw [hk, lastVal_dirty, List.find?_filter]
      have : s.lines.find? (fun l => decide ((l.dirty && sel l) = true ∧ (l.pa == pa) = true)) = some d := by
        rw [List.find?_eq_some_iff_append] at hd ⊢
        obtain ⟨hp, as, bs, he, hb⟩ := hd
        simp only [Bool.and_eq_true, beq_iff_eq] at hp
        refine ⟨by simp [hp.1, hp.2, hs], as, bs, he, fun m hm => ?_⟩
        have := hb m hm
        simp only [Bool.not_eq_true', Bool.and_eq_false_iff] at this
        rcases this with e | e
        · simp [e]
        · simp [e]
      rw [this]
      rfl

theorem Settled.writebackToMem {s : State} {pa : Nat} {v : Byte} {O : Nat → Prop} (h : Settled s pa v O)
    (hwf : Memory.wf s.mem = true) (sel : Line → Bool) : Settled (s.writebackToMem sel) pa v O := by
  obtain ⟨h1, h2, -, h3, h4⟩ := s.writebackToMem_spec sel hwf pa
  have hn := h.newest
  refine ⟨fun o ho u hu m hm hpa hmu => ?_, ?_⟩
  · rw [State.writebackToMem_platform] at hu
    obtain ⟨l, hl, rfl | rfl⟩ := h2 m hm
    · exact h.copies o ho u hu _ hl hpa hmu
    · exact h.copies o ho u hu l hl hpa hmu
  · rw [h1, State.writebackToMem_platform]
    cases hd : s.lines.find? (fun l => l.dirty && l.pa == pa) with
    | none =>
      rw [hd] at hn
      dsimp only
      rw [h3 (fun l hl hdl hp => absurd (by simp [hdl, hp]) (List.find?_eq_none.1 hd l hl))]
      exact hn
    | some d =>
      rw [hd] at hn
      dsimp only
      by_cases hs : sel d = true
      · rw [if_pos hs]
        dsimp only
        rw [h4 d hd hs]; exact hn.1
      · rw [if_neg hs]; exact hn

/-! ### Write backs to a cache -/

theorem State.allMove_split (s : State) (sel : Line → Bool) (u : Nat) (newer as bs : List Line) (l : Line)
    (h : s.allMove sel u newer (as ++ l :: bs) = true) (hd : l.dirty = true) (hs : sel l = true) :
    s.mayMove u l (newer ++ as) = true := by
  induction as generalizing newer with
  | nil =>
    rw [List.nil_append] at h
    unfold State.allMove at h
    rw [hd, hs] at h
    simp only [Bool.and_true, if_true, Bool.and_eq_true] at h
    rw [List.append_nil]; exact h.1.1
  | cons a t ih =>
    rw [List.cons_append] at h
    unfold State.allMove at h
    rw [Bool.and_eq_true] at h
    have := ih (newer ++ [a]) h.2
    simpa using this

theorem Line.moveTo_same (sel : Line → Bool) (u : Nat) (l : Line) :
    (l.moveTo sel u).pa = l.pa ∧ (l.moveTo sel u).val = l.val ∧ (l.moveTo sel u).dirty = l.dirty ∧
    (l.moveTo sel u).attr = l.attr ∧ (l.moveTo sel u).writer = l.writer := by
  unfold Line.moveTo; split <;> exact ⟨rfl, rfl, rfl, rfl, rfl⟩

/-- Where the cache may take them, the dirty copies stay, in their order. -/
theorem State.writebackToUnit_newest (s : State) (sel : Line → Bool) (u : Nat) (h : s.allMove sel u [] s.lines = true) (pa : Nat) :
    (s.writebackToUnit sel u).lines.find? (fun l => l.dirty && l.pa == pa) =
      (s.lines.find? (fun l => l.dirty && l.pa == pa)).map (Line.moveTo sel u) := by
  unfold State.writebackToUnit
  dsimp only
  rw [List.find?_map, List.find?_filter]
  congr 1
  have hkeep : ∀ l ∈ s.lines, l.dirty = true → l.besides sel u s.lines = true := by
    intro l hl hd
    unfold Line.besides
    cases hb : (l.unit == some u && s.lines.any (fun m => m.dirty && sel m && m.pa == l.pa)) with
    | false => simp
    | true =>
    exfalso
    simp only [Bool.and_eq_true, beq_iff_eq, List.any_eq_true] at hb
    obtain ⟨hu, m, hm, ⟨hmd, hms⟩, hmp⟩ := hb
    obtain ⟨as, bs, he⟩ := List.append_of_mem hm
    have hmm := s.allMove_split sel u [] as bs m (he ▸ h) hmd hms
    unfold State.mayMove at hmm
    simp only [Bool.and_eq_true, Bool.not_eq_true', List.any_eq_false, beq_iff_eq] at hmm
    exact hmm.1.2 l hl ⟨⟨hd, hmp.symm⟩, hu⟩
  refine find_congr (fun l hl => ?_)
  obtain ⟨e1, -, e3, -⟩ := l.moveTo_same sel u
  simp only [Function.comp, e1, e3]
  by_cases hd : l.dirty = true
  · rw [Bool.eq_iff_iff]; simp [hd, hkeep l hl hd]
  · simp [Bool.eq_false_iff.2 hd]

theorem Settled.writebackToUnit {s : State} {pa : Nat} {v : Byte} {O : Nat → Prop} (h : Settled s pa v O) (sel : Line → Bool)
    (w : Nat) (ha : s.allMove sel w [] s.lines = true) : Settled (s.writebackToUnit sel w) pa v O := by
  have hn := h.newest
  refine ⟨fun o ho u hu m hm hpa hmu => ?_, ?_⟩
  · obtain ⟨l, hl, rfl⟩ := List.mem_map.1 hm
    have hlm := (List.mem_filter.1 hl).1
    obtain ⟨e1, e2, -⟩ := l.moveTo_same sel w
    rw [e1] at hpa
    rw [e2]
    by_cases hmv : (l.dirty && sel l) = true
    · have huw : w = u.id := by
        unfold Line.moveTo at hmu
        rw [if_pos hmv] at hmu
        exact Option.some.inj hmu
      subst huw
      simp only [Bool.and_eq_true] at hmv
      cases hd : s.lines.find? (fun l => l.dirty && l.pa == pa) with
      | none => exact absurd (by simp [hmv.1, hpa]) (List.find?_eq_none.1 hd l hlm)
      | some d =>
        rw [hd] at hn
        obtain ⟨hp, as, bs, he, hb⟩ := List.find?_eq_some_iff_append.1 hd
        have hl' := hlm
        rw [he, List.mem_append, List.mem_cons] at hl'
        rcases hl' with hl' | rfl | hl'
        · have := hb l hl'
          simp [hmv.1, hpa] at this
        · exact hn.1
        · obtain ⟨cs, ds, he'⟩ := List.append_of_mem hl'
          have hmm := s.allMove_split sel u.id [] (as ++ d :: cs) ds l (by rw [he, he'] at ha; simpa using ha) hmv.1 hmv.2
          unfold State.mayMove at hmm
          simp only [Bool.and_eq_true, List.all_eq_true] at hmm
          have := hmm.2 o (infoOf_path_listed hu)
          have hany : (infoOf s.platform o).path.any (fun c => c.id == u.id) = true := List.any_eq_true.2 ⟨u, hu, by simp⟩
          rw [hany] at this
          simp only [Bool.not_true, Bool.false_or, Bool.not_eq_true', List.any_eq_false, Bool.and_eq_true, beq_iff_eq] at this
          simp only [Bool.and_eq_true, beq_iff_eq] at hp
          exact absurd ⟨⟨hp.1, hp.2.trans hpa.symm⟩, hn.2 o ho⟩ (this d (by simp))
    · have hmu' : l.unit = some u.id := by
        unfold Line.moveTo at hmu
        rw [if_neg hmv] at hmu
        exact hmu
      exact h.copies o ho u hu l hlm hpa hmu'
  · rw [s.writebackToUnit_newest sel w ha pa]
    cases hd : s.lines.find? (fun l => l.dirty && l.pa == pa) with
    | none => rw [hd] at hn; exact hn
    | some d =>
      rw [hd] at hn
      obtain ⟨-, e2, -, e4, e5⟩ := d.moveTo_same sel w
      dsimp only [Option.map_some]
      rw [e2, e4, e5]
      exact hn

/-! ### Evictions and speculative reads -/

theorem Settled.evict {s : State} {pa : Nat} {v : Byte} {O : Nat → Prop} (h : Settled s pa v O) (unit q : Nat) :
    Settled (s.evictEvent unit q) pa v O := by
  refine ⟨fun o ho u hu l hl hpa hlu => h.copies o ho u hu l (List.mem_filter.1 hl).1 hpa hlu, ?_⟩
  have : (s.evictEvent unit q).lines.find? (fun l => l.dirty && l.pa == pa) = s.lines.find? (fun l => l.dirty && l.pa == pa) := by
    unfold State.evictEvent
    dsimp only
    rw [List.find?_filter]
    refine find_congr (fun l _ => ?_)
    by_cases hd : l.dirty = true
    · rw [Bool.eq_iff_iff]; simp [hd]
    · simp [Bool.eq_false_iff.2 hd]
  rw [this]
  exact h.newest

theorem Settled.allocate {s : State} {pa : Nat} {v : Byte} {O : Nat → Prop} (h : Settled s pa v O) (o' unit : Nat) (late : Bool)
    (a : MemAttr) (q : Nat) : Settled (s.allocate o' unit late a q) pa v O := by
  unfold State.allocate
  split
  · exact h
  · next c _ =>
    split
    · next hc =>
      simp only [Bool.and_eq_true] at hc
      refine ⟨fun o ho u hu l hl hpa hlu => ?_, ?_⟩
      · rcases List.mem_append.1 hl with hl | hl
        · exact h.copies o ho u hu l hl hpa hlu
        · rw [List.mem_singleton] at hl
          subst hl
          have huc : c.id = u.id := Option.some.inj hlu
          have hq : q = pa := hpa
          subst hq
          have hf := hc.2
          unfold State.mayFill at hf
          rw [List.all_eq_true] at hf
          obtain ⟨i, hi, hio⟩ := List.mem_map.1 (infoOf_path_listed hu)
          have := hf i hi
          rw [hio, List.any_eq_true.2 ⟨u, hu, by simp [huc]⟩] at this
          simp only [Bool.not_true, Bool.false_or, beq_iff_eq] at this
          exact this.symm.trans (h.valueFor o ho a)
      · dsimp only
        rw [List.find?_append]
        have : [({ unit := some c.id, pa := q, val := s.valueFor o' a q, dirty := false, writer := o', attr := a, pending := late } : Line)].find?
            (fun l => l.dirty && l.pa == pa) = none := by simp
        rw [this, Option.or_none]
        exact h.newest
    · exact h

/-- A late fill changes no value and no place. -/
theorem Settled.fill {s : State} {pa : Nat} {v : Byte} {O : Nat → Prop} (h : Settled s pa v O) (unit q : Nat) :
    Settled (s.fillEvent unit q) pa v O := by
  have hl : ∀ l : Line, (if l.unit == some unit && l.pa == q then { l with pending := false } else l) = l ∨
      (if l.unit == some unit && l.pa == q then { l with pending := false } else l) = { l with pending := false } := by
    intro l; split <;> simp
  refine ⟨fun o ho u hu l hlm hpa hlu => ?_, ?_⟩
  · obtain ⟨m, hm, rfl⟩ := List.mem_map.1 hlm
    rcases hl m with e | e
    all_goals
      rw [e] at hpa hlu ⊢
      exact h.copies o ho u hu m hm hpa hlu
  · have : (s.fillEvent unit q).lines.find? (fun l => l.dirty && l.pa == pa) =
        (s.lines.find? (fun l => l.dirty && l.pa == pa)).map
          (fun l => if l.unit == some unit && l.pa == q then { l with pending := false } else l) := by
      unfold State.fillEvent
      dsimp only
      rw [List.find?_map]
      congr 1
      refine find_congr (fun l _ => ?_)
      rcases hl l with e | e <;> simp only [Function.comp, e]
    rw [this]
    have hn := h.newest
    cases hd : s.lines.find? (fun l => l.dirty && l.pa == pa) with
    | none => rw [hd] at hn; exact hn
    | some d =>
      rw [hd] at hn
      rw [Option.map_some]
      rcases hl d with e | e
      all_goals
        rw [e]
        exact hn

/-- WHAT A WRITE HAS SETTLED THE CACHES KEEP, whatever they do by themselves. -/
theorem Settled.handle {s t : State} {pa : Nat} {v : Byte} {O : Nat → Prop} (h : Settled s pa v O) (hwf : Memory.wf s.mem = true)
    (e : Event) (he : ofCaches e = true) (ht : s.handle e = .next t) :
    Settled t pa v O ∧ Memory.wf t.mem = true ∧ t.inflight = s.inflight ∧ t.platform = s.platform := by
  cases e with
  | writeback unit pas dest =>
    cases ht
    unfold State.writebackEvent
    dsimp only
    split
    · exact ⟨h.writebackToMem hwf _, (s.writebackToMem_spec _ hwf pa).2.2.1, by simp, by simp⟩
    · split
      · next u ha => exact ⟨h.writebackToUnit _ u ha, hwf, by simp, by simp⟩
      · exact ⟨h, hwf, rfl, rfl⟩
  | evict unit q => cases ht; exact ⟨h.evict unit q, hwf, rfl, rfl⟩
  | fill unit q => cases ht; exact ⟨h.fill unit q, hwf, rfl, rfl⟩
  | specRead o va size unit late =>
    unfold State.handle State.speculateAll at ht
    dsimp only at ht
    split at ht
    · cases ht
    · cases ht
      refine foldl_property (fun t : State => Settled t pa v O ∧ Memory.wf t.mem = true ∧ t.inflight = s.inflight ∧
        t.platform = s.platform) _ _ _ ⟨h, hwf, rfl, rfl⟩ ?_
      rintro t b - ⟨k1, k2, k3, k4⟩
      have hs : Settled ((t.touch [b]).logArrival ((specAccess o b).arrival t.platform)) pa v O := k1.congr rfl rfl rfl
      refine ⟨hs.allocate o unit late b.tr.attr b.tr.pa, ?_, ?_, ?_⟩
      all_goals
        unfold State.speculate State.allocate
        split
        · assumption
        · split <;> assumption
  | _ => cases he

/-- However long the caches run by themselves, an observer that must see a completed write reads it. -/
theorem Settled.cacheRun {s t : State} {pa : Nat} {v : Byte} {O : Nat → Prop} (h : Settled s pa v O) (hwf : Memory.wf s.mem = true)
    (hr : CacheRun s t) : Settled t pa v O ∧ Memory.wf t.mem = true ∧ t.inflight = s.inflight ∧ t.platform = s.platform := by
  induction hr with
  | start => exact ⟨h, hwf, rfl, rfl⟩
  | next e _ he ht ih =>
    obtain ⟨k1, k2, k3, k4⟩ := ih
    obtain ⟨a, b, c, d⟩ := k1.handle k2 e he ht
    exact ⟨a, b, c.trans k3, d.trans k4⟩

/-! ### Observers that need not see a write -/

theorem State.valueFor_eq (s : State) (o : Nat) (a : MemAttr) (pa : Nat) :
    s.valueFor o a pa = ((infoOf s.platform o).path.findSome? (fun u => if a.cacheAt u.tag = .nc then none
        else (s.lines.find? (fun l => l.unit == some u.id && l.pa == pa && !l.pending)).map Line.val)).getD
      (((s.lines.find? (fun l => l.pa == pa && l.dirty && mustSee s.platform l.attr l.writer o)).map Line.val).getD
        (Memory.read s.mem pa)) := by
  have : (fun u : CacheUnit => if a.cacheAt u.tag = .nc then none
        else (s.lines.find? (fun l => l.unit == some u.id && l.pa == pa && !l.pending)).map Line.val) = Option.map Line.val ∘
      fun u => if a.cacheAt u.tag = .nc then none else s.lines.find? (fun l => l.unit == some u.id && l.pa == pa && !l.pending) := by
    funext u; dsimp only [Function.comp]; split <;> rfl
  rw [this, ← List.map_findSome?]
  unfold State.valueFor
  split
  · next l h => rw [h]; rfl
  · next h =>
    rw [h]
    split
    · next l k => rw [k]; rfl
    · next k => rw [k]; rfl

/-- What a list of copies answers after each was kept, changed or dropped. -/
theorem find_filterMap {L : List Line} {g : Line → Option Line} {P : Line → Bool}
    (h1 : ∀ l ∈ L, P l = true → ∃ m, g l = some m ∧ P m = true ∧ m.val = l.val)
    (h2 : ∀ l ∈ L, ∀ m, g l = some m → P m = true → P l = true) :
    ((L.filterMap g).find? P).map Line.val = (L.find? P).map Line.val := by
  induction L with
  | nil => rfl
  | cons l t ih =>
    have ih := ih (fun l hl => h1 l (by simp [hl])) (fun l hl => h2 l (by simp [hl]))
    rw [List.filterMap_cons]
    by_cases hp : P l = true
    · obtain ⟨m, hm, hpm, hv⟩ := h1 l (by simp) hp
      simp [hm, hp, hpm, hv]
    · rw [List.find?_cons_of_neg hp]
      split
      · exact ih
      · next m hm => rw [List.find?_cons_of_neg (fun hpm => hp (h2 l (by simp) m hm hpm))]; exact ih

/-- An observer that need not see a write which stops in a cache off its path reads what it read before, where the write drops
no copy of its caches. -/
theorem State.commit_unseen_held (s : State) (x : Xact) (u : CacheUnit) (o pa : Nat) (hx : x.attr.isDevice = false)
    (hu : s.holdUnit x = some u) (hoff : ∀ v ∈ (infoOf s.platform o).path, v.id ≠ u.id)
    (hl : ∃ i ∈ s.platform.observers, i.id = o) (hs : mustSee s.platform x.attr x.obs o = false)
    (hc : ∀ v ∈ (infoOf s.platform o).path, staleUnit s.platform x.attr x.obs v.id = false ∨
      ∀ l ∈ s.lines, l.unit = some v.id → l.pa ≠ pa) :
    (∀ a, (s.commit x).valueFor o a pa = s.valueFor o a pa) ∧
    ∀ v ∈ (infoOf s.platform o).path, staleUnit s.platform x.attr x.obs v.id = false ∨
      ∀ l ∈ (s.commit x).lines, l.unit = some v.id → l.pa ≠ pa := by
  have hu' : (s.clearReservations x).holdUnit x = some u := hu
  have hcm : (s.commit x).lines = dirtyLines u.id x ++ s.keptLines x (Line.afterHeld s.platform x) := by
    unfold State.commit; simp [hx, hu']; rfl
  have hmem : (s.commit x).mem = s.mem := by unfold State.commit; simp [hx, hu']
  refine ⟨fun a => ?_, fun v hv => (hc v hv).imp_right (fun h l hlm hlu => ?_)⟩
  · rw [State.valueFor_eq, State.valueFor_eq, s.commit_platform x, hmem, hcm]
    have e1 : ∀ v ∈ (infoOf s.platform o).path,
        ((dirtyLines u.id x ++ s.keptLines x (Line.afterHeld s.platform x)).find? (fun l => l.unit == some v.id && l.pa == pa && !l.pending)).map Line.val =
        (s.lines.find? (fun l => l.unit == some v.id && l.pa == pa && !l.pending)).map Line.val := by
      intro v hv
      rw [List.find?_append]
      have hn : (dirtyLines u.id x).find? (fun l => l.unit == some v.id && l.pa == pa && !l.pending) = none := by
        rw [List.find?_eq_none]
        intro l hl
        have := (mem_dirtyLines hl).2.2.2.2
        simp [this, Ne.symm (hoff v hv)]
      rw [hn, Option.none_or]
      refine find_filterMap (fun l hlm hp => ?_) (fun l hlm m hm hp => ?_)
      · simp only [Bool.and_eq_true, beq_iff_eq] at hp
        refine ⟨l, ?_, by simpa using hp, rfl⟩
        split
        · rcases hc v hv with hs | hs
          · unfold Line.afterHeld; rw [hp.1.1]; dsimp only; rw [if_neg (by simp [hs])]
          · exact absurd hp.1.2 (hs l hlm hp.1.1)
        · rfl
      · split at hm
        · rcases (Line.afterHeld_some hm).1 with rfl | rfl
          · exact hp
          · simp at hp
        · cases hm; exact hp
    have e2 : ((dirtyLines u.id x ++ s.keptLines x (Line.afterHeld s.platform x)).find?
          (fun l => l.pa == pa && l.dirty && mustSee s.platform l.attr l.writer o)).map Line.val =
        (s.lines.find? (fun l => l.pa == pa && l.dirty && mustSee s.platform l.attr l.writer o)).map Line.val := by
      rw [List.find?_append]
      have hn : (dirtyLines u.id x).find? (fun l => l.pa == pa && l.dirty && mustSee s.platform l.attr l.writer o) = none := by
        rw [List.find?_eq_none]
        intro l hl
        obtain ⟨-, -, e3, e4, -⟩ := mem_dirtyLines hl
        simp [e3, e4, hs]
      rw [hn, Option.none_or]
      refine find_filterMap (fun l hlm hp => ?_) (fun l hlm m hm hp => ?_)
      · simp only [Bool.and_eq_true, beq_iff_eq] at hp
        have hneed : stillNeeded s.platform x l = true := by
          obtain ⟨i, hi, rfl⟩ := hl
          refine List.any_eq_true.2 ⟨i.id, List.mem_cons_of_mem _ (List.mem_map.2 ⟨i, hi, rfl⟩), by simp [hp.2, hs]⟩
        split
        · unfold Line.afterHeld
          split
          · exact ⟨l, by rw [if_pos hneed], by simp [hp], rfl⟩
          · split
            · exact ⟨{ l with unit := none }, by simp [hp.1.2, hneed], by simp [hp], rfl⟩
            · exact ⟨l, rfl, by simp [hp], rfl⟩
        · exact ⟨l, rfl, by simp [hp], rfl⟩
      · split at hm
        · rcases (Line.afterHeld_some hm).1 with rfl | rfl <;> exact hp
        · cases hm; exact hp
    rw [e2, findSome?_congr_mem _ _ _ (fun v hv => by rw [e1 v hv])]
  · rw [hcm] at hlm
    rcases List.mem_append.1 hlm with hlm | hlm
    · have := (mem_dirtyLines hlm).2.2.2.2
      rw [this] at hlu
      exact absurd (Option.some.inj hlu).symm (hoff v hv)
    · obtain ⟨m, hm, ⟨-, rfl⟩ | ⟨-, he⟩⟩ := s.mem_keptLines x _ l hlm
      · exact h _ hm hlu
      · rcases (Line.afterHeld_some he).1 with rfl | rfl
        · exact h _ hm hlu
        · cases hlu

/-- An observer with no copy of the location left on its path reads a write that reached the endpoint, whether it must see it
or not. -/
theorem State.commit_unseen_through (s : State) (x : Xact) (o pa : Nat) (v : Byte) (hwf : Memory.wf s.mem = true)
    (hx : x.attr.isDevice = false) (hu : s.holdUnit x = none) (hv : lastVal x.bs pa = some v)
    (hc : ∀ u ∈ (infoOf s.platform o).path, staleUnit s.platform x.attr x.obs u.id = true ∨
      ∀ l ∈ s.lines, l.unit = some u.id → l.pa ≠ pa) (a : MemAttr) : (s.commit x).valueFor o a pa = v := by
  obtain ⟨b, hb, hbe⟩ := lastVal_some_mem hv
  have hu' : (s.clearReservations x).holdUnit x = none := hu
  have hcm : (s.commit x).lines = s.keptLines x (Line.afterThrough s.platform x) := by
    unfold State.commit; simp [hx, hu']; rfl
  have hmem : (s.commit x).mem = Memory.writeBytes s.mem x.bs := by unfold State.commit; simp [hx, hu']
  have hk : ∀ m ∈ s.keptLines x (Line.afterThrough s.platform x), m.pa = pa → m.dirty = false ∧
      ∀ u ∈ (infoOf s.platform o).path, m.unit ≠ some u.id := by
    intro m hm hp
    obtain ⟨l, hl, ⟨hne, rfl⟩ | ⟨-, he⟩⟩ := s.mem_keptLines x _ m hm
    · exact absurd (hbe.trans hp.symm) (hne b hb)
    · obtain ⟨w, hw, hst, rfl⟩ := Line.afterThrough_some he
      refine ⟨rfl, fun u hu' hmu => ?_⟩
      have : l.unit = some u.id := hmu
      rcases hc u hu' with h | h
      · rw [hw] at this; cases this; rw [hst] at h; cases h
      · exact h l hl this hp
  rw [State.valueFor_eq, s.commit_platform x, hmem, hcm]
  have e1 : (infoOf s.platform o).path.findSome? (fun u => if a.cacheAt u.tag = .nc then none
      else ((s.keptLines x (Line.afterThrough s.platform x)).find? (fun l => l.unit == some u.id && l.pa == pa && !l.pending)).map Line.val) = none := by
    rw [List.findSome?_eq_none_iff]
    intro u hu
    split
    · rfl
    · rw [Option.map_eq_none_iff, List.find?_eq_none]
      intro m hm hp
      simp only [Bool.and_eq_true, beq_iff_eq] at hp
      exact (hk m hm hp.1.2).2 u hu hp.1.1
  have e2 : (s.keptLines x (Line.afterThrough s.platform x)).find? (fun l => l.pa == pa && l.dirty && mustSee s.platform l.attr l.writer o) = none := by
    rw [List.find?_eq_none]
    intro m hm hp
    simp only [Bool.and_eq_true, beq_iff_eq] at hp
    rw [(hk m hm hp.1.1).1] at hp
    cases hp.1.2
  rw [e1, e2]
  exact Memory.read_writeBytes_last _ _ _ _ hwf hv

end Sys2Proof.Machine
end

