-- ==== Sys2Proof/Laws/Kept.lean ====
section
/-! SUPPORT. What an instruction leaves as it was, carried through every way its accesses and those of earlier
instructions can be performed: the lemmas the frames rest on. -/

namespace Sys2Proof.Machine

open Sys2Proof

/-! ### Registers -/

theorem Observer.setX_base_ne (o : Observer) {n m : RegNum} (v : Word) (h : m = 31 ∨ m ≠ n) : (o.setX m v).base n = o.base n := by
  unfold Observer.setX
  split
  · rfl
  · next hm =>
    rcases h with h | h
    · exact absurd h hm
    · simp only [Observer.base, Observer.setBase]
      rw [Vector.getElem_set_ne]
      intro e; exact h (BitVec.eq_of_toNat_eq e)

theorem Observer.setX_vec (o : Observer) (n m : RegNum) (v : Word) : (o.setX m v).vec n = o.vec n := by
  unfold Observer.setX; split <;> rfl

theorem Observer.setVec_vec_ne (o : Observer) {n m : RegNum} (v : VReg) (h : m ≠ n) : (o.setVec m v).vec n = o.vec n := by
  simp only [Observer.vec, Observer.setVec]
  rw [Vector.getElem_set_ne]
  intro e; exact h (BitVec.eq_of_toNat_eq e)

/-- A register byte that is written is no byte of this register. -/
def apart (f : RegFile) (m : RegNum) (r : RegFile × RegNum) : Prop := (f, m) = (.gp, 31) ∨ (f, m) ≠ r

theorem Observer.setRegByte_base (o : Observer) {f : RegFile} {m n : RegNum} (k : Nat) (b : Byte) (h : apart f m (.gp, n)) :
    (o.setRegByte f m k b).base n = o.base n := by
  cases f with
  | gp => exact o.setX_base_ne _ (by simpa [apart] using h)
  | vec => rfl
  | copy => rfl

theorem Observer.setRegByte_vec (o : Observer) {f : RegFile} {m n : RegNum} (k : Nat) (b : Byte) (h : apart f m (.vec, n)) :
    (o.setRegByte f m k b).vec n = o.vec n := by
  cases f with
  | gp => exact o.setX_vec _ _ _
  | vec => exact o.setVec_vec_ne _ (by simpa [apart] using h)
  | copy => rfl

/-- What a read puts changes nothing that no byte of it changes. -/
theorem Observer.putBytes_keeps_of {α : Type} (F : Observer → α) (o : Observer) (f : RegFile) (id : Nat) (bs : List ByteAcc)
    (vs : List Byte) (h : ∀ (p : Observer) (b : ByteAcc) (v : Byte), b ∈ bs → F (p.setRegByte f b.reg b.lane v) = F p) :
    F (o.putBytes f id bs vs) = F o :=
  foldl_property (fun p : Observer => F p = F o) _ _ _ rfl (fun p x hx hp => by
    unfold Observer.putByte
    split
    · exact (h p x.1 x.2 (List.of_mem_zip hx).1).trans hp
    · exact hp)

theorem Observer.putBytes_base (o : Observer) {f : RegFile} {n : RegNum} (id : Nat) (bs : List ByteAcc) (vs : List Byte)
    (h : ∀ b ∈ bs, apart f b.reg (.gp, n)) : (o.putBytes f id bs vs).base n = o.base n :=
  Observer.putBytes_keeps_of (fun p => p.base n) o f id bs vs (fun p b _ hb => p.setRegByte_base _ _ (h b hb))

theorem Observer.setRegByte_copyBuf (o : Observer) {f : RegFile} (hf : f ≠ .copy) (m : RegNum) (k : Nat) (b : Byte) :
    (o.setRegByte f m k b).copyBuf = o.copyBuf := by
  cases f with
  | gp => simp only [Observer.setRegByte, Observer.setX]; split <;> rfl
  | vec => rfl
  | copy => exact absurd rfl hf

/-- A byte held under a number is there, and no other changes. -/
theorem heldByte_holdByte (l : List Host.Cell) (k j : Nat) (b : Byte) :
    heldByte (holdByte l k b) j = if j = k then b else heldByte l j := by
  unfold heldByte holdByte
  by_cases h : j = k
  · subst h; simp
  · rw [if_neg h, List.find?_cons_of_neg (by simpa using fun e => h e.symm), List.find?_filter]
    congr 2
    funext c
    rw [Bool.eq_iff_iff]
    by_cases hc : c.1 = j
    · simp [hc, h]
    · simp [hc]

theorem Observer.putBytes_copyBuf (o : Observer) {f : RegFile} (id : Nat) (bs : List ByteAcc) (vs : List Byte)
    (h : ∀ b ∈ bs, f ≠ .copy) : (o.putBytes f id bs vs).copyBuf = o.copyBuf :=
  Observer.putBytes_keeps_of Observer.copyBuf o f id bs vs (fun p b _ hb => p.setRegByte_copyBuf (h b hb) _ _ _)

theorem Observer.scramble_copyBuf (o : Observer) (f : RegFile) (m : RegNum) (v : VReg) :
    (o.scramble f m v).copyBuf = o.copyBuf := by
  cases f with
  | gp => simp only [Observer.scramble, Observer.setX]; split <;> rfl
  | vec => rfl
  | copy => rfl

theorem Observer.putBytes_vec (o : Observer) {f : RegFile} {n : RegNum} (id : Nat) (bs : List ByteAcc) (vs : List Byte)
    (h : ∀ b ∈ bs, apart f b.reg (.vec, n)) : (o.putBytes f id bs vs).vec n = o.vec n :=
  Observer.putBytes_keeps_of (fun p => p.vec n) o f id bs vs (fun p b _ hb => p.setRegByte_vec _ _ (h b hb))

theorem Observer.scramble_base (o : Observer) {f : RegFile} {m n : RegNum} (v : VReg) (h : apart f m (.gp, n)) :
    (o.scramble f m v).base n = o.base n := by
  cases f with
  | gp => exact o.setX_base_ne _ (by simpa [apart] using h)
  | vec => rfl
  | copy => rfl

theorem Observer.scramble_vec (o : Observer) {f : RegFile} {m n : RegNum} (v : VReg) (h : apart f m (.vec, n)) :
    (o.scramble f m v).vec n = o.vec n := by
  cases f with
  | gp => exact o.setX_vec _ _ _
  | vec => exact o.setVec_vec_ne _ (by simpa [apart] using h)
  | copy => rfl

/-! ### Reservations -/

theorem State.clearReservations_mine (s : State) (x : Xact) (o : Nat) (h : x.obs = o) :
    ((s.clearReservations x).getObs o) = s.getObs o := by
  subst h
  have := s.commit_getObs_self x
  rwa [State.getObs_congr (State.commit_obs s x)] at this

/-! ### What performing accesses keeps -/

/-- A register no read in flight waits for is none of those a read writes. -/
theorem State.not_awaited_apart {s : State} {x : Xact} (hx : x ∈ s.inflight) (hd : x.dir = .read) {f : RegFile}
    (hm : x.dst = some f) (r : RegFile × RegNum) (h : ¬ s.awaited x.obs r) : ∀ b ∈ x.bs, apart f b.reg r := by
  intro b hb
  by_cases e : (f, b.reg) = (.gp, 31)
  · exact .inl e
  · exact .inr (fun e2 => h ⟨e2 ▸ e, x, hx, rfl, hd, by rw [hm, ← e2], b, hb, by rw [← e2]⟩)

/-- A location no transition sets keeps its value when a peripheral reacts. -/
theorem State.react_read (s : State) (d : Dir) (pas : List Nat) (q : Nat) (h : settable s.platform q = false) :
    Memory.read (s.react d pas).mem q = Memory.read s.mem q := by
  refine Memory.read_react _ _ _ _ _ (fun pa _ r hr _ _ c hc hm e => ?_)
  subst e
  simp only [settable, List.any_eq_false, Bool.and_eq_true, beq_iff_eq, not_and, List.any_eq_true, not_exists] at h
  exact h r hr hm c hc rfl

/-- What is kept of `s` in `u` when accesses in flight in `s` have been performed. -/
structure Kept (s u : State) : Prop where
  gp : ∀ o n, ¬ s.awaited o (.gp, n) → (u.getObs o).base n = (s.getObs o).base n
  vec : ∀ o n, ¬ s.awaited o (.vec, n) → (u.getObs o).vec n = (s.getObs o).vec n
  copy : ∀ o, (∀ n, ¬ s.awaited o (.copy, n)) → (u.getObs o).copyBuf = (s.getObs o).copyBuf
  rest : ∀ o, ∃ g v c l e, u.getObs o = { s.getObs o with gpr := g, vreg := v, copyBuf := c, held := l, excl := e }
  mine : (∀ x ∈ s.inflight, x.obs = s.cur) → (u.getObs s.cur).excl = (s.getObs s.cur).excl
  theirs : (∀ x ∈ s.inflight, x.dir = .read) → ∀ o, (u.getObs o).excl = (s.getObs o).excl
  values : ∀ pa, ¬ s.pendingAt pa → settable s.platform pa = false → (∀ o a, u.valueFor o a pa = s.valueFor o a pa) ∧ Memory.read u.mem pa = Memory.read s.mem pa
  flight : ∀ x ∈ u.inflight, x ∈ s.inflight
  platform : u.platform = s.platform
  cur : u.cur = s.cur
  machine : u.inputs = s.inputs ∧ u.plan = s.plan ∧ u.clock = s.clock ∧ u.obIn = s.obIn ∧ u.bobIn = s.bobIn ∧ u.early = s.early

theorem Kept.refl (s : State) : Kept s s :=
  ⟨fun _ _ _ => rfl, fun _ _ _ => rfl, fun _ _ => rfl, fun _ => ⟨_, _, _, _, _, rfl⟩, fun _ => rfl, fun _ _ => rfl,
    fun _ _ _ => ⟨fun _ _ => rfl, rfl⟩,
    fun _ hx => hx, rfl, rfl, rfl, rfl, rfl, rfl, rfl, rfl⟩

theorem Kept.of_obs {s u v : State} (h : Kept s u) (h1 : v.obs = u.obs) (h2 : v.mem = u.mem) (h3 : v.lines = u.lines)
    (h4 : ∀ x ∈ v.inflight, x ∈ s.inflight) (h5 : v.platform = u.platform) (h6 : v.cur = u.cur)
    (h7 : v.inputs = u.inputs ∧ v.plan = u.plan ∧ v.clock = u.clock ∧ v.obIn = u.obIn ∧ v.bobIn = u.bobIn ∧ v.early = u.early) : Kept s v := by
  have ho : ∀ o, v.getObs o = u.getObs o := fun o => State.getObs_congr h1 o
  refine ⟨?_, ?_, ?_, ?_, ?_, ?_, ?_, h4, h5.trans h.platform, h6.trans h.cur, h7.1.trans h.machine.1, h7.2.1.trans h.machine.2.1,
    h7.2.2.1.trans h.machine.2.2.1, h7.2.2.2.1.trans h.machine.2.2.2.1, h7.2.2.2.2.1.trans h.machine.2.2.2.2.1,
    h7.2.2.2.2.2.trans h.machine.2.2.2.2.2⟩
  · intro o n; rw [ho]; exact h.gp o n
  · intro o n; rw [ho]; exact h.vec o n
  · intro o; rw [ho]; exact h.copy o
  · intro o; rw [ho]; exact h.rest o
  · rw [ho]; exact h.mine
  · intro k o; rw [ho]; exact h.theirs k o
  · intro pa k l
    rw [h2]
    refine ⟨fun o a => ?_, (h.values pa k l).2⟩
    rw [← (h.values pa k l).1 o a]
    simp only [State.valueFor, h2, h3, h5]

/-- A peripheral's own transition keeps it. -/
theorem Kept.react {s u : State} (h : Kept s u) (d : Dir) (pas : List Nat) : Kept s (u.react d pas) :=
  { gp := h.gp, vec := h.vec, copy := h.copy, rest := h.rest, mine := h.mine, theirs := h.theirs, flight := h.flight,
    platform := h.platform, cur := h.cur, machine := h.machine,
    values := by
      intro pa k l
      have hr := u.react_read d pas pa (by rw [h.platform]; exact l)
      refine ⟨fun o a => ?_, hr.trans (h.values pa k l).2⟩
      rw [← (h.values pa k l).1 o a]
      simp only [State.valueFor, hr]
      rfl }

/-- Performing accesses in flight keeps it. -/
theorem Kept.performable (s : State) : Performable (Kept s) (· ∈ s.inflight) where
  deliver := by
    intro u x vals h hx hd
    unfold State.deliverTo
    split
    · exact h
    · next f hm =>
      generalize (x.bs.zip vals).filter (fun p => u.isAwaited x f p.1) = ps
      have ho : ∀ o, (u.setObs x.obs (((u.getObs x.obs).putBytes f x.id x.bs vals).holdBytes x.instr f ps)).getObs o =
          if o = x.obs then ((u.getObs x.obs).putBytes f x.id x.bs vals).holdBytes x.instr f ps else u.getObs o :=
        fun o => u.getObs_setObs x.obs o _
      have hk : ∀ o, ∃ g v c l, (u.setObs x.obs (((u.getObs x.obs).putBytes f x.id x.bs vals).holdBytes x.instr f ps)).getObs o =
          { u.getObs o with gpr := g, vreg := v, copyBuf := c, held := l } := by
        intro o; rw [ho]; split
        · next e =>
          subst e
          obtain ⟨g, v, c, h⟩ := Observer.putBytes_keeps (u.getObs x.obs) f x.id x.bs vals
          exact ⟨g, v, c, _, by rw [h]; rfl⟩
        · exact ⟨_, _, _, _, rfl⟩
      refine ⟨?_, ?_, ?_, ?_, ?_, ?_, h.values, h.flight, h.platform, h.cur, h.machine⟩
      · intro o n h1
        rw [← h.gp o n h1, ho]; split
        · next e =>
          subst e
          exact Observer.putBytes_base _ _ _ _ (State.not_awaited_apart hx hd hm _ h1)
        · rfl
      · intro o n h1
        rw [← h.vec o n h1, ho]; split
        · next e =>
          subst e
          exact Observer.putBytes_vec _ _ _ _ (State.not_awaited_apart hx hd hm _ h1)
        · rfl
      · intro o h1
        rw [← h.copy o h1, ho]; split
        · next e =>
          subst e
          refine Observer.putBytes_copyBuf _ _ _ _ (fun b hb e => ?_)
          subst e
          exact h1 b.reg ⟨by simp, x, hx, rfl, hd, hm, b, hb, rfl⟩
        · rfl
      · intro o
        obtain ⟨g, v, c, l, e⟩ := hk o
        obtain ⟨g', v', c', l', e', k⟩ := h.rest o
        exact ⟨g, v, c, l, e', by rw [e, k]⟩
      · intro k; obtain ⟨g, v, c, l, e⟩ := hk s.cur; rw [e]; exact h.mine k
      · intro k o; obtain ⟨g, v, c, l, e⟩ := hk o; rw [e]; exact h.theirs k o
  commit := by
    intro u x h hx hd
    have hb' := u.mem_filled_bs x
    have ho' := u.filled_obs x
    generalize u.filled x = z at hb' ho' ⊢
    have hv : ∀ o, ∃ e, (u.commit z).getObs o = { u.getObs o with excl := e } := by
      intro o; exact (u.getObs_commit z o).1.eq
    refine ⟨?_, ?_, ?_, ?_, ?_, ?_, ?_, ?_, ?_, ?_, ?_⟩
    · intro o n h1; obtain ⟨e, k⟩ := hv o; rw [k]; exact h.gp o n h1
    · intro o n h1; obtain ⟨e, k⟩ := hv o; rw [k]; exact h.vec o n h1
    · intro o h1; obtain ⟨e, k⟩ := hv o; rw [k]; exact h.copy o h1
    · intro o
      obtain ⟨e, k⟩ := hv o
      obtain ⟨g', v', c', l', e', k'⟩ := h.rest o
      exact ⟨g', v', c', l', e, by rw [k, k']⟩
    · intro k
      have : z.obs = s.cur := ho'.trans (k x hx)
      rw [← this, u.commit_getObs_self, this]; exact h.mine k
    · intro k o; rw [k x hx] at hd; cases hd
    · intro pa h1 h2
      have hne : ∀ b ∈ z.bs, b.pa ≠ pa := fun b hb e => by
        obtain ⟨c, hc, he, -⟩ := hb' b hb
        exact h1 ⟨x, hx, hd, c, hc, he.trans e⟩
      refine ⟨fun o a => ?_, ?_⟩
      · rw [u.commit_valueFor_ne z o a pa hne]; exact (h.values pa h1 h2).1 o a
      · rw [← (h.values pa h1 h2).2]
        rcases u.commit_mem z with e | e
        · rw [e]
        · rw [e, Memory.read_writeBytes_ne _ _ hne]
    · simpa using h.flight
    · have := (u.commit_sameShape z).platform; rw [this]; exact h.platform
    · have := (u.commit_sameShape z).cur; rw [this]; exact h.cur
    · have k := u.commit_sameShape z
      rw [k.inputs, k.plan, k.clock, k.obIn, k.bobIn, k.early]; exact h.machine
  log := by intro u a h _; exact h.of_obs rfl rfl rfl h.flight rfl rfl ⟨rfl, rfl, rfl, rfl, rfl, rfl⟩
  ack := by intro u a h; exact h.of_obs rfl rfl rfl h.flight rfl rfl ⟨rfl, rfl, rfl, rfl, rfl, rfl⟩
  retire := by
    intro u x h _
    exact h.of_obs rfl rfl rfl (fun y hy => h.flight y (List.mem_filter.1 hy).1) rfl rfl ⟨rfl, rfl, rfl, rfl, rfl, rfl⟩
  react := by intro u d pas h; exact h.react d pas

theorem State.forceAll_kept (s : State) (ids : List Nat) : Kept s (s.forceAll ids) :=
  (Kept.performable s).forceAll ids s (.refl s) (fun _ h => h)

theorem State.performPlan_kept (s : State) (xs : List Xact) (acts : List Act) (rest : Bool) :
    Kept s (s.performPlan xs acts rest) := (Kept.performable s).performPlan xs acts rest s (.refl s) (fun _ h => h)

/-! ### What an instruction keeps -/

/-- An access of the current observer to registers among `ds` and locations among `pas`. -/
def Allows (s : State) (ds : List (RegFile × RegNum)) (pas : Nat → Prop) (x : Xact) : Prop :=
  x.obs = s.cur ∧ (x.dir = .read → ∀ f, x.dst = some f → ∀ b ∈ x.bs, (f, b.reg) = (.gp, 31) ∨ (f, b.reg) ∈ ds) ∧
    (x.dir = .write → x.bs ≠ [] ∧ ∀ b ∈ x.bs, pas b.pa)

/-- An access in flight in `s`, or one of the current observer to registers among `ds` and locations among `pas`. -/
def Allowed (s : State) (ds : List (RegFile × RegNum)) (pas : Nat → Prop) (x : Xact) : Prop :=
  x ∈ s.inflight ∨ Allows s ds pas x

/-- What is kept of `s` in `u` when the current observer's own fields are spoken of elsewhere. -/
structure Framed (s : State) (ds : List (RegFile × RegNum)) (pas : Nat → Prop) (u : State) : Prop where
  gp : ∀ o n, ¬ s.awaited o (.gp, n) → (o = s.cur → (.gp, n) ∉ ds) → (u.getObs o).base n = (s.getObs o).base n
  vec : ∀ o n, ¬ s.awaited o (.vec, n) → (o = s.cur → (.vec, n) ∉ ds) → (u.getObs o).vec n = (s.getObs o).vec n
  copy : ∀ o, (∀ n, ¬ s.awaited o (.copy, n)) → (o = s.cur → ∀ n, (.copy, n) ∉ ds) → (u.getObs o).copyBuf = (s.getObs o).copyBuf
  takes : ∀ o f n id, (f, n) ≠ (.gp, 31) → (o = s.cur → (f, n) ∉ ds) → (u.getObs o).takes f n id = (s.getObs o).takes f n id
  ctl : ∀ o, (u.getObs o).ctl = (s.getObs o).ctl
  program : ∀ o, (u.getObs o).program = (s.getObs o).program
  others : ∀ o, o ≠ s.cur → ∃ g v c l e, u.getObs o = { s.getObs o with gpr := g, vreg := v, copyBuf := c, held := l, excl := e }
  theirs : (∀ pa, ¬ pas pa) → (∀ x ∈ s.inflight, x.dir = .read) → ∀ o, o ≠ s.cur → (u.getObs o).excl = (s.getObs o).excl
  values : ∀ pa, ¬ pas pa → ¬ s.pendingAt pa → settable s.platform pa = false → (∀ o a, u.valueFor o a pa = s.valueFor o a pa) ∧
    Memory.read u.mem pa = Memory.read s.mem pa
  flight : ∀ x ∈ u.inflight, Allowed s ds pas x
  platform : u.platform = s.platform
  cur : u.cur = s.cur
  machine : u.inputs = s.inputs ∧ u.plan = s.plan ∧ u.clock = s.clock ∧ u.obIn = s.obIn ∧ u.bobIn = s.bobIn ∧ u.early = s.early

variable {s : State} {ds : List (RegFile × RegNum)} {pas : Nat → Prop}

theorem Framed.refl : Framed s ds pas s :=
  ⟨fun _ _ _ _ => rfl, fun _ _ _ _ => rfl, fun _ _ _ => rfl, fun _ _ _ _ _ _ => rfl, fun _ => rfl, fun _ => rfl,
    fun _ _ => ⟨_, _, _, _, _, rfl⟩,
    fun _ _ _ _ => rfl, fun _ _ _ _ => ⟨fun _ _ => rfl, rfl⟩, fun _ hx => .inl hx, rfl, rfl, rfl, rfl, rfl, rfl, rfl, rfl⟩

/-- What waits after waits before, or is the instruction's own. -/
theorem Framed.awaited {u : State} (h : Framed s ds pas u) {o : Nat} {r : RegFile × RegNum} (h1 : ¬ s.awaited o r)
    (h2 : o = s.cur → r ∉ ds) : ¬ u.awaited o r := by
  rintro ⟨hne, x, hx, ho, hd, hr, b, hb, he⟩
  rcases h.flight x hx with hx | ⟨hc, k, -⟩
  · exact h1 ⟨hne, x, hx, ho, hd, hr, b, hb, he⟩
  · have hrr : (r.1, b.reg) = r := by rw [he]
    rcases k hd r.1 hr b hb with e | e
    · exact hne (hrr.symm.trans e)
    · exact h2 (ho ▸ hc) (hrr ▸ e)

theorem Framed.pendingAt {u : State} (h : Framed s ds pas u) {pa : Nat} (h1 : ¬ pas pa) (h2 : ¬ s.pendingAt pa) :
    ¬ u.pendingAt pa := by
  rintro ⟨x, hx, hd, b, hb, e⟩
  rcases h.flight x hx with hx | ⟨-, -, k⟩
  · exact h2 ⟨x, hx, hd, b, hb, e⟩
  · exact h1 (e ▸ (k hd).2 b hb)

/-- Where it writes nowhere and only reads were in flight, only reads are. -/
theorem Framed.reads {u : State} (h : Framed s ds pas u) (h1 : ∀ pa, ¬ pas pa) (h2 : ∀ x ∈ s.inflight, x.dir = .read) :
    ∀ x ∈ u.inflight, x.dir = .read := by
  intro x hx
  rcases h.flight x hx with hx | ⟨-, -, k⟩
  · exact h2 x hx
  · cases hd : x.dir with
    | read => rfl
    | write =>
      obtain ⟨hne, hb⟩ := k hd
      obtain ⟨b, hb'⟩ := List.exists_mem_of_ne_nil _ hne
      exact absurd (hb b hb') (h1 _)

/-- Performing what is in flight keeps it. -/
theorem Framed.kept {u w : State} (h : Framed s ds pas u) (k : Kept u w) : Framed s ds pas w := by
  refine ⟨?_, ?_, ?_, ?_, ?_, ?_, ?_, fun h1 h2 o ho => (k.theirs (h.reads h1 h2) o).trans (h.theirs h1 h2 o ho), ?_, ?_,
    k.platform.trans h.platform, k.cur.trans h.cur, ?_⟩
  · intro o n h1 h2; rw [k.gp o n (h.awaited h1 h2), h.gp o n h1 h2]
  · intro o n h1 h2; rw [k.vec o n (h.awaited h1 h2), h.vec o n h1 h2]
  · intro o h1 h2
    rw [k.copy o (fun n => h.awaited (h1 n) (fun e => h2 e n)), h.copy o h1 h2]
  · intro o f n id h1 h2
    rw [← h.takes o f n id h1 h2]
    obtain ⟨_, _, _, _, _, e⟩ := k.rest o; rw [e]; rfl
  · intro o; obtain ⟨_, _, _, _, _, e⟩ := k.rest o; rw [e]; exact h.ctl o
  · intro o; obtain ⟨_, _, _, _, _, e⟩ := k.rest o; rw [e]; exact h.program o
  · intro o ho
    obtain ⟨g, v, c, l, e, h1⟩ := k.rest o
    obtain ⟨g', v', c', l', e', h2⟩ := h.others o ho
    exact ⟨g, v, c, l, e, by rw [h1, h2]⟩
  · intro pa h1 h2 h3
    obtain ⟨a, b⟩ := k.values pa (h.pendingAt h1 h2) (by rw [h.platform]; exact h3)
    obtain ⟨c, d⟩ := h.values pa h1 h2 h3
    exact ⟨fun o m => (a o m).trans (c o m), b.trans d⟩
  · exact fun x hx => h.flight x (k.flight x hx)
  · obtain ⟨a, b, c, d, e, f⟩ := k.machine
    obtain ⟨a', b', c', d', e', f'⟩ := h.machine
    exact ⟨a.trans a', b.trans b', c.trans c', d.trans d', e.trans e', f.trans f'⟩

/-- Fields that no part of it speaks of may change, and accesses that are allowed may be put in flight. -/
theorem Framed.of_obs {u v : State} (h : Framed s ds pas u) (h1 : v.obs = u.obs) (h2 : v.mem = u.mem) (h3 : v.lines = u.lines)
    (h4 : ∀ x ∈ v.inflight, Allowed s ds pas x) (h5 : v.platform = u.platform) (h6 : v.cur = u.cur)
    (h7 : v.inputs = u.inputs ∧ v.plan = u.plan ∧ v.clock = u.clock ∧ v.obIn = u.obIn ∧ v.bobIn = u.bobIn ∧ v.early = u.early) : Framed s ds pas v := by
  have ho : ∀ o, v.getObs o = u.getObs o := fun o => State.getObs_congr h1 o
  refine ⟨?_, ?_, ?_, ?_, ?_, ?_, ?_, ?_, ?_, h4, h5.trans h.platform, h6.trans h.cur, h7.1.trans h.machine.1,
    h7.2.1.trans h.machine.2.1, h7.2.2.1.trans h.machine.2.2.1, h7.2.2.2.1.trans h.machine.2.2.2.1,
    h7.2.2.2.2.1.trans h.machine.2.2.2.2.1, h7.2.2.2.2.2.trans h.machine.2.2.2.2.2⟩
  · intro o n; rw [ho]; exact h.gp o n
  · intro o n; rw [ho]; exact h.vec o n
  · intro o; rw [ho]; exact h.copy o
  · intro o; rw [ho]; exact h.takes o
  · intro o; rw [ho]; exact h.ctl o
  · intro o; rw [ho]; exact h.program o
  · intro o; rw [ho]; exact h.others o
  · intro k l o; rw [ho]; exact h.theirs k l o
  · intro pa k l m
    rw [h2]
    refine ⟨fun o a => ?_, (h.values pa k l m).2⟩
    rw [← (h.values pa k l m).1 o a]
    simp only [State.valueFor, h2, h3, h5]

/-- The current observer may change in its other fields and in the registers `ds`. -/
theorem Framed.setMe {u : State} (h : Framed s ds pas u) (v : Observer) (h1 : ∀ n, (.gp, n) ∉ ds → v.base n = u.me.base n)
    (h2 : ∀ n, (.vec, n) ∉ ds → v.vec n = u.me.vec n) (h5 : (∀ n, (.copy, n) ∉ ds) → v.copyBuf = u.me.copyBuf)
    (h3 : v.ctl = u.me.ctl) (h4 : v.program = u.me.program)
    (h6 : ∀ f n id, (f, n) ≠ (.gp, 31) → (f, n) ∉ ds → v.takes f n id = u.me.takes f n id) :
    Framed s ds pas (u.setMe v) := by
  have hs : ∀ o, (u.setMe v).getObs o = if o = s.cur then v else u.getObs o := by
    intro o; rw [← h.cur]; exact u.getObs_setObs u.cur o v
  have hm : u.me = u.getObs s.cur := by rw [← h.cur]; rfl
  rw [hm] at h1 h2 h3 h4 h5 h6
  refine ⟨?_, ?_, ?_, ?_, ?_, ?_, ?_, ?_, h.values, h.flight, h.platform, h.cur, h.machine⟩
  · intro o n k l; rw [hs]; split
    · next e => subst e; rw [h1 n (l rfl)]; exact h.gp _ n k l
    · exact h.gp o n k l
  · intro o n k l; rw [hs]; split
    · next e => subst e; rw [h2 n (l rfl)]; exact h.vec _ n k l
    · exact h.vec o n k l
  · intro o k l; rw [hs]; split
    · next e => subst e; rw [h5 (l rfl)]; exact h.copy _ k l
    · exact h.copy o k l
  · intro o f n id k l; rw [hs]; split
    · next e => subst e; rw [h6 f n id k (l rfl)]; exact h.takes _ f n id k l
    · exact h.takes o f n id k l
  · intro o; rw [hs]; split
    · next e => subst e; rw [h3]; exact h.ctl _
    · exact h.ctl o
  · intro o; rw [hs]; split
    · next e => subst e; rw [h4]; exact h.program _
    · exact h.program o
  · intro o ho; rw [hs, if_neg ho]; exact h.others o ho
  · intro k l o ho; rw [hs, if_neg ho]; exact h.theirs k l o ho

theorem Framed.takeException {u : State} (h : Framed s ds pas u) (r : Raise) (b : Bool) : Framed s ds pas (u.takeException r b) :=
  h.setMe _ (fun _ _ => rfl) (fun _ _ => rfl) (fun _ => rfl) rfl rfl (fun _ _ _ _ _ => by simp [Observer.takes])

/-- Every byte outside the locations, for which no write waits, reads as before. -/
theorem Framed.bytes {u : State} (h : Framed s ds pas u) (pa : Nat) (h1 : ¬ pas pa) (h2 : ¬ s.pendingAt pa)
    (h3 : settable s.platform pa = false) (o id : Nat) (a : MemAttr) : u.byteFor o id a pa = s.byteFor o id a pa := by
  have none_of : ∀ w : State, ¬ w.pendingAt pa → w.ownPending o id pa = none := by
    intro w hw
    unfold State.ownPending
    rw [List.find?_eq_none.2]
    · rfl
    · intro x hx
      have hx' := List.mem_reverse.1 hx
      simp only [State.finds, Bool.and_eq_true, beq_iff_eq, List.any_eq_true, not_and, not_exists]
      intro hd b hb e
      exact hw ⟨x, hx', hd.1, b, hb, e⟩
  unfold State.byteFor
  rw [none_of u (h.pendingAt h1 h2), none_of s h2, (h.values pa h1 h2 h3).1 o a, (h.values pa h1 h2 h3).2]

/-- What the frames of instructions say of everything but the current observer's own fields. -/
theorem Framed.untouched {u : State} (h : Framed s ds pas u) : Untouched s u ds pas where
  gp := h.gp
  vec := h.vec
  copyBuf := h.copy
  takes := h.takes
  ctl := h.ctl
  program := h.program
  others := by
    intro o ho
    obtain ⟨g, v, c, l, e, k⟩ := h.others o ho
    rw [k]; exact ⟨rfl, rfl, rfl, rfl, rfl⟩
  bytes := fun pa h1 h2 h3 o id a => h.bytes pa h1 h2 h3 o id a
  machine := ⟨h.platform, h.cur, h.machine.1, h.machine.2.1, h.machine.2.2.1, h.machine.2.2.2⟩

end Sys2Proof.Machine
end

