-- ==== Sys2Proof/Laws/PerInstr.lean ====
section
/-! SUPPORT. Statements for every instruction, one lemma for each constructor: the decoder reads an encoded
well-formed instruction back; and the laws of the fields of a word behind them. -/

namespace Sys2Proof

/-! ### Fields of a word -/

/-- A fixed bit that differs: the row does not match. -/
theorem matchesRow_of_bit (w mask value : BitVec 32) (i : Nat) (hm : mask.getLsbD i = true)
    (h : w.getLsbD i ≠ value.getLsbD i) : matchesRow w mask value = false := by
  have hv : ∀ x : BitVec 32, (x &&& mask).getLsbD i = x.getLsbD i := fun x => by simp [hm]
  simp only [matchesRow, beq_eq_false_iff_ne, ne_eq]
  intro e
  exact h (by rw [← hv w, e])

section
variable {n m : Nat} (x : BitVec n) (y : BitVec m)

theorem extract_low : BitVec.extractLsb' 0 m (x ++ y) = y := BitVec.extractLsb'_append_eq_right

theorem extract_skip (k l : Nat) : BitVec.extractLsb' (m + k) l (x ++ y) = BitVec.extractLsb' k l x := by
  rw [BitVec.extractLsb'_append_eq_of_le (Nat.le_add_right _ _), Nat.add_sub_cancel_left]

theorem bit_skip (k : Nat) : (x ++ y).getLsbD (m + k) = x.getLsbD k := by
  rw [BitVec.getLsbD_append]; simp

theorem bit_low (k : Nat) (h : k < m) : (x ++ y).getLsbD k = y.getLsbD k := by
  rw [BitVec.getLsbD_append]; simp [h]

end

/-- The fields of a pair-load word: register numbers, offset, and what lies above. -/
theorem pair_fields {n : Nat} (hi : BitVec n) (imm7 : BitVec 7) (rt2 rn rt : RegNum) (w : BitVec 32)
    (hn : n + 7 + 5 + 5 + 5 = 32) (h : w = (hi ++ imm7 ++ rt2 ++ rn ++ rt).cast hn) :
    fieldRt w = rt ∧ fieldRn w = rn ∧ fieldRt2 w = rt2 ∧ fieldImm7 w = imm7 ∧
    (∀ k l, w.extractLsb' (22 + k) l = hi.extractLsb' k l) ∧ ∀ k, w.getLsbD (22 + k) = hi.getLsbD k := by
  obtain rfl : n = 10 := by omega
  subst h
  refine ⟨extract_low _ _, (extract_skip _ _ 0 5).trans (extract_low _ _),
    (extract_skip _ _ 5 5).trans ((extract_skip _ _ 0 5).trans (extract_low _ _)),
    (extract_skip _ _ 10 7).trans ((extract_skip _ _ 5 7).trans ((extract_skip _ _ 0 7).trans (extract_low _ _))),
    fun k l => ?_, fun k => ?_⟩
  · rw [show 22 + k = 5 + (5 + (5 + (7 + k))) by omega]
    exact (extract_skip _ rt _ l).trans ((extract_skip _ rn _ l).trans ((extract_skip _ rt2 _ l).trans (extract_skip _ imm7 k l)))
  · rw [show 22 + k = 5 + (5 + (5 + (7 + k))) by omega]
    exact (bit_skip _ rt _).trans ((bit_skip _ rn _).trans ((bit_skip _ rt2 _).trans (bit_skip _ imm7 k)))

/-- The fields of an LDRAA or LDRAB word. -/
theorem auth_fields (hi : BitVec 9) (s : BitVec 1) (imm9 : BitVec 9) (v : BitVec 1) (rn rt : RegNum) (w : BitVec 32)
    (h : w = hi ++ s ++ 1#1 ++ imm9 ++ v ++ 1#1 ++ rn ++ rt) :
    fieldRt w = rt ∧ fieldRn w = rn ∧ w.extractLsb' 11 1 = v ∧ fieldImm9 w = imm9 ∧ w.extractLsb' 22 1 = s ∧
    ∀ k, w.getLsbD (23 + k) = hi.getLsbD k := by
  subst h
  refine ⟨extract_low _ _, (extract_skip _ _ 0 5).trans (extract_low _ _), ?_, ?_, ?_, fun k => ?_⟩
  · exact (extract_skip _ rt 6 1).trans ((extract_skip _ rn 1 1).trans ((extract_skip _ 1#1 0 1).trans (extract_low _ _)))
  · exact (extract_skip _ rt 7 9).trans ((extract_skip _ rn 2 9).trans ((extract_skip _ 1#1 1 9).trans
      ((extract_skip _ v 0 9).trans (extract_low _ _))))
  · exact (extract_skip _ rt 17 1).trans ((extract_skip _ rn 12 1).trans ((extract_skip _ 1#1 11 1).trans
      ((extract_skip _ v 10 1).trans ((extract_skip _ imm9 1 1).trans ((extract_skip _ 1#1 0 1).trans (extract_low _ _))))))
  · rw [show 23 + k = 5 + (5 + (1 + (1 + (9 + (1 + (1 + k)))))) by omega]
    exact (bit_skip _ rt _).trans ((bit_skip _ rn _).trans ((bit_skip _ 1#1 _).trans ((bit_skip _ v _).trans
      ((bit_skip _ imm9 _).trans ((bit_skip _ 1#1 _).trans (bit_skip _ s k))))))

namespace Laws.EncodeDecode

/-- Every word that encodes a well-formed instruction decodes to it. -/
def Statement (i : Instr) : Prop := ∀ w, encode i = some w → wellFormed i = true → decode w = .ok i

theorem dmb (crm : BitVec 4) : Statement (.dmb crm) := by
  have h : ∀ c : BitVec 4, matchesRow (0xD5033#20 ++ c ++ 0xBF#8) 0xFFFFF0FF 0xD50330BF = true ∧
      fieldCRm (0xD5033#20 ++ c ++ 0xBF#8) = c := by decide
  intro w hw _
  obtain rfl : 0xD5033#20 ++ crm ++ 0xBF#8 = w := Option.some.inj hw
  simp only [decode, (h crm).1, (h crm).2, if_true]

theorem dsb (crm : BitVec 4) : Statement (.dsb crm) := by
  have h : ∀ c : BitVec 4, matchesRow (0xD5033#20 ++ c ++ 0x9F#8) 0xFFFFF0FF 0xD50330BF = false ∧
      matchesRow (0xD5033#20 ++ c ++ 0x9F#8) 0xFFFFF0FF 0xD503309F = true ∧
      fieldCRm (0xD5033#20 ++ c ++ 0x9F#8) = c := by decide
  intro w hw _
  obtain rfl : 0xD5033#20 ++ crm ++ 0x9F#8 = w := Option.some.inj hw
  simp only [decode, (h crm).1, (h crm).2.1, (h crm).2.2, if_true, Bool.false_eq_true, if_false]

theorem ldnpGp (sf : BitVec 1) (imm7 : BitVec 7) (rt2 rn rt : RegNum) : Statement (.ldnpGp sf imm7 rt2 rn rt) := by
  intro w h _
  have hw : w = sf ++ 0b010100001#9 ++ imm7 ++ rt2 ++ rn ++ rt := (Option.some.inj h).symm
  obtain ⟨f1, f2, f3, f4, f5, f6⟩ := pair_fields (sf ++ 0b010100001#9) imm7 rt2 rn rt w rfl hw
  have b30 : w.getLsbD 30 = false := (f6 8).trans ((bit_low _ _ 8 (by decide)).trans rfl)
  have h1 : matchesRow w 0xFFFFF0FF 0xD50330BF = false := matchesRow_of_bit _ _ _ 30 rfl (by rw [b30]; decide)
  have h2 : matchesRow w 0xFFFFF0FF 0xD503309F = false := matchesRow_of_bit _ _ _ 30 rfl (by rw [b30]; decide)
  have h3 : matchesRow w 0x7FC00000 0x28400000 = true := by
    have e : (sf ++ 0b010100001#9 ++ imm7 ++ rt2 ++ rn ++ rt) &&& (0#1 ++ 0b111111111#9 ++ 0#7 ++ 0#5 ++ 0#5 ++ 0#5) =
        0#1 ++ 0b010100001#9 ++ 0#7 ++ 0#5 ++ 0#5 ++ 0#5 := by
      simp only [BitVec.and_append, BitVec.and_zero]; rfl
    rw [hw]; simp only [matchesRow, beq_iff_eq]; exact e
  have f7 : w.extractLsb' 31 1 = sf := (f5 9 1).trans ((extract_skip _ _ 0 1).trans (BitVec.extractLsb'_eq_self))
  simp only [decode, h1, h2, h3, Bool.false_eq_true, if_false, if_true, f1, f2, f3, f4, f7]

theorem ldnpFp (opc : BitVec 2) (imm7 : BitVec 7) (rt2 rn rt : RegNum) : Statement (.ldnpFp opc imm7 rt2 rn rt) := by
  intro w h hwf
  have hw : w = opc ++ 0b10110001#8 ++ imm7 ++ rt2 ++ rn ++ rt := (Option.some.inj h).symm
  obtain ⟨f1, f2, f3, f4, f5, f6⟩ := pair_fields (opc ++ 0b10110001#8) imm7 rt2 rn rt w rfl hw
  have b28 : w.getLsbD 28 = false := (f6 6).trans ((bit_low _ _ 6 (by decide)).trans rfl)
  have b26 : w.getLsbD 26 = true := (f6 4).trans ((bit_low _ _ 4 (by decide)).trans rfl)
  have h1 : matchesRow w 0xFFFFF0FF 0xD50330BF = false := matchesRow_of_bit _ _ _ 28 rfl (by rw [b28]; decide)
  have h2 : matchesRow w 0xFFFFF0FF 0xD503309F = false := matchesRow_of_bit _ _ _ 28 rfl (by rw [b28]; decide)
  have h3 : matchesRow w 0x7FC00000 0x28400000 = false := matchesRow_of_bit _ _ _ 26 rfl (by rw [b26]; decide)
  have h4 : matchesRow w 0x3FC00000 0x2C400000 = true := by
    have e : (opc ++ 0b10110001#8 ++ imm7 ++ rt2 ++ rn ++ rt) &&& (0#2 ++ 0b11111111#8 ++ 0#7 ++ 0#5 ++ 0#5 ++ 0#5) =
        0#2 ++ 0b10110001#8 ++ 0#7 ++ 0#5 ++ 0#5 ++ 0#5 := by
      simp only [BitVec.and_append, BitVec.and_zero]; rfl
    rw [hw]; simp only [matchesRow, beq_iff_eq]; exact e
  have f7 : w.extractLsb' 30 2 = opc := (f5 8 2).trans ((extract_skip _ _ 0 2).trans (BitVec.extractLsb'_eq_self))
  have hopc : opc ≠ 3 := by simpa [wellFormed] using hwf
  simp only [decode, h1, h2, h3, h4, Bool.false_eq_true, if_false, if_true, f1, f2, f3, f4, f7, hopc]

theorem ldraa (s : BitVec 1) (imm9 : BitVec 9) (v : BitVec 1) (rn rt : RegNum) : Statement (.ldraa s imm9 v rn rt) := by
  intro w h _
  have hw : w = 0b111110000#9 ++ s ++ 1#1 ++ imm9 ++ v ++ 1#1 ++ rn ++ rt := (Option.some.inj h).symm
  obtain ⟨f1, f2, f3, f4, f5, f6⟩ := auth_fields 0b111110000#9 s imm9 v rn rt w hw
  have b29 : w.getLsbD 29 = true := (f6 6).trans rfl
  have b28 : w.getLsbD 28 = true := (f6 5).trans rfl
  have h1 : matchesRow w 0xFFFFF0FF 0xD50330BF = false := matchesRow_of_bit _ _ _ 29 rfl (by rw [b29]; decide)
  have h2 : matchesRow w 0xFFFFF0FF 0xD503309F = false := matchesRow_of_bit _ _ _ 29 rfl (by rw [b29]; decide)
  have h3 : matchesRow w 0x7FC00000 0x28400000 = false := matchesRow_of_bit _ _ _ 28 rfl (by rw [b28]; decide)
  have h4 : matchesRow w 0x3FC00000 0x2C400000 = false := matchesRow_of_bit _ _ _ 28 rfl (by rw [b28]; decide)
  have h6 : matchesRow w 0xFFA00400 0xF8200400 = true := by
    have e : (0b111110000#9 ++ s ++ 1#1 ++ imm9 ++ v ++ 1#1 ++ rn ++ rt) &&&
          (0b111111111#9 ++ 0#1 ++ 1#1 ++ 0#9 ++ 0#1 ++ 1#1 ++ 0#5 ++ 0#5) =
        0b111110000#9 ++ 0#1 ++ 1#1 ++ 0#9 ++ 0#1 ++ 1#1 ++ 0#5 ++ 0#5 := by
      simp only [BitVec.and_append, BitVec.and_zero]; rfl
    rw [hw]; simp only [matchesRow, beq_iff_eq]; exact e
  simp only [decode, h1, h2, h3, h4, h6, Bool.false_eq_true, if_false, if_true, f1, f2, f3, f4, f5]

theorem ldrab (s : BitVec 1) (imm9 : BitVec 9) (v : BitVec 1) (rn rt : RegNum) : Statement (.ldrab s imm9 v rn rt) := by
  intro w h _
  have hw : w = 0b111110001#9 ++ s ++ 1#1 ++ imm9 ++ v ++ 1#1 ++ rn ++ rt := (Option.some.inj h).symm
  obtain ⟨f1, f2, f3, f4, f5, f6⟩ := auth_fields 0b111110001#9 s imm9 v rn rt w hw
  have b29 : w.getLsbD 29 = true := (f6 6).trans rfl
  have b28 : w.getLsbD 28 = true := (f6 5).trans rfl
  have h1 : matchesRow w 0xFFFFF0FF 0xD50330BF = false := matchesRow_of_bit _ _ _ 29 rfl (by rw [b29]; decide)
  have h2 : matchesRow w 0xFFFFF0FF 0xD503309F = false := matchesRow_of_bit _ _ _ 29 rfl (by rw [b29]; decide)
  have h3 : matchesRow w 0x7FC00000 0x28400000 = false := matchesRow_of_bit _ _ _ 28 rfl (by rw [b28]; decide)
  have h4 : matchesRow w 0x3FC00000 0x2C400000 = false := matchesRow_of_bit _ _ _ 28 rfl (by rw [b28]; decide)
  have b23 : w.getLsbD 23 = true := (f6 0).trans rfl
  have h5 : matchesRow w 0xFFA00400 0xF8200400 = false := matchesRow_of_bit _ _ _ 23 rfl (by rw [b23]; decide)
  have h6 : matchesRow w 0xFFA00400 0xF8A00400 = true := by
    have e : (0b111110001#9 ++ s ++ 1#1 ++ imm9 ++ v ++ 1#1 ++ rn ++ rt) &&&
          (0b111111111#9 ++ 0#1 ++ 1#1 ++ 0#9 ++ 0#1 ++ 1#1 ++ 0#5 ++ 0#5) =
        0b111110001#9 ++ 0#1 ++ 1#1 ++ 0#9 ++ 0#1 ++ 1#1 ++ 0#5 ++ 0#5 := by
      simp only [BitVec.and_append, BitVec.and_zero]; rfl
    rw [hw]; simp only [matchesRow, beq_iff_eq]; exact e
  simp only [decode, h1, h2, h3, h4, h5, h6, Bool.false_eq_true, if_false, if_true, f1, f2, f3, f4, f5]

theorem cpy (rd rs rn : RegNum) : Statement (.cpy rd rs rn) := fun _ h _ => nomatch h

theorem memSet (addr len : Nat) (rs : RegNum) : Statement (.memSet addr len rs) := fun _ h _ => nomatch h

theorem ld1 (es : List Elem) : Statement (.ld1 es) := fun _ h _ => nomatch h

theorem st1 (es : List Elem) : Statement (.st1 es) := fun _ h _ => nomatch h

theorem loadExcl (f : OrderedForm) : Statement (.loadExcl f) := fun _ h _ => nomatch h

theorem storeExcl (rs : RegNum) (f : OrderedForm) : Statement (.storeExcl rs f) := fun _ h _ => nomatch h

theorem loadAcq (f : OrderedForm) : Statement (.loadAcq f) := fun _ h _ => nomatch h

theorem storeRel (f : OrderedForm) : Statement (.storeRel f) := fun _ h _ => nomatch h

theorem gpSingle (d : Dir) (e : Elem) : Statement (.gpSingle d e) := fun _ h _ => nomatch h

theorem gpMulti (d : Dir) (es : List Elem) : Statement (.gpMulti d es) := fun _ h _ => nomatch h

theorem simdFp (d : Dir) (es : List Elem) : Statement (.simdFp d es) := fun _ h _ => nomatch h

theorem simdFpStreaming (d : Dir) (es : List Elem) : Statement (.simdFpStreaming d es) := fun _ h _ => nomatch h

theorem sveUnpred (es : List Elem) : Statement (.sveUnpred es) := fun _ h _ => nomatch h

theorem svePred (es : List Elem) : Statement (.svePred es) := fun _ h _ => nomatch h

theorem svePredNT (es : List Elem) : Statement (.svePredNT es) := fun _ h _ => nomatch h

theorem sveFirstFault (es : List Elem) : Statement (.sveFirstFault es) := fun _ h _ => nomatch h

theorem sveNonFault (es : List Elem) : Statement (.sveNonFault es) := fun _ h _ => nomatch h

theorem svePrefetch (es : List Elem) : Statement (.svePrefetch es) := fun _ h _ => nomatch h

theorem sveStore (es : List Elem) : Statement (.sveStore es) := fun _ h _ => nomatch h

theorem cacheMaint (addr len : Nat) : Statement (.cacheMaint addr len) := fun _ h _ => nomatch h

end Laws.EncodeDecode

end Sys2Proof
end

