-- ==== Sys2Proof/Laws/Reaches.lean ====
section
/-! SUPPORT. What the checks decide: an instruction that reaches them is refused, takes the exception they find, or
makes its accesses. -/

namespace Sys2Proof.Machine

open Sys2Proof

/-- What the checks found becomes the outcome; a fault in a sequence is taken before any of its accesses unless the plan
abandons it or makes accesses of other parts first. -/
structure Decides (s : State) (v : Verdict) (o : Out) : Prop where
  refuse : ∀ q, v = .refuse q → o = .refused q
  take : ∀ e, v = .take e → s.plan.abandon = false → s.plan.midway = false → o = .next (s.takeException e false)
  taken : ∀ e, v = .take e → ∃ t c b, o = .next t ∧ (c = e ∨ s.plan.abandon = true ∧ c = .abandoned) ∧
    (b = true → s.plan.abandon = true ∨ s.plan.midway = true) ∧
    t.me = { s.me with
      copyBuf := t.me.copyBuf, esr := t.me.esr, handler := some { cause := c, slot := s.me.current, restarts := b }, current := none }
  next : (∀ q, v ≠ .refuse q) → ∃ t, o = .next t

/-- An exception at the checks is taken at once, unless the plan abandons the sequence or faults in its middle. -/
theorem cutShort_none (s : State) (seq : Bool) (e : Option Raise) (ha : s.plan.abandon = false)
    (hm : s.plan.midway = false) : s.cutShort seq e = none := by
  unfold State.cutShort
  cases seq <;> simp [ha, hm]

theorem cutShort_some {s : State} {seq : Bool} {e c : Raise} (h : s.cutShort seq (some e) = some c) :
    (c = e ∨ s.plan.abandon = true ∧ c = .abandoned) ∧ (s.plan.abandon = true ∨ s.plan.midway = true) := by
  unfold State.cutShort at h
  split at h
  · cases h
  · split at h
    · next ha => cases h; exact ⟨.inr ⟨ha, rfl⟩, .inl ha⟩
    · split at h
      · next hm => cases h; exact ⟨.inl rfl, .inr hm⟩
      · cases h

theorem State.takeException_regs (s : State) (e : Raise) (b : Bool) : (s.takeException e b).me = { s.me with
    copyBuf := (s.takeException e b).me.copyBuf, esr := (s.takeException e b).me.esr, handler := some { cause := e, slot := s.me.current, restarts := b }
    current := none } := by
  have h : (s.takeException e b).me = _ := s.getObs_setObs_self _ _
  rw [h]

/-- Accesses of the current observer that deliver to no register, performed with no store in flight that waits for loaded bytes,
change nothing of that observer but what its copies hold. -/
theorem Performable.ofMine (s : State) : Performable
    (fun u => u.cur = s.cur ∧ (∀ y ∈ u.inflight, y.Sourceless) ∧
      u.getObs s.cur = { s.getObs s.cur with copyBuf := (u.getObs s.cur).copyBuf })
    (fun x => x.obs = s.cur ∧ (x.dst = none ∨ x.dst = some .copy)) where
  deliver := by
    rintro u x vals ⟨h1, h2, h3⟩ ⟨hx, hd⟩ -
    refine ⟨by simpa using h1, by simpa using h2, ?_⟩
    rw [u.deliverTo_unawaited x vals h2]
    rcases hd with hd | hd
    · rw [hd]; exact h3
    · rw [hd, hx]
      have key : ∀ (bs : List (ByteAcc × Byte)) (o : Observer), o = { s.getObs s.cur with copyBuf := o.copyBuf } →
          bs.foldl (fun o q => o.putByte .copy x.id q.1 q.2) o =
            { s.getObs s.cur with copyBuf := (bs.foldl (fun o q => o.putByte .copy x.id q.1 q.2) o).copyBuf } := by
        intro bs o ho
        exact foldl_property (fun p : Observer => p = { s.getObs s.cur with copyBuf := p.copyBuf }) _ _ _ ho (fun p q _ hp => by
          unfold Observer.putByte
          split
          · rw [show p.setRegByte .copy q.1.reg q.1.lane q.2 = { p with copyBuf := (p.setRegByte .copy q.1.reg q.1.lane q.2).copyBuf }
              from rfl, hp]
          · exact hp)
      have := key (x.bs.zip vals) (u.getObs s.cur) h3
      simpa [Observer.putBytes] using this
  commit := by
    rintro u x ⟨h1, h2, h3⟩ ⟨hx, -⟩ -
    have ho := u.filled_obs x
    generalize u.filled x = z at ho ⊢
    refine ⟨by simpa using h1, by simpa using h2, ?_⟩
    have := u.commit_getObs_self z
    rw [ho, hx] at this
    rw [this]; exact h3
  log := fun _ _ h _ => h
  ack := fun _ _ h => h
  retire := by
    rintro u x ⟨h1, h2, h3⟩ -
    exact ⟨h1, fun y hy => h2 y (List.mem_filter.1 hy).1, h3⟩
  react := fun _ _ _ h => h

/-- An instruction whose sequence an exception ends, issued with nothing in flight, leaves its observer as it was but for the
exception, and for what its copy holds. -/
theorem State.runAccesses_some_me (s : State) (bs : List RByte) (xs : List Xact) (e : Raise) (pre : State → State)
    (h0 : s.inflight = []) (hx : ∀ x ∈ xs, x.obs = s.cur ∧ x.Sourceless) :
    (s.runAccesses bs xs (some e) pre).me = { s.me with
      copyBuf := (s.runAccesses bs xs (some e) pre).me.copyBuf
      esr := (s.runAccesses bs xs (some e) pre).me.esr, handler := some { cause := e, slot := s.me.current, restarts := true }, current := none } := by
  unfold State.runAccesses
  dsimp only
  have hys : ∀ y ∈ xs.map Xact.unheeded, y.obs = s.cur ∧ (y.dst = none ∨ y.dst = some .copy) ∧ y.Sourceless := by
    intro y hy
    obtain ⟨x, hxm, rfl⟩ := List.mem_map.1 hy
    refine ⟨(hx x hxm).1, ?_, (hx x hxm).2⟩
    simp only [Xact.unheeded]
    split
    · next h => exact .inr h
    · exact .inl rfl
  have hin : ((s.touch bs).issue (xs.map Xact.unheeded)).inflight = xs.map Xact.unheeded := by simp [h0]
  obtain ⟨k1, -, k3⟩ := (Performable.ofMine s).performPlan (xs.map Xact.unheeded) s.plan.acts false
    ((s.touch bs).issue (xs.map Xact.unheeded)) ⟨rfl, by rw [hin]; exact fun y hy => (hys y hy).2.2, rfl⟩
    (by rw [hin]; exact fun y hy => ⟨(hys y hy).1, (hys y hy).2.1⟩)
  generalize ((s.touch bs).issue (xs.map Xact.unheeded)).performPlan (xs.map Xact.unheeded) s.plan.acts false = w at k1 k3 ⊢
  unfold State.abandonSeq
  have hm : ({ w with inflight := w.inflight.filter (fun y => !(xs.map Xact.unheeded).any (fun x => x.id == y.id) ||
      stillMade w.plan (xs.map Xact.unheeded) y) } : State).me = w.me := rfl
  have hw : w.me = { s.me with copyBuf := w.me.copyBuf } := by
    have : w.me = w.getObs s.cur := by rw [← k1]; rfl
    rw [this]; exact k3
  have ht := State.takeException_regs ({ w with inflight := w.inflight.filter (fun y => !(xs.map Xact.unheeded).any
    (fun x => x.id == y.id) || stillMade w.plan (xs.map Xact.unheeded) y) } : State) e true
  rw [hm] at ht
  rw [hw] at ht
  exact ht

theorem State.runReq_some_me (s : State) (r : Req) (e : Raise) (pre : State → State) (h0 : s.inflight = []) :
    (s.runReq r (some e) pre).me = { s.me with
      copyBuf := (s.runReq r (some e) pre).me.copyBuf
      esr := (s.runReq r (some e) pre).me.esr, handler := some { cause := e, slot := s.me.current, restarts := true }, current := none } :=
  s.runAccesses_some_me _ _ e pre h0 (fun x hx =>
    ⟨(mem_xactsOf s r x hx).1.2.2.1, xactsOf_sourceless s r (.inr (.inr h0)) x hx⟩)

theorem State.runCopy_some_me (s : State) (rd wr : List RElem) (e : Raise) (h0 : s.inflight = []) :
    (s.runCopy rd wr (some e)).me = { s.me with
      copyBuf := (s.runCopy rd wr (some e)).me.copyBuf
      esr := (s.runCopy rd wr (some e)).me.esr, handler := some { cause := e, slot := s.me.current, restarts := true }, current := none } :=
  s.runAccesses_some_me _ _ e _ h0 (fun x hx => by
    rcases List.mem_append.1 hx with hx | hx
    · exact ⟨(mem_xactsOf s _ x hx).1.2.2.1, xactsOf_sourceless s _ (.inr (.inr h0)) x hx⟩
    · exact ⟨(mem_xactsFrom s _ _ x hx).1.2.2.1, xactsFrom_sourceless s _ _ (.inr (.inr h0)) x hx⟩)

theorem resolve_nil (p : Platform) (o : Observer) (f : RegFile) : resolve p o f [] = .ok [] := rfl

theorem State.request_decides (s : State) (cls : AccessClass) (dir : Dir) (f : RegFile) (rel : Bool) (all : List Elem)
    (rs : List RElem) (F : List Nat) (pre : State → State) (h0 : s.inflight = []) :
    Decides s (s.verdict cls (readParts dir rs) (writtenParts dir rs) F) (s.request cls dir f rel all rs F pre) := by
  unfold State.request
  cases hv : s.verdict cls (readParts dir rs) (writtenParts dir rs) F with
  | refuse q =>
    exact ⟨fun q' h => by cases h; rfl, fun e h => (nomatch h), fun e h => (nomatch h), fun h => absurd rfl (h q)⟩
  | take e =>
    refine ⟨fun q h => (nomatch h), fun e' h ha hm => by cases h; simp only [cutShort_none _ _ _ ha hm], fun e' h => ?_,
      fun _ => ?_⟩
    · cases h
      dsimp only
      split
      · next c hc =>
        refine ⟨_, c, true, rfl, (cutShort_some hc).1, fun _ => (cutShort_some hc).2, ?_⟩
        rw [State.runReq_some_me _ _ _ _ (by simpa using h0), State.me_walk]
      · exact ⟨_, e, false, rfl, .inl rfl, fun h => (nomatch h), s.takeException_regs e false⟩
    · dsimp only
      split <;> exact ⟨_, rfl⟩
  | go => exact ⟨fun q h => (nomatch h), fun e h => (nomatch h), fun e h => (nomatch h), fun _ => ⟨_, rfl⟩⟩

theorem State.access_decides (s : State) (cls : AccessClass) (dir : Dir) (f : RegFile) (rel : Bool)
    (all es first : List Elem) (pre : List RElem → State → State) (rs fs : List RElem) (h0 : s.inflight = [])
    (hr : resolve s.platform s.me f es = .ok rs) (hf : resolve s.platform s.me f first = .ok fs) :
    Decides s (s.verdict cls (readParts dir rs) (writtenParts dir rs) (pasOf fs)) (s.access cls dir f rel all es first pre) := by
  unfold State.access
  rw [hr, hf]
  exact s.request_decides _ _ _ _ _ _ _ _ h0

theorem State.load_decides (s : State) (cls : AccessClass) (f : RegFile) (all es first : List Elem)
    (pre : List RElem → State → State) (rs fs : List RElem) (h0 : s.inflight = [])
    (hr : resolve s.platform s.me f es = .ok rs) (hf : resolve s.platform s.me f first = .ok fs) :
    Decides s (s.verdict cls rs [] (pasOf fs)) (s.load cls f all es first pre) := by
  exact s.access_decides cls .read f false all es first _ rs fs h0 hr hf

theorem State.store_decides (s : State) (cls : AccessClass) (f : RegFile) (rel : Bool) (all es : List Elem)
    (pre : List RElem → State → State) (rs : List RElem) (h0 : s.inflight = [])
    (hr : resolve s.platform s.me f es = .ok rs) :
    Decides s (s.verdict cls [] rs []) (s.store cls f rel all es pre) := by
  unfold State.store
  exact s.access_decides cls .write f rel all es [] pre rs [] h0 hr rfl

/-- A Store-Exclusive that fails is checked as one that succeeds. -/
theorem State.exclFail_decides (s : State) (n : RegNum) (q : List RElem) :
    Decides s (s.verdict .storeExclusive [] q []) (s.exclFail n q) := by
  unfold State.exclFail
  cases hv : s.verdict .storeExclusive [] q [] with
  | refuse q =>
    exact ⟨fun q' h => by cases h; rfl, fun e h => (nomatch h), fun e h => (nomatch h), fun h => absurd rfl (h q)⟩
  | take e =>
    exact ⟨fun q h => (nomatch h), fun e' h _ _ => by cases h; rfl,
      fun e' h => by cases h; exact ⟨_, e, false, rfl, .inl rfl, fun h => (nomatch h), s.takeException_regs e false⟩, fun _ => ⟨_, rfl⟩⟩
  | go => exact ⟨fun q h => (nomatch h), fun e h => (nomatch h), fun e h => (nomatch h), fun _ => ⟨_, rfl⟩⟩

/-- Everything the checks decide about an instruction that reaches them. -/
theorem exec_decides (i : Instr) (s : State) (m : MemForm) (rd wr first : List RElem) (h : Reaches i s m rd wr first) :
    Decides s (s.verdict m.cls rd wr (pasOf first)) (exec i s) := by
  obtain ⟨hm, h0, hf, ha, hr, hw, hx⟩ := h
  have nil : ∀ {f : RegFile} {x : List RElem}, resolve s.platform s.me f [] = .ok x → x = [] := by
    intro f x hx; cases hx; rfl
  cases i with
  | dmb => cases hm
  | dsb => cases hm
  | svePrefetch => cases hm
  | cacheMaint => cases hm
  | ldnpGp sf imm7 rt2 rn rt =>
    cases hm; cases nil hw
    simp only [exec, execLdnpGp, State.loadPair, State.plainLoad]
    rw [State.settle_idle _ _ _ h0]
    exact s.load_decides _ _ _ _ _ _ rd first h0 hr hx
  | ldnpFp opc imm7 rt2 rn rt =>
    cases hm; cases nil hw
    simp only [exec, execLdnpFp, State.loadPair, State.plainLoad]
    rw [State.settle_idle _ _ _ h0]
    exact s.load_decides _ _ _ _ _ _ rd first h0 hr hx
  | ldraa sb imm9 w rn rt =>
    cases hm; cases nil hw; cases nil hx
    have hp : s.platform.havePAUTH = true := hf
    have ho : s.plan.authOk = true := ha
    simp only [exec, execLdraa, requireFeature, hp, if_true, State.loadAuth]
    rw [State.settle_idle _ _ _ h0]
    simp only [hr, ho, if_true]
    exact s.request_decides _ .read _ _ _ _ _ _ h0
  | ldrab sb imm9 w rn rt =>
    cases hm; cases nil hw; cases nil hx
    have hp : s.platform.havePAUTH = true := hf
    have ho : s.plan.authOk = true := ha
    simp only [exec, execLdrab, requireFeature, hp, if_true, State.loadAuth]
    rw [State.settle_idle _ _ _ h0]
    simp only [hr, ho, if_true]
    exact s.request_decides _ .read _ _ _ _ _ _ h0
  | cpy cd cs cn =>
    cases hm; cases nil hx
    have hp : s.platform.haveMOPS = true := hf
    simp only [exec, execCpy, requireFeature, hp, if_true]
    rw [State.settle_idle _ _ _ h0]
    simp only [hr, hw]
    change Decides s (s.verdict .memCopy rd wr []) _
    cases hv : s.verdict .memCopy rd wr [] with
    | refuse q =>
    exact ⟨fun q' h => by cases h; rfl, fun e h => (nomatch h), fun e h => (nomatch h), fun h => absurd rfl (h q)⟩
    | take e =>
      refine ⟨fun q h => (nomatch h), fun e' h ha hm => by cases h; simp only [cutShort_none _ _ _ ha hm], fun e' h => ?_,
        fun _ => ?_⟩
      · cases h
        dsimp only
        split
        · next c hc =>
          refine ⟨_, c, true, rfl, (cutShort_some hc).1, fun _ => (cutShort_some hc).2, ?_⟩
          rw [State.runCopy_some_me _ _ _ _ (by simpa using h0), State.me_walk]
        · exact ⟨_, e, false, rfl, .inl rfl, fun h => (nomatch h), s.takeException_regs e false⟩
      · dsimp only
        split <;> exact ⟨_, rfl⟩
    | go => exact ⟨fun q h => (nomatch h), fun e h => (nomatch h), fun e h => (nomatch h), fun _ => ⟨_, rfl⟩⟩
  | storeExcl st f =>
    cases hm; cases nil hr; cases nil hx
    simp only [exec, execStoreExcl]
    simp only [hw]
    split
    · exact s.request_decides _ .write _ _ _ _ _ _ h0
    · exact s.exclFail_decides _ _
  | memSet addr len rs =>
    cases hm; cases nil hr; cases nil hx
    have hp : s.platform.haveMOPS = true := hf
    simp only [exec, execMemSet, requireFeature, hp, if_true]
    exact s.store_decides _ _ _ _ _ _ wr h0 hw
  | ld1 es => cases hm; cases nil hw; exact s.load_decides _ _ _ _ _ _ rd first h0 hr hx
  | st1 es => cases hm; cases nil hr; cases nil hx; exact s.store_decides _ _ _ _ _ _ wr h0 hw
  | loadExcl f => cases hm; cases nil hw; exact s.load_decides _ _ _ _ _ _ rd first h0 hr hx
  | loadAcq f =>
    obtain ⟨simd, es⟩ := f
    cases simd
    · cases hm; cases nil hw; exact s.load_decides _ _ _ _ _ _ rd first h0 hr hx
    · cases hm; cases nil hw; exact s.load_decides _ _ _ _ _ _ rd first h0 hr hx
  | storeRel f =>
    obtain ⟨simd, es⟩ := f
    cases simd
    · cases hm; cases nil hr; cases nil hx; exact s.store_decides _ _ _ _ _ _ wr h0 hw
    · cases hm; cases nil hr; cases nil hx; exact s.store_decides _ _ _ _ _ _ wr h0 hw
  | gpSingle d e =>
    cases d
    · cases hm; cases nil hw; exact s.load_decides _ _ _ _ _ _ rd first h0 hr hx
    · cases hm; cases nil hr; cases nil hx; exact s.store_decides _ _ _ _ _ _ wr h0 hw
  | gpMulti d es =>
    cases d
    · cases hm; cases nil hw; exact s.load_decides _ _ _ _ _ _ rd first h0 hr hx
    · cases hm; cases nil hr; cases nil hx; exact s.store_decides _ _ _ _ _ _ wr h0 hw
  | simdFp d es =>
    cases d
    · cases hm; cases nil hw; exact s.load_decides _ _ _ _ _ _ rd first h0 hr hx
    · cases hm; cases nil hr; cases nil hx; exact s.store_decides _ _ _ _ _ _ wr h0 hw
  | simdFpStreaming d es =>
    cases d
    · cases hm; cases nil hw; exact s.load_decides _ _ _ _ _ _ rd first h0 hr hx
    · cases hm; cases nil hr; cases nil hx; exact s.store_decides _ _ _ _ _ _ wr h0 hw
  | sveUnpred es =>
    cases hm; cases nil hw
    have hp : s.platform.haveSVE = true := hf
    simp only [exec, execSveUnpred, requireFeature, hp, if_true]
    exact s.load_decides _ _ _ _ _ _ rd first h0 hr hx
  | svePred es =>
    cases hm; cases nil hw
    have hp : s.platform.haveSVE = true := hf
    simp only [exec, execSvePred, requireFeature, hp, if_true]
    exact s.load_decides _ _ _ _ _ _ rd first h0 hr hx
  | svePredNT es =>
    cases hm; cases nil hw
    have hp : s.platform.haveSVE = true := hf
    simp only [exec, execSvePredNT, requireFeature, hp, if_true]
    exact s.load_decides _ _ _ _ _ _ rd first h0 hr hx
  | sveFirstFault es =>
    cases hm; cases nil hw
    have hp : s.platform.haveSVE = true := hf
    simp only [exec, execSveFirstFault, requireFeature, hp, if_true]
    exact s.load_decides _ _ _ _ _ _ rd first h0 hr hx
  | sveNonFault es =>
    cases hm; cases nil hw
    have hp : s.platform.haveSVE = true := hf
    simp only [exec, execSveNonFault, requireFeature, hp, if_true]
    exact s.load_decides _ _ _ _ _ _ rd first h0 hr hx
  | sveStore es =>
    cases hm; cases nil hr; cases nil hx
    have hp : s.platform.haveSVE = true := hf
    simp only [exec, execSveStore, requireFeature, hp, if_true]
    exact s.store_decides _ _ _ _ _ _ wr h0 hw

end Sys2Proof.Machine
end

