-- ==== Sys2Proof/Laws/Untouched.lean ====
section
/-! SUPPORT. The frame of the shared operations behind loads and stores: what settling, making the accesses of a
request and taking an exception keep, and what they leave in the current observer's own fields. -/

namespace Sys2Proof.Machine

open Sys2Proof

variable {s : State} {ds : List (RegFile × RegNum)} {pas : Nat → Prop}

/-- `w` is `u` but for the current observer, which may differ in the registers `ds`, marks, FFR and reservation. -/
structure MineOnly (ds : List (RegFile × RegNum)) (u w : State) : Prop where
  eq : w = { u with obs := w.obs }
  others : ∀ o, o ≠ u.cur → w.getObs o = u.getObs o
  gp : ∀ n, (.gp, n) ∉ ds → w.me.base n = u.me.base n
  vec : ∀ n, (.vec, n) ∉ ds → w.me.vec n = u.me.vec n
  copy : (∀ n, (.copy, n) ∉ ds) → w.me.copyBuf = u.me.copyBuf
  takes : ∀ f n id, (f, n) ≠ (.gp, 31) → (f, n) ∉ ds → w.me.takes f n id = u.me.takes f n id
  same : w.me.ctl = u.me.ctl ∧ w.me.program = u.me.program ∧ w.me.handler = u.me.handler ∧ w.me.current = u.me.current ∧
    w.me.esr = u.me.esr

theorem MineOnly.refl (u : State) : MineOnly ds u u :=
  ⟨rfl, fun _ _ => rfl, fun _ _ => rfl, fun _ _ => rfl, fun _ => rfl, fun _ _ _ _ _ => rfl, rfl, rfl, rfl, rfl, rfl⟩

theorem MineOnly.setMe (u : State) (v : Observer) (h1 : ∀ n, (.gp, n) ∉ ds → v.base n = u.me.base n)
    (h2 : ∀ n, (.vec, n) ∉ ds → v.vec n = u.me.vec n) (h4 : (∀ n, (.copy, n) ∉ ds) → v.copyBuf = u.me.copyBuf)
    (h5 : ∀ f n id, (f, n) ≠ (.gp, 31) → (f, n) ∉ ds → v.takes f n id = u.me.takes f n id)
    (h3 : v.ctl = u.me.ctl ∧ v.program = u.me.program ∧
      v.handler = u.me.handler ∧ v.current = u.me.current ∧ v.esr = u.me.esr) : MineOnly ds u (u.setMe v) := by
  have hm : (u.setMe v).me = v := u.getObs_setObs_self u.cur v
  exact ⟨rfl, fun o ho => u.getObs_setObs_ne v ho, by rw [hm]; exact h1, by rw [hm]; exact h2, by rw [hm]; exact h4,
    by rw [hm]; exact h5, by rw [hm]; exact h3⟩

theorem MineOnly.trans {u v w : State} (h : MineOnly ds u v) (k : MineOnly ds v w) : MineOnly ds u w := by
  have hc : v.cur = u.cur := by rw [h.eq]
  refine ⟨by rw [k.eq, h.eq], fun o ho => (k.others o (hc ▸ ho)).trans (h.others o ho), fun n hn => (k.gp n hn).trans (h.gp n hn),
    fun n hn => (k.vec n hn).trans (h.vec n hn), fun hn => (k.copy hn).trans (h.copy hn),
    fun f n id h31 hn => (k.takes f n id h31 hn).trans (h.takes f n id h31 hn), ?_⟩
  obtain ⟨a, b, c, d, e⟩ := h.same
  obtain ⟨a', b', c', d', e'⟩ := k.same
  exact ⟨a'.trans a, b'.trans b, c'.trans c, d'.trans d, e'.trans e⟩

theorem Framed.mineOnly {u w : State} (h : Framed s ds pas u) (k : MineOnly ds u w) : Framed s ds pas w := by
  have hm : w = { u with obs := w.obs } := k.eq
  have hs : ∀ o, w.getObs o = if o = s.cur then w.me else u.getObs o := by
    intro o
    split
    · next e => subst e; rw [← h.cur]; rw [hm]; rfl
    · next e => exact k.others o (h.cur ▸ e)
  have hume : u.me = u.getObs s.cur := by rw [← h.cur]; rfl
  obtain ⟨k1, k2, -⟩ := k.same
  have kg := k.gp
  have kv := k.vec
  have kc := k.copy
  have kt := k.takes
  rw [hume] at kg kv kc kt k1 k2
  have hcur : w.cur = s.cur := by rw [hm]; exact h.cur
  refine ⟨?_, ?_, ?_, ?_, ?_, ?_, ?_, ?_, ?_, ?_, ?_, hcur, ?_⟩
  · intro o n a b; rw [hs]; split
    · next e => subst e; rw [kg n (b rfl)]; exact h.gp _ n a b
    · exact h.gp o n a b
  · intro o n a b; rw [hs]; split
    · next e => subst e; rw [kv n (b rfl)]; exact h.vec _ n a b
    · exact h.vec o n a b
  · intro o a b; rw [hs]; split
    · next e => subst e; rw [kc (b rfl)]; exact h.copy _ a b
    · exact h.copy o a b
  · intro o f n id a b; rw [hs]; split
    · next e => subst e; rw [kt f n id a (b rfl)]; exact h.takes _ f n id a b
    · exact h.takes o f n id a b
  · intro o; rw [hs]; split
    · next e => subst e; rw [k1]; exact h.ctl _
    · exact h.ctl o
  · intro o; rw [hs]; split
    · next e => subst e; rw [k2]; exact h.program _
    · exact h.program o
  · intro o ho; rw [hs, if_neg ho]; exact h.others o ho
  · intro a b o ho; rw [hs, if_neg ho]; exact h.theirs a b o ho
  · intro pa a b c
    have : ∀ o m, w.valueFor o m pa = u.valueFor o m pa := by intro o m; rw [hm]; rfl
    have hr : Memory.read w.mem pa = Memory.read u.mem pa := by rw [hm]
    exact ⟨fun o m => (this o m).trans ((h.values pa a b c).1 o m), hr.trans (h.values pa a b c).2⟩
  · intro x hx; rw [hm] at hx; exact h.flight x hx
  · rw [hm]; exact h.platform
  · rw [hm]; exact h.machine

/-! ### Settling -/

theorem State.settle_kept (s : State) (o : Nat) (regs : List (RegFile × RegNum)) : Kept s (s.settle o regs) := s.forceAll_kept _

theorem Kept.trans {s u w : State} (h : Kept s u) (k : Kept u w) : Kept s w := by
  have ha : ∀ o r, ¬ s.awaited o r → ¬ u.awaited o r := by
    rintro o r h1 ⟨hne, x, hx, e⟩; exact h1 ⟨hne, x, h.flight x hx, e⟩
  have hp : ∀ pa, ¬ s.pendingAt pa → ¬ u.pendingAt pa := by
    rintro pa h1 ⟨x, hx, e⟩; exact h1 ⟨x, h.flight x hx, e⟩
  refine ⟨fun o n h1 => (k.gp o n (ha _ _ h1)).trans (h.gp o n h1), fun o n h1 => (k.vec o n (ha _ _ h1)).trans (h.vec o n h1),
    fun o h1 => (k.copy o (fun n => ha _ _ (h1 n))).trans (h.copy o h1), ?_, ?_, ?_, ?_, fun x hx => h.flight x (k.flight x hx), k.platform.trans h.platform, k.cur.trans h.cur, ?_⟩
  · intro o
    obtain ⟨g, v, c, l, e, h1⟩ := k.rest o
    obtain ⟨g', v', c', l', e', h2⟩ := h.rest o
    exact ⟨g, v, c, l, e, by rw [h1, h2]⟩
  · intro h1
    rw [← h.mine h1, ← h.cur]
    exact k.mine (fun x hx => (h1 x (h.flight x hx)).trans h.cur.symm)
  · intro h1 o; rw [← h.theirs h1 o]; exact k.theirs (fun x hx => h1 x (h.flight x hx)) o
  · intro pa h1 h3
    obtain ⟨a, b⟩ := k.values pa (hp pa h1) (by rw [h.platform]; exact h3)
    obtain ⟨c, d⟩ := h.values pa h1 h3
    exact ⟨fun o m => (a o m).trans (c o m), b.trans d⟩
  · obtain ⟨a, b, c, d, e, f⟩ := k.machine
    obtain ⟨a', b', c', d', e', f'⟩ := h.machine
    exact ⟨a.trans a', b.trans b', c.trans c', d.trans d', e.trans e', f.trans f'⟩

/-- The walks of an access change nothing that is kept. -/
theorem Kept.walkReads {s u : State} (h : Kept s u) (o : Nat) (c : PeCtl) (ws : List WalkRef) : Kept s (u.walkReads o c ws) := by
  have h1 : Kept s ((madeWalks u.platform c ws).foldl (fun t w => t.arrive (walkAccess u.platform o c w)) u) :=
    foldl_property (Kept s) _ _ _ h
      (fun t _ _ ht => Kept.react (ht.of_obs (v := t.logArrival _) rfl rfl rfl ht.flight rfl rfl ⟨rfl, rfl, rfl, rfl, rfl, rfl⟩) _ _)
  exact h1.of_obs rfl rfl rfl h1.flight rfl rfl ⟨rfl, rfl, rfl, rfl, rfl, rfl⟩

/-! ### The accesses of one request -/

theorem State.takeException_me (u : State) (r : Raise) (b : Bool) : (u.takeException r b).me =
    { u.me with
      esr := esrAfter u.platform u.me.ctl r u.plan.syndrome u.me.esr
      handler := some { cause := r, slot := u.me.current, restarts := b }
      current := none } := u.getObs_setObs_self _ _

/-- The current observer's own fields after an instruction whose effect beside its accesses is `pre`: those of `pre` but
for registers and, where accesses of others were in flight, the reservation; or an exception over those before it, but for the
same. -/
inductive Ends (s : State) (pre : State → State) (t : State) : Prop where
  | done (u : State) (hu : Kept s u) (g : Vector Word 32) (v : Vector VReg 32) (c : List Host.Cell) (l : List HeldByte)
      (e : Option Reservation) (eq : t.me = { (pre u).me with gpr := g, vreg := v, copyBuf := c, held := l, excl := e })
      (mine : (∀ x ∈ s.inflight, x.obs = s.cur) → e = (pre u).me.excl)
  | taken (u : State) (hu : Kept s u) (r : Raise) (b : Bool) (g : Vector Word 32) (v : Vector VReg 32) (c : List Host.Cell)
      (l : List HeldByte) (e : Option Reservation)
      (eq : t.me = { (u.takeException r b).me with gpr := g, vreg := v, copyBuf := c, held := l, excl := e })
      (mine : (∀ x ∈ s.inflight, x.obs = s.cur) → e = u.me.excl)

/-- The registers and locations of a request are among these. -/
structure Within (s : State) (ds : List (RegFile × RegNum)) (pas : Nat → Prop) (r : Req) : Prop where
  regs : r.dir = .read → ∀ p ∈ r.rs, ∀ b ∈ p.bs, (r.file, b.reg) = (.gp, 31) ∨ (r.file, b.reg) ∈ ds
  places : r.dir = .write → ∀ p ∈ r.rs, ∀ b ∈ p.bs, pas b.tr.pa

theorem xactsFrom_allowed (s₀ s : State) (r : Req) (k : Nat) (h : Within s ds pas r) (hc : s.cur = s₀.cur)
    (hex : r.dir = .write → r.ex = []) : ∀ x ∈ xactsFrom s r k, Allows s₀ ds pas x := by
  intro x hx
  obtain ⟨⟨-, hd, ho, -⟩, -, q, hq, hbs, hdst, -, -⟩ := mem_xactsFrom s r k x hx
  refine ⟨ho.trans hc, fun hr f hf b hb => ?_, fun hw => ?_⟩
  · obtain ⟨c, rfl, -, ⟨-, ⟨p, hp, hcp⟩, hd'⟩ | ⟨-, -, hd'⟩⟩ := mem_xactsFrom_byte s r k x hx b hb
    · rw [hd', if_pos (hd ▸ hr)] at hf
      cases hf
      exact h.regs (hd ▸ hr) p hp c hcp
    · rw [hd'] at hf; cases hf
  · rw [hd] at hw
    rcases mem_piecesOf s r q hq with ⟨g, hg, rfl⟩ | ⟨d, hd', rfl⟩
    · obtain ⟨hne, -, hsub⟩ := groupsOf_mem s r g hg
      rw [hbs]
      refine ⟨by simpa using hne, fun b hb => ?_⟩
      obtain ⟨c, hc, rfl⟩ := List.mem_map.1 hb
      obtain ⟨p, hp, hcp⟩ := hsub c hc
      exact h.places hw p hp c hcp
    · rw [hex hw] at hd'; cases hd'

/-- A read whose instruction an exception ends changes no register that it would not have changed. -/
theorem Allows.unheeded {s₀ : State} {x : Xact} (hn : Allows s₀ ds pas x) : Allowed s₀ ds pas x.unheeded := by
  refine .inr ⟨hn.1, fun hd f hf => hn.2.1 hd f ?_, hn.2.2⟩
  simp only [Xact.unheeded] at hf
  split at hf
  · exact hf
  · cases hf

/-- What is put in flight and performed after an effect on the current observer alone. -/
theorem State.issue_framed {s₀ u v : State} {xs : List Xact} (hu : Kept s₀ u) (hp : MineOnly ds u v) (bs : List RByte)
    (hx : ∀ x ∈ xs, Allowed s₀ ds pas x) : Framed s₀ ds pas ((v.touch bs).issue xs) := by
  have hf : Framed s₀ ds pas u := Framed.refl.kept hu
  refine (hf.mineOnly hp).of_obs rfl rfl rfl ?_ rfl rfl ⟨rfl, rfl, rfl, rfl, rfl, rfl⟩
  intro x hx'
  simp only [State.issue_inflight, State.touch_inflight, List.mem_append] at hx'
  rcases hx' with hx' | hx'
  · rw [show v.inflight = u.inflight by rw [hp.eq]] at hx'; exact hf.flight x hx'
  · exact hx x hx'

theorem State.runAccesses_framed (s₀ s : State) (hs : Kept s₀ s) (bs : List RByte) (xs : List Xact) (stop : Option Raise)
    (pre : State → State) (hpre : ∀ u, MineOnly ds u (pre u)) (hx : ∀ x ∈ xs, Allows s₀ ds pas x) :
    Framed s₀ ds pas (s.runAccesses bs xs stop pre) ∧ Ends s₀ pre (s.runAccesses bs xs stop pre) := by
  unfold State.runAccesses
  split
  · have h1 := State.issue_framed hs (hpre s) bs (fun x h => .inr (hx x h))
    generalize hv : ((pre s).touch bs).issue xs = v at h1 ⊢
    have hvme : v.me = (pre s).me := by rw [← hv]; rfl
    have hvcur : v.cur = s.cur := by rw [← hv]; exact (by rw [(hpre s).eq] : (pre s).cur = s.cur)
    have hk2 := v.performPlan_kept xs s.plan.acts s.plan.rest
    refine ⟨h1.kept hk2, ?_⟩
    generalize v.performPlan xs s.plan.acts s.plan.rest = w at hk2 ⊢
    obtain ⟨g, v', c, l, e, h⟩ := hk2.rest w.cur
    have h' : w.me = { (pre s).me with gpr := g, vreg := v', copyBuf := c, held := l, excl := e } := by
      have : v.getObs w.cur = v.me := by rw [hk2.cur]; rfl
      rw [← hvme, ← this]; exact h
    refine .done s hs g v' c l e h' (fun hm => ?_)
    have := hk2.mine (fun x hx => ?_)
    · have e1 : w.getObs v.cur = w.me := by rw [← hk2.cur]; rfl
      rw [e1, h'] at this
      have e2 : v.getObs v.cur = v.me := rfl
      rw [e2, hvme] at this
      exact this
    · rcases h1.flight x hx with hx | hx
      · rw [hm x hx, hvcur, hs.cur]
      · rw [hx.1, hvcur, hs.cur]
  · next r =>
    have h1 := State.issue_framed hs (.refl s) bs (xs := xs.map Xact.unheeded) (fun x hx' => by
      obtain ⟨y, hy, rfl⟩ := List.mem_map.1 hx'
      exact (hx y hy).unheeded)
    dsimp only
    generalize hv : (s.touch bs).issue (xs.map Xact.unheeded) = v at h1 ⊢
    have hvme : v.me = s.me := by rw [← hv]; rfl
    have hvcur : v.cur = s.cur := by rw [← hv]; rfl
    have hvp : v.platform = s.platform ∧ v.plan = s.plan := by rw [← hv]; exact ⟨rfl, rfl⟩
    have hk2 := v.performPlan_kept (xs.map Xact.unheeded) s.plan.acts false
    have h2 := h1.kept hk2
    generalize v.performPlan (xs.map Xact.unheeded) s.plan.acts false = w at hk2 h2 ⊢
    unfold State.abandonSeq
    have h3 : Framed s₀ ds pas { w with inflight := w.inflight.filter (fun y => !(xs.map Xact.unheeded).any
        (fun x => x.id == y.id) || stillMade w.plan (xs.map Xact.unheeded) y) } :=
      h2.of_obs rfl rfl rfl (fun x hx => h2.flight x (List.mem_filter.1 hx).1) rfl rfl ⟨rfl, rfl, rfl, rfl, rfl, rfl⟩
    refine ⟨h3.takeException r true, ?_⟩
    obtain ⟨g, v', c, l, e, h⟩ := hk2.rest w.cur
    have hg : v.getObs w.cur = v.me := by rw [hk2.cur]; rfl
    have h' : w.me = { s.me with gpr := g, vreg := v', copyBuf := c, held := l, excl := e } := by
      rw [← hvme, ← hg]; exact h
    refine .taken s hs r true g v' c l e ?_ (fun hm => ?_)
    · have hm : ({ w with inflight := w.inflight.filter (fun y => !(xs.map Xact.unheeded).any (fun x => x.id == y.id) ||
          stillMade w.plan (xs.map Xact.unheeded) y) } : State).me = w.me := rfl
      rw [State.takeException_me, State.takeException_me, hm, h']
      simp only [hk2.platform, hk2.machine.2.1, hvp.1, hvp.2]
    · have := hk2.mine (fun x hx => ?_)
      · have e1 : w.getObs v.cur = w.me := by rw [← hk2.cur]; rfl
        have e2 : v.getObs v.cur = v.me := rfl
        rw [e1, h', e2, hvme] at this
        exact this
      · rcases h1.flight x hx with hx | hx
        · rw [hm x hx, hvcur, hs.cur]
        · rw [hx.1, hvcur, hs.cur]

theorem State.runReq_framed (s₀ s : State) (hs : Kept s₀ s) (r : Req) (stop : Option Raise) (pre : State → State)
    (hpre : ∀ u, MineOnly ds u (pre u)) (hr : Within s ds pas r) (hex : r.dir = .write → r.ex = []) :
    Framed s₀ ds pas (s.runReq r stop pre) ∧ Ends s₀ pre (s.runReq r stop pre) :=
  s₀.runAccesses_framed s hs _ _ stop pre hpre (xactsFrom_allowed s₀ s r 0 hr hs.cur hex)

/-- A copy changes the bytes it holds and the locations of its destination range alone. -/
theorem State.runCopy_framed (s₀ s : State) (hs : Kept s₀ s) (rd wr : List RElem) (stop : Option Raise)
    (hw : ∀ p ∈ wr, ∀ b ∈ p.bs, pas b.tr.pa) (hr : ∀ p ∈ rd, ∀ b ∈ p.bs, (RegFile.copy, b.reg) ∈ ds) :
    Framed s₀ ds pas (s.runCopy rd wr stop) ∧ Ends s₀ id (s.runCopy rd wr stop) := by
  refine s₀.runAccesses_framed s hs _ _ stop id (fun u => .refl u) (fun x hx => ?_)
  rcases List.mem_append.1 hx with hx | hx
  · exact xactsFrom_allowed s₀ s (s.copyReads rd wr) 0 ⟨fun _ p hp b hb => .inr (hr p hp b hb), fun h => (nomatch h)⟩ hs.cur
      (fun h => (nomatch h)) x hx
  · exact xactsFrom_allowed s₀ s (s.copyWrites rd wr) _ ⟨fun h => (nomatch h), fun _ => hw⟩ hs.cur (fun _ => rfl) x hx

/-! ### The current observer's own fields -/

theorem Kept.me {s u : State} (h : Kept s u) : ∃ g v c l e, u.me = { s.me with gpr := g, vreg := v, copyBuf := c, held := l, excl := e } ∧
    ((∀ x ∈ s.inflight, x.obs = s.cur) → e = s.me.excl) := by
  obtain ⟨g, v, c, l, e, k⟩ := h.rest s.cur
  have hm : u.me = u.getObs s.cur := by rw [← h.cur]; rfl
  refine ⟨g, v, c, l, e, hm.trans k, fun h1 => ?_⟩
  have := h.mine h1
  rw [k] at this; exact this

theorem Ends.onlyByException {pre : State → State} {t : State} (h : Ends s pre t) (hpre : ∀ u, MineOnly ds u (pre u)) :
    OnlyByException s t := by
  rcases h with ⟨u, hu, g, v, c, l, e, eq, -⟩ | ⟨u, hu, r, k, g, v, c, l, e, eq, -⟩
  · obtain ⟨g', v', c', l', e', hm, -⟩ := hu.me
    obtain ⟨-, -, k1, k2, k3⟩ := (hpre u).same
    left; rw [eq]; dsimp only; rw [k1, k2, k3, hm]; exact ⟨rfl, rfl, rfl⟩
  · obtain ⟨g', v', c', l', e', hm, -⟩ := hu.me
    right; refine ⟨r, k, ?_⟩
    rw [eq, u.takeException_me, hm]
    refine ⟨rfl, rfl, ?_⟩
    dsimp only
    unfold esrAfter
    split
    · next st =>
      split
      · next ha => rw [hu.platform] at ha; exact .inr ⟨ha, st, rfl⟩
      · exact .inl rfl
    · exact .inl rfl

/-- A field that neither performing nor taking an exception changes is changed by the effect alone. -/
theorem Ends.field {α : Type} (F : Observer → α) {pre : State → State} {t : State} (h : Ends s pre t)
    (hF : ∀ (o : Observer) g v b l e p c k,
      F { o with gpr := g, vreg := v, copyBuf := b, held := l, excl := e, esr := p, handler := c, current := k } = F o)
    (hp : ∀ u, F (pre u).me = F u.me) : F t.me = F s.me := by
  have hk : ∀ u, Kept s u → F u.me = F s.me := by
    intro u hu
    obtain ⟨g, v, b, l, e, hm, -⟩ := hu.me
    rw [hm]; exact hF s.me g v b l e _ _ _
  rcases h with ⟨u, hu, g, v, b, l, e, eq, -⟩ | ⟨u, hu, r, k, g, v, b, l, e, eq, -⟩
  · rw [eq, ← hk u hu, ← hp u]; exact hF (pre u).me g v b l e _ _ _
  · rw [eq, u.takeException_me, ← hk u hu]; exact hF u.me g v b l e _ _ _

/-- The reservation stays where all that was in flight is the current observer's own and the effect leaves it. -/
theorem Ends.excl {pre : State → State} {t : State} (h : Ends s pre t) (hm : ∀ x ∈ s.inflight, x.obs = s.cur)
    (hp : ∀ u, (pre u).me.excl = u.me.excl) : t.me.excl = s.me.excl := by
  have hk : ∀ u, Kept s u → u.me.excl = s.me.excl := by
    intro u hu
    obtain ⟨g, v, c, l, e, h1, h2⟩ := hu.me
    rw [h1]; exact h2 hm
  rcases h with ⟨u, hu, g, v, c, l, e, eq, h2⟩ | ⟨u, hu, r, k, g, v, c, l, e, eq, h2⟩
  · rw [eq]; exact (h2 hm).trans ((hp u).trans (hk u hu))
  · rw [eq]; exact (h2 hm).trans (hk u hu)

/-! ### Loads and stores -/

/-- What a part keeps when faults are spared is among its bytes. -/
theorem RElem.mem_spared {p : Platform} {c : PeCtl} {cls : AccessClass} {q : RElem} {b : RByte}
    (h : b ∈ (q.spared p c cls).bs) : b ∈ q.bs := by
  unfold RElem.spared at h
  dsimp only at h
  split at h
  · cases h
  · exact (List.mem_filter.1 h).1

theorem State.request_framed (s₀ s : State) (hs : Kept s₀ s) (cls : AccessClass) (dir : Dir) (f : RegFile) (rel : Bool)
    (all : List Elem) (rs : List RElem) (F : List Nat) (pre : State → State) (t : State) (hpre : ∀ u, MineOnly ds u (pre u))
    (hr : dir = .read → ∀ p ∈ rs, ∀ b ∈ p.bs, (f, b.reg) = (.gp, 31) ∨ (f, b.reg) ∈ ds)
    (hw : dir = .write → ∀ p ∈ rs, ∀ b ∈ p.bs, pas b.tr.pa)
    (h : s.request cls dir f rel all rs F pre = .next t) : Framed s₀ ds pas t ∧ Ends s₀ pre t := by
  unfold State.request at h
  dsimp only at h
  split at h
  · cases h
  · next e _ =>
    split at h
    · cases h
      refine State.runReq_framed s₀ _ (hs.walkReads _ _ _) _ _ pre hpre ⟨fun hd p hp b hb => ?_, fun hd p hp b hb => ?_⟩
        (fun _ => rfl)
      · obtain ⟨q, hq, rfl⟩ := List.mem_map.1 hp
        exact hr hd q hq b (RElem.mem_spared hb)
      · obtain ⟨q, hq, rfl⟩ := List.mem_map.1 hp
        exact hw hd q hq b (RElem.mem_spared hb)
    · cases h
      exact ⟨(Framed.refl.kept hs).takeException e false, .taken s hs e false _ _ _ _ _ (by rw [State.takeException_me]) (fun _ => rfl)⟩
  · cases h
    exact State.runReq_framed s₀ _ (hs.walkReads _ _ _) _ _ pre hpre ⟨fun hd => hr hd, fun hd => hw hd⟩
      (fun hd => by have hd' : dir = .write := hd; subst hd'; rfl)

theorem State.access_framed (s₀ s : State) (hs : Kept s₀ s) (cls : AccessClass) (dir : Dir) (f : RegFile) (rel : Bool)
    (all es first : List Elem) (pre : List RElem → State → State) (t : State) (hpre : ∀ rs u, MineOnly ds u (pre rs u))
    (hr : dir = .read → ∀ e ∈ es, (f, e.reg) = (.gp, 31) ∨ (f, e.reg) ∈ ds)
    (hw : dir = .write → ∀ rs, resolve s.platform s.me f es = .ok rs → ∀ p ∈ rs, ∀ b ∈ p.bs, pas b.tr.pa)
    (h : s.access cls dir f rel all es first pre = .next t) :
    Framed s₀ ds pas t ∧ ∃ rs, Ends s₀ (pre rs) t := by
  unfold State.access at h
  split at h
  · cases h
  · cases h
  · next rs fs h1 h2 =>
    obtain ⟨a, b⟩ := State.request_framed s₀ s hs cls dir f rel all rs _ (pre rs) t (hpre rs)
      (fun hd p hp b hb => by
        rw [resolve_reg _ _ _ _ _ h1 p hp b hb]
        exact hr hd p.e (by rw [← (resolve_eq _ _ _ _ _ h1).1]; exact List.mem_map_of_mem hp))
      (fun hd => hw hd rs h1) h
    exact ⟨a, rs, b⟩

theorem MineOnly.scrambleAll (u : State) (f : RegFile) (es : List Elem) : MineOnly (regsWritten f es) u (u.scrambleAll f es) := by
  unfold State.scrambleAll
  have hin : ∀ (r : RegFile × RegNum), r ∉ regsWritten f es → ∀ e ∈ es, apart f e.reg r := by
    intro r hr e he
    by_cases h : (f, e.reg) = (.gp, 31)
    · exact .inl h
    · refine .inr (fun h2 => hr ?_)
      rw [← h2]
      exact List.mem_filter.2 ⟨List.mem_map_of_mem he, by simpa using h⟩
  have hcl : ∀ (o : Observer) (n : RegNum) (id : Nat), (o.claim f n id).base = o.base ∧ (o.claim f n id).vec = o.vec ∧
      (o.claim f n id).copyBuf = o.copyBuf := by
    intro o n id
    obtain ⟨a, b, h⟩ := o.claim_keeps f n id
    rw [h]; exact ⟨rfl, rfl, rfl⟩
  have hct : ∀ (o : Observer) (g : RegFile) (m n : RegNum) (id i : Nat), (f, n) = (.gp, 31) ∨ (f, n) ≠ (g, m) → (g, m) ≠ (.gp, 31) →
      (o.claim f n id).takes g m i = o.takes g m i := by
    intro o g m n id i h h31
    have hne : (f, n) ≠ (g, m) := by
      rcases h with h | h
      · rw [h]; exact fun e => h31 e.symm
      · exact h
    cases f <;> cases g <;> try rfl
    all_goals
      exact congrArg (fun x : Nat => decide (x ≤ i))
        (Vector.getElem_set_ne n.isLt m.isLt (fun e => hne (by rw [BitVec.eq_of_toNat_eq e])))
  refine .setMe u _ (fun n hn => ?_) (fun n hn => ?_) (fun _ => ?_) (fun g m id h31 hn => ?_) ?_
  · exact foldl_property (fun o : Observer => o.base n = u.me.base n) _ _ _ rfl
      (fun o e he ho => by rw [(hcl _ _ _).1]; exact (o.scramble_base _ (hin _ hn e he)).trans ho)
  · exact foldl_property (fun o : Observer => o.vec n = u.me.vec n) _ _ _ rfl
      (fun o e he ho => by rw [(hcl _ _ _).2.1]; exact (o.scramble_vec _ (hin _ hn e he)).trans ho)
  · exact foldl_property (fun o : Observer => o.copyBuf = u.me.copyBuf) _ _ _ rfl
      (fun o e _ ho => by rw [(hcl _ _ _).2.2]; exact (o.scramble_copyBuf f e.reg _).trans ho)
  · refine foldl_property (fun o : Observer => o.takes g m id = u.me.takes g m id) _ _ _ rfl (fun o e he ho => ?_)
    rw [hct _ _ _ _ _ _ (hin _ hn e he) h31, ← ho]
    obtain ⟨x, y, k⟩ := o.scramble_keeps f e.reg (junkOf u.plan e.reg)
    rw [k]; rfl
  · obtain ⟨x, y, a, b, h⟩ := u.me.prepare_keeps u.plan f u.nextId es
    rw [h]; exact ⟨rfl, rfl, rfl, rfl, rfl⟩

/-- A field that is no register is as before when registers are prepared for their bytes. -/
theorem State.scrambleAll_own {α : Type} (F : Observer → α) (u : State) (f : RegFile) (es : List Elem)
    (hF : ∀ (o : Observer) g v a b, F { o with gpr := g, vreg := v, gprFrom := a, vregFrom := b } = F o) :
    F (u.scrambleAll f es).me = F u.me := by
  have hm : (u.scrambleAll f es).me = _ := u.getObs_setObs_self u.cur _
  obtain ⟨g, v, a, b, h⟩ := u.me.prepare_keeps u.plan f u.nextId es
  rw [hm, h]
  exact hF u.me g v a b

/-- The frame of a load: `pre` is its effect beside the accesses. -/
theorem State.load_framed (s₀ s : State) (hs : Kept s₀ s) (cls : AccessClass) (f : RegFile) (all es first : List Elem)
    (pre : List RElem → State → State) (t : State) (hes : ∀ e ∈ es, e ∈ all) (hpre : ∀ rs u, MineOnly [] u (pre rs u))
    (h : s.load cls f all es first pre = .next t) :
    Framed s₀ (regsWritten f all) (fun _ => False) t ∧ ∃ rs, Ends s₀ (fun u => (pre rs u).scrambleAll f all) t := by
  unfold State.load at h
  refine State.access_framed s₀ _ hs cls .read f false all es first _ t (fun rs u => ?_) ?_ ?_ h
  · refine MineOnly.trans ⟨(hpre rs u).eq, (hpre rs u).others, fun n _ => (hpre rs u).gp n (by simp),
      fun n _ => (hpre rs u).vec n (by simp), fun _ => (hpre rs u).copy (by simp),
      fun g n id h31 _ => (hpre rs u).takes g n id h31 (by simp), (hpre rs u).same⟩ (.scrambleAll _ f all)
  · intro _ e he
    by_cases h31 : (f, e.reg) = (.gp, 31)
    · exact .inl h31
    · exact .inr (List.mem_filter.2 ⟨List.mem_map_of_mem (hes e he), by simpa using h31⟩)
  · intro h; cases h

/-- The locations of a footprint do not depend on the registers. -/
theorem placesOf_congr (s u : State) (f : RegFile) (es : List Elem) (hp : u.platform = s.platform) (hc : u.me.ctl = s.me.ctl) :
    placesOf u f es = placesOf s f es := by
  unfold placesOf storeBytes
  rw [hp, hc, List.map_flatMap, List.map_flatMap]
  congr 1
  funext e
  rw [List.map_filterMap, List.map_filterMap]
  congr 1
  funext k
  cases dataTr s.platform s.me.ctl (e.addr + k) <;> rfl

theorem resolve_places (s : State) (f : RegFile) (es : List Elem) (rs : List RElem) (h : resolve s.platform s.me f es = .ok rs) :
    ∀ p ∈ rs, ∀ b ∈ p.bs, b.tr.pa ∈ placesOf s f es := by
  intro p hp b hb
  unfold placesOf
  rw [← stored_eq_storeBytes s f es rs h, List.map_map]
  exact List.mem_map.2 ⟨b, List.mem_flatMap.2 ⟨p, hp, hb⟩, rfl⟩

/-- The frame of a store. -/
theorem State.store_framed (s₀ s : State) (hs : Kept s₀ s) (cls : AccessClass) (f : RegFile) (rel : Bool)
    (all es : List Elem) (pre : List RElem → State → State) (t : State) (hpre : ∀ rs u, MineOnly [] u (pre rs u))
    (h : s.store cls f rel all es pre = .next t) :
    Framed s₀ [] (fun pa => pa ∈ placesOf s₀ f es) t ∧ ∃ rs, Ends s₀ (pre rs) t := by
  unfold State.store at h
  refine State.access_framed s₀ _ hs cls .write f rel all es [] pre t hpre ?_ ?_ h
  · intro h; cases h
  · intro _ rs hrs p hp b hb
    have := resolve_places _ f es rs hrs p hp b hb
    rwa [placesOf_congr s₀ _ f es hs.platform] at this
    obtain ⟨g, v, c, l, e, hm, -⟩ := hs.me
    rw [hm]

end Sys2Proof.Machine
end

