-- ==== Sys2Proof/Tests/Slice0.lean ====
section
/-! SUPPORT. Tests: the words of the encodings, the checks of WellFormed, single steps on a small machine with the
results the vectors of spec/95_test_vectors.md give, and, for every statement with hypotheses, a state that meets
them. -/

namespace Sys2Proof.Tests

open Sys2Proof Sys2Proof.Machine

set_option maxRecDepth 8000
set_option exponentiation.threshold 4096

/-! ### A small machine: two observers with a cache each and one they share, memory, and one peripheral -/

/-- The platform of the tests (the conventions of 95_test_vectors.md). -/
def plat : Platform :=
  { Config.resetPlatform with
    observers := [{ id := 0, inner := 0, outer := 0, path := [⟨0, .inner⟩, ⟨2, .outer⟩] },
                  { id := 1, inner := 0, outer := 0, path := [⟨1, .inner⟩, ⟨2, .outer⟩] }]
    regions := [{ base := 0x9000000, size := 0x10000, block := 1, endpoint := .device 1, conventional := false,
                  supportsUnaligned := false, idempotent := false, ackRequired := true }]
    peripherals := [1]
    reactions := [{ dir := .read, pa := 0x9000380, given := [(0x9000380, 0)], sets := [(0x9000380, 1)] }] }

/-- Write-Back memory with this Shareability. -/
def wb (sh : Shareability) : MemAttr :=
  { ty := .normal { sh := sh, inner := ⟨.wb, none⟩, outer := ⟨.wb, none⟩ }, xs := none }

/-- A Device record. -/
def dev (d : DeviceType) : MemAttr := { ty := .device d, xs := none }

/-- Controls: memory as `a`, the peripheral as Device `d`, at EL1. -/
def ctl (a : MemAttr) (d : DeviceType) : PeCtl :=
  { PeCtl.reset with
    el := .el1, dataDefault := some a
    maps := [{ va := 0x9000000, pa := 0x9000000, size := 0x10000, attr := dev d, stage := .s2, xn := [], walk := [] }] }

/-- The observer of the tests: X0 names memory, X1 holds data, X2 names the peripheral, X3 is a count, X4 a second
address; V1 holds data. -/
def me (c : PeCtl) : Observer :=
  let o : Observer := { Observer.reset with ctl := c }
  ((((((o.setBase 0 0x1000).setBase 1 0x1122334455667788).setBase 2 0x9000300).setBase 3 4).setBase 4 0x2000).setBase 5
    0x9000304).setVec 1 0x0F0E0D0C0B0A09080706050403020100

/-- The contents of memory and of the peripheral. -/
def contents : List Host.Cell :=
  [(0x1000, 0xA0), (0x1001, 0xA1), (0x1002, 0xA2), (0x1003, 0xA3), (0x1004, 0xA4), (0x1005, 0xA5), (0x1006, 0xA6), (0x1007, 0xA7),
   (0x1008, 0xB0), (0x100F, 0xB7), (0x9000300, 0xD0), (0x9000301, 0xD1), (0x9000302, 0xD2), (0x9000303, 0xD3), (0x9000307, 0xD7)]

/-- The machine of the tests. -/
def st (a : MemAttr) (d : DeviceType) (p : Plan) : State :=
  { State.reset with platform := plat, obs := [(0, me (ctl a d)), (1, me (ctl a d))], mem := contents, plan := p }

/-- The state with Inner Shareable memory and a Device-nGnRnE peripheral, and the simple plan. -/
def s0 : State := st (wb .ish) .nGnRnE Plan.simple

/-- The next state of an outcome. -/
def nextOf : Out → Option State
  | .next t => some t
  | _ => none

/-- The refusal of an outcome. -/
def refusalOf : Out → Option Refusal
  | .refused r => some r
  | _ => none

/-- A part of a footprint in the low bytes of a register. -/
def part (addr size : Nat) (r : RegNum) : Elem := { addr := addr, size := size, reg := r, lane := 0, active := true }

/-- An element of a vector, Active or not. -/
def lane (addr k : Nat) (active : Bool) : Elem := { addr := addr, size := 8, reg := 1, lane := 8 * k, active := active }

/-- A register after an outcome. -/
def xAfter (o : Out) (n : RegNum) : Option Word := (nextOf o).map (fun t => t.me.xreg n)

/-- What the current observer reads at a location of memory after an outcome. -/
def byteAfter (o : Out) (pa : Nat) : Option Byte := (nextOf o).map (fun t => t.byteFor 0 0 (wb .ish) pa)

/-- What an observer reads at a location of the peripheral. -/
def periphAfter (o : Out) (pa : Nat) : Option Byte := (nextOf o).map (fun t => Memory.read t.mem pa)

/-- The transactions that arrived: the kinds of their accesses, and the bytes. -/
def traffic (s : State) : List (List AccessKind × List Nat) := s.arrivals.map (fun a => (a.accesses.map Access.kind, a.bytes))

/-- The transactions after an outcome. -/
def trafficAfter (o : Out) : Option (List (List AccessKind × List Nat)) := (nextOf o).map traffic

/-! ### Words, written out from 30_encoding.md R204 -/

/-- DMB: 1101 0101 0000 0011 0011 CRm 1 01 11111, CRm 1011. -/
theorem test_decode_dmb : decodeTableWord 32 0b11010101000000110011101110111111 = some (.dmb 0b1011) := by decide

/-- DSB: 1101 0101 0000 0011 0011 CRm 1 00 11111, CRm 0110. -/
theorem test_decode_dsb : decodeTableWord 32 0b11010101000000110011011010011111 = some (.dsb 0b0110) := by decide

/-- LDNP: sf 0 101 0 000 1 imm7 Rt2 Rn Rt, with sf 1, imm7 -1, Rt2 2, Rn 31, Rt 7. -/
theorem test_decode_ldnpGp : decodeTableWord 32 0b10101000011111111000101111100111 = some (.ldnpGp 1 0x7F 2 31 7) := by decide

/-- LDNP (SIMD&FP): opc 101 1 000 1 imm7 Rt2 Rn Rt, with opc 01, imm7 1, Rt2 5, Rn 3, Rt 4. -/
theorem test_decode_ldnpFp : decodeTableWord 32 0b01101100010000001001010001100100 = some (.ldnpFp 1 1 5 3 4) := by decide

/-- LDRAA: 1111 1000 0 S 1 imm9 W 1 Rn Rt, with S 1, imm9 5, W 1, Rn 6, Rt 9. -/
theorem test_decode_ldraa : decodeTableWord 32 0b11111000011000000101110011001001 = some (.ldraa 1 5 1 6 9) := by decide

/-- LDRAB: 1111 1000 1 S 1 imm9 W 1 Rn Rt, with S 0, imm9 256, W 0, Rn 30, Rt 1. -/
theorem test_decode_ldrab : decodeTableWord 32 0b11111000101100000000011111000001 = some (.ldrab 0 256 0 30 1) := by decide

/-- The words of 95_test_vectors.md Part 3 that the table lists. -/
theorem test_decode_programs :
    decodeTableWord 32 0xD5033FBF = some (.dmb 15) ∧ decodeTableWord 32 0xD5033F9F = some (.dsb 15) ∧
    decodeTableWord 32 0xA8400C02 = some (.ldnpGp 1 0 3 0 2) ∧ decodeTableWord 32 0xF8200420 = some (.ldraa 0 0 0 1 0) ∧
    decodeTableWord 32 0xF8A00420 = some (.ldrab 0 0 0 1 0) := by decide

/-- The pattern with opc 11 is no LDNP, and LDP is no row. -/
theorem test_decode_rejects : decodeTableWord 32 0b11101100010000001001010001100100 = none ∧
    decodeTableWord 32 0xA9400C02 = none ∧ decodeTableWord 16 0x3FBF = none := by decide

/-! ### The checks of WellFormed, each with a term it refuses -/

theorem test_wf_ldnpFp : wellFormed (.ldnpFp 3 0 0 0 0) = false ∧ wellFormed (.ldnpFp 2 0 0 0 0) = true := by decide
theorem test_wf_size : wellFormed (.gpSingle .read (part 0 0 1)) = false ∧ wellFormed (.gpSingle .read (part 0 9 1)) = false ∧
    wellFormed (.gpSingle .read (part 0 8 1)) = true := by decide
theorem test_wf_lane : wellFormed (.gpSingle .write { part 0 4 1 with lane := 1 }) = false ∧
    wellFormed (.ld1 [{ part 0 2 1 with lane := 255 }]) = false ∧ wellFormed (.ld1 [{ part 0 1 1 with lane := 255 }]) = true := by
  decide
theorem test_wf_count : wellFormed (.loadExcl ⟨false, []⟩) = false ∧ wellFormed (.loadAcq ⟨false, [part 0 1 0, part 1 1 1, part 2 1 2]⟩) = false ∧
    wellFormed (.gpMulti .read [part 0 8 1]) = false ∧ wellFormed (.simdFp .read []) = false ∧
    wellFormed (.storeExcl 3 ⟨false, [part 0 8 1, part 8 8 2]⟩) = true := by decide
theorem test_wf_elements : wellFormed (.sveUnpred [{ part 0 8 1 with lane := 250 }]) = false ∧
    wellFormed (.svePred [lane 0 0 true, lane 8 32 true]) = false ∧ wellFormed (.sveNonFault []) = true := by decide

/-! ### One step of each instruction -/

/-- The step of a word of the table, from the machine of the tests, whose next plan is the simple one. -/
def stepWord (s : State) (w : Nat) : Out :=
  step { (s.withFetchWord 32 w) with inputs := [.run s.plan] }

/-- DMB SY stands before the next access and leaves no access in flight (R211). -/
theorem test_dmb : (nextOf (stepWord s0 0xD5033FBF)).map (fun t => (t.me.marks, t.inflight.length)) =
    some ([{ kind := .dmb, option := 15, at_ := 0 }], 0) := by decide

/-- A Device-nGnRnE write in flight whose endpoint must acknowledge, made by the current observer. -/
def pendingWrite (d : DeviceType) : Xact :=
  { id := 0, instr := 0, obs := 0, cls := .gpStore, dir := .write, bs := [⟨0x9000300, 0, 0, 0x55, none⟩], extra := false, release := false, attr := dev d,
    dt := some d, dst := none, repeatable := false, multi := false, fwd := false, hold := none, fuel := 9 }

/-- The machine with that write in flight. -/
def busy (d : DeviceType) : State := { st (wb .ish) d Plan.simple with inflight := [pendingWrite d], nextId := 1, nextInstr := 1 }

/-- V24: the write has arrived when the DSB completes. -/
theorem test_dsb_waits : (nextOf (exec (.dsb 15) (busy .nGnRnE))).map (fun t => (t.inflight.length, traffic t)) =
    some (0, [([.explicitWrite], [0x9000300])]) := by decide

/-- V25: with Early Write Acknowledgement the DSB may complete first. -/
theorem test_dsb_early : (nextOf (exec (.dsb 15) (busy .nGnRE))).map (fun t => (t.inflight.length, traffic t)) = some (1, []) := by
  decide

/-- LDNP X2, X3, [X0] with a positive offset of one doubleword pair (R217). -/
theorem test_ldnpGp : xAfter (stepWord s0 0xA8400C02) 2 = some 0xA7A6A5A4A3A2A1A0 ∧
    xAfter (stepWord s0 0xA8400C02) 3 = some 0xB7000000000000B0 := by decide

/-- V6: on a non-Gathering peripheral exactly the explicit bytes are read, by two accesses (offset 6 doublewords). -/
theorem test_ldnpGp_device : trafficAfter (exec (.ldnpGp 1 0x6 3 2 6) s0) =
    some [([.explicitRead], List.range' 0x9000330 8), ([.explicitRead], List.range' 0x9000338 8)] := by decide

/-- LDNP of two S registers (opc 00): 4 bytes each. -/
theorem test_ldnpFp : (nextOf (exec (.ldnpFp 0 0 3 0 2) s0)).map (fun t => (getLane (t.me.vec 2) 3, getLane (t.me.vec 3) 0)) =
    some (0xA3, 0xA4) := by decide

/-- LDRAA with the check passed writes the address back and loads (R227; P6). -/
theorem test_ldraa : xAfter (exec (.ldraa 0 1 1 0 7) s0) 7 = some 0xB7000000000000B0 ∧
    (nextOf (exec (.ldraa 0 1 1 0 7) s0)).map (fun t => t.me.base 0) = some 0x1008 := by decide

/-- V14: the check fails, the endpoint sees one read, at once or later, none at an unaligned address. -/
theorem test_ldraa_fails :
    trafficAfter (exec (.ldraa 0 0 0 2 7) { s0 with plan := { Plan.simple with authOk := false, authRead := true } }) =
      some [([.explicitRead], List.range' 0x9000300 8)] ∧
    (nextOf (exec (.ldraa 0 0 0 2 7) { s0 with plan := { Plan.simple with authOk := false, authRead := true, rest := false } })).map
      (fun t => (traffic t, t.inflight.map (fun x => (x.dst, x.repeatable)))) = some ([], [(none, false)]) ∧
    trafficAfter (exec (.ldraa 0 0 0 5 7) { s0 with plan := { Plan.simple with authOk := false, authRead := true } }) = some [] := by
  decide

/-- LDRAB with a negative offset: S 1, imm9 511 is -1. -/
theorem test_ldrab : (nextOf (exec (.ldrab 1 511 1 0 7) s0)).map (fun t => t.me.base 0) = some 0xFF8 := by decide

/-- CPY of 4 bytes from X0 to X4 (R228). -/
theorem test_cpy : byteAfter (exec (.cpy 4 0 3) s0) 0x2003 = some 0xA3 ∧ byteAfter (exec (.cpy 4 0 3) s0) 0x2004 = some 0 := by
  decide

/-- Two copies from the peripheral, of four bytes each, with all their accesses in flight: numbers 0 to 3 and 8 to 11 read. -/
def copying : Option State :=
  (nextOf (exec (.cpy 4 2 3) { s0 with plan := { Plan.simple with rest := false } })).bind (fun t => nextOf (exec (.cpy 4 5 3) t))

/-- R148: reads of two copies may be one transaction, though the memory is non-Gathering. -/
theorem test_copies_gathered : (copying.map (fun t => traffic (t.deliverGroup [0, 8] []))) =
    some [([.explicitRead, .explicitRead], [0x9000300, 0x9000304])] := by decide

/-- R162, R228: a copy's reads come in any order, and a write waits for the byte it writes. -/
theorem test_copy_waits : copying.map (fun t => (traffic (t.deliverGroup [4] []), traffic (t.deliverGroup [1] []),
      Memory.read ((t.deliverGroup [1] []).deliverGroup [5] []).mem 0x2001)) =
    some ([], [([.explicitRead], [0x9000301])], 0xD1) := by decide

/-- V15 (c): with Xn = 0 nothing is read. -/
theorem test_cpy_nothing : trafficAfter (exec (.cpy 4 2 8) s0) = some [] := by decide

/-- V15 (d), R229: a set writes its low byte to each location, and no byte more. -/
theorem test_memSet : byteAfter (exec (.memSet 0x1001 2 1) s0) 0x1002 = some 0x88 ∧
    byteAfter (exec (.memSet 0x1001 2 1) s0) 0x1003 = some 0xA3 := by decide

/-- LD1 of one 4-byte register (R218). -/
theorem test_ld1 : (nextOf (exec (.ld1 [part 0x1004 4 6]) s0)).map (fun t => (getLane (t.me.vec 6) 0, getLane (t.me.vec 6) 3)) =
    some (0xA4, 0xA7) := by decide

/-- V42 (i), X5: an ST1 across the boundary between Normal and Device memory is refused. -/
theorem test_st1_boundary : refusalOf (exec (.st1 [part 0x8FFFFFC 8 1]) s0) = some .attributeBoundary := by decide

theorem test_st1 : byteAfter (exec (.st1 [part 0x1000 4 1]) s0) 0x1002 = some 0x02 := by decide

/-- A Load-Exclusive marks its bytes (R213). -/
theorem test_loadExcl : (nextOf (exec (.loadExcl ⟨false, [part 0x1000 2 6]⟩) s0)).map (fun t => (t.me.xreg 6 &&& 0xFFFF, t.me.excl.map Reservation.bytes)) =
    some (0xA1A0, some [(0x1000, wb .ish), (0x1001, wb .ish)]) := by decide

/-- The machine with a reservation of the current observer on two bytes, lost to another's write or not. -/
def reserved (lost : Bool) (p : Plan) : State :=
  { s0 with plan := p, obs := [(0, { me (ctl (wb .ish) .nGnRnE) with excl := some ⟨[(0x1000, wb .ish), (0x1001, wb .ish)], lost⟩ }), (1, me (ctl (wb .ish) .nGnRnE))] }

/-- R75: a Store-Exclusive at a reservation that another observer's write was taken into account at fails. -/
theorem test_storeExcl_fails : xAfter (exec (.storeExcl 9 ⟨false, [part 0x1000 2 1]⟩) (reserved true Plan.simple)) 9 = some 1 ∧
    byteAfter (exec (.storeExcl 9 ⟨false, [part 0x1000 2 1]⟩) (reserved true Plan.simple)) 0x1000 = some 0xA0 := by decide

/-- N3 gives no other rule: with its reservation, or without one, it may succeed (R213). -/
theorem test_storeExcl : ∀ s ∈ [reserved false Plan.simple, s0], xAfter (exec (.storeExcl 9 ⟨false, [part 0x1000 2 1]⟩) s) 9 = some 0 ∧
    byteAfter (exec (.storeExcl 9 ⟨false, [part 0x1000 2 1]⟩) s) 0x1001 = some 0x77 := by decide

/-- Acquire and release stand in program order (R214). -/
theorem test_loadAcq : (nextOf (exec (.loadAcq ⟨false, [part 0x1000 1 6]⟩) s0)).map (fun t => t.me.marks) =
    some [{ kind := .acquire, option := 0, at_ := 0 }] := by decide

theorem test_storeRel : (nextOf (exec (.storeRel ⟨false, [part 0x9000300 4 1]⟩) s0)).map (fun t => (t.me.marks, Memory.read t.mem 0x9000303)) =
    some ([{ kind := .release, option := 0, at_ := 0 }], 0x55) := by decide

/-- V4: exactly the explicit bytes, once. -/
theorem test_gpSingle_load : trafficAfter (exec (.gpSingle .read (part 0x9000304 4 6))
    { s0 with plan := { Plan.simple with extra := [0x9000300] } }) = some [([.explicitRead], List.range' 0x9000304 4)] := by decide

/-- V40 (i): an unaligned access to Device memory takes the Alignment fault of the stage that defined it Device. -/
theorem test_gpSingle_unaligned : (nextOf (exec (.gpSingle .read (part 0x9000306 4 6)) s0)).map (fun t => (t.me.handler.map Handler.cause, traffic t)) =
    some (some (.alignment .s2), []) := by decide

/-- V17 (iii), the halves of one register: a store of 4 bytes arrives as one write. -/
theorem test_gpSingle_store : trafficAfter (exec (.gpSingle .write (part 0x9000304 4 1)) s0) =
    some [([.explicitWrite], List.range' 0x9000304 4)] := by decide

/-- V43 (ii): a pair in two granules of Device memory is refused. -/
theorem test_gpMulti_granule : refusalOf (exec (.gpMulti .read [part 0x9000FF8 8 6, part 0x9001000 8 7]) s0) = some .granuleBoundary := by
  decide

/-- N2: where `classify` makes an aligned pair one single-copy atomic access, it is one access of 16 bytes; else two. -/
theorem test_gpMulti_whole : [0x9000310, 0x9000318].map (fun a => trafficAfter (exec (.gpMulti .read [part a 8 6, part (a + 8) 8 7])
      { s0 with platform := { plat with atomicWholes := [{ cls := .gpMultiLoad, sizes := [8, 8], align := 16 }] } })) =
    [some [([.explicitRead], List.range' 0x9000310 16)],
     some [([.explicitRead], List.range' 0x9000318 8), ([.explicitRead], List.range' 0x9000320 8)]] := by decide

/-- R174: also such an access of a pair may be performed twice, though its location is non-Gathering; that of one register may
not (R145). -/
theorem test_gpMulti_repeats : let twice : Plan := { Plan.simple with acts := [{ ks := [0], again := [0] }] }
    let pairs : Platform := { plat with atomicWholes := [{ cls := .gpMultiLoad, sizes := [8, 8], align := 16 }] }
    trafficAfter (exec (.gpMulti .read [part 0x9000310 8 6, part 0x9000318 8 7]) { s0 with plan := twice, platform := pairs }) =
      some [([.explicitRead], List.range' 0x9000310 16), ([.explicitRead], List.range' 0x9000310 16)] ∧
    trafficAfter (exec (.gpSingle .read (part 0x9000310 8 6)) { s0 with plan := twice }) =
      some [([.explicitRead], List.range' 0x9000310 8)] := by decide

theorem test_gpMulti_store : byteAfter (exec (.gpMulti .write [part 0x1000 8 1, part 0x1008 8 3]) s0) 0x1007 = some 0x11 ∧
    byteAfter (exec (.gpMulti .write [part 0x1000 8 1, part 0x1008 8 3]) s0) 0x1008 = some 4 := by decide

/-- V1: a read of 4 bytes may touch its 16-byte window, and no byte outside it. -/
theorem test_simdFp_window : trafficAfter (exec (.simdFp .read [part 0x9000304 4 6])
    { s0 with plan := { Plan.simple with extra := [0x900030F, 0x9000310] } }) =
    some [([.explicitRead], List.range' 0x9000304 4), ([.extraRead], [0x900030F])] := by decide

theorem test_simdFp_store : periphAfter (exec (.simdFp .write [part 0x9000308 4 1]) s0) 0x9000309 = some 0x01 := by decide

/-- In Streaming SVE mode without FA64 the access may behave as Device-GRE (R184); it is an ordinary one otherwise. -/
theorem test_simdFpStreaming : (nextOf (exec (.simdFpStreaming .write [part 0x9000308 4 1])
      { (s0.setMe { s0.me with ctl := { s0.me.ctl with streamingSve := true } }) with
        plan := { Plan.simple with relaxed := true, rest := false } })).map (fun t => t.inflight.map Xact.dt) = some [some .GRE] ∧
    (nextOf (exec (.simdFpStreaming .write [part 0x9000308 4 1])
      { s0 with plan := { Plan.simple with relaxed := true, rest := false } })).map (fun t => t.inflight.map Xact.dt) =
      some [some .nGnRnE] := by decide

/-- V7: the windows of an unpredicated load are 64 bytes. -/
theorem test_sveUnpred : trafficAfter (exec (.sveUnpred [lane 0x9000330 0 true])
    { s0 with plan := { Plan.simple with extra := [0x900033F, 0x9000340] } }) =
    some [([.explicitRead], List.range' 0x9000330 8), ([.extraRead], [0x900033F])] := by decide

/-- V8: the windows of a predicated load are those of its Active elements. -/
theorem test_svePred : trafficAfter (exec (.svePred [lane 0x9000330 0 true, lane 0x9000338 1 false, lane 0x9000340 2 false])
    { s0 with plan := { Plan.simple with extra := [0x9000338, 0x9000340] } }) =
    some [([.explicitRead], List.range' 0x9000330 8), ([.extraRead], [0x9000338])] := by decide

/-- V9: with no Active element nothing is read. -/
theorem test_svePred_none : trafficAfter (exec (.svePred [lane 0x9000330 0 false])
    { s0 with plan := { Plan.simple with extra := [0x9000330] } }) = some [] := by decide

/-- V10: the windows of a non-temporal load are 128 bytes. -/
theorem test_svePredNT : trafficAfter (exec (.svePredNT [lane 0x9000330 0 true])
    { s0 with plan := { Plan.simple with extra := [0x900037F, 0x9000380] } }) =
    some [([.explicitRead], List.range' 0x9000330 8), ([.extraRead], [0x900037F])] := by decide

/-- V12: the First active element is read, the others are reported and not read (FFR all ones before). -/
theorem test_sveFirstFault : (nextOf (exec (.sveFirstFault [lane 0x9000300 0 false, lane 0x9000308 1 true, lane 0x9000310 2 true])
    (s0.setMe { s0.me with ffr := 0xFF }))).map (fun t => (t.me.ffr, traffic t)) =
    some (3, [([.explicitRead], List.range' 0x9000308 8)]) := by decide

/-- V11: no Device byte is read and every element is reported. -/
theorem test_sveNonFault : (nextOf (exec (.sveNonFault [lane 0x9000300 0 true, lane 0x9000308 1 true])
    (s0.setMe { s0.me with ffr := 0xFF }))).map (fun t => (t.me.ffr, traffic t)) = some (0, []) := by decide

/-- V13: no access to Device memory of any kind; a line of Normal memory may be allocated. -/
theorem test_svePrefetch : (nextOf (exec (.svePrefetch [lane 0x9000300 0 true, part 0x1000 1 1])
    { s0 with plan := { Plan.simple with alloc := some 0 } })).map (fun t => (traffic t, t.lines)) =
    some ([([.specRead], [0x1000])], [{ unit := some 0, pa := 0x1000, val := 0xA0, dirty := false, writer := 0, attr := wb .ish }]) := by decide

/-- R226: exactly the bytes of the Active elements. -/
theorem test_sveStore : byteAfter (exec (.sveStore [lane 0x1000 0 false, lane 0x1008 1 true]) s0) 0x1008 = some 0x08 ∧
    byteAfter (exec (.sveStore [lane 0x1000 0 false, lane 0x1008 1 true]) s0) 0x1000 = some 0xA0 := by decide

/-- A dirty copy of a location. -/
def dirtyAt (pa : Nat) (v : Byte) (a : MemAttr) : Line := { unit := some 0, pa := pa, val := v, dirty := true, writer := 0, attr := a }

/-- R230, R143: a dirty copy of a named location is written back. -/
theorem test_cacheMaint : (nextOf (exec (.cacheMaint 0x1000 2) { s0 with lines := [dirtyAt 0x1001 0x77 (wb .ish)] })).map
    (fun t => (t.lines.length, Memory.read t.mem 0x1001)) = some (0, 0x77) := by decide

/-- V36: a Write-Back write may stay in a cache; the writer reads it. -/
theorem test_writeBack_stays : (nextOf (exec (.gpSingle .write (part 0x1000 1 1)) { s0 with plan := { Plan.simple with hold := some 0 } })).map
    (fun t => (Memory.read t.mem 0x1000, t.byteFor 0 0 (wb .ish) 0x1000)) = some (0xA0, 0x88) := by decide

/-! ### Inputs -/

/-- V39: an access with a Normal record to a location that is not idempotent is refused. -/
theorem test_nonIdempotent : refusalOf (exec (.gpSingle .read (part 0x9000304 4 6))
    (s0.setMe { s0.me with ctl := { s0.me.ctl with maps := [] } })) = some .nonIdempotentNormal := by decide

/-- V34: a location accessed with a record of another cacheability before is refused. -/
theorem test_mismatched : refusalOf (exec (.gpSingle .read (part 0x1000 4 6)) { s0 with touched := [(0x1000, wb .osh)] }) =
    some .mismatchedAttributes := by decide

/-- V41: under TGE and not DC the fault is at stage 1 and the syndrome's bit 24 is 0. -/
theorem test_tge : (nextOf (exec (.gpSingle .read (part 0x9000306 4 6))
    { (s0.setMe { s0.me with ctl := { s0.me.ctl with hcrTGE := true } }) with
      plan := { Plan.simple with syndrome := BitVec.allOnes 64 } })).map (fun t => (t.me.handler.map Handler.cause, t.me.esr)) =
    some (some (.alignment .s1), 0xFFFFFFFFFEFFFFFF) := by decide

/-- V44: a change at the endpoint is read by both observers. -/
theorem test_endpointChange : (nextOf (s0.handle (.endpointChange 0x9000300 1))).map
    (fun t => (t.byteFor 0 0 (dev .nGnRE) 0x9000300, t.byteFor 1 0 (dev .nGnRE) 0x9000300)) = some (1, 1) := by decide

/-- The step runs the word that withFetchWord places: the pair load of the test above, with no input and the plan
nothing fixes, is the load or an exception of it, and no slot stays. -/
theorem test_withFetchWord : (s0.withFetchWord 32 0xA8400C02).me.program =
    [{ va := none, code := .bytes [0x02, 0x0C, 0x40, 0xA8] }] := by decide

/-- An exception between two instructions holds the program; the return lets it go on (R250). -/
theorem test_exception_holds : (nextOf (s0.handle (.exception 0))).map (fun t => t.me.handler.map Handler.cause) = some (some .external) ∧
    ((nextOf (s0.handle (.exception 0))).bind (fun t => nextOf (t.handle (.exceptionReturn 0 false)))).map (fun t => t.me.handler) =
      some none := by decide

/-! ### Statements with hypotheses: a state that meets them -/

/-- DecodeOfEncodeIsIdentity: a word for each instruction that has one. -/
theorem wit_encode : ∀ i ∈ [Instr.dmb 11, .dsb 0, .ldnpGp 1 0x7F 2 31 7, .ldnpFp 2 1 5 3 4, .ldraa 1 5 1 6 9, .ldrab 0 256 0 30 1],
    (encode i).isSome = true ∧ wellFormed i = true := by decide

/-- EncodeOfDecodeIsIdentity. -/
theorem wit_decode : decode 0xD5033FBF = .ok (.dmb 15) ∧ decode 0x6C410C02 = .ok (.ldnpFp 1 2 3 0 2) := ⟨rfl, rfl⟩

/-- A slot that holds the word of a pair load and is fetched from memory. -/
def slotAt (va : Option Nat) : Slot := { va := va, code := .bytes (bytesOfWord 0xA8400C02) }

/-- The machine of the tests with a program. -/
def withProgram (s : State) (slots : List Slot) (es : List Event) : State :=
  { (s.setMe { s.me with program := slots }) with inputs := es }

/-- StepRunsTheDecodedInstruction: with a run input and a fetch from memory. -/
theorem wit_step_run : ∃ (s : State) (t : State), s.inputs = [.run Plan.simple] ∧ s.me.handler = none ∧
    s.me.program = [slotAt (some 0x40)] ∧ (∃ bs tail, (slotAt (some 0x40)).code = .bytes bs ∧
      decodeBytes bs = .ok (.ldnpGp 1 0 3 0 2, tail)) ∧
    (∀ imm7 rt2 rn rt, Instr.ldnpGp 1 0 3 0 2 ≠ .ldnpFp 3 imm7 rt2 rn rt) ∧
    (({ s with inputs := [], plan := Plan.simple } : State).begin (slotAt (some 0x40)) []).fetchAccess (slotAt (some 0x40)) = .go t :=
  ⟨withProgram s0 [slotAt (some 0x40)] [.run Plan.simple], _, rfl, rfl, rfl, ⟨_, _, rfl, rfl⟩, fun _ _ _ _ h => Instr.noConfusion h, rfl⟩

/-- The same with no input waiting, an instruction of a class, whose footprint WellFormed would refuse, and no fetch address. -/
theorem wit_step_idle : let c : Code := .inst (.loadExcl ⟨false, []⟩)
    ∃ (s : State) (t : State), s.inputs = [] ∧ s.me.handler = none ∧
    s.me.program = [{ va := none, code := c }] ∧ (∀ imm7 rt2 rn rt, Instr.loadExcl ⟨false, []⟩ ≠ .ldnpFp 3 imm7 rt2 rn rt) ∧
    (({ s with inputs := [], plan := Config.freePlan s.clock } : State).begin { va := none, code := c } []).fetchAccess
      { va := none, code := c } = .go t :=
  ⟨withProgram s0 [{ va := none, code := .inst (.loadExcl ⟨false, []⟩) }] [], _, rfl, rfl, rfl,
    fun _ _ _ _ h => Instr.noConfusion h, rfl⟩

/-- ExceptionsHoldTheProgram. -/
theorem wit_exceptions : (s0.getObs 1).handler = none ∧
    (∃ s : State, s.inputs = [.run Plan.simple] ∧ s.me.handler = some { cause := .abandoned, slot := some (slotAt none), restarts := true }) ∧
    ∃ s : State, s.inputs = [] ∧ s.me.handler = some { cause := .external, slot := none, restarts := false } :=
  ⟨rfl, ⟨{ (s0.setMe { s0.me with handler := some { cause := .abandoned, slot := some (slotAt none), restarts := true } }) with
    inputs := [.run Plan.simple] }, rfl, rfl⟩,
   { s0 with obs := [(0, { me (ctl (wb .ish) .nGnRnE) with handler := some { cause := .external, slot := none, restarts := false } })] }, rfl, rfl⟩

/-- RecordsAreAsTheRulesSay: Non-cacheable at both levels, at one, and a walk without stage 2. -/
theorem wit_records : (∃ n : NormalAttr, n.inner.c = .nc ∧ n.outer.c = .nc) ∧
    (∃ n : NormalAttr, n.inner.c = .nc ∧ n.outer.c ≠ .nc) ∧ (∃ w : WalkRef, w.s2 = none) :=
  ⟨⟨⟨.nsh, ⟨.nc, none⟩, ⟨.nc, none⟩⟩, rfl, rfl⟩, ⟨⟨.nsh, ⟨.nc, none⟩, ⟨.wb, none⟩⟩, rfl, by decide⟩, ⟨⟨0, 8, none, none⟩, rfl⟩⟩

/-- Memory with this read hint at the inner level. -/
def hinted (b : Bool) : MemAttr :=
  { ty := .normal { sh := .ish, inner := ⟨.wb, some ⟨b, false, none⟩⟩, outer := ⟨.wb, none⟩ }, xs := none }

/-- HintsChangeNothing: V34. -/
theorem wit_hints : (hinted true).eraseHints = (hinted false).eraseHints ∧ hinted true ≠ hinted false := by decide

/-- R81, R85: a walk made with one record is one that was made with another that differs in the hints alone. -/
theorem test_hints_walk : let w : WalkRef := { pa := 0x800, size := 8, s2 := none, xs := none }
    let s := s0.logArrival (({ kind := .walkRead, obs := some 0, dir := .read, bytes := w.bytes, attr := some (hinted true) } : Access).arrival plat)
    s.hasWalked 0 (hinted false) w = true ∧ s.hasWalked 0 (wb .nsh) w = false := by decide

/-- The machine of the tests with a boundary of hints alone at 0x1004. -/
def hintBoundary : State :=
  s0.setMe { s0.me with ctl := { s0.me.ctl with maps :=
    [{ va := 0x1000, pa := 0x1000, size := 4, attr := hinted true, stage := .s1, xn := [], walk := [] },
     { va := 0x1004, pa := 0x1004, size := 4, attr := hinted false, stage := .s1, xn := [], walk := [] }] } }

/-- An aligned access of one register over that boundary is one access, of all its bytes, which is not repeated (R85). -/
theorem test_hintBoundary : (match resolve hintBoundary.platform hintBoundary.me .gp [part 0x1000 8 6] with
    | .ok rs => (xactsOf hintBoundary (hintBoundary.reqOf .gpLoad .read .gp false [part 0x1000 8 6] rs [])).map (fun x => (x.bs.length, x.repeatable))
    | .error _ => []) = [(8, false)] := by decide

/-- RegistersHoldWhatIsWritten, at the last byte of each file and between files. -/
theorem wit_registers : ((31 : RegNum) ≠ 30 ∧ 7 < 8) ∧ 255 < 256 ∧ (RegFile.gp, (3 : RegNum), 0) ≠ (RegFile.vec, (3 : RegNum), 0) := by
  decide

/-! Loads and stores -/

/-- One of each plain load, in memory and in the peripheral. -/
def plainLoads (addr : Nat) : List Instr :=
  [.ldnpGp 1 0 6 0 7, .ldnpGp 0 0 31 0 7, .ldnpFp 0 0 6 0 7, .ldnpFp 1 0 6 0 7, .ldnpFp 2 0 6 0 7, .ld1 [part addr 4 6],
   .gpSingle .read (part addr 8 6), .gpMulti .read [part addr 8 6, part (addr + 8) 8 7], .simdFp .read [part addr 16 6],
   .simdFpStreaming .read [part addr 4 6], .sveUnpred [lane addr 0 true, lane (addr + 8) 1 true],
   .svePred [lane addr 0 true, lane (addr + 8) 1 false], .svePredNT [lane addr 0 false, lane (addr + 8) 1 true]]

/-- What PlainLoadsDeliverTheirBytes asks of an instruction. -/
def meetsPlainLoad (s : State) (i : Instr) : Bool :=
  (plainLoadForm i s).any (fun l => featurePresent i s.platform &&
    admitted s l.cls (l.file, l.es) (l.file, []) l.first && quiet s l.cls (l.file, l.es) (l.file, []) l.first)

theorem sequential_s0 : Sequential s0 := ⟨rfl, rfl, rfl, rfl⟩

/-- PlainLoadsDeliverTheirBytes: each plain load, in memory. -/
theorem wit_plainLoads : ∀ i ∈ plainLoads 0x1000, meetsPlainLoad s0 i = true := by decide

/-- The same in the peripheral. -/
theorem wit_plainLoads_device : ∀ i ∈ plainLoads 0x9000310, meetsPlainLoad s0 i = true := by decide

/-- OrderedLoadsDeliverAndMark, one register and a pair. -/
theorem wit_orderedLoads : wellFormed (.loadExcl ⟨false, [part 0x1000 8 6, part 0x1008 8 7]⟩) = true ∧
    admitted s0 .loadExclusive (.gp, [part 0x1000 8 6, part 0x1008 8 7]) (.gp, []) [] = true ∧
    quiet s0 .loadExclusive (.gp, [part 0x1000 8 6, part 0x1008 8 7]) (.gp, []) [] = true ∧
    admitted s0 .loadAcquire (.gp, [part 0x1000 1 6]) (.gp, []) [] = true ∧ quiet s0 .loadAcquire (.gp, [part 0x1000 1 6]) (.gp, []) [] = true ∧
    admitted s0 .simdFpLoad (.vec, [part 0x1000 16 6]) (.vec, []) [] = true ∧ quiet s0 .simdFpLoad (.vec, [part 0x1000 16 6]) (.vec, []) [] = true := by
  decide

/-- Elements of which one is not Active, one lies in memory, and two in the peripheral. -/
def mixed : List Elem := [lane 0x1000 0 false, lane 0x9000308 1 true, lane 0x1010 2 true, lane 0x9000310 3 true]

/-- SuppressedElementsAreReported: the first Active element is Device memory, or is suppressed. -/
theorem wit_suppressed : s0.platform.haveSVE = true ∧
    admitted s0 .sveFirstFault (.vec, s0.unsuppressed true mixed) (.vec, []) (firstActive mixed) = true ∧
    quiet s0 .sveFirstFault (.vec, s0.unsuppressed true mixed) (.vec, []) (firstActive mixed) = true ∧
    admitted s0 .sveNonFault (.vec, s0.unsuppressed false mixed) (.vec, []) [] = true ∧
    quiet s0 .sveNonFault (.vec, s0.unsuppressed false mixed) (.vec, []) [] = true ∧
    suppressedAt s0 true mixed 1 = false ∧ suppressedAt s0 true mixed 3 = true ∧ suppressedAt s0 false mixed 1 = true := by decide

/-- AuthenticatedLoadsDeliver: with write back of SP's number 31 and without; X2 names the peripheral. -/
theorem wit_auth : s0.platform.havePAUTH = true ∧ s0.plan.authOk = true ∧
    admitted s0 .ldrax (.gp, [authElem (authAddr (s0.me.base 2) 0 1) 6]) (.gp, []) [] = true ∧
    quiet s0 .ldrax (.gp, [authElem (authAddr (s0.me.base 2) 0 1) 6]) (.gp, []) [] = true := by decide

/-- The machine where a check fails and its read is made. -/
def failing (raise : Bool) : State := { s0 with plan := { Plan.simple with authOk := false, authRead := true, authRaise := raise } }

/-- FailedChecksReadAtMostOnce, for each of its clauses. -/
theorem wit_auth_fails : ∀ r : Bool, (failing r).plan.authOk = false ∧ (failing r).inflight = [] ∧ (failing r).plan.cuts = [] ∧
    admitted (failing r) .ldrax (.gp, [authElem (authAddr ((failing r).me.base 2) 0 0) 6]) (.gp, []) [] = true ∧
    quiet (failing r) .ldrax (.gp, [authElem (authAddr ((failing r).me.base 2) 0 0) 6]) (.gp, []) [] = true ∧
    ∀ b ∈ storeBytes (failing r) .gp [authElem (authAddr ((failing r).me.base 2) 0 0) 6], b.attr = dev .nGnRnE := by decide

/-- One of each store, in memory and in the peripheral. -/
def stores (addr : Nat) : List Instr :=
  [.st1 [part addr 4 1], .gpSingle .write (part addr 8 1), .gpMulti .write [part addr 8 1, part (addr + 8) 8 3],
   .simdFp .write [part addr 16 1], .simdFpStreaming .write [part addr 4 1],
   .sveStore [lane addr 0 true, lane (addr + 8) 1 false], .memSet addr 3 1, .storeRel ⟨false, [part addr 8 1]⟩, .storeRel ⟨true, [part addr 16 1]⟩]

/-- What StoresWriteTheirBytes asks of an instruction, and a location it stores to. -/
def meetsStore (s : State) (addr : Nat) (i : Instr) : Bool :=
  (storeForm i).any (fun q => featurePresent i s.platform && admitted s q.1 (q.2.1, []) (q.2.1, q.2.2) [] &&
    quiet s q.1 (q.2.1, []) (q.2.1, q.2.2) [] &&
    (lastStored (storeBytes s q.2.1 q.2.2) addr).isSome)

/-- StoresWriteTheirBytes, CompletedStoresAreCoherent: each store, in memory and in the peripheral. -/
theorem wit_stores : Memory.wf s0.mem = true ∧ ∀ i ∈ stores 0x1000, meetsStore s0 0x1000 i = true := by decide
theorem wit_stores_device : ∀ i ∈ stores 0x9000310, meetsStore s0 0x9000310 i = true := by decide

/-- Memory of this Shareability and these cacheabilities. -/
def normal (sh : Shareability) (i o : Cacheability) : MemAttr := { ty := .normal ⟨sh, ⟨i, none⟩, ⟨o, none⟩⟩, xs := none }

/-- The platform of the tests with a third observer outside every cache, in the other Inner and the same Outer domain,
and a fourth in another Outer domain. -/
def plat4 : Platform :=
  { plat with observers := plat.observers ++ [{ id := 2, inner := 1, outer := 0, path := [] }, { id := 3, inner := 2, outer := 1, path := [] }] }

/-- The machine with four observers, memory as `a`, observer `o` the current one. -/
def st4 (a : MemAttr) (o : Nat) : State := { s0 with platform := plat4, cur := o, obs := [(0, me (ctl a .nGnRnE)), (1, me (ctl a .nGnRnE)),
  (2, me (ctl a .nGnRnE)), (3, me (ctl a .nGnRnE))] }

/-- A store is admitted there. -/
def storeRuns (s : State) (addr : Nat) : Bool := meetsStore s addr (.gpSingle .write (part addr 4 1))

/-- CompletedStoresAreCoherent, each kind of coherency: Device, Non-cacheable, Inner and Outer Shareable. -/
theorem wit_coherent : domainsValid plat4.observers = true ∧ Memory.wf s0.mem = true ∧
    storeRuns (st4 (wb .ish) 0) 0x9000300 = true ∧
    storeRuns (st4 (normal .nsh .nc .nc) 0) 0x1000 = true ∧ (normal .nsh .nc .nc).isNormalNC = true ∧
    storeRuns (st4 (wb .ish) 0) 0x1000 = true ∧ sameInner plat4 0 1 = true ∧
    storeRuns (st4 (wb .osh) 0) 0x1000 = true ∧ sameOuter plat4 0 2 = true ∧ sameInner plat4 0 2 = false := by decide

/-- Four observers: 0 and 1 inside the Outer level, in two Inner domains, with a cache each and one they share; 2 without a
cache, in the Inner domain of 0; 3 outside the Outer level, in another Outer domain, with a cache. -/
def plat5 : Platform :=
  { plat with observers := [{ id := 0, inner := 0, outer := 0, path := [⟨0, .inner⟩, ⟨2, .outer⟩] },
                            { id := 1, inner := 1, outer := 0, path := [⟨1, .inner⟩, ⟨2, .outer⟩] },
                            { id := 2, inner := 0, outer := 0, path := [] }, { id := 3, inner := 2, outer := 1, path := [⟨3, .inner⟩] }] }

/-- The machine after a store of 88H by one observer, held in a cache, and one of 04H by another, to one location. -/
def twoStores (a : MemAttr) (o u p v : Nat) : Option State :=
  (nextOf (exec (.gpSingle .write (part 0x1000 1 1)) { st4 a o with platform := plat5, plan := { Plan.simple with hold := some u } })).bind
    (fun t => nextOf (exec (.gpSingle .write (part 0x1000 1 3)) { t with cur := p, plan := { Plan.simple with hold := some v } }))

/-- What an observer reads at that location. -/
def readsThere (a : MemAttr) (s : Option State) (o : Nat) : Option Byte := s.map (fun t => t.byteFor o 0 a 0x1000)

/-- R70: the first write stops in a cache that another Inner domain shares, whose observer then writes: the first one's domain
reads its value still. -/
theorem test_shared_cache : readsThere (wb .ish) (twoStores (wb .ish) 0 2 1 1) 2 = some 0x88 ∧
    readsThere (wb .ish) (twoStores (wb .ish) 0 2 1 1) 1 = some 4 := by decide

/-- R82: Write-Through at the Outer level, written inside it and then outside it: an observer outside must see the first write.
R83: Non-cacheable there, written outside it and then inside it: an observer inside must see the first write. -/
theorem test_levels : readsThere (normal .nsh .wb .wt) (twoStores (normal .nsh .wb .wt) 0 0 3 3) 2 = some 0x88 ∧
    readsThere (normal .nsh .wb .nc) (twoStores (normal .nsh .wb .nc) 3 3 1 1) 0 = some 0x88 := by decide

/-- CompletedStoresAreCoherent and WritesAreVisibleAcrossCacheLevels: what caches do by themselves after a store that stops in
one: a write back to the cache two observers share, a speculative read, an eviction, a write back to the endpoint. -/
theorem wit_cacheRun : ∃ t u, exec (.gpSingle .write (part 0x1000 1 1)) { s0 with plan := { Plan.simple with hold := some 0 } } = .next t ∧
    CacheRun t u ∧ u.lines = [] ∧ Memory.read u.mem 0x1000 = 0x88 :=
  ⟨_, _, rfl,
    .next (.writeback (some 2) [0x1000] none)
      (.next (.evict 1 0x1000)
        (.next (.specRead 1 0x1000 1 1 false)
          (.next (.writeback (some 0) [0x1000] (some 2)) .start rfl rfl) rfl rfl) rfl rfl) rfl rfl, by decide, by decide⟩

/-- Between them, the copies: one dirty in the shared cache, one clean above it. -/
theorem test_cacheRun : ((nextOf (exec (.gpSingle .write (part 0x1000 1 1)) { s0 with plan := { Plan.simple with hold := some 0 } })).bind (fun t =>
    (nextOf (t.handle (.writeback (some 0) [0x1000] (some 2)))).bind (fun t => nextOf (t.handle (.specRead 1 0x1000 1 1 false))))).map
    (fun t => t.lines.map (fun l => (l.unit, l.val, l.dirty))) = some [(some 2, 0x88, true), (some 1, 0x88, false)] := by decide

/-- UnseenStoresAreReadStaleOrFresh: Non-shareable memory, held in a cache of its own writer's, and not held. -/
theorem wit_unseen : ∀ h ∈ [some 0, none], let s : State := { st4 (wb .nsh) 0 with plan := { Plan.simple with hold := h } }
    storeRuns s 0x1000 = true ∧ (∃ b ∈ storeBytes s .gp [part 0x1000 4 1], b.pa = 0x1000 ∧ b.attr = wb .nsh) ∧
    mustSee s.platform (wb .nsh) s.cur 1 = false ∧ (∃ i ∈ s.platform.observers, i.id = 1) ∧ s.lines = [] ∧
    (∃ u ∈ (infoOf s.platform s.cur).path, u.id = 0 ∧ (wb .nsh).cacheAt u.tag = .wb ∧ ∀ v ∈ (infoOf s.platform 1).path, v.id ≠ u.id) := by
  decide

/-- R68, V37: the other observer's reads after each. -/
theorem test_unseen : [some 0, none].map (fun h => (nextOf (exec (.gpSingle .write (part 0x1000 1 1))
    { st4 (wb .nsh) 0 with plan := { Plan.simple with hold := h } })).map (fun t => t.byteFor 1 0 (wb .nsh) 0x1000)) =
    [some 0xA0, some 0x88] := by decide

/-- WritesAreVisibleAcrossCacheLevels: Write-Through and Non-cacheable written inside, Non-cacheable written outside. -/
theorem wit_across : insideLevel plat4 0 .inner = true ∧ insideLevel plat4 2 .inner = false ∧
    storeRuns (st4 (normal .nsh .wt .wb) 0) 0x1000 = true ∧ storeRuns (st4 (normal .nsh .nc .wb) 0) 0x1000 = true ∧
    storeRuns (st4 (normal .nsh .nc .wb) 2) 0x1000 = true := by decide

/-- StoreExclusiveWritesUnlessOthersIntervened: with a reservation that is not lost, without one, with a lost one on other
bytes, and, of the second clause, with a lost one on its bytes. -/
theorem wit_storeExcl : (∀ s ∈ [reserved false Plan.simple, s0, reserved true Plan.simple],
      admitted s .storeExclusive (.gp, []) (.gp, [part 0x1000 2 1]) [] = true ∧
      quiet s .storeExclusive (.gp, []) (.gp, [part 0x1000 2 1]) [] = true) ∧
    (reserved false Plan.simple).me.excl.any (fun r => !r.lost && (placesOf (reserved false Plan.simple) .gp [part 0x1000 2 1]).all
      (fun pa => r.bytes.any (fun q => q.1 == pa))) = true ∧
    s0.me.excl = none ∧ s0.plan.exclOk = true ∧
    admitted (reserved true Plan.simple) .storeExclusive (.gp, []) (.gp, [part 0x1002 2 1]) [] = true ∧
    quiet (reserved true Plan.simple) .storeExclusive (.gp, []) (.gp, [part 0x1002 2 1]) [] = true ∧
    (reserved true Plan.simple).me.excl.any (fun r => r.lost &&
      (placesOf (reserved true Plan.simple) .gp [part 0x1002 2 1]).all (fun pa => r.bytes.all (fun q => q.1 != pa)) &&
      (placesOf (reserved true Plan.simple) .gp [part 0x1000 2 1]).any (fun pa => r.bytes.any (fun q => q.1 == pa))) = true := by
  decide

theorem sequential_reserved : Sequential (reserved true Plan.simple) ∧ Sequential (reserved false { Plan.simple with exclOk := false }) :=
  ⟨⟨rfl, rfl, rfl, rfl⟩, ⟨rfl, rfl, rfl, rfl⟩⟩

/-- A write by observer 0 to memory. -/
def memWrite (a : MemAttr) : Xact := { pendingWrite .GRE with bs := [⟨0x1000, 0, 0, 0x55, none⟩], attr := a, dt := none }

/-- N2, N3: another observer may see a write before it completes; the endpoint has not changed. -/
theorem test_observe : let s : State := { s0 with inflight := [memWrite (wb .ish)], nextId := 1, nextInstr := 1 }
    ((nextOf (s.handle (.observe 1 0))).map (fun t => (t.byteFor 1 0 (wb .ish) 0x1000, Memory.read t.mem 0x1000)),
      s.byteFor 1 0 (wb .ish) 0x1000) = (some (0x55, 0xA0), 0xA0) := by decide

/-- Writes of observers 0 and 1 to one location, the first issued by observer 0, and who sees which before it completes. -/
def twoWriters (early : List (Nat × Nat)) : State :=
  { s0 with inflight := [memWrite (wb .osh), { memWrite (wb .osh) with id := 1, instr := 1, obs := 1, bs := [⟨0x1000, 0, 0, 0x66, none⟩] }],
            nextId := 2, nextInstr := 2, early := early }

/-- R70, R71: who has seen both never finds the first again: the second is seen only after the first, and does not complete before
it. -/
theorem test_seen_order : (nextOf ((twoWriters []).handle (.observe 2 1))).map State.early = some [] ∧
    (nextOf ((twoWriters [(0, 2)]).handle (.observe 2 1))).map State.early = some [(0, 2), (1, 2)] ∧
    (nextOf ((twoWriters [(0, 2), (1, 2)]).handle (.deliver [1] []))).map (fun t => t.inflight.map Xact.id) = some [0, 1] ∧
    ((twoWriters [(0, 2), (1, 2)]).force 1 []).inflight = [] ∧
    (nextOf ((twoWriters []).handle (.deliver [1] []))).map (fun t => t.inflight.map Xact.id) = some [0] := by decide

/-- R36: a speculative read that has the old value fills a cache after another observer's write to Non-shareable memory. -/
theorem test_late_fill : (((nextOf ((st4 (wb .nsh) 0).handle (.specRead 1 0x1000 1 1 true))).bind (fun t =>
    nextOf (exec (.gpSingle .write (part 0x1000 1 1)) t))).map (fun t =>
      (t.byteFor 1 0 (wb .nsh) 0x1000, (nextOf (t.handle (.fill 1 0x1000))).map (fun u => u.byteFor 1 0 (wb .nsh) 0x1000)))) =
    some (0x88, some 0xA0) := by decide

/-- The machine where observer 1 holds a reservation with this record. -/
def reservedBy1 (a : MemAttr) : State := { s0 with obs := [(0, me (ctl a .nGnRnE)), (1, { me (ctl a .nGnRnE) with excl := some ⟨[(0x1000, a)], false⟩ })] }

/-- ReservationsTakeOtherObserversIntoAccount: each Shareability (V30). -/
theorem wit_reservations : ∀ sh : Shareability,
    ((reservedBy1 (wb sh)).getObs 1).excl = some ⟨[(0x1000, wb sh)], false⟩ ∧ (memWrite (wb sh)).dir = .write ∧ (1 : Nat) ≠ (memWrite (wb sh)).obs ∧
    (wb sh).effSh = sh ∧ sameInner plat 0 1 = true ∧ sameOuter plat 0 1 = true ∧ plat.nshExclMultiObserver = false := by
  intro sh; cases sh <;> decide

/-- CopyMovesTheBytes: in memory, and from the peripheral. -/
theorem wit_copy : s0.platform.haveMOPS = true ∧ ∀ r ∈ [(0 : RegNum), 2],
    admitted s0 .memCopy (.copy, copyElems (s0.me.xreg r).toNat (s0.me.xreg 3).toNat 0) (.copy, copyElems (s0.me.xreg 4).toNat (s0.me.xreg 3).toNat 0) [] = true ∧
    quiet s0 .memCopy (.copy, copyElems (s0.me.xreg r).toNat (s0.me.xreg 3).toNat 0) (.copy, copyElems (s0.me.xreg 4).toNat (s0.me.xreg 3).toNat 0) [] = true ∧
    (lastStored (copyBytes s0 (s0.me.xreg r).toNat (s0.me.xreg 4).toNat (s0.me.xreg 3).toNat) 0x2001).isSome = true := by decide

/-- CopyOfNothingAccessesNothing: X8 is 0, or number 31. -/
theorem wit_copy_nothing : s0.me.xreg 8 = 0 ∧ s0.me.xreg 31 = 0 := by decide

/-- The addresses of Active elements. -/
def addressesOf (es : List Elem) : List Nat := (activeElems es).flatMap (fun e => List.range' e.addr e.size)

/-- PrefetchNeverTouchesDeviceMemory: a prefetch that allocates, one of Device memory alone, one that does nothing, and one
that is refused. -/
theorem wit_prefetch : s0.recordRefusal (s0.specBytes 0 (addressesOf mixed)) = none ∧ s0.plan.alloc = none ∧
    (∀ va ∈ addressesOf [lane 0x9000300 0 true], ((dataTr s0.platform s0.me.ctl va).map (fun r => r.attr.isDevice)) = some true) ∧
    ({ s0 with touched := [(0x1010, wb .osh)] } : State).recordRefusal (s0.specBytes 0 (addressesOf mixed)) = some .mismatchedAttributes := by
  decide

/-- CacheMaintenanceWritesBack: a dirty copy of a named location. -/
theorem wit_maintenance : ({ s0 with lines := [dirtyAt 0x1001 0x77 (wb .ish), dirtyAt 0x1005 0x66 (wb .ish)] } : State).locations (List.range' 0x1000 2) =
    .ok [0x1000, 0x1001] ∧ s0.plan.maint = true ∧ Memory.wf s0.mem = true := ⟨rfl, rfl, by decide⟩

/-! Barriers -/

/-- A later write of observer 0 to the same peripheral or block. -/
def laterWrite (x : Xact) (pa : Nat) : Xact := { x with id := 1, instr := 2, bs := [⟨pa, 0, 0, 0x66, none⟩] }

/-- The machine with a DMB SY between numbers 0 and 1. -/
def fenced : State := { s0 with obs := [(0, { me (ctl (wb .ish) .nGRE) with marks := [{ kind := .dmb, option := 15, at_ := 1 }] })], nextId := 2, nextInstr := 3 }

/-- DmbOrdersAccessesOfOneBlock: two writes to one peripheral (V21), and two to Non-cacheable memory. -/
theorem wit_dmb_orders : ({ kind := .dmb, option := 15, at_ := 1 } : Mark) ∈ (fenced.getObs 0).marks ∧
    barrierAffects fenced.platform 15 .write .write = true ∧
    (pendingWrite .nGRE).attr.isDevice = true ∧ (laterWrite (pendingWrite .nGRE) 0x9000304).attr.isDevice = true ∧
    blockOf fenced.platform 0x9000300 = blockOf fenced.platform 0x9000304 ∧
    (memWrite (normal .nsh .nc .nc)).attr.isNormalNC = true ∧ blockOf fenced.platform 0x1000 = blockOf fenced.platform 0x1004 ∧
    (pendingWrite .nGRE).instr ≠ (laterWrite (pendingWrite .nGRE) 0x9000304).instr := by decide

/-- What of `NumbersOk` can be computed. -/
theorem numbersOk_of (s : State) (h1 : s.inflight.Pairwise (fun a b => a.id < b.id))
    (h2 : ∀ x ∈ s.inflight, x.id < s.nextId ∧ x.instr < s.nextInstr) (h3 : ∀ x ∈ s.arrived, x.id < s.nextId ∧ x.instr < s.nextInstr)
    (h4 : ∀ e ∈ s.obs, ∀ m ∈ e.2.marks, m.at_ ≤ s.nextId) : NumbersOk s := by
  refine ⟨h1, h2, h3, fun o m hm => ?_⟩
  unfold State.getObs at hm
  generalize s.obs = l at h4 hm
  induction l with
  | nil => cases hm
  | cons e t ih =>
    unfold Observers.get at hm
    split at hm
    · exact h4 _ List.mem_cons_self m hm
    · exact ih (fun e he => h4 e (List.mem_cons_of_mem _ he)) hm

/-- DsbWaitsForTheEndpoint: a write the DSB waits for (V24), and a later one it does not wait for. -/
theorem wit_dsb_waits : let s := { busy .nGnRnE with inflight := [pendingWrite .nGnRnE, { laterWrite (pendingWrite .nGRE) 0x9000308 with obs := 0 }], nextId := 2, nextInstr := 3 }
    NumbersOk s ∧ (∃ x ∈ s.inflight, AwaitedByDsb s 15 x ∧ x.attr.isDevice = true) ∧
    ∃ y ∈ s.inflight, y.obs = s.cur ∧ ∀ x ∈ s.inflight, AwaitedByDsb s 15 x → x.id < y.id := by
  refine ⟨numbersOk_of _ (by decide) (by decide) (by decide) (by decide), ?_, ?_⟩
  · unfold AwaitedByDsb; decide
  · unfold AwaitedByDsb; decide

/-- Of it: an earlier access of another observer, with no write seen before it completes. -/
theorem wit_dsb_others : let s := { busy .nGnRnE with inflight := [{ pendingWrite .nGRE with obs := 1 }, laterWrite (pendingWrite .nGnRnE) 0x9000304], nextId := 2, nextInstr := 3 }
    NumbersOk s ∧ s.early = [] ∧ (∃ x ∈ s.inflight, AwaitedByDsb s 15 x) ∧ ∃ y ∈ s.inflight, y.obs ≠ s.cur := by
  refine ⟨numbersOk_of _ (by decide) (by decide) (by decide) (by decide), rfl, ?_, by decide⟩
  unfold AwaitedByDsb; decide

/-- Its second clause: writes it does not wait for (V25). -/
theorem wit_dsb_nothing : ∀ x ∈ (busy .nGnRE).inflight, x.obs = (busy .nGnRE).cur → x.dir = .write → x.dt = some .nGnRnE →
    ∀ b ∈ x.bs, (regionAt (busy .nGnRE).platform b.pa).ackRequired = false := by decide

/-! Frames -/

/-- LoadsFrame: every load completes in the machine of the tests, also with an earlier write in flight. -/
theorem wit_loads_frame : ∀ i ∈ plainLoads 0x1000 ++ [.loadExcl ⟨true, [part 0x1000 8 6]⟩, .loadAcq ⟨false, [part 0x1000 8 6]⟩,
      .loadAcq ⟨true, [part 0x1000 16 6]⟩, .sveFirstFault mixed, .sveNonFault mixed],
    (∃ l, loadForm i s0 = some l) ∧ (nextOf (exec i s0)).isSome = true ∧ (nextOf (exec i (busy .nGnRE))).isSome = true := by
  have h : ∀ i ∈ plainLoads 0x1000 ++ [.loadExcl ⟨true, [part 0x1000 8 6]⟩, .loadAcq ⟨false, [part 0x1000 8 6]⟩,
      .loadAcq ⟨true, [part 0x1000 16 6]⟩, .sveFirstFault mixed, .sveNonFault mixed],
      (loadForm i s0).isSome = true ∧ (nextOf (exec i s0)).isSome = true ∧ (nextOf (exec i (busy .nGnRE))).isSome = true := by decide
  exact fun i hi => ⟨Option.isSome_iff_exists.1 (h i hi).1, (h i hi).2⟩

/-- StoresFrame: every store completes. -/
theorem wit_stores_frame : ∀ i ∈ stores 0x1000, (storeForm i).isSome = true ∧ (nextOf (exec i s0)).isSome = true ∧
    (nextOf (exec i (busy .nGnRE))).isSome = true := by decide

/-- OtherInstructionsFrame: each of them completes. -/
theorem wit_others_frame : ∀ i ∈ [Instr.storeExcl 9 ⟨true, [part 0x1000 2 1]⟩, .storeExcl 31 ⟨false, [part 0x1000 2 1]⟩, .ldraa 0 1 1 0 7, .ldrab 0 1 0 0 31, .dsb 15, .cpy 4 0 3],
    (nextOf (exec i s0)).isSome = true ∧ (nextOf (exec i (busy .nGnRE))).isSome = true := by decide

/-! Refusals and exceptions -/

/-- The bytes of a footprint that resolves. -/
def got (r : Except Nat (List RElem)) : List RElem :=
  match r with
  | .ok x => x
  | .error _ => []

/-- Some footprint, if it resolves. -/
theorem got_ok (r : Except Nat (List RElem)) (h : (got r).isEmpty = false) : r = .ok (got r) := by
  cases r with
  | ok x => rfl
  | error _ => cases h

/-- A load reaches its checks with the bytes of its parts. -/
theorem reaches_load (i : Instr) (s : State) (m : MemForm) (hm : memForm i s = some m) (h0 : s.inflight = [])
    (hf : featurePresent i s.platform = true) (ha : authPasses i s = true)
    (hr : (got (resolve s.platform s.me m.file m.rd)).isEmpty = false) (hw : m.wr = []) (hx : m.first = []) :
    Reaches i s m (got (resolve s.platform s.me m.file m.rd)) [] [] :=
  ⟨hm, h0, hf, ha, got_ok _ hr, by rw [hw]; rfl, by rw [hx]; rfl⟩

/-- A store reaches its checks. -/
theorem reaches_store (i : Instr) (s : State) (m : MemForm) (hm : memForm i s = some m) (h0 : s.inflight = [])
    (hf : featurePresent i s.platform = true) (ha : authPasses i s = true) (hr : m.rd = [])
    (hw : (got (resolve s.platform s.me m.file m.wr)).isEmpty = false) (hx : m.first = []) :
    Reaches i s m [] (got (resolve s.platform s.me m.file m.wr)) [] :=
  ⟨hm, h0, hf, ha, by rw [hr]; rfl, got_ok _ hw, by rw [hx]; rfl⟩

/-- A load of 8 bytes into X6. -/
abbrev load8 (addr : Nat) : Instr := .gpSingle .read (part addr 8 6)

/-- Its form. -/
abbrev load8Form (addr : Nat) : MemForm := ⟨.gpLoad, .gp, [part addr 8 6], [], []⟩

/-- Its bytes in the machine of the tests with these controls. -/
abbrev bytes8 (s : State) (addr : Nat) : List RElem := got (resolve s.platform s.me .gp [part addr 8 6])

/-- BoundaryCrossingsAreRefused: V42 (i), a load across the boundary between memory and the peripheral. -/
theorem wit_boundary_types : Reaches (load8 0x8FFFFFC) s0 (load8Form 0x8FFFFFC) (bytes8 s0 0x8FFFFFC) [] [] ∧
    ∃ a ∈ allBytes (bytes8 s0 0x8FFFFFC), ∃ b ∈ allBytes (bytes8 s0 0x8FFFFFC), b.tr.pa = a.tr.pa + 1 ∧ differ a.tr.attr b.tr.attr :=
  ⟨reaches_load _ s0 (load8Form 0x8FFFFFC) rfl rfl rfl rfl (by decide) rfl rfl,
   (allBytes (bytes8 s0 0x8FFFFFC))[3]'(by decide), List.getElem_mem _, (allBytes (bytes8 s0 0x8FFFFFC))[4]'(by decide),
   List.getElem_mem _, by decide, trivial⟩

/-- Its second clause: V43 (ii), a pair store in two granules of the peripheral. -/
theorem wit_boundary_granule : ∃ w, Reaches (.gpMulti .write [part 0x9000FF8 8 6, part 0x9001000 8 7]) s0
      ⟨.gpMultiStore, .gp, [], [part 0x9000FF8 8 6, part 0x9001000 8 7], []⟩ [] w [] ∧
    isSequence s0.platform .gpMultiStore [part 0x9000FF8 8 6, part 0x9001000 8 7] = true ∧
    (∀ b ∈ allBytes w, b.tr.attr.isDevice = true) ∧
    ∃ a ∈ allBytes w, ∃ b ∈ allBytes w, a.tr.pa / s0.platform.minGranule ≠ b.tr.pa / s0.platform.minGranule :=
  ⟨_, reaches_store _ s0 ⟨.gpMultiStore, .gp, [], [part 0x9000FF8 8 6, part 0x9001000 8 7], []⟩ rfl rfl rfl rfl rfl (by decide) rfl,
   by decide, by decide, by decide⟩

/-- The machine of the tests without its peripheral's mapping: its locations are memory by their records. -/
def unmapped : State := s0.setMe { s0.me with ctl := { s0.me.ctl with maps := [] } }

/-- The machine of the tests after an access with another record. -/
def touchedOsh : State := { s0 with touched := [(0x1000, wb .osh)] }

/-- NonIdempotentAndMismatchedAreRefused: V39, V34. -/
theorem wit_nonIdempotent : Reaches (load8 0x9000300) unmapped (load8Form 0x9000300) (bytes8 unmapped 0x9000300) [] [] ∧
    (∃ b ∈ allBytes (bytes8 unmapped 0x9000300), b.tr.attr.isNormal = true ∧ (regionAt unmapped.platform b.tr.pa).idempotent = false) ∧
    Reaches (load8 0x1000) touchedOsh (load8Form 0x1000) (bytes8 touchedOsh 0x1000) [] [] ∧
    ∃ b ∈ allBytes (bytes8 touchedOsh 0x1000), (b.tr.pa, wb .osh) ∈ touchedOsh.touched ∧ (wb .osh).eraseHints ≠ b.tr.attr.eraseHints :=
  ⟨reaches_load _ unmapped (load8Form 0x9000300) rfl rfl rfl rfl (by decide) rfl rfl, by decide,
   reaches_load _ touchedOsh (load8Form 0x1000) rfl rfl rfl rfl (by decide) rfl rfl, by decide⟩

/-- Its second clause: a fetch and a walk at locations accessed with another record before, and a fetch with a Normal record
from the peripheral (R63). -/
theorem wit_fetch_clashes : (fetchTr touchedOsh.me.ctl 0x1000).any (fun t => t.walk.isEmpty && !t.xn.contains touchedOsh.me.ctl.el &&
      touchedOsh.touched.any (fun q => q.1 == t.pa && q.2.mismatched t.attr)) = true ∧
    (fetchTr unmapped.me.ctl 0x9000300).any (fun t => t.attr.isNormal && !(regionAt unmapped.platform t.pa).idempotent) = true ∧
    unmapped.fetchAccess (slotAt (some 0x9000300)) matches .refuse .nonIdempotentNormal := by decide

/-- The machine under the launch premises: one observer, memory at 0x1000, the peripheral execute-never at every level. -/
def launched : State :=
  { s0 with
    obs := [(0, me { PeCtl.reset with
      el := .el1, dataDefault := none, fetchDefault := none
      maps := [{ va := 0x1000, pa := 0x1000, size := 0x100, attr := wb .ish, stage := .s1, xn := [], walk := [] },
               { va := 0x9000000, pa := 0x9000000, size := 0x1000, attr := dev .nGnRnE, stage := .s2, xn := [.el0, .el1, .el2, .el3], walk := [] }] })]
    touched := [(0x1000, wb .ish)]
    platform := { plat with regions := [{ base := 0x9000000, size := 0x1000, block := 1, endpoint := .device 1, conventional := false, supportsUnaligned := false, idempotent := false, ackRequired := true }] } }

/-- What its translations give. -/
theorem launched_tr (o va : Nat) (t : Tr) (h : dataTr launched.platform (launched.getObs o).ctl va = some t ∨
    fetchTr (launched.getObs o).ctl va = some t) :
    t.walk = [] ∧ ((0x1000 ≤ t.pa ∧ t.pa < 0x1100 ∧ t.attr = wb .ish) ∨
      (0x9000000 ≤ t.pa ∧ t.pa < 0x9001000 ∧ t.attr = dev .nGnRnE ∧ t.xn = [.el0, .el1, .el2, .el3])) := by
  have hf : fetchTr (launched.getObs o).ctl va = some t := by
    rcases h with h | h
    · by_cases ho : o = 0
      · subst ho
        have e : allDevice launched.platform (launched.getObs 0).ctl = false := by decide
        unfold dataTr at h; rw [e] at h
        have : (launched.getObs 0).ctl.dataDefault = (launched.getObs 0).ctl.fetchDefault := rfl
        rw [this] at h
        unfold fetchTr; simpa using h
      · have e : launched.getObs o = Observer.absent := by simp [State.getObs, launched, Observers.get, ho]
        rw [e] at h; cases h
    · exact h
  by_cases ho : o = 0
  · subst ho
    have e : (launched.getObs 0).ctl.maps =
        [{ va := 0x1000, pa := 0x1000, size := 0x100, attr := wb .ish, stage := .s1, xn := [], walk := [] },
         { va := 0x9000000, pa := 0x9000000, size := 0x1000, attr := dev .nGnRnE, stage := .s2, xn := [.el0, .el1, .el2, .el3], walk := [] }] := rfl
    have e' : (launched.getObs 0).ctl.fetchDefault = none := rfl
    unfold fetchTr lookupTr at hf
    rw [e, e'] at hf
    by_cases h1 : 0x1000 ≤ va ∧ va < 0x1000 + 0x100
    · rw [List.find?_cons_of_pos (by simpa using h1)] at hf
      simp only [Option.some.injEq] at hf
      subst hf
      exact ⟨rfl, .inl ⟨by dsimp only; omega, by dsimp only; omega, rfl⟩⟩
    · rw [List.find?_cons_of_neg (by simp only [Bool.and_eq_true, decide_eq_true_eq]; exact h1)] at hf
      by_cases h2 : 0x9000000 ≤ va ∧ va < 0x9000000 + 0x1000
      · rw [List.find?_cons_of_pos (by simpa using h2)] at hf
        simp only [Option.some.injEq] at hf
        subst hf
        exact ⟨rfl, .inr ⟨by dsimp only; omega, by dsimp only; omega, rfl, rfl⟩⟩
      · rw [List.find?_cons_of_neg (by simp only [Bool.and_eq_true, decide_eq_true_eq]; exact h2)] at hf
        cases hf
  · have e : launched.getObs o = Observer.absent := by simp [State.getObs, launched, Observers.get, ho]
    rw [e] at hf; cases hf

/-- The records its locations are reached with. -/
theorem launched_reached (pa : Nat) (a : MemAttr) (h : ReachedWith launched pa a) :
    (0x1000 ≤ pa ∧ pa < 0x1100 ∧ a = wb .ish) ∨ (0x9000000 ≤ pa ∧ pa < 0x9001000 ∧ a = dev .nGnRnE) := by
  obtain ⟨o, va, t, ht, h⟩ := h
  obtain ⟨hw, h1⟩ := launched_tr o va t ht
  rcases h with ⟨rfl, rfl⟩ | ⟨w, hm, -⟩
  · rcases h1 with h1 | h1
    · exact .inl h1
    · exact .inr ⟨h1.1, h1.2.1, h1.2.2.1⟩
  · rw [hw] at hm; cases hm

theorem launched_region (pa : Nat) (h : pa < 0x9000000) : regionAt launched.platform pa = Config.resetRegion := by
  unfold regionAt
  have e : launched.platform.regions = [{ base := 0x9000000, size := 0x1000, block := 1, endpoint := .device 1, conventional := false, supportsUnaligned := false, idempotent := false, ackRequired := true }] := rfl
  rw [e, List.find?_cons_of_neg (by simp only [Bool.and_eq_true, decide_eq_true_eq]; omega)]
  rfl

/-- NonIdempotentAndMismatchedAreRefused, its last clause: the launch premises, for the observer 0 and no driver, and a load
that reaches its checks there. -/
theorem wit_launched : LaunchPremises launched [0] [] ∧ (∀ q ∈ launched.touched, ∃ a, ReachedWith launched q.1 a ∧ a.eraseHints = q.2) ∧
    Reaches (load8 0x1000) launched (load8Form 0x1000) (bytes8 launched 0x1000) [] [] := by
  refine ⟨⟨by decide, ?_, ?_, ?_, ?_, ?_, ?_, ?_⟩, ?_, reaches_load _ launched (load8Form 0x1000) rfl rfl rfl rfl (by decide) rfl rfl⟩
  · intro pa a h hn
    rcases launched_reached pa a h with ⟨h1, h2, -⟩ | ⟨-, -, rfl⟩
    · rw [launched_region pa (by omega)]; rfl
    · cases hn
  · intro pa a h hd o va t ht hp l
    rcases launched_reached pa a h with ⟨-, -, rfl⟩ | ⟨h1, h2, rfl⟩
    · cases hd
    · rcases (launched_tr o va t (.inr ht)).2 with h3 | h3
      · omega
      · rw [h3.2.2.2]; cases l <;> decide
  · intro o va t ht w hw
    rw [(launched_tr o va t ht).1] at hw; cases hw
  · intro pa a b h1 h2
    rcases launched_reached pa a h1 with ⟨h1, h3, rfl⟩ | ⟨h1, h3, rfl⟩ <;>
      rcases launched_reached pa b h2 with ⟨h4, h5, rfl⟩ | ⟨h4, h5, rfl⟩ <;> first | omega | decide
  · intro a b ha hb
    have hin : ∀ x, inPeripheral launched.platform x = true → 0x9000000 ≤ x ∧ x < 0x9001000 := by
      intro x hx
      by_cases h : 0x9000000 ≤ x ∧ x < 0x9001000
      · exact h
      · exfalso
        have e : regionAt launched.platform x = Config.resetRegion := by
          unfold regionAt
          have e : launched.platform.regions = [{ base := 0x9000000, size := 0x1000, block := 1, endpoint := .device 1, conventional := false, supportsUnaligned := false, idempotent := false, ackRequired := true }] := rfl
          rw [e, List.find?_cons_of_neg (by simp only [Bool.and_eq_true, decide_eq_true_eq]; omega)]
          rfl
        rw [inPeripheral, blockOf, e] at hx
        exact absurd hx (by decide)
    have hb' : inPeripheral launched.platform b = true := by unfold inPeripheral at *; rw [← hb]; exact ha
    have h1 := hin a ha
    have h2 := hin b hb'
    have e : launched.platform.minGranule = 4096 := rfl
    rw [e]; omega
  · intro pa hpa; cases hpa
  · intro a ha b hb
    rw [List.mem_singleton.1 ha, List.mem_singleton.1 hb]; decide
  · intro q hq
    rw [List.mem_singleton.1 hq]
    refine ⟨wb .ish, ⟨0, 0x1000, { pa := 0x1000, attr := wb .ish, stage := .s1, xn := [], walk := [] }, .inr (by decide), .inl ⟨rfl, rfl⟩⟩, by decide⟩

/-- The platform of the tests where the peripheral supports unaligned accesses. -/
def supports (s : State) : State := { s with platform := { s.platform with regions := s.platform.regions.map (fun r => { r with supportsUnaligned := true }) } }

/-- UnalignedDeviceAccessesFault: V40 (i) and (iii). -/
theorem wit_unaligned : Reaches (load8 0x9000304) s0 (load8Form 0x9000304) (bytes8 s0 0x9000304) [] [] ∧
    breaksRestriction s0 .gpLoad (bytes8 s0 0x9000304) [] [] = false ∧
    (∀ w ∈ walksOf (allBytes (bytes8 s0 0x9000304)), walkFaults s0.platform s0.me.ctl w = false) ∧ s0.platform.unalignedAccessEnabled = true ∧
    (∃ r ∈ bytes8 s0 0x9000304, unalignedElem r.e = true ∧ ∃ b ∈ r.bs, b.tr.attr.isDevice = true ∧
      (regionAt s0.platform b.tr.pa).supportsUnaligned = false) ∧
    Reaches (load8 0x9000304) (supports s0) (load8Form 0x9000304) (bytes8 (supports s0) 0x9000304) [] [] ∧
    breaksRestriction (supports s0) .gpLoad (bytes8 (supports s0) 0x9000304) [] [] = false ∧
    (∀ r ∈ bytes8 (supports s0) 0x9000304, ∀ b ∈ r.bs, (regionAt (supports s0).platform b.tr.pa).supportsUnaligned = true ∧
      (supports s0).platform.deviceUnalignedFault = false) :=
  ⟨reaches_load _ s0 (load8Form 0x9000304) rfl rfl rfl rfl (by decide) rfl rfl, by decide, by decide, by decide, by decide,
   reaches_load _ (supports s0) (load8Form 0x9000304) rfl rfl rfl rfl (by decide) rfl rfl, by decide, by decide⟩

/-- V40 (ii): the location supports unaligned accesses, the implementation does not make them. -/
theorem wit_unaligned_impl : let s : State := { supports s0 with platform := { (supports s0).platform with deviceUnalignedFault := true } }
    Reaches (load8 0x9000304) s (load8Form 0x9000304) (bytes8 s 0x9000304) [] [] ∧
    breaksRestriction s .gpLoad (bytes8 s 0x9000304) [] [] = false ∧
    (∀ w ∈ walksOf (allBytes (bytes8 s 0x9000304)), walkFaults s.platform s.me.ctl w = false) ∧
    (∃ r ∈ bytes8 s 0x9000304, unalignedElem r.e = true ∧ ∃ b ∈ r.bs, b.tr.attr.isDevice = true ∧
      (regionAt s.platform b.tr.pa).supportsUnaligned = true ∧ s.platform.deviceUnalignedFault = true) :=
  ⟨reaches_load _ _ (load8Form 0x9000304) rfl rfl rfl rfl (by decide) rfl rfl, by decide, by decide, by decide⟩

/-- R59, N22: what an unaligned access to Normal memory does where they are not configured is not said. -/
theorem test_unalignedNormal : refusalOf (exec (load8 0x1001) { s0 with platform := { plat with unalignedAccessEnabled := false } }) =
    some .unalignedNormal := by decide

/-- The machine of the tests under TGE and not DC, at this level. -/
def underTge (l : EL) : State := s0.setMe { s0.me with ctl := { s0.me.ctl with el := l, hcrTGE := true } }

/-- TgeFaultsAreAtStageOne: at both levels of the regime. -/
theorem wit_tge : ∀ l ∈ [EL.el0, .el1], (underTge l).platform.haveEL2 = true ∧ (underTge l).me.ctl.hcrTGE = true ∧
    (underTge l).me.ctl.hcrDC = false ∧ ((underTge l).me.ctl.el = .el0 ∨ (underTge l).me.ctl.el = .el1) ∧
    (dataTr (underTge l).platform (underTge l).me.ctl 0x1000).isSome = true := by decide

/-- The machine of the tests with a table in the peripheral, read by walks for memory, and PTW as said. -/
def walking (ptw : Bool) : State :=
  s0.setMe { s0.me with ctl := { s0.me.ctl with
    hcrPTW := ptw
    maps := [{ va := 0x1000, pa := 0x1000, size := 0x100, attr := wb .ish, stage := .s1, xn := [],
               walk := [{ pa := 0x9000800, size := 8, s2 := some .nGnRE, xs := none }] }] } }

/-- WalksOfDeviceMemory: V20 with PTW, and without. -/
theorem wit_walks : Reaches (load8 0x1000) (walking true) (load8Form 0x1000) (bytes8 (walking true) 0x1000) [] [] ∧
    breaksRestriction (walking true) .gpLoad (bytes8 (walking true) 0x1000) [] [] = false ∧ (walking true).me.ctl.hcrPTW = true ∧
    (∃ w ∈ walksOf (allBytes (bytes8 (walking true) 0x1000)), (walkAttr (walking true).platform (walking true).me.ctl w).isDevice = true) ∧
    ((walking false).getObs 0).ctl.hcrPTW = false ∧
    (dataTr (walking false).platform ((walking false).getObs 0).ctl 0x1000).isSome = true :=
  ⟨reaches_load _ (walking true) (load8Form 0x1000) rfl rfl rfl rfl (by decide) rfl rfl, by decide, by decide, by decide, by decide, by decide⟩

/-- Its clauses on fetches with PTW and on instructions without. -/
theorem wit_walks_more : (fetchTr (walking true).me.ctl 0x1000).any (fun t => (walking true).recordRefusal (walkBytes plat (walking true).me.ctl t.walk) == none &&
      t.walk.any (fun w => (walkAttr plat (walking true).me.ctl w).isDevice)) = true ∧
    Reaches (load8 0x1000) (walking false) (load8Form 0x1000) (bytes8 (walking false) 0x1000) [] [] ∧
    (walking false).verdict .gpLoad (bytes8 (walking false) 0x1000) [] [] = .go ∧ (walking false).me.ctl.hcrPTW = false ∧
    ((dataTr (walking true).platform ((walking true).getObs 0).ctl 0x1000).any (fun t =>
      (walking true).recordRefusal (walkBytes plat ((walking true).getObs 0).ctl t.walk) == none)) = true :=
  ⟨by decide, reaches_load _ (walking false) (load8Form 0x1000) rfl rfl rfl rfl (by decide) rfl rfl, by decide, by decide, by decide⟩

/-- V20 (i), the conclusion: the walk reads the device. -/
theorem test_walk_reads : trafficAfter (exec (load8 0x1000) (walking false)) = some [([.walkRead], List.range' 0x9000800 8)] := by decide

/-- The machine of the tests whose table lies in Gathering memory; beside it a location of the peripheral, Gathering too. -/
def gatheredWalk (p : Plan) : State :=
  ({ s0 with plan := p } : State).setMe { s0.me with ctl := { s0.me.ctl with
    maps := [{ va := 0x1000, pa := 0x1000, size := 0x100, attr := wb .ish, stage := .s1, xn := [],
               walk := [{ pa := 0x9000800, size := 8, s2 := some .GRE, xs := none }] },
             { va := 0x9000300, pa := 0x9000300, size := 0x100, attr := dev .GRE, stage := .s1, xn := [], walk := [] }] } }

/-- R144, R8: a speculative walk's read of Gathering memory and a load's are one transaction; an instruction that comes after
keeps the walk, or makes it again. -/
theorem test_walk_gathered :
    let s := gatheredWalk { Plan.simple with rest := false }
    let t := (nextOf (s.handle (.specWalk 0 0x1000 (some 9)))).bind (fun t => nextOf (exec (load8 0x9000308) t))
    let u := t.map (fun t => t.deliverGroup [0, 1] [])
    u.map traffic = some [([.walkRead, .explicitRead], List.range' 0x9000800 8 ++ List.range' 0x9000308 8)] ∧
    [[], [0x9000800]].map (fun k => u.bind (fun u =>
      (trafficAfter (exec (load8 0x1000) { u with plan := { Plan.simple with kept := k } })).map List.length)) = [some 2, some 1] := by
  decide

/-- SpeculativeFetchesReachDevices and WalksOfDeviceMemory: a location that lets such a read stay, and one that does not. -/
theorem wit_linger : mayLinger plat (dev .GRE) = true ∧ mayLinger plat (dev .nGRE) = false ∧
    (fetchTr ((gatheredWalk Plan.simple).getObs 0).ctl 0x9000300).any (fun t => t.attr == dev .GRE && t.xn.isEmpty && t.walk.isEmpty &&
      (gatheredWalk Plan.simple).recordRefusal [fetchByte 0x9000300 t] == none) = true ∧
    (dataTr plat ((gatheredWalk Plan.simple).getObs 0).ctl 0x1000).any (fun t =>
      (gatheredWalk Plan.simple).recordRefusal (walkBytes plat ((gatheredWalk Plan.simple).getObs 0).ctl t.walk) == none &&
      t.walk.any (fun w => mayLinger plat (walkAttr plat ((gatheredWalk Plan.simple).getObs 0).ctl w))) = true := by decide

/-- The machine of the tests with execute-never levels for the peripheral. -/
def execNever (xn : List EL) (p : Plan) : State :=
  ({ s0 with plan := p } : State).setMe { s0.me with ctl := { s0.me.ctl with maps := s0.me.ctl.maps.map (fun m => { m with xn := xn }) } }

/-- DeviceFetchesAreMadeOrFault: V19, made and faulting; the third state is execute-never at the current level. -/
theorem wit_fetch : ∀ q ∈ [execNever [.el0] Plan.simple, execNever [] { Plan.simple with fetchAsNC := false }, execNever [.el1] Plan.simple],
    (fetchTr q.me.ctl 0x9000300).any (fun t => t.attr.isDevice && t.walk.all (fun w => !walkFaults q.platform q.me.ctl w) &&
      q.recordRefusal (fetchByte 0x9000300 t :: walkBytes q.platform q.me.ctl t.walk) == none) = true := by decide

/-- Its last clause: a step whose fetch takes the exception. -/
theorem wit_fetch_step : ∃ s : State, s.inputs = [.run Plan.simple] ∧ s.me.handler = none ∧ s.me.program = [slotAt (some 0x9000300)] ∧
    ∃ r, (({ s with inputs := [], plan := Plan.simple } : State).begin (slotAt (some 0x9000300)) []).fetchAccess (slotAt (some 0x9000300)) = .take r :=
  ⟨withProgram (execNever [.el1] Plan.simple) [slotAt (some 0x9000300)] [.run Plan.simple], rfl, rfl, rfl, _, rfl⟩

/-- SpeculativeFetchesReachDevices: execute-never at all levels, and not at one. -/
theorem wit_specFetch : (fetchTr ((execNever [.el0, .el1, .el2, .el3] Plan.simple).getObs 0).ctl 0x9000300).any (fun t =>
      t.attr.isDevice && [EL.el0, .el1, .el2, .el3].all (fun l => t.xn.contains l)) = true ∧
    (fetchTr ((execNever [.el0, .el1, .el2] Plan.simple).getObs 0).ctl 0x9000300).any (fun t =>
      t.attr.isDevice && !t.xn.contains .el3 && t.walk.isEmpty && s0.recordRefusal [fetchByte 0x9000300 t] == none) = true := by decide

/-- SpeculativeReadsOnlyFillCaches: memory, Device memory alone, and a location of the peripheral with a Normal record. -/
theorem wit_specRead : s0.recordRefusal (s0.specBytes 1 (List.range' 0x1000 4)) = none ∧
    s0.recordRefusal (s0.specBytes 1 (List.range' 0x9000300 4)) = none ∧
    (∀ k < 4, ((dataTr s0.platform (s0.getObs 1).ctl (0x9000300 + k)).map (fun t => t.attr.isDevice)) = some true) ∧
    (dataTr unmapped.platform (unmapped.getObs 0).ctl 0x9000301).any (fun t => t.attr.isNormal &&
      t.walk.all (fun w => !walkFaults unmapped.platform (unmapped.getObs 0).ctl w) && !(regionAt unmapped.platform t.pa).idempotent) = true := by
  decide

/-- The machine of the tests with an exception in the middle of sequences, after the first access. -/
def abandoning : State := { s0 with plan := { Plan.simple with abandon := true, acts := [{ ks := [0], again := [] }], rest := false } }

/-- AbandonedInstructionsRestart: a pair load and a pair store. -/
theorem wit_abandon : abandoning.inflight = [] ∧ abandoning.plan.abandon = true ∧
    isSequence abandoning.platform .gpMultiLoad [part 0x1000 8 6, part 0x1008 8 7] = true ∧
    admitted abandoning .gpMultiLoad (.gp, [part 0x1000 8 6, part 0x1008 8 7]) (.gp, []) [] = true ∧
    admitted abandoning .gpMultiStore (.gp, []) (.gp, [part 0x1000 8 6, part 0x1008 8 7]) [] = true := by decide

/-- The pair load reaches its checks there, and a copy of X3 bytes from the peripheral. -/
theorem wit_abandon_reaches : (∃ rd, Reaches (.gpMulti .read [part 0x9000310 8 6, part 0x9000318 8 7]) abandoning
      ⟨.gpMultiLoad, .gp, [part 0x9000310 8 6, part 0x9000318 8 7], [], []⟩ rd [] [] ∧
      abandoning.verdict .gpMultiLoad rd [] [] = .go) ∧
    (∃ src dst, Reaches (.cpy 4 2 3) abandoning ⟨.memCopy, .copy, copyElems 0x9000300 4 0, copyElems 0x2000 4 0, []⟩ src dst [] ∧
      abandoning.verdict .memCopy src dst [] = .go) ∧ abandoning.me.xreg 3 ≠ 0 :=
  ⟨⟨_, reaches_load _ _ ⟨.gpMultiLoad, .gp, [part 0x9000310 8 6, part 0x9000318 8 7], [], []⟩ rfl rfl rfl rfl (by decide) rfl rfl, by decide⟩,
   ⟨_, _, ⟨rfl, rfl, rfl, rfl, rfl, rfl, rfl⟩, by decide⟩, by decide⟩

/-- The machine where the walk for the second half of memory faults, and a plan that makes the first access before. -/
def midway : State :=
  { (walking true).setMe { (walking true).me with ctl := { (walking true).me.ctl with maps :=
      [{ va := 0x1008, pa := 0x1008, size := 8, attr := wb .ish, stage := .s1, xn := [], walk := [{ pa := 0x9000800, size := 8, s2 := some .nGnRE, xs := none }] }] } }
    with plan := { Plan.simple with midway := true, acts := [{ ks := [0], again := [] }], rest := false } }

/-- The clause on a sequence of which a part faults. -/
theorem wit_midway : ∃ wr, Reaches (.gpMulti .write [part 0x1000 8 1, part 0x1008 8 3]) midway
      ⟨.gpMultiStore, .gp, [], [part 0x1000 8 1, part 0x1008 8 3], []⟩ [] wr [] ∧
    isSequence midway.platform .gpMultiStore [part 0x1000 8 1, part 0x1008 8 3] = true ∧
    midway.verdict .gpMultiStore [] wr [] = .take .permissionWalk ∧ midway.plan.abandon = false ∧ midway.plan.midway = true :=
  ⟨_, reaches_store _ _ ⟨.gpMultiStore, .gp, [], [part 0x1000 8 1, part 0x1008 8 3], []⟩ rfl rfl rfl rfl rfl (by decide) rfl,
   by decide, by decide, rfl, rfl⟩

/-- R244: the store of the first half stays made, the exception is the fault of the second, and the return restarts the
instruction whatever the environment asks. -/
theorem test_midway : (nextOf (exec (.gpMulti .write [part 0x1000 8 1, part 0x1008 8 3]) midway)).map (fun t =>
    (t.me.handler.map Handler.cause, Memory.read t.mem 0x1000, Memory.read t.mem 0x1008)) = some (some .permissionWalk, 0x88, 0xB0) ∧
    (nextOf (exec (.gpMulti .write [part 0x1000 8 1, part 0x1008 8 3])
        (midway.setMe { midway.me with current := some (slotAt none) }))).map (fun t =>
      (t.returnFromException 0 false).me.program) = some [slotAt none] := by decide

/-- A copy into memory whose second half's walk faults, a plan that makes its first write before, and the state an exception
leaves. -/
theorem wit_midway_copy : let s : State := { (midway.setMe { midway.me with gpr := (midway.me.gpr.set 4 0x1006).set 0 0x1000 }) with
      plan := { midway.plan with acts := [{ ks := [4], again := [] }] } }
    (∃ src dst, Reaches (.cpy 4 0 3) s ⟨.memCopy, .copy, copyElems 0x1000 4 0, copyElems 0x1006 4 0, []⟩ src dst [] ∧
      s.verdict .memCopy src dst [] = .take .permissionWalk ∧
      (sparedAccesses (.cpy 4 0 3) s ⟨.memCopy, .copy, copyElems 0x1000 4 0, copyElems 0x1006 4 0, []⟩ src dst []).length = 6) ∧
    ∃ t : State, t.me.program = s0.me.program ∧ t.cur = s0.cur ∧ t.me.handler = some { cause := .permissionWalk, slot := s0.me.current, restarts := true } :=
  ⟨⟨_, _, ⟨rfl, rfl, rfl, rfl, rfl, rfl, rfl⟩, by decide, by decide⟩, s0.takeException .permissionWalk true, rfl, rfl, rfl⟩

/-- R244, R36: an access that the plan leaves stays in flight, and delivers to no register. -/
theorem test_abandon_left : (nextOf (exec (.gpMulti .read [part 0x9000310 8 6, part 0x9000318 8 7])
    { abandoning with plan := { abandoning.plan with left := [1] } })).map (fun t =>
      (t.inflight.map (fun x => (x.id, x.dst)), t.me.handler.map Handler.cause)) = some ([(1, none)], some .abandoned) := by decide

/-- R228, R244: the copy reads the byte that its named write writes, and no other. -/
theorem test_abandon_copy : let t := nextOf (exec (.cpy 4 2 3) { abandoning with plan := { abandoning.plan with acts := [{ ks := [6], again := [] }] } })
    t.map (fun t => (traffic t, t.me.handler.map Handler.cause, [0x2001, 0x2002].map (Memory.read t.mem))) =
      some ([([.explicitRead], [0x9000302]), ([.explicitWrite], [0x2002])], some .abandoned, [0, 0xD2]) := by decide

/-- The conclusion on the peripheral: the first read arrived, the second did not. -/
theorem test_abandon : trafficAfter (exec (.gpMulti .read [part 0x9000310 8 6, part 0x9000318 8 7]) abandoning) =
    some [([.explicitRead], List.range' 0x9000310 8)] := by decide

/-! Bytes of a load -/

/-- A plan that reads beyond the explicit bytes. -/
def wide : Plan := { Plan.simple with extra := [0x900030F] }

/-- DeviceReadsStayInTheirWindows: a load whose transaction holds more than its explicit bytes (V1). -/
theorem wit_windows : (memForm (.simdFp .read [part 0x9000304 4 6]) { s0 with plan := wide }).isSome = true ∧
    ((nextOf (exec (.simdFp .read [part 0x9000304 4 6]) { s0 with plan := wide })).any (fun t =>
      t.arrivals.any (fun a => a.bytes.contains 0x900030F))) = true := by decide

/-- SuppressedElementsReadNoDeviceMemory: a First-fault load whose First active element is Device memory. -/
theorem wit_suppressed_reads : ((nextOf (exec (.sveFirstFault mixed) s0)).any (fun t => t.arrived.any (fun x => x.attr.isDevice))) = true ∧
    (nextOf (exec (.sveNonFault mixed) s0)).isSome = true := by decide

/-- A request of a class for the peripheral. -/
def request (c : AccessClass) : Req :=
  { cls := c, dir := .read, file := .vec, release := false, all := [part 0x9000308 8 6], parts := [part 0x9000308 8 6], rs := bytes8 s0 0x9000308, ex := [] }

/-- RelaxedAccessesBehaveAsGre: an SVE access with and without the relaxation, a general one. -/
theorem wit_relaxed : s0.plan.extra = [] ∧ (xactsOf { s0 with plan := { Plan.simple with relaxed := true } } (request .sveUnpredLoad)).map (fun x => (x.dt, x.attr.deviceType)) =
      [(some .GRE, some .nGnRnE)] ∧
    (xactsOf s0 (request .sveUnpredLoad)).map Xact.dt = [some .nGnRnE] ∧
    (xactsOf { s0 with plan := { Plan.simple with relaxed := true } } (request .simdFpLoad)).map Xact.dt = [some .nGnRnE] := by decide

/-! The memory system -/

/-- A read of the peripheral by observer 0, after `pendingWrite`. -/
def laterRead (d : DeviceType) (fwd : Bool) : Xact :=
  { pendingWrite d with id := 1, instr := 1, cls := .gpLoad, dir := .read, bs := [⟨0x9000300, 6, 0, 0, none⟩], dst := some .gp, fwd := fwd }

/-- NonGatheringReadsComeFromTheEndpoint. -/
theorem wit_endpoint_read : (laterRead .nGRE true).dir = .read ∧ (laterRead .nGRE true).attr.isDevice = true ∧
    (laterRead .nGRE true).dt = some .nGRE ∧ DeviceType.nGRE.gathering = false := by decide

/-- PeripheralsReactToArrivals: a location with a transition, in a state where it fits and in one where it does not, and a
transition that comes first in the list. -/
theorem wit_reactions : (regionAt plat 0x9000380).idempotent = false ∧ Memory.wf contents = true ∧
    plat.reactions = [] ++ { dir := .read, pa := 0x9000380, given := [(0x9000380, 0)], sets := [(0x9000380, 1)] } :: [] ∧
    Memory.read contents 0x9000380 = 0 ∧ (regionAt plat 0x1000).idempotent = true ∧
    Memory.read (Memory.write contents 0x9000380 7) 0x9000380 ≠ 0 ∧ s0.forwardSource (laterRead .nGnRE false) = none ∧
    (busy .GRE).forwardSource (laterRead .GRE false) = none ∧ (laterRead .GRE false).dst = some .gp := by decide

/-- R110: a read that arrives returns what was there, and changes what the next one returns. -/
theorem test_reaction : (nextOf (exec (.gpSingle .read (part 0x9000380 1 6)) s0)).map (fun t =>
    (t.me.xreg 6, Memory.read t.mem 0x9000380)) = some (0, 1) := by decide

/-- ForwardingKeepsItsConditions: V16 (i). -/
theorem wit_forward : (busy .GRE).forwardSource (laterRead .GRE true) = some (pendingWrite .GRE) := by decide

/-- V16 (iii) and (v): no buffered write answers after a Store-Release, or where the type is not Gathering. -/
theorem test_no_forward : (busy .nGRE).forwardSource (laterRead .nGRE true) = none ∧
    ({ busy .GRE with inflight := [{ pendingWrite .GRE with release := true }] } : State).forwardSource (laterRead .GRE true) = none := by
  decide

/-- Two writes in flight, with the marks of `fenced` if asked. -/
def twoWrites (a b : Xact) (s : State) : State := { s with inflight := [a, b], nextId := 2, nextInstr := 3 }

/-- OrderedAccessesAreNotGathered: barrier-ordered (V17 (iv), V21), and two non-Gathering writes to one location (V17 (iii)). -/
theorem wit_not_gathered :
    (let s := twoWrites (pendingWrite .nGRE) (laterWrite (pendingWrite .nGRE) 0x9000304) fenced
     s.select [0, 1] = s.inflight ∧ s.bob (pendingWrite .nGRE) (laterWrite (pendingWrite .nGRE) 0x9000304) = true) ∧
    (let s := twoWrites (pendingWrite .nGRE) (laterWrite (pendingWrite .nGRE) 0x9000300) s0
     s.select [0, 1] = s.inflight ∧ (pendingWrite .nGRE).overlaps (laterWrite (pendingWrite .nGRE) 0x9000300) = true ∧
     DeviceType.nGRE.gathering = false) ∧
    pendingWrite .nGRE ≠ laterWrite (pendingWrite .nGRE) 0x9000300 ∧
    (pendingWrite .nGRE).instr ≠ (laterWrite (pendingWrite .nGRE) 0x9000304).instr := by decide

/-- A write of a Memory Set to the peripheral. -/
def setWrite (x : Xact) : Xact := { x with cls := .memSet }

/-- The two writes of a pair store to the peripheral. -/
def pairWrite (id pa : Nat) : Xact := { pendingWrite .nGnRnE with id := id, bs := [⟨pa, 0, 0, 0x66, none⟩], cls := .gpMultiStore, multi := true, repeatable := true }

/-- UnorderedAccessesMayBeGathered: two Gathering writes (V17 (i)), two Normal ones (V17 (ii)), two of Memory Set. -/
theorem wit_gathered :
    (let a := pendingWrite .GRE; let b := laterWrite a 0x9000304; let s := twoWrites a b s0
     s.select [0, 1] = [a, b] ∧ s.required [a, b] = [] ∧ a.dir = b.dir ∧ s.ob a b = false ∧ s.ob b a = false ∧ DeviceType.GRE.gathering = true) ∧
    (let a := memWrite (wb .ish); let b := laterWrite a 0x1004; let s := twoWrites a b s0
     s.select [0, 1] = [a, b] ∧ s.required [a, b] = [] ∧ s.ob a b = false ∧ s.ob b a = false ∧ a.dt = none ∧ b.dt = none) ∧
    (let a := setWrite (pendingWrite .nGnRnE); let b := laterWrite a 0x9000304; let s := twoWrites a b s0
     s.select [0, 1] = [a, b] ∧ s.required [a, b] = [] ∧ a.cls.isMops = true ∧ b.cls.isMops = true) ∧
    (let a := pairWrite 0 0x9000300; let b := pairWrite 1 0x9000304; let s := twoWrites a b s0
     s.select [0, 1] = [a, b] ∧ s.required [a, b] = [] ∧ s.ob a b = false ∧ s.ob b a = false ∧ a.instr = b.instr ∧ a.overlaps b = false ∧
     s.mustPrecede a b = false ∧ s.mustPrecede b a = false ∧ a.id ≠ b.id ∧ a.repeatable = true) := by decide

/-- R171, R174: they may be one transaction, which recurs. -/
theorem test_pair_recurs : (let s := twoWrites (pairWrite 0 0x9000300) (pairWrite 1 0x9000304) s0
    (traffic ((s.deliverGroup [0, 1] [0, 1]).deliverGroup [0, 1] []), (s.deliverGroup [0, 1] [0, 1]).inflight.length)) =
    ([([.explicitWrite, .explicitWrite], [0x9000300, 0x9000304]), ([.explicitWrite, .explicitWrite], [0x9000300, 0x9000304])], 2) := by decide

/-- R122: of one transaction of a pair the second part alone recurs, so the first arrives once and the second twice. -/
theorem test_part_recurs : (let s := twoWrites (pairWrite 0 0x9000300) (pairWrite 1 0x9000304) s0
    traffic ((s.deliverGroup [0, 1] [1]).deliverGroup [1] [])) =
    [([.explicitWrite, .explicitWrite], [0x9000300, 0x9000304]), ([.explicitWrite], [0x9000304])] := by decide

/-- Of two overlapping Gathering reads of two instructions the earlier does not recur: the later must not arrive before it. -/
theorem test_earlier_does_not_recur : (let a := { laterRead .GRE false with id := 0, instr := 0, repeatable := true }
    let b := { laterRead .GRE false with id := 1, instr := 1, repeatable := true }
    ((twoWrites a b s0).deliverGroup [0, 1] [0, 1]).inflight.map Xact.id) = [1] := by decide

/-- V17 (ii) and 20_memory.md R58: the merged write leaves the later value. -/
theorem test_gathered_write : (let a := pendingWrite .GRE; let b := laterWrite a 0x9000300; let s := twoWrites a b s0
    let t := s.deliverGroup [0, 1] []; (traffic t, Memory.read t.mem 0x9000300, t.inflight.length)) =
    ([([.explicitWrite, .explicitWrite], [0x9000300, 0x9000300])], 0x66, 0) := by decide

/-- OnlyTheseAccessesAreOrdered: each reason. -/
theorem wit_ordered : s0.mustPrecede (pendingWrite .nGnRE) (laterWrite (pendingWrite .nGnRnE) 0x9000304) = true ∧
    fenced.mustPrecede (pendingWrite .nGRE) (laterWrite (pendingWrite .nGRE) 0x9000304) = true ∧
    s0.mustPrecede (pendingWrite .GRE) (laterWrite (pendingWrite .GRE) 0x9000300) = true ∧
    s0.mustPrecede (pendingWrite .nGRE) (laterWrite (pendingWrite .nGRE) 0x9000304) = false ∧
    copying.any (fun t => t.inflight.any (fun a => t.inflight.any (fun b => a.instr == b.instr && t.mustPrecede a b))) = true := by decide

/-- A machine in the middle of a run: an access arrived and is acknowledged, a later one is in flight, a line is
cached, and the next instruction stores. -/
def running : State :=
  { withProgram s0 [{ va := none, code := .inst (.gpSingle .write (part 0x9000308 4 1)) }] [.run Plan.simple] with
    arrivals := [arrivalOf plat .write [0x9000300] [pendingWrite .nGnRnE] []]
    acks := [{ x := pendingWrite .nGnRnE, byEndpoint := true }]
    inflight := [laterWrite (pendingWrite .nGnRnE) 0x9000304], lines := [dirtyAt 0x1001 0x77 (wb .ish)], nextId := 2, nextInstr := 3 }

theorem running_numbersOk : NumbersOk running := numbersOk_of _ (by decide) (by decide) (by decide) (by decide)

theorem running_steps : ∃ t, step running = .next t := ⟨_, rfl⟩

/-- The hypotheses of the statements that every step keeps an invariant. -/
theorem running_arrivalOrderOk : ArrivalOrderOk running := ⟨by decide, List.pairwise_singleton _ _⟩

theorem running_cachesHoldNormal : CachesHoldNormal running := by unfold CachesHoldNormal; decide

theorem running_acksOk : AcksOk running := by unfold AcksOk; decide

theorem running_arrivesOnce : ArrivesOnce running := by unfold ArrivesOnce; decide

theorem running_gatheredOk : GatheredOk running := by
  intro a ha
  have : a.xs = [pendingWrite .nGnRnE] := by
    have h : ∀ a ∈ running.arrivals, a.xs = [pendingWrite .nGnRnE] := by decide
    exact h a ha
  rw [this]; exact List.pairwise_singleton _ _

theorem running_recordsOk : RecordsOk running := by
  intro o
  have h : running.obs = [(0, running.getObs 0), (1, running.getObs 1)] := rfl
  by_cases h0 : o = 0
  · subst h0; decide
  · by_cases h1 : o = 1
    · subst h1; decide
    · have : running.getObs o = Observer.absent := by
        unfold State.getObs; rw [h]; simp [Observers.get, h0, h1]
      rw [this]; decide

/-- RecordsOk is met on a platform with FEAT_XS: by records that hold it, and observers that are not listed. -/
theorem wit_records_xs : RecordsOk { State.reset with
    platform := { Config.resetPlatform with featXS := true }
    obs := [(0, { Observer.reset with ctl := { PeCtl.reset with
      dataDefault := some { dev .nGnRnE with xs := some true }, fetchDefault := some (MemAttr.normalNC (some false)) } })] } := by
  intro o
  by_cases h0 : o = 0
  · subst h0; decide
  · unfold State.getObs; simp [Observers.get, h0]; decide

/-- AccessesArriveOnceAndGatheredOnlyIfAllowed, its clause on one access: in memory, and in the peripheral for SIMD&FP. -/
def oneAccess (c : AccessClass) (f : RegFile) (addr : Nat) : Req :=
  { cls := c, dir := .read, file := f, release := false, all := [part addr 8 6], parts := [part addr 8 6], rs := bytes8 s0 addr, ex := [] }

theorem wit_oneAccess : ∀ q ∈ [oneAccess .gpLoad .gp 0x1000, oneAccess .gpLoad .gp 0x9000308],
    isSequence s0.platform q.cls q.parts = false ∧ allBytes q.rs ≠ [] ∧ q.cls.isMulti = false ∧ q.parts.length ≤ 1 ∧
    (∀ b ∈ allBytes q.rs, ∀ c ∈ allBytes q.rs, b.tr.attr.mismatched c.tr.attr = false) ∧
    (∀ b ∈ allBytes q.rs, b.tr.attr.deviceType = none ∨ b.tr.attr.deviceType = some .nGnRnE) := by decide

/-- Its iff, at both values of each side: one register, a pair that is one access, a sequence of one register. -/
theorem test_severalRegs : severalRegs .gpLoad [part 0x1000 8 6] = false ∧
    severalRegs .ldnpGp [part 0x1000 8 6, part 0x1008 8 6] = true ∧
    severalRegs .simdFpLoad [part 0x1000 8 6, part 0x1008 8 6] = false ∧
    severalRegs .sveUnpredLoad [part 0x1000 8 6, part 0x1008 8 7] = true ∧
    severalRegs .memSet [part 0x1000 1 6, part 0x1001 1 6] = false := by decide

/-- R174: an SVE load of two registers of which one element is Active, a single-copy atomic access, may be performed twice. -/
theorem test_sve_repeats : trafficAfter (exec (.svePred [part 0x9000308 8 6, { part 0x9000310 8 7 with active := false }])
    { s0 with platform := { plat with atomicSizes := [(.svePredLoad, 8)] }
              plan := { Plan.simple with acts := [{ ks := [0], again := [0] }] } }) =
    some [([.explicitRead], List.range' 0x9000308 8), ([.explicitRead], List.range' 0x9000308 8)] := by decide

/-- R144: an instruction whose address comes from SP waits for no load that discards its bytes, and one from X6 for that of X6. -/
theorem test_settle_discarded : (let loads := fun r => nextOf (exec (.gpSingle .read (part 0x9000300 1 r)) (st (wb .ish) .GRE { Plan.simple with rest := false }))
    ((loads 31).map (fun t => (t.settle 0 [(.gp, 31)]).inflight.length), (loads 6).map (fun t => (t.settle 0 [(.gp, 6)]).inflight.length))) =
    (some 1, some 0) := by decide

/-- Two loads into X6, left in flight (log 61). -/
def twoLoads (d : DeviceType) : Option State :=
  (nextOf (exec (.gpSingle .read (part 0x9000300 1 6)) (st (wb .ish) d { Plan.simple with rest := false }))).bind (fun t =>
    nextOf (exec (.gpSingle .read (part 0x9000302 1 6)) t))

/-- R144, R153: they are one transaction in Gathering memory, arrive in either order in Reordering memory, and X6 ends as the
later load has it. -/
theorem test_two_loads : (twoLoads .GRE).map (fun t => (traffic (t.deliverGroup [0, 1] []), (t.deliverGroup [0, 1] []).me.xreg 6 &&& 0xFF)) =
      some ([([.explicitRead, .explicitRead], [0x9000300, 0x9000302])], 0xD2) ∧
    (twoLoads .nGRE).map (fun t => ((t.deliverGroup [1] []).deliverGroup [0] []).me.xreg 6 &&& 0xFF) = some 0xD2 := by decide

/-- A load into X6, a store of X6 and a second load into X6, left in flight (log 61). -/
def storeBetween : Option State :=
  (nextOf (exec (.gpSingle .read (part 0x9000300 1 6)) (st (wb .ish) .GRE { Plan.simple with rest := false }))).bind (fun t =>
    (nextOf (exec (.gpSingle .write (part 0x1000 1 6)) t)).bind (fun t => nextOf (exec (.gpSingle .read (part 0x9000302 1 6)) t)))

/-- R144: a store of a register that an earlier load still reads does not make it arrive; the load merges with a later one, and
the store then writes what it loaded, also where a later load has the register. -/
theorem test_store_waits : storeBetween.map (fun t => (traffic t, traffic (t.deliverGroup [0, 2] []), t.inflight.length)) =
      some ([], [([.explicitRead, .explicitRead], [0x9000300, 0x9000302])], 3) ∧
    storeBetween.map (fun t => (Memory.read ((t.deliverGroup [0, 2] []).deliverGroup [1] []).mem 0x1000,
      (t.deliverGroup [0, 2] []).me.xreg 6 &&& 0xFF, (t.deliverGroup [1] []).inflight.length)) = some (0xD0, 0xD2, 3) := by decide

/-- An input from outside that writes the register an earlier load still reads: the load no longer delivers there. -/
theorem test_overwrite : ((twoLoads .GRE).bind (fun t => nextOf (t.handle (.setGp 0 6 0x77)))).map (fun t =>
    (t.inflight.length, (t.deliverGroup [0, 1] []).me.xreg 6)) = some (2, 0x77) := by decide

/-- In the step above the earlier write arrives first, then the stored bytes. -/
theorem test_running : trafficAfter (step running) = some [([.explicitWrite], [0x9000300]), ([.explicitWrite], [0x9000304]),
    ([.explicitWrite], List.range' 0x9000308 4)] := by decide

/-- NonReorderingAccessesArriveInProgramOrder: two accesses that arrived (V22). -/
def arrivedTwo : State :=
  { s0 with
    arrivals := [arrivalOf plat .write [0x9000300] [pendingWrite .nGnRE] [],
                 arrivalOf plat .write [0x9000304] [laterWrite (pendingWrite .nGnRnE) 0x9000304] []]
    nextId := 2, nextInstr := 3 }

theorem wit_program_order : ArrivalOrderOk arrivedTwo ∧ blockOf arrivedTwo.platform 0x9000300 = blockOf arrivedTwo.platform 0x9000304 ∧
    inPeripheral arrivedTwo.platform 0x9000304 = true ∧ DeviceType.nGnRE.reordering = false ∧ DeviceType.nGnRnE.reordering = false :=
  ⟨⟨by decide, by decide⟩, by decide⟩

/-- The invariant does not hold of the other order. -/
theorem test_program_order : ¬ ArrivalOrderOk { arrivedTwo with arrivals := arrivedTwo.arrivals.reverse } := by
  unfold ArrivalOrderOk; decide

/-- EndpointChangesAreObservedByAll: V44. -/
theorem wit_endpointChange : Memory.wf s0.mem = true ∧ (regionAt s0.platform 0x9000300).idempotent = false := by decide

/-- WeakerTypesAdmitMore: two types, and each relation holding for the stronger one. -/
theorem wit_weaker : DeviceType.GRE.strength ≤ DeviceType.nGnRE.strength ∧
    s0.mustPrecede (pendingWrite .nGnRE) (laterWrite (pendingWrite .nGnRE) 0x9000304) = true ∧
    (busy .GRE).mayForward (pendingWrite .GRE) (laterRead .GRE true) = true ∧
    s0.mayGather (pendingWrite .GRE) (laterWrite (pendingWrite .GRE) 0x9000304) = true ∧ s0.endpointMustAck (pendingWrite .nGnRnE) = true ∧
    s0.dsbWaitsFor 15 (pendingWrite .nGnRnE) = true ∧ permittedDeviceRead .ldnpGp .nGRE [0x9000300] [] [] [] 0x9000300 = true ∧
    (let s := st (wb .ish) .GRE Plan.simple; freeSizes s (oneAccess .gpLoad .gp 0x9000308) (allBytes (bytes8 s 0x9000308)) = true) := by
  decide

/-- OnlyEndpointsAcknowledgeNEWrites: an access that must be acknowledged by its endpoint, and one that need not (V24, V25). -/
theorem wit_ack : (busy .nGnRnE).findXact 0 = some (pendingWrite .nGnRnE) ∧ (busy .nGnRnE).acks = [] ∧
    (∃ b ∈ (pendingWrite .nGnRnE).bs, (regionAt (busy .nGnRnE).platform b.pa).ackRequired = true) ∧
    (busy .nGnRE).findXact 0 = some (pendingWrite .nGnRE) ∧ (pendingWrite .nGnRE).dt ≠ some .nGnRnE := by decide

/-- AccessesCompleteInFiniteTime: a run of two steps in which a bound of one is reached, and a write whose bound is 0. -/
def waiting (n : Nat) : State :=
  { busy .nGRE with inflight := [{ pendingWrite .nGRE with fuel := n }], inputs := [.evict 0 0, .evict 0 0] }

theorem wit_finite : NumbersOk (waiting 1) ∧ (∃ t, Host.Core.run Sys2Proof.core 2 (waiting 1) = .next t) ∧
    ({ pendingWrite .nGRE with fuel := 1 } ∈ (waiting 1).inflight) ∧ NumbersOk (waiting 0) ∧
    ({ pendingWrite .nGRE with fuel := 0 } ∈ (waiting 0).inflight) :=
  ⟨numbersOk_of _ (by decide) (by decide) (by decide) (by decide), ⟨_, rfl⟩, by decide,
   numbersOk_of _ (by decide) (by decide) (by decide) (by decide), by decide⟩

end Sys2Proof.Tests
end

section
/-! The statements on the state: every step keeps the machine well formed, what reset leaves, the Device types and the
validity of records, and the registers. -/

namespace Sys2Proof.Machine

open Sys2Proof

/-! ### What every primitive change keeps of memory and records -/

/-- An early acknowledgement changes nothing but the acknowledgements. -/
theorem State.earlyAckOf_frame (s : State) (id : Nat) : ∃ l, s.earlyAckOf id = { s with acks := l } := by
  unfold State.earlyAckOf
  split
  · exact ⟨_, rfl⟩
  · split <;> exact ⟨_, rfl⟩

/-- A group of accesses performed keeps the canonical form. -/
theorem State.mem_transact_wf (s : State) (xs : List Xact) (again : List Nat) (h : Memory.wf s.mem = true) :
    Memory.wf (s.transact xs again).mem = true := by
  rw [State.transact_mem]
  refine State.mem_reactGroup_wf _ xs ?_
  exact foldl_property (fun u : State => Memory.wf u.mem = true) _ xs _ (by simpa using h)
    (fun u x _ hu => u.mem_perform_wf x hu)

/-- A write back to the endpoint keeps the canonical form. -/
theorem State.mem_writebackToMem_wf (s : State) (sel : Line → Bool) (h : Memory.wf s.mem = true) :
    Memory.wf (s.writebackToMem sel).mem = true := by
  unfold State.writebackToMem
  split
  · exact h
  · exact Memory.wf_writeBytes _ _ h

section

variable {lo : Nat} {s t : State}

/-- Endpoint memory stays in its canonical form through every change. -/
theorem Change.mem_wf (h : Change lo s t) (hm : Memory.wf s.mem = true) : Memory.wf t.mem = true := by
  cases h with
  | transact xs again hs hp hg ha => exact s.mem_transact_wf xs again hm
  | answer x vals hx hd => simpa using hm
  | earlyAck id => obtain ⟨l, hl⟩ := s.earlyAckOf_frame id; rw [hl]; exact hm
  | react d pas => exact Memory.wf_react _ _ _ _ hm
  | writeback sel => exact s.mem_writebackToMem_wf sel hm
  | endpoint pa v hi => exact Memory.wf_write _ _ _ hm
  | _ => exact hm

/-- A change leaves the controls of every observer as they are, or gives it ones whose records are records. -/
theorem Change.ctl (h : Change lo s t) (o : Nat) :
    (t.getObs o).ctl = (s.getObs o).ctl ∨ (t.getObs o).ctl.valid s.platform = true := by
  cases h with
  | observer o' v hm hc =>
    rw [State.getObs_setObs]
    split
    · next e => subst e; exact hc
    · exact .inl rfl
  | mark k n =>
    rw [State.addMark_eq, State.getObs_setObs]
    split
    · next e => subst e; exact .inl rfl
    · exact .inl rfl
  | transact xs again hs hp hg ha => exact .inl ((s.transact_sameShape xs again).ctl o)
  | answer x vals hx hd => exact .inl (((s.deliverTo_sameShape x vals).trans (State.retire_sameShape _ x)).ctl o)
  | earlyAck id => obtain ⟨l, hl⟩ := s.earlyAckOf_frame id; rw [hl]; exact .inl rfl
  | writeback sel => rw [State.getObs_congr (s.writebackToMem_obs sel)]; exact .inl rfl
  | _ => exact .inl rfl

/-- Every configured record stays a record through every change. -/
theorem Change.recordsOk (h : Change lo s t) (hr : RecordsOk s) : RecordsOk t := by
  intro o
  rw [h.platform]
  rcases h.ctl o with e | hv
  · rw [e]; exact hr o
  · exact hv

/-- Changes write neither the parameters nor the relations supplied from outside. -/
theorem Changes.parameters (h : Changes lo s t) : t.platform = s.platform ∧ t.obIn = s.obIn ∧ t.bobIn = s.bobIn :=
  h.keeps (P := fun u => u.platform = s.platform ∧ u.obIn = s.obIn ∧ u.bobIn = s.bobIn)
    (fun _ _ ⟨hp, ho, hb⟩ k => ⟨k.platform.trans hp, k.relations.1.trans ho, k.relations.2.trans hb⟩) ⟨rfl, rfl, rfl⟩

end

/-- Settles O54: a step is a run of primitive changes (`step_changes`), and each of them keeps every part. -/
theorem stepsKeepTheMachineWellFormed : Obligations.StepsKeepTheMachineWellFormed := by
  intro s t hn h
  have hc := step_changes s t hn h
  exact ⟨hc.numbersOk hn, hc.keeps (fun _ _ hm k => k.mem_wf hm), hc.keeps (fun _ _ hr k => k.recordsOk hr), hc.parameters⟩

/-! ### The state at reset -/

/-- Every observer is at reset as `Observer.reset`; one that is not there has no default translations. -/
theorem State.getObs_reset (o : Nat) : ∃ d f, State.reset.getObs o =
    { Observer.reset with ctl := { PeCtl.reset with dataDefault := d, fetchDefault := f } } := by
  by_cases h : o = 0
  · subst h; exact ⟨_, _, rfl⟩
  · exact ⟨none, none, if_neg h⟩

theorem State.reset_marks (o : Nat) : (State.reset.getObs o).marks = [] := by
  obtain ⟨d, f, h⟩ := State.getObs_reset o; rw [h]; rfl

theorem State.reset_numbersOk : NumbersOk State.reset := by
  refine ⟨List.Pairwise.nil, ?_, ?_, fun o m hm => ?_⟩
  · intro x hx; cases hx
  · intro x hx; cases hx
  · rw [State.reset_marks] at hm; cases hm

theorem State.reset_recordsOk : RecordsOk State.reset := by
  intro o
  by_cases h : o = 0
  · subst h; decide
  · rw [show State.reset.getObs o = Observer.absent from if_neg h]; decide

/-- Settles O6: nothing has happened yet, so the invariants on accesses, caches and acknowledgements speak of empty lists. -/
theorem resetMeetsTheInvariants : Obligations.ResetMeetsTheInvariants := by
  refine ⟨State.reset_numbersOk, ⟨?_, .nil⟩, ?_, ?_, ⟨?_, .nil⟩, ?_, State.reset_recordsOk, State.wf_reset, by decide⟩
  all_goals intro x hx; cases hx

theorem State.reset_registers (o : Nat) (n : RegNum) :
    (State.reset.getObs o).base n = 0 ∧ (State.reset.getObs o).vec n = 0 := by
  obtain ⟨d, f, h⟩ := State.getObs_reset o
  rw [h]
  exact ⟨Vector.getElem_replicate _, Vector.getElem_replicate _⟩

/-- No load has been made, so every read would deliver. -/
theorem State.reset_takes (o : Nat) (f : RegFile) (n : RegNum) (id : Nat) : (State.reset.getObs o).takes f n id = true := by
  obtain ⟨d, g, h⟩ := State.getObs_reset o
  rw [h]
  cases f with
  | copy => rfl
  | gp => simp [Observer.takes, Observer.reset]
  | vec => simp [Observer.takes, Observer.reset]

theorem resetWalkAttr_nonCacheable : ∀ c ∈ [resetWalkAttr.inner, resetWalkAttr.outer], c.c = .nc ∧ c.hints = none := by
  decide

theorem implDevice_reset (d : DeviceType) : implDevice State.reset.platform d = d := by cases d <;> rfl

theorem mem_resetAtomicSizes (c : AccessClass) (n : Nat) : (c, n) ∈ State.reset.platform.atomicSizes ↔
    n ∈ [1, 2, 4, 8] ∧ c ∈ [AccessClass.gpLoad, .gpStore, .gpMultiLoad, .gpMultiStore, .ldnpGp, .loadExclusive,
      .storeExclusive, .loadAcquire, .storeRelease, .ldrax] := by
  have hmem : ∀ a : AccessClass, (c, n) ∈ [(a, 1), (a, 2), (a, 4), (a, 8)] ↔ n ∈ [1, 2, 4, 8] ∧ c = a := by
    intro a
    simp only [List.mem_cons, List.not_mem_nil, or_false, Prod.mk.injEq, ← and_or_left]
    exact and_comm
  unfold State.reset Config.resetPlatform Config.resetAtomicSizes
  simp only [List.mem_flatMap, hmem]
  constructor
  · rintro ⟨a, ha, hn, rfl⟩; exact ⟨hn, ha⟩
  · rintro ⟨hn, hc⟩; exact ⟨c, hc, hn, rfl⟩

theorem familyBarrierTable_lt : ∀ q ∈ Config.familyBarrierTable, q.1 < 16 := by decide

theorem barrierAffects_reset_of_lt (d e : Dir) : ∀ option < 16, barrierAffects State.reset.platform option d e = true ↔
    (option % 4 = 3 ∨ option % 4 = 1 ∧ d = .read ∨ option % 4 = 2 ∧ d = .write ∧ e = .write) := by
  cases d <;> cases e <;> decide

/-- The barrier options by their low two bits (log 14). -/
theorem barrierAffects_reset (option : Nat) (d e : Dir) : barrierAffects State.reset.platform option d e = true ↔
    option < 16 ∧ (option % 4 = 3 ∨ option % 4 = 1 ∧ d = .read ∨ option % 4 = 2 ∧ d = .write ∧ e = .write) := by
  by_cases hlt : option < 16
  · simpa [hlt] using barrierAffects_reset_of_lt d e option hlt
  · refine ⟨fun h => absurd ?_ hlt, fun h => absurd h.1 hlt⟩
    exact familyBarrierTable_lt _ (List.contains_iff_mem.1 h)

/-- Settles O7: the observers by `State.getObs_reset`, the two tables by their lemmas; every other value is the one the
definition of the state at reset names. -/
theorem resetLeavesTheNamedValues : Obligations.ResetLeavesTheNamedValues := by
  refine ⟨State.reset_registers, fun o => ?_, fun _ => ⟨rfl, rfl⟩, fun _ => rfl, rfl, rfl, rfl, rfl, rfl, rfl, rfl, rfl, rfl,
    rfl, rfl, rfl, rfl, rfl, rfl, rfl, fun _ => ⟨rfl, rfl, rfl, rfl, rfl, rfl, rfl⟩, rfl, rfl, rfl, rfl, rfl, rfl,
    implDevice_reset, rfl, rfl, rfl, rfl, rfl, rfl, rfl, rfl, rfl, rfl, mem_resetAtomicSizes, barrierAffects_reset⟩
  have htakes := State.reset_takes o
  obtain ⟨d, f, h⟩ := State.getObs_reset o
  rw [h] at htakes ⊢
  exact ⟨rfl, rfl, rfl, rfl, rfl, rfl, rfl, rfl, rfl, rfl, rfl, rfl, rfl, rfl, resetWalkAttr_nonCacheable,
    rfl, rfl, rfl, htakes⟩

/-! ### Device types and records -/

/-- Gathering asks for Reordering, and Reordering for Early Write Acknowledgement (10_state.md R25). -/
theorem DeviceType.hierarchical (d : DeviceType) :
    (d.gathering = true → d.reordering = true) ∧ (d.reordering = true → d.earlyAck = true) := by
  cases d <;> decide

/-- Every triple of the hierarchy is that of a Device type. -/
theorem DeviceType.exists_of_hierarchical {g r e : Bool} (hg : g = true → r = true) (hr : r = true → e = true) :
    ∃ d : DeviceType, d.gathering = g ∧ d.reordering = r ∧ d.earlyAck = e := by
  cases g with
  | true => exact ⟨.GRE, rfl, (hg rfl).symm, (hr (hg rfl)).symm⟩
  | false =>
    cases r with
    | true => exact ⟨.nGRE, rfl, rfl, (hr rfl).symm⟩
    | false =>
      cases e with
      | true => exact ⟨.nGnRE, rfl, rfl, rfl⟩
      | false => exact ⟨.nGnRnE, rfl, rfl, rfl⟩

/-- Settles O8: the four triples by computation; that they are all the hierarchical ones, by the cases of a triple. -/
theorem deviceTypesAreTheFourTriples : Obligations.DeviceTypesAreTheFourTriples := by
  refine ⟨rfl, DeviceType.hierarchical, fun g r e => ⟨?_, fun ⟨hg, hr⟩ => DeviceType.exists_of_hierarchical hg hr⟩⟩
  rintro ⟨d, rfl, rfl, rfl⟩
  exact DeviceType.hierarchical d

theorem NormalAttr.bothNC_iff (n : NormalAttr) : n.bothNC = true ↔ n.inner.c = .nc ∧ n.outer.c = .nc := by
  simp [NormalAttr.bothNC]

/-- The effective Shareability of a Normal record is its own, unless it is Non-cacheable at both levels (10_state.md R27). -/
theorem MemAttr.effSh_normal (n : NormalAttr) (xs : Option Bool) :
    ({ ty := .normal n, xs := xs } : MemAttr).effSh = if n.bothNC then .osh else n.sh := rfl

/-- Hints only where cacheable, Transient only where implemented (10_state.md R23, R24). -/
theorem CacheAttr.valid_iff (th : Bool) (c : CacheAttr) :
    c.valid th = true ↔ ∀ h, c.hints = some h → c.c ≠ .nc ∧ (h.transient.isSome = true → th = true) := by
  unfold CacheAttr.valid
  cases c.hints with
  | none => simp
  | some h => cases ht : h.transient <;> simp [ht]

/-- Validity of a record (10_state.md R29, R39). -/
theorem MemAttr.valid_iff (th xs : Bool) (a : MemAttr) : a.valid th xs = true ↔ a.xs.isSome = xs ∧
    ∀ n, a.ty = .normal n → ∀ c ∈ [n.inner, n.outer], c.valid th = true := by
  unfold MemAttr.valid
  cases a.ty with
  | device d => simp
  | normal n => simp

/-- A walk without a second stage reads with the Normal record of `TCR_ELx` (21_device_memory.md R138). -/
theorem walkAttr_isNormal (p : Platform) (c : PeCtl) (w : WalkRef) (h : w.s2 = none) : (walkAttr p c w).isNormal = true := by
  simp [walkAttr, MemAttr.isNormal, h]

/-- Settles O9: one lemma for each function of a record. -/
theorem recordsAreAsTheRulesSay : Obligations.RecordsAreAsTheRulesSay := by
  refine ⟨fun _ _ => rfl, fun n xs hi ho => ?_, fun n xs h => ?_, fun th xs a => ?_, walkAttr_isNormal⟩
  · rw [MemAttr.effSh_normal, if_pos ((NormalAttr.bothNC_iff n).2 ⟨hi, ho⟩)]
  · rw [MemAttr.effSh_normal, if_neg (fun hb => ?_)]
    obtain ⟨hi, ho⟩ := (NormalAttr.bothNC_iff n).1 hb
    exact h.elim (· hi) (· ho)
  · simp only [MemAttr.valid_iff, CacheAttr.valid_iff]

/-! ### Registers -/

theorem Observer.xreg_setX_self (o : Observer) {n : RegNum} (v : Word) (h : n ≠ 31) : (o.setX n v).xreg n = v := by
  unfold Observer.xreg Observer.setX
  rw [if_neg h, if_neg h]
  exact Vector.getElem_set_self _

/-- A transferred register is left alone by a write to another. -/
theorem Observer.xreg_setX_ne (o : Observer) {n m : RegNum} (v : Word) (h : m ≠ n) : (o.setX m v).xreg n = o.xreg n := by
  unfold Observer.xreg
  rw [o.setX_base_ne v (.inr h)]

@[simp] theorem Observer.vec_setVec_self (o : Observer) (n : RegNum) (v : VReg) : (o.setVec n v).vec n = v :=
  Vector.getElem_set_self _

/-- Every byte of register number 31 reads as zero (log 2). -/
theorem Observer.regByte_gp_31 (o : Observer) (k : Nat) : o.regByte .gp 31 k = 0 :=
  BitVec.extractLsb'_zero

/-- A byte written to a general-purpose register that is not number 31 is read there. -/
theorem Observer.regByte_setRegByte_gp (o : Observer) {n : RegNum} {k : Nat} (b : Byte) (hn : n ≠ 31) (hk : k < 8) :
    (o.setRegByte .gp n k b).regByte .gp n k = b := by
  simp only [Observer.setRegByte, Observer.regByte, o.xreg_setX_self _ hn]
  exact getLane_setLane_self _ _ _ (by omega)

/-- A byte written to a vector register is read there. -/
theorem Observer.regByte_setRegByte_vec (o : Observer) (n : RegNum) {k : Nat} (b : Byte) (hk : k < 256) :
    (o.setRegByte .vec n k b).regByte .vec n k = b := by
  simp only [Observer.setRegByte, Observer.regByte, Observer.vec_setVec_self]
  exact getLane_setLane_self _ _ _ (by omega)

/-- The bytes copies hold, each under its number. -/
theorem Observer.regByte_setRegByte_copy (o : Observer) (n m : RegNum) (k j : Nat) (b : Byte) :
    (o.setRegByte .copy n k b).regByte .copy m j = if j = k then b else o.regByte .copy m j :=
  heldByte_holdByte o.copyBuf k j b

/-- A byte written to a register of one file leaves every other file alone. -/
theorem Observer.regByte_setRegByte_of_file_ne (o : Observer) {f g : RegFile} (h : f ≠ g) (n m : RegNum) (k j : Nat) (b : Byte) :
    (o.setRegByte f n k b).regByte g m j = o.regByte g m j := by
  cases g with
  | gp =>
    simp only [Observer.regByte, Observer.xreg]
    rw [o.setRegByte_base k b (.inr (by simp [h]))]
  | vec =>
    simp only [Observer.regByte]
    rw [o.setRegByte_vec k b (.inr (by simp [h]))]
  | copy =>
    simp only [Observer.regByte]
    rw [o.setRegByte_copyBuf h n k b]

/-- Within the general-purpose file, a byte written leaves every other byte alone. -/
theorem Observer.regByte_setRegByte_gp_ne (o : Observer) {n m : RegNum} {k j : Nat} (b : Byte) (h : n = m → j ≠ k) :
    (o.setRegByte .gp n k b).regByte .gp m j = o.regByte .gp m j := by
  simp only [Observer.setRegByte, Observer.regByte]
  by_cases hnm : n = m
  · subst hnm
    by_cases h31 : n = 31
    · subst h31; rfl
    · rw [o.xreg_setX_self _ h31, getLane_setLane_ne _ b (h rfl)]
  · rw [o.xreg_setX_ne _ hnm]

/-- Within the vector file, a byte written leaves every other byte alone. -/
theorem Observer.regByte_setRegByte_vec_ne (o : Observer) {n m : RegNum} {k j : Nat} (b : Byte) (h : n = m → j ≠ k) :
    (o.setRegByte .vec n k b).regByte .vec m j = o.regByte .vec m j := by
  simp only [Observer.setRegByte, Observer.regByte]
  by_cases hnm : n = m
  · subst hnm
    rw [Observer.vec_setVec_self, getLane_setLane_ne _ b (h rfl)]
  · rw [o.setVec_vec_ne _ hnm]

/-- Settles O12: the write-then-read lemmas of each file, and, where nothing changes, by whether the files are the same. -/
theorem registersHoldWhatIsWritten : Obligations.RegistersHoldWhatIsWritten := by
  refine ⟨fun o k b v => ⟨rfl, rfl, fun _ => o.regByte_gp_31 k⟩, fun o n k b => o.regByte_setRegByte_gp b,
    fun o n k b => o.regByte_setRegByte_vec n b, fun o f g n m k j b hne hcopy => ?_, Observer.regByte_setRegByte_copy⟩
  by_cases hfg : f = g
  · subst hfg
    have hlane : n = m → j ≠ k := fun hn hj => hne (by rw [hn, hj])
    cases f with
    | gp => exact o.regByte_setRegByte_gp_ne b hlane
    | vec => exact o.regByte_setRegByte_vec_ne b hlane
    | copy => simp at hcopy
  · exact o.regByte_setRegByte_of_file_ne hfg n m k j b

end Sys2Proof.Machine
end

section
/-! The statements on memory: finite time, hints, coherency and visibility of stores, reservations, refused records,
speculative reads, and exceptions in a sequence. -/

namespace Sys2Proof.Machine

open Sys2Proof

/-! ### Finite time (20_memory.md R56, R57; 21_device_memory.md R127, R131; log 11) -/

/-- A record under which no write stops in a cache: Device, or Write-Back at neither level. -/
def MemAttr.passesThrough (a : MemAttr) : Prop :=
  a.isDevice = true ∨ (a.cacheAt .inner ≠ .wb ∧ a.cacheAt .outer ≠ .wb)

theorem State.reachesEndpoint_of_passesThrough (s : State) {x : Xact} (hd : x.dir = .write) (ha : MemAttr.passesThrough x.attr) :
    s.reachesEndpoint x = true := by
  rcases ha with h | ⟨hi, ho⟩
  · simp [State.reachesEndpoint, h]
  · have hwb : ∀ l, x.attr.cacheAt l ≠ .wb := fun l => by cases l with | inner => exact hi | outer => exact ho
    have hu : s.holdUnit x = none := by
      unfold State.holdUnit
      split
      · rfl
      · exact List.find?_eq_none.2 (fun c _ h => hwb c.tag (by simpa using (Bool.and_eq_true_iff.1 h).2))
    simp [State.reachesEndpoint, hd, hu]

section

variable {lo : Nat} {s t : State}

/-- An access in flight after a change that was not put in flight by it was in flight before, with no nearer a bound. -/
theorem Change.survivor (h : Change lo s t) (hs : Since lo s) {y : Xact} (hy : y ∈ t.inflight) (hid : y.id < lo) :
    ∃ z ∈ s.inflight, z.id = y.id ∧ y.fuel ≤ z.fuel := by
  have same : y ∈ s.inflight → ∃ z ∈ s.inflight, z.id = y.id ∧ y.fuel ≤ z.fuel := fun h => ⟨y, h, rfl, Nat.le_refl _⟩
  cases h with
  | issue xs hf =>
    rw [State.issue_inflight, List.mem_append] at hy
    rcases hy with hy | hy
    · exact same hy
    · exact absurd (Nat.le_trans hs.low (hf.id_ge y hy)) (Nat.not_le.2 hid)
  | abandon p hp => exact same (List.mem_filter.1 hy).1
  | transact xs again => exact same (State.transact_sub _ _ _ y hy)
  | answer x vals => exact same (by simpa using (List.mem_filter.1 hy).1)
  | earlyAck id => obtain ⟨l, hl⟩ := s.earlyAckOf_frame id; exact same (by simpa [hl] using hy)
  | writeback sel => exact same (by simpa using hy)
  | age hf =>
    obtain ⟨z, hz, rfl⟩ := List.mem_map.1 hy
    exact ⟨z, hz, rfl, Nat.sub_le _ _⟩
  | _ => exact same hy

theorem Changes.survivor (h : Changes lo s t) (hs : Since lo s) {y : Xact} (hy : y ∈ t.inflight) (hid : y.id < lo) :
    ∃ z ∈ s.inflight, z.id = y.id ∧ y.fuel ≤ z.fuel := by
  induction h generalizing y with
  | refl => exact ⟨y, hy, rfl, Nat.le_refl _⟩
  | tail h k ih =>
    obtain ⟨z, hz, he, hle⟩ := k.survivor (h.since hs) hy hid
    obtain ⟨w, hw, hwe, hwle⟩ := ih hz (he ▸ hid)
    exact ⟨w, hw, hwe.trans he, Nat.le_trans hle hwle⟩

/-- What arrived stays among what arrived. -/
theorem Changes.arrived_subset (h : Changes lo s t) {y : Xact} (hy : y ∈ s.arrived) : y ∈ t.arrived :=
  h.keeps (P := fun u => y ∈ u.arrived)
    (fun _ _ hu k => by obtain ⟨xs, hx, -⟩ := k.arrived; rw [hx]; exact List.mem_append_left _ hu) hy

end

/-- When time passes, what is left in flight had a bound that was not reached, and has a nearer one. -/
theorem State.tick_survivor (s : State) {y : Xact} (hy : y ∈ s.tick.inflight) :
    ∃ z ∈ s.inflight, z.id = y.id ∧ y.fuel < z.fuel := by
  obtain ⟨z, hz, rfl⟩ := List.mem_map.1 hy
  obtain ⟨hin, hnot⟩ := State.forceAll_inflight _ s z hz
  refine ⟨z, hin, rfl, Nat.sub_lt (Nat.pos_of_ne_zero (fun h0 => hnot ?_)) Nat.one_pos⟩
  exact List.mem_map.2 ⟨z, List.mem_filter.2 ⟨hin, by simp [h0]⟩, rfl⟩

/-- An instruction ends with the passing of time. -/
theorem State.runNext_ticks (s t : State) {lo : Nat} (hs : Since lo s) (h : s.runNext = .next t) :
    ∃ u, Changes lo s u ∧ t = u.tick := by
  unfold State.runNext at h
  split at h
  · cases h; exact ⟨s, .refl s, rfl⟩
  · cases h
  · next u hu => cases h; exact ⟨u, (s.nextInstruction_changes (lo := lo)).1 u hu, rfl⟩
  · cases h
  · next i u hu =>
    have k := (s.nextInstruction_changes (lo := lo)).2 i u hu
    split at h
    · next v hv =>
      cases h
      have hv := k.trans (exec_changes i u (k.since hs) v hv)
      exact ⟨v.endSlot u.cur, hv.trans (v.setObs_changes _ _ rfl rfl), rfl⟩
    · cases h
    · cases h

/-- So does every step. -/
theorem step_ticks (s t : State) (hn : NumbersOk s) (h : step s = .next t) : ∃ u, Changes s.nextId s u ∧ t = u.tick := by
  have hs : Since s.nextId s := ⟨hn, Nat.le_refl _⟩
  have driven : ∀ (i : List Event) (p : Plan), Changes s.nextId s { s with inputs := i, plan := p } :=
    fun i p => .single (.driver s s.cur i p)
  have run : ∀ (i : List Event) (p : Plan), ({ s with inputs := i, plan := p } : State).runNext = .next t →
      ∃ u, Changes s.nextId s u ∧ t = u.tick := fun i p h => by
    obtain ⟨u, hu, ht⟩ := State.runNext_ticks _ t ((driven i p).since hs) h
    exact ⟨u, (driven i p).trans hu, ht⟩
  unfold step at h
  split at h
  · exact run s.inputs _ h
  · next p rest _ => exact run rest p h
  · next e rest _ _ =>
    split at h
    · next u hu =>
      cases h
      exact ⟨u, (driven rest s.plan).trans (State.handle_changes _ e ((driven rest s.plan).since hs) u hu), rfl⟩
    · cases h
    · cases h

/-- Every step lowers the bound of each access that stays in flight. -/
theorem step_survivor (s t : State) (hn : NumbersOk s) (h : step s = .next t) {y : Xact} (hy : y ∈ t.inflight)
    (hid : y.id < s.nextId) : ∃ z ∈ s.inflight, z.id = y.id ∧ y.fuel < z.fuel := by
  obtain ⟨u, hu, rfl⟩ := step_ticks s t hn h
  obtain ⟨z, hz, he, hlt⟩ := u.tick_survivor hy
  obtain ⟨w, hw, hwe, hle⟩ := hu.survivor ⟨hn, Nat.le_refl _⟩ hz (he ▸ hid)
  exact ⟨w, hw, hwe.trans he, Nat.lt_of_lt_of_le hlt hle⟩

/-- A run of one step more is that step and a run from where it leads. -/
theorem run_succ (M : Host.Core) {n : Nat} {s t : M.State} (h : M.run (n + 1) s = .next t) :
    ∃ u, M.step s = .next u ∧ M.run n u = .next t := by
  unfold Host.Core.run at h
  split at h
  · next u hu => exact ⟨u, hu, h⟩
  · cases h
  · cases h

/-- Over a run, the bound of an access that stays in flight falls by the number of steps. -/
theorem run_survivor (n : Nat) (s t : State) (hn : NumbersOk s) (h : Host.Core.run core n s = .next t) {y : Xact}
    (hy : y ∈ t.inflight) (hid : y.id < s.nextId) : ∃ z ∈ s.inflight, z.id = y.id ∧ y.fuel + n ≤ z.fuel := by
  induction n generalizing s with
  | zero => cases h; exact ⟨y, hy, rfl, Nat.le_refl _⟩
  | succ n ih =>
    obtain ⟨u, hu, hrun⟩ := run_succ core h
    have hc := step_changes s u hn hu
    obtain ⟨z, hz, he, hle⟩ := ih u (hc.numbersOk hn) hrun (Nat.lt_of_lt_of_le hid hc.nextId_le)
    obtain ⟨w, hw, hwe, hlt⟩ := step_survivor s u hn hu hz (he ▸ hid)
    exact ⟨w, hw, hwe.trans he, by omega⟩

/-- What arrived stays so over a run. -/
theorem run_arrived_subset (n : Nat) (s t : State) (hn : NumbersOk s) (h : Host.Core.run core n s = .next t) {y : Xact}
    (hy : y ∈ s.arrived) : y ∈ t.arrived := by
  induction n generalizing s with
  | zero => cases h; exact hy
  | succ n ih =>
    obtain ⟨u, hu, hrun⟩ := run_succ core h
    have hc := step_changes s u hn hu
    exact ih u (hc.numbersOk hn) hrun (hc.arrived_subset hy)

/-- Over a run, a write that no cache stops stays in flight or arrives. -/
theorem run_write_lands (n : Nat) (s t : State) (x : Xact) (hn : NumbersOk s) (h : Host.Core.run core n s = .next t)
    (hx : x ∈ s.inflight) (hd : x.dir = .write) (ha : MemAttr.passesThrough x.attr) :
    (∃ k, { x with fuel := k } ∈ t.inflight) ∨ ∃ y ∈ t.arrived, y.id = x.id := by
  induction n generalizing s x with
  | zero => cases h; exact .inl ⟨x.fuel, hx⟩
  | succ n ih =>
    obtain ⟨u, hu, hrun⟩ := run_succ core h
    have hc := step_changes s u hn hu
    have hn' := hc.numbersOk hn
    rcases hc.write_lands hn hx (hn.2.1 x hx).1 hd (fun v _ k => v.reachesEndpoint_of_passesThrough hd ha) with ⟨k, hk⟩ | ⟨y, hy, he⟩
    · exact ih u { x with fuel := k } hn' hrun hk hd ha
    · exact .inr ⟨y, run_arrived_subset n u t hn' hrun hy, he⟩

/-- Settles O59: every step ends with the passing of time, which lowers each bound (`run_survivor`), and a write that no cache
stops leaves the accesses in flight only by arriving (`Changes.write_lands`). -/
theorem accessesCompleteInFiniteTime : Obligations.AccessesCompleteInFiniteTime := by
  refine ⟨fun n s t x hn hrun hx hf => ?_, fun s x hn hx h0 hd ha => ?_⟩
  · have gone : ∀ y ∈ t.inflight, y.id ≠ x.id := fun y hy he => by
      obtain ⟨z, hz, hze, hle⟩ := run_survivor n s t hn hrun hy (he ▸ (hn.2.1 x hx).1)
      rw [hn.eq_of_id hz hx (hze.trans he)] at hle
      omega
    refine ⟨gone, fun hd ha => (run_write_lands n s t x hn hrun hx hd ha).resolve_left ?_⟩
    rintro ⟨k, hk⟩
    exact gone _ hk rfl
  · have hc := s.tick_changes ⟨hn, Nat.le_refl s.nextId⟩
    refine (hc.write_lands hn hx (hn.2.1 x hx).1 hd
      (fun v _ k => v.reachesEndpoint_of_passesThrough hd ha)).resolve_left ?_
    rintro ⟨k, hk⟩
    obtain ⟨z, hz, he, hlt⟩ := s.tick_survivor hk
    rw [hn.eq_of_id hz hx he] at hlt
    omega

/-! ### The caches on a path (20_memory.md R86) -/

/-- A path is Inner caches and then Outer ones exactly when only Outer ones follow its leading Inner ones. -/
theorem inner_then_outer_iff (l : List CacheLevel) :
    (l.dropWhile (fun c => c == .inner)).all (fun c => c == .outer) = true ↔
      ∃ k m : Nat, l = List.replicate k .inner ++ List.replicate m .outer := by
  constructor
  · intro h
    refine ⟨(l.takeWhile (fun c => c == .inner)).length, (l.dropWhile (fun c => c == .inner)).length, ?_⟩
    rw [← List.eq_replicate_iff.2 ⟨rfl, fun c hc => eq_of_beq (List.all_eq_true.1 List.all_takeWhile c hc)⟩,
      ← List.eq_replicate_iff.2 ⟨rfl, fun c hc => by simpa using List.all_eq_true.1 h c hc⟩, List.takeWhile_append_dropWhile]
  · rintro ⟨k, m, rfl⟩
    have hk : ∀ c ∈ List.replicate k CacheLevel.inner, (c == .inner) = true := fun c hc => by simp [List.eq_of_mem_replicate hc]
    rw [List.dropWhile_append_of_pos hk]
    exact List.all_eq_true.2 (fun c hc => by
      simp [List.eq_of_mem_replicate ((List.dropWhile_sublist _).subset hc)])

/-- Settles O11: by the closest cache, which only where there is none at all may fail to be Inner. -/
theorem cacheTaggings : Obligations.CacheTaggings := by
  intro l
  match l with
  | [] => exact ⟨fun _ => ⟨0, 0, rfl, fun _ => rfl⟩, fun _ => rfl⟩
  | .inner :: rest =>
    refine (inner_then_outer_iff rest).trans ⟨?_, ?_⟩
    · rintro ⟨k, m, rfl⟩
      exact ⟨k + 1, m, rfl, fun h => absurd h (Nat.succ_ne_zero k)⟩
    · rintro ⟨k, m, he, hk⟩
      match k with
      | 0 => rw [hk rfl] at he; cases he
      | k + 1 => exact ⟨k, m, (List.cons.inj he).2⟩
  | .outer :: rest =>
    refine ⟨fun h => absurd h Bool.false_ne_true, ?_⟩
    rintro ⟨k, m, he, hk⟩
    match k with
    | 0 => rw [hk rfl] at he; cases he
    | k + 1 => cases he

/-! ### Barriers and reservations -/

/-- A DMB between two accesses of the kinds and in the block it speaks of orders them (20_memory.md R84; 21_device_memory.md
R133). -/
theorem State.bob_of_dmb {s : State} {a b : Xact} {m : Mark} (hm : m ∈ (s.getObs a.obs).marks) (hk : m.kind = .dmb)
    (ho : a.obs = b.obs) (ha : a.id < m.at_) (hb : m.at_ ≤ b.id)
    (haff : barrierAffects s.platform m.option a.dir b.dir = true)
    (hty : a.attr.isDevice = true ∧ b.attr.isDevice = true ∨ a.attr.isNormalNC = true ∧ b.attr.isNormalNC = true)
    (hbl : ∃ x ∈ a.bs, ∃ y ∈ b.bs, blockOf s.platform x.pa = blockOf s.platform y.pa) : s.bob a b = true := by
  have hblock : sameBlock s.platform a b = true := by simpa [sameBlock] using hbl
  have hbetween : barrierBetween s.platform (s.getObs a.obs).marks [.dmb] a b = true :=
    List.any_eq_true.2 ⟨m, hm, by simp [hk, ha, hb, haff]⟩
  have hlt : a.id < b.id := Nat.lt_of_lt_of_le ha hb
  simp [State.bob, ho, hlt, hty, hblock, ho ▸ hbetween]

/-- Settles O29: barrier-ordered-before is one of the relations ordered-before holds, which orders two instructions. -/
theorem dmbOrdersAccessesOfOneBlock : Obligations.DmbOrdersAccessesOfOneBlock := by
  intro s a b m hm hk ho ha hb haff hty hbl
  have hbob := State.bob_of_dmb hm hk ho ha hb haff hty hbl
  have hob : s.ob a b = true := by simp [State.ob, hbob]
  refine ⟨hbob, hob, fun hi => ?_⟩
  simp [State.mustPrecede, ho, Nat.lt_of_lt_of_le ha hb, hi, hob]

/-- A write of the record's kind is taken into account by a reservation (20_memory.md R75, R78). -/
theorem exclTakesAccount_iff (p : Platform) (a : MemAttr) (w o : Nat) : exclTakesAccount p a w o = true ↔
    (a.effSh = .ish ∧ sameInner p w o = true) ∨ (a.effSh = .osh ∧ sameOuter p w o = true) ∨
      (a.effSh = .nsh ∧ p.nshExclMultiObserver = true) := by
  unfold exclTakesAccount
  cases a.effSh <;> simp

/-- The reservation takes a write into account exactly at a location that both name. -/
theorem Reservation.takesAccount_iff (p : Platform) (r : Reservation) (w : Xact) (o : Nat) : r.takesAccount p w o = true ↔
    ∃ q ∈ r.bytes, q.1 ∈ w.touchedBytes ∧ exclTakesAccount p q.2 w.obs o = true := by
  simp [Reservation.takesAccount, Xact.touchedBytes]

/-- The bytes of a write as it stands are at its locations, so the reservation takes it into account as it was issued. -/
theorem Reservation.takesAccount_filled (p : Platform) (r : Reservation) (s : State) (w : Xact) (o : Nat) :
    r.takesAccount p (s.filled w) o = r.takesAccount p w o := by
  rw [Bool.eq_iff_iff, Reservation.takesAccount_iff, Reservation.takesAccount_iff, State.filled_touchedBytes, State.filled_obs]

/-- A change of each listed observer gives the changed one, where the number is listed. -/
theorem Observers.get_map_listed (f : Nat × Observer → Nat × Observer) (hf : ∀ e, (f e).1 = e.1) (l : List (Nat × Observer))
    (o : Nat) : Observers.get l o = Observer.absent ∨ Observers.get (l.map f) o = (f (o, Observers.get l o)).2 := by
  induction l with
  | nil => exact .inl rfl
  | cons e t ih =>
    obtain ⟨k, v⟩ := e
    have hget : Observers.get (((k, v) :: t).map f) o = if o = k then (f (k, v)).2 else Observers.get (t.map f) o := by
      rw [List.map_cons, show f (k, v) = (k, (f (k, v)).2) from Prod.ext (hf (k, v)) rfl]; rfl
    rw [hget, show Observers.get ((k, v) :: t) o = if o = k then v else Observers.get t o from rfl]
    split
    · next h => exact .inr (by rw [h])
    · exact ih

/-- What a write does to a listed observer: its reservation, if it takes the write into account, is lost. -/
def takeIntoAccount (p : Platform) (x : Xact) (e : Nat × Observer) : Nat × Observer :=
  match e.2.excl with
  | some r =>
    if e.1 != x.obs && r.takesAccount p x e.1 then (e.1, { e.2 with excl := some { r with lost := true } }) else e
  | none => e

theorem State.clearReservations_obs (s : State) (x : Xact) :
    (s.clearReservations x).obs = s.obs.map (takeIntoAccount s.platform x) := rfl

theorem takeIntoAccount_number (p : Platform) (x : Xact) (e : Nat × Observer) : (takeIntoAccount p x e).1 = e.1 := by
  unfold takeIntoAccount; split <;> (try split) <;> rfl

theorem takeIntoAccount_excl (p : Platform) (x : Xact) {o : Nat} {v : Observer} {r : Reservation} (hr : v.excl = some r)
    (ho : o ≠ x.obs) :
    (takeIntoAccount p x (o, v)).2.excl = some (if r.takesAccount p x o then { r with lost := true } else r) := by
  unfold takeIntoAccount
  dsimp only
  rw [hr]
  cases h : r.takesAccount p x o with
  | true => simp [ho, h]
  | false => simpa [h] using hr

/-- A write marks the reservations of other observers that take it into account as lost, and leaves those that do not. -/
theorem State.excl_clearReservations (s : State) (x : Xact) {o : Nat} {r : Reservation} (hr : (s.getObs o).excl = some r)
    (ho : o ≠ x.obs) : ((s.clearReservations x).getObs o).excl =
      some (if r.takesAccount s.platform x o then { r with lost := true } else r) := by
  unfold State.getObs at hr ⊢
  rw [State.clearReservations_obs]
  rcases Observers.get_map_listed _ (takeIntoAccount_number s.platform x) s.obs o with h | h
  · rw [h] at hr; cases hr
  · rw [h]; exact takeIntoAccount_excl s.platform x hr ho

/-- A write that is performed does the same to the reservations of other observers. -/
theorem State.excl_perform_write (s : State) {w : Xact} {o : Nat} {r : Reservation} (hd : w.dir = .write)
    (hr : (s.getObs o).excl = some r) (ho : o ≠ w.obs) :
    ((s.perform w).getObs o).excl = some (if r.takesAccount s.platform w o then { r with lost := true } else r) := by
  have hp : s.perform w = s.commit (s.filled w) := by unfold State.perform; rw [hd]
  rw [hp, State.getObs_congr (State.commit_obs _ _), s.excl_clearReservations (s.filled w) hr (by simpa using ho),
    Reservation.takesAccount_filled]

/-- Settles O23: by whether the reservation takes the write into account at some byte, which the record decides. -/
theorem reservationsTakeOtherObserversIntoAccount : Obligations.ReservationsTakeOtherObserversIntoAccount := by
  intro s w o r hd hr ho
  rw [s.excl_perform_write hd hr ho]
  refine ⟨?_, fun h => ?_⟩
  · rintro ⟨b, hb, q, hq, he, htakes⟩
    rw [if_pos ((r.takesAccount_iff _ w o).2 ⟨q, hq, he ▸ List.mem_map_of_mem hb, (exclTakesAccount_iff _ _ _ _).2 htakes⟩)]
  · rw [if_neg]
    rw [Reservation.takesAccount_iff]
    rintro ⟨q, hq, hmem, htakes⟩
    obtain ⟨b, hb, he⟩ := List.mem_map.1 hmem
    rw [exclTakesAccount_iff] at htakes
    rcases h b hb q hq he.symm with ⟨hsh, hno⟩ | ⟨hsh, hno⟩ | ⟨hsh, hno⟩ <;> simp [hsh, hno] at htakes

/-! ### Hints (20_memory.md R81, R85) -/

/-- A function of a record that does not read its hints gives records that differ in the hints alone the same value. -/
theorem MemAttr.congr_hints {α : Type} (F : MemAttr → α) (hF : ∀ a, F a.eraseHints = F a) {a b : MemAttr}
    (h : a.eraseHints = b.eraseHints) : F a = F b := by
  rw [← hF a, h, hF b]

theorem MemAttr.sameTypeAndShareability_erase (a b : MemAttr) :
    a.eraseHints.sameTypeAndShareability b.eraseHints = a.sameTypeAndShareability b := by
  cases ha : a.ty <;> cases hb : b.ty <;> simp [MemAttr.sameTypeAndShareability, MemAttr.eraseHints, ha, hb]

theorem MemAttr.sameTypeAndShareability_erase_left (a b : MemAttr) :
    a.eraseHints.sameTypeAndShareability b = a.sameTypeAndShareability b := by
  rw [← MemAttr.sameTypeAndShareability_erase, MemAttr.eraseHints_eraseHints, MemAttr.sameTypeAndShareability_erase]

theorem MemAttr.mismatched_erase (a b : MemAttr) : a.eraseHints.mismatched b.eraseHints = a.mismatched b := by
  simp only [MemAttr.mismatched, MemAttr.eraseHints_eraseHints]

theorem MemAttr.mismatched_erase_left (a b : MemAttr) : a.eraseHints.mismatched b = a.mismatched b := by
  simp only [MemAttr.mismatched, MemAttr.eraseHints_eraseHints]

theorem MemAttr.mismatched_erase_right (a b : MemAttr) : a.mismatched b.eraseHints = a.mismatched b := by
  simp only [MemAttr.mismatched, MemAttr.eraseHints_eraseHints]

section

variable (s : State) (x y : Xact)

/-- What orders an access with others reads of its record only whether it is Device, and whether it is Non-cacheable. -/
theorem State.bob_eraseXact_left : s.bob (eraseXact x) y = s.bob x y := by
  simp only [State.bob, eraseXact, MemAttr.isDevice_erase, MemAttr.isNormalNC_erase]; rfl

theorem State.bob_eraseXact_right : s.bob y (eraseXact x) = s.bob y x := by
  simp only [State.bob, eraseXact, MemAttr.isDevice_erase, MemAttr.isNormalNC_erase]; rfl

theorem State.ob_eraseXact_left : s.ob (eraseXact x) y = s.ob x y := by
  simp only [State.ob, State.bob_eraseXact_left]; rfl

theorem State.ob_eraseXact_right : s.ob y (eraseXact x) = s.ob y x := by
  simp only [State.ob, State.bob_eraseXact_right]; rfl

theorem sameLocationOrdered_eraseXact_right : sameLocationOrdered y (eraseXact x) = sameLocationOrdered y x := by
  simp only [sameLocationOrdered, eraseXact, MemAttr.isNormal_erase]; rfl

theorem State.mustPrecede_eraseXact_left : s.mustPrecede (eraseXact x) y = s.mustPrecede x y := by
  simp only [State.mustPrecede, State.ob_eraseXact_left]; rfl

theorem State.mustPrecede_eraseXact_right : s.mustPrecede y (eraseXact x) = s.mustPrecede y x := by
  simp only [State.mustPrecede, State.ob_eraseXact_right, sameLocationOrdered_eraseXact_right]; rfl

theorem State.mayGather_eraseXact_left : s.mayGather (eraseXact x) y = s.mayGather x y := by
  simp only [State.mayGather, State.bob_eraseXact_left, State.bob_eraseXact_right, State.ob_eraseXact_left,
    State.ob_eraseXact_right]
  rfl

theorem State.mayGather_eraseXact_right : s.mayGather y (eraseXact x) = s.mayGather y x := by
  simp only [State.mayGather, State.bob_eraseXact_left, State.bob_eraseXact_right, State.ob_eraseXact_left,
    State.ob_eraseXact_right]
  rfl

/-- Where a write goes asks of the record its Cacheability alone. -/
theorem State.reachesEndpoint_eraseXact : s.reachesEndpoint (eraseXact x) = s.reachesEndpoint x := by
  simp only [State.reachesEndpoint, State.holdUnit, eraseXact, MemAttr.isDevice_erase, MemAttr.cacheAt_erase]

end

/-- Accesses that differ in the hints of their records alone are in the same relations. -/
theorem eraseXact_hints (x : Xact) {a b : MemAttr} (h : a.eraseHints = b.eraseHints) :
    eraseXact { x with attr := a } = eraseXact { x with attr := b } := by
  simp only [eraseXact, h]

theorem State.relations_hints (s : State) (x y : Xact) {a b : MemAttr} (h : a.eraseHints = b.eraseHints) :
    s.mustPrecede { x with attr := a } y = s.mustPrecede { x with attr := b } y ∧
    s.mustPrecede y { x with attr := a } = s.mustPrecede y { x with attr := b } ∧
    s.mayGather { x with attr := a } y = s.mayGather { x with attr := b } y ∧
    s.mayGather y { x with attr := a } = s.mayGather y { x with attr := b } ∧
    s.reachesEndpoint { x with attr := a } = s.reachesEndpoint { x with attr := b } := by
  have congr : ∀ F : Xact → Bool, (∀ z, F (eraseXact z) = F z) → F { x with attr := a } = F { x with attr := b } :=
    fun F hF => by rw [← hF, eraseXact_hints x h, hF]
  exact ⟨congr (s.mustPrecede · y) (s.mustPrecede_eraseXact_left · y), congr (s.mustPrecede y) (s.mustPrecede_eraseXact_right · y),
    congr (s.mayGather · y) (s.mayGather_eraseXact_left · y), congr (s.mayGather y) (s.mayGather_eraseXact_right · y),
    congr s.reachesEndpoint s.reachesEndpoint_eraseXact⟩

/-! #### The checks -/

theorem eraseByte_eraseByte (b : RByte) : eraseByte (eraseByte b) = eraseByte b := by
  simp only [eraseByte, MemAttr.eraseHints_eraseHints]

theorem allBytes_erase (rs : List RElem) : allBytes (rs.map erasePart) = (allBytes rs).map eraseByte := by
  simp only [allBytes, List.flatMap_map, List.map_flatMap]; rfl

theorem pasOf_erase (rs : List RElem) : pasOf (rs.map erasePart) = pasOf rs := by
  simp only [pasOf, allBytes_erase, List.map_map]; rfl

theorem elems_erase (rs : List RElem) : (rs.map erasePart).map RElem.e = rs.map RElem.e := by
  rw [List.map_map]; rfl

theorem crossesAttributes_erase (bs : List RByte) : crossesAttributes (bs.map eraseByte) = crossesAttributes bs := by
  simp only [crossesAttributes, List.any_map, Function.comp_def, eraseByte, MemAttr.sameTypeAndShareability_erase]

theorem crossesGranule_erase (p : Platform) (seq : Bool) (bs : List RByte) :
    crossesGranule p seq (bs.map eraseByte) = crossesGranule p seq bs := by
  simp only [crossesGranule, List.any_map, List.all_map, Function.comp_def, eraseByte, MemAttr.isDevice_erase]

/-- No refusal for a record asks for its hints. -/
theorem State.recordRefusal_erase (s : State) (bs : List RByte) : s.recordRefusal (bs.map eraseByte) = s.recordRefusal bs := by
  simp only [State.recordRefusal, mismatchedBytes, nonIdempotent, List.any_map, Function.comp_def, eraseByte,
    MemAttr.mismatched_erase_left, MemAttr.mismatched_erase_right, MemAttr.isNormal_erase]
  rfl

theorem State.extraBytes_erase (s : State) (cls : AccessClass) (rd : List RElem) (F : List Nat) :
    s.extraBytes cls (rd.map erasePart) F = s.extraBytes cls rd F := by
  simp only [State.extraBytes, pasOf_erase]

theorem State.instrWalks_erase (s : State) (cls : AccessClass) (rd wr : List RElem) (F : List Nat) :
    s.instrWalks cls (rd.map erasePart) (wr.map erasePart) F = s.instrWalks cls rd wr F := by
  simp only [State.instrWalks, walksOf, allBytes_erase, State.extraBytes_erase, List.map_append, List.map_map]
  rfl

/-- Of what an instruction reaches, the explicit bytes lose their hints, and nothing else changes. -/
theorem State.reached_erase (s : State) (cls : AccessClass) (rd wr : List RElem) (F : List Nat) :
    (s.reached cls (rd.map erasePart) (wr.map erasePart) F).map eraseByte = (s.reached cls rd wr F).map eraseByte := by
  simp only [State.reached, allBytes_erase, State.extraBytes_erase, State.instrWalks_erase, List.map_append, List.map_map,
    Function.comp_def, eraseByte_eraseByte]

theorem faultsUnaligned_erase (p : Platform) (b : RByte) : faultsUnaligned p (eraseByte b) = faultsUnaligned p b := by
  simp only [faultsUnaligned, eraseByte, MemAttr.isDevice_erase]

theorem unalignedNormal_erase (rs : List RElem) : unalignedNormal (rs.map erasePart) = unalignedNormal rs := by
  simp only [unalignedNormal, List.any_map, Function.comp_def, erasePart, eraseByte, MemAttr.isNormal_erase]

theorem alignmentFault_erase (p : Platform) (rs : List RElem) : alignmentFault p (rs.map erasePart) = alignmentFault p rs := by
  have hpart : (fun r : RElem => unalignedElem r.e && r.bs.any (faultsUnaligned p)) ∘ erasePart =
      fun r => unalignedElem r.e && r.bs.any (faultsUnaligned p) := by
    funext r
    simp only [Function.comp_apply, erasePart, List.any_map, Function.comp_def, faultsUnaligned_erase]
  unfold alignmentFault
  rw [List.find?_map, hpart, Option.bind_map]
  congr 1
  funext r
  simp only [Function.comp_apply, erasePart, List.find?_map, Function.comp_def, faultsUnaligned_erase, Option.map_map]
  rfl

/-- An instruction passes or fails its checks with the hints or without them. -/
theorem State.verdict_erase (s : State) (cls : AccessClass) (rd wr : List RElem) (F : List Nat) :
    s.verdict cls (rd.map erasePart) (wr.map erasePart) F = s.verdict cls rd wr F := by
  have hfaults : RByte.faults s.platform s.me.ctl ∘ eraseByte = RByte.faults s.platform s.me.ctl := rfl
  have hrecord : s.recordRefusal (s.reached cls (rd.map erasePart) (wr.map erasePart) F) = s.recordRefusal (s.reached cls rd wr F) := by
    rw [← State.recordRefusal_erase, State.reached_erase, State.recordRefusal_erase]
  unfold State.verdict
  simp only [hrecord, ← List.map_append, elems_erase, unalignedNormal_erase, alignmentFault_erase, allBytes_erase,
    crossesAttributes_erase, crossesGranule_erase, List.any_map, hfaults]

/-! #### The accesses -/

theorem cutGroups_erase (free : Bool) (cuts : List Nat) (bs : List RByte) :
    cutGroups free cuts (bs.map eraseByte) = (cutGroups free cuts bs).map (List.map eraseByte) := by
  induction bs with
  | nil => rfl
  | cons b rest ih =>
    rw [List.map_cons]
    unfold cutGroups
    rw [ih]
    match cutGroups free cuts rest with
    | [] => rfl
    | [] :: gs => rfl
    | (c :: g) :: gs =>
      have hcut : (!(eraseByte b).tr.attr.mismatched (eraseByte c).tr.attr && !(free && cuts.contains (eraseByte c).va)) =
          (!b.tr.attr.mismatched c.tr.attr && !(free && cuts.contains c.va)) := by
        simp only [eraseByte, MemAttr.mismatched_erase]
      simp only [List.map_cons, hcut]
      split <;> rfl

theorem freeSizes_erase (s : State) (r : Req) (bs : List RByte) :
    freeSizes s (eraseReq r) (bs.map eraseByte) = freeSizes s r bs := by
  simp only [freeSizes, List.all_map, Function.comp_def, eraseByte, MemAttr.isNormal_erase, MemAttr.deviceType_erase]
  rfl

theorem unitsOf_erase (p : Platform) (r : Req) : unitsOf p (eraseReq r) = (unitsOf p r).map (List.map eraseByte) := by
  have hseq : (eraseReq r).isSeq p = r.isSeq p := rfl
  have hrs : (eraseReq r).rs = r.rs.map erasePart := rfl
  unfold unitsOf
  rw [hseq, hrs, allBytes_erase]
  split
  · rw [List.map_map, List.map_map]; rfl
  · rfl

theorem groupsOf_erase (s : State) (r : Req) : groupsOf s (eraseReq r) = (groupsOf s r).map (List.map eraseByte) := by
  simp only [groupsOf, unitsOf_erase, List.flatMap_map, List.map_flatMap, freeSizes_erase, cutGroups_erase]

theorem piecesOf_erase (s : State) (r : Req) :
    piecesOf s (eraseReq r) = (piecesOf s r).map (fun q => (q.1, q.2.map eraseByte)) := by
  have hex : (eraseReq r).ex = r.ex.map eraseByte := rfl
  simp only [piecesOf, groupsOf_erase, hex, List.map_append, List.map_map]
  rfl

theorem mkXact_erase (s : State) (r : Req) (extra : Bool) (g : List RByte) (j : Nat) :
    mkXact s (eraseReq r) extra (g.map eraseByte) j = eraseXact (mkXact s r extra g j) := by
  cases g with
  | nil => rfl
  | cons b rest =>
    simp only [mkXact, eraseXact, eraseReq, List.map_cons, List.map_map, eraseByte, MemAttr.deviceType_erase]
    rfl

theorem xactsOf_erase (s : State) (r : Req) : xactsOf s (eraseReq r) = (xactsOf s r).map eraseXact := by
  simp only [xactsOf, xactsFrom, piecesOf_erase, List.zipIdx_map, List.map_map]
  exact List.map_congr_left (fun q _ => mkXact_erase s r q.1.1 q.1.2 q.2)

/-- Settles O10: each function of a record by a lemma that its hints play no part, and the checks and accesses of an instruction
byte by byte. -/
theorem hintsChangeNothing : Obligations.HintsChangeNothing := by
  refine ⟨fun a b h => ?_, State.verdict_erase, fun s r => ⟨groupsOf_erase s r, xactsOf_erase s r⟩⟩
  refine ⟨(MemAttr.mismatched_false a b).2 h, MemAttr.isDevice_hints h, MemAttr.deviceType_hints h,
    MemAttr.congr_hints _ MemAttr.effSh_erase h, MemAttr.congr_hints _ MemAttr.isNormalNC_erase h, MemAttr.cacheAt_hints h,
    fun c => ⟨MemAttr.congr_hints (MemAttr.sameTypeAndShareability · c) (MemAttr.sameTypeAndShareability_erase_left · c) h,
      MemAttr.congr_hints (MemAttr.mismatched · c) (MemAttr.mismatched_erase_left · c) h⟩,
    fun s o id pa => s.byteFor_hints o id pa h, fun s o w => ?_, fun s x y => s.relations_hints x y h⟩
  simp only [State.hasWalked, h]

/-! ### Stores, from the instruction to its writes -/

/-- A listed observer put back in its place leaves the list as it is. -/
theorem Observers.set_get {l : List (Nat × Observer)} {o : Nat} (h : Observers.get l o ≠ Observer.absent) :
    Observers.set l o (Observers.get l o) = l := by
  induction l with
  | nil => exact absurd rfl h
  | cons e t ih =>
    obtain ⟨k, v⟩ := e
    by_cases ho : o = k
    · simp [Observers.get, Observers.set, ho]
    · rw [show Observers.get ((k, v) :: t) o = Observers.get t o from if_neg ho] at h ⊢
      rw [show Observers.set ((k, v) :: t) o (Observers.get t o) = (k, v) :: Observers.set t o (Observers.get t o) from if_neg ho,
        ih h]

theorem State.setObs_me {s : State} (h : s.me ≠ Observer.absent) : s.setObs s.cur s.me = s := by
  have hobs : Observers.set s.obs s.cur s.me = s.obs := Observers.set_get h
  unfold State.setObs; rw [hobs]

/-- An observer that is not there translates no address, so it stores nothing. -/
theorem storeBytes_of_absent {s : State} (h : s.me = Observer.absent) (f : RegFile) (es : List Elem) : storeBytes s f es = [] := by
  have htr : ∀ va, dataTr s.platform s.me.ctl va = none := fun va => by rw [h]; rfl
  simp [storeBytes, htr]

/-- What a store does before its accesses: nothing, or a mark of its observer. -/
def MarksOnly (pre : List RElem → State → State) : Prop := ∀ rs u, u.me ≠ Observer.absent → ∃ v, pre rs u = u.setObs u.cur v

theorem MarksOnly.noEffect : MarksOnly noEffect := fun _ u h => ⟨u.me, (State.setObs_me h).symm⟩

theorem MarksOnly.addMark (k : MarkKind) (n : Nat) : MarksOnly (fun _ t => t.addMark k n) := fun _ u _ => ⟨_, u.addMark_eq k n⟩

/-- Every store without a status is the shared store of its form. -/
theorem exec_of_storeForm {i : Instr} {s : State} {c : AccessClass} {f : RegFile} {es : List Elem}
    (hform : storeForm i = some (c, f, es)) (hfeat : featurePresent i s.platform = true) :
    ∃ rel all pre, exec i s = s.store c f rel all es pre ∧ MarksOnly pre ∧ c ≠ .memCopy := by
  have present : ∀ {b : Bool} {g : Feature} {o : Out}, b = true → requireFeature b g o = o := fun h => if_pos h
  cases i with
  | st1 => cases hform; exact ⟨_, _, _, rfl, .noEffect, nofun⟩
  | memSet => cases hform; exact ⟨_, _, _, present hfeat, .noEffect, nofun⟩
  | sveStore => cases hform; exact ⟨_, _, _, present hfeat, .noEffect, nofun⟩
  | storeRel g =>
    obtain ⟨also, es'⟩ := g
    cases also <;> cases hform <;> exact ⟨_, _, _, rfl, .addMark _ _, nofun⟩
  | gpSingle d => cases d <;> cases hform; exact ⟨_, _, _, rfl, .noEffect, nofun⟩
  | gpMulti d => cases d <;> cases hform; exact ⟨_, _, _, rfl, .noEffect, nofun⟩
  | simdFp d => cases d <;> cases hform; exact ⟨_, _, _, rfl, .noEffect, nofun⟩
  | simdFpStreaming d => cases d <;> cases hform; exact ⟨_, _, _, rfl, .noEffect, nofun⟩
  | _ => cases hform

/-- A request that passes every check meets no record that clashes. -/
theorem State.recordRefusal_of_go {s : State} {cls : AccessClass} {rd wr : List RElem} {F : List Nat}
    (h : s.verdict cls rd wr F = .go) : s.recordRefusal (s.reached cls rd wr F) = none := by
  unfold State.verdict at h
  dsimp only at h
  split at h
  · cases h
  · split at h
    · cases h
    · cases hr : s.recordRefusal (s.reached cls rd wr F) with
      | none => rfl
      | some q => rw [hr] at h; cases h

/-- Bytes of one location that pass the check of the records differ at most in the hints. -/
theorem State.hints_of_recordRefusal {s : State} {bs : List RByte} (h : s.recordRefusal bs = none) {a b : RByte} (ha : a ∈ bs)
    (hb : b ∈ bs) (hpa : a.tr.pa = b.tr.pa) : a.tr.attr.eraseHints = b.tr.attr.eraseHints := by
  have hm : mismatchedBytes s.touched bs = false := by
    cases hm : mismatchedBytes s.touched bs with
    | false => rfl
    | true => rw [State.recordRefusal, if_pos hm] at h; cases h
  refine Decidable.byContradiction (fun hne => ?_)
  refine Bool.false_ne_true (hm.symm.trans (List.any_eq_true.2 ⟨b, hb, ?_⟩))
  rw [Bool.or_eq_true]
  refine .inr (List.any_eq_true.2 ⟨a, ha, ?_⟩)
  simp [hpa, MemAttr.mismatched, hne]

/-- The request of a store that passes its checks in a simple sequential execution to which no peripheral reacts, in the state
after its walks: what its accesses write are its bytes, and those of one location have one record, but for the hints. -/
structure StoreRun (s : State) (f : RegFile) (es : List Elem) (w : State) (r : Req) (v : Observer) : Prop where
  sequential : Sequential w
  platform : w.platform = s.platform
  cur : w.cur = s.cur
  plan : w.plan = s.plan
  mem : w.mem = s.mem
  lines : w.lines = s.lines
  dir : r.dir = .write
  extra : r.ex = []
  cls : r.cls ≠ .memCopy
  stored : r.stored = storeBytes s f es
  quiet : ∀ x ∈ xactsOf w r, x.Quiet w.platform
  records : ∀ a ∈ allBytes r.rs, ∀ b ∈ allBytes r.rs, a.tr.pa = b.tr.pa → a.tr.attr.eraseHints = b.tr.attr.eraseHints

/-- A STORE THAT PASSES ITS CHECKS completes, and where its observer is there it is a run of its request's writes. -/
theorem exec_store {i : Instr} {s : State} {c : AccessClass} {f : RegFile} {es : List Elem}
    (hform : storeForm i = some (c, f, es)) (hfeat : featurePresent i s.platform = true) (hseq : Sequential s)
    (hadm : admitted s c (f, []) (f, es) [] = true) (hquiet : quiet s c (f, []) (f, es) [] = true) :
    ∃ w r pre, exec i s = .next (w.runReq r none pre) ∧
      (s.me ≠ Observer.absent → ∃ v, pre w = w.setObs w.cur v ∧ StoreRun s f es w r v) := by
  obtain ⟨rel, all, pre, hexec, hpre, hc⟩ := exec_of_storeForm hform hfeat
  unfold admitted at hadm
  unfold quiet at hquiet
  simp only [resolve_nil] at hadm hquiet
  cases hrs : resolve s.platform s.me f es with
  | error va => rw [hrs] at hadm; cases hadm
  | ok rs =>
    rw [hrs] at hadm hquiet
    have hv : s.verdict c [] rs (pasOf []) = .go := by simpa using hadm
    have hreached : ∀ pa ∈ (s.reached c [] rs (pasOf [])).map (fun b => b.tr.pa),
        (regionAt s.platform pa).idempotent = true ∨ ∀ q ∈ s.platform.reactions, q.pa ≠ pa := fun pa hpa => by
      simpa using List.all_eq_true.1 (show quietAt s.platform _ = true from hquiet) pa hpa
    have hbytes : ∀ b ∈ allBytes rs, b ∈ s.reached c [] rs (pasOf []) := fun b hb => by
      simp only [State.reached, List.mem_append]; exact .inl (.inl (.inr hb))
    refine ⟨_, _, pre rs, hexec.trans (s.access_admitted c .write f rel all es [] pre rs [] hrs rfl hv hseq.2.2.2), fun hme => ?_⟩
    obtain ⟨v, hv'⟩ := hpre rs (s.walk (s.instrWalks c [] rs (pasOf []))) (by rw [State.me_walk]; exact hme)
    refine ⟨v, hv', hseq.walk _, by simp, by simp, by simp, ?_, by simp, rfl, rfl, hc, stored_eq_storeBytes s f es rs hrs, ?_, ?_⟩
    · refine s.walk_mem_quiet _ (fun w hw pa hpa => ?_)
      exact hreached pa (List.mem_map.2
        ⟨_, List.mem_append_right _ (List.mem_flatMap.2 ⟨w, hw, List.mem_map_of_mem hpa⟩), rfl⟩)
    · intro x hx b hb
      obtain ⟨d, rfl, -, ⟨-, ⟨p, hp, hd⟩, -⟩ | ⟨-, hex, -⟩⟩ := mem_xactsOf_byte _ _ x hx b hb
      · simpa using hreached d.tr.pa (List.mem_map.2 ⟨d, hbytes d (List.mem_flatMap.2 ⟨p, hp, hd⟩), rfl⟩)
      · cases hex
    · exact fun a ha b hb => State.hints_of_recordRefusal (State.recordRefusal_of_go hv) (hbytes a ha) (hbytes b hb)

/-! ### Who sees a completed store (20_memory.md R70 to R73, R82, R83; 21_device_memory.md R129) -/

theorem MemAttr.isDevice_of_isNormal {a : MemAttr} (h : a.isNormal = true) : a.isDevice = false := by
  obtain ⟨ty, xs⟩ := a
  cases ty with
  | normal n => rfl
  | device d => cases h

/-- A listed observer that an earlier write must be seen by reads its value, at once and, from Normal memory, after whatever the
caches do by themselves. -/
theorem exec_store_seen {i : Instr} {s : State} {c : AccessClass} {f : RegFile} {es : List Elem}
    (hform : storeForm i = some (c, f, es)) (hfeat : featurePresent i s.platform = true) (hseq : Sequential s)
    (hwf : Memory.wf s.mem = true) (hadm : admitted s c (f, []) (f, es) [] = true)
    (hquiet : quiet s c (f, []) (f, es) [] = true) :
    ∃ t, exec i s = .next t ∧ ∀ pa b, lastStored (storeBytes s f es) pa = some b → ∀ o, SeesWrite s.platform b.attr s.cur o →
      ∀ u, (u = t ∨ b.attr.isNormal = true ∧ CacheRun t u) → ∀ id a, a.isDevice = b.attr.isDevice → u.byteFor o id a pa = b.val := by
  obtain ⟨w, r, pre, hexec, hrun⟩ := exec_store hform hfeat hseq hadm hquiet
  refine ⟨_, hexec, fun pa b hb o ho u hu id a ha => ?_⟩
  have hme : s.me ≠ Observer.absent := fun h => by rw [storeBytes_of_absent h] at hb; cases hb
  obtain ⟨v, hpre, h⟩ := hrun hme
  obtain ⟨t, rfl, -, -, hflight, hplat, -, htwf, hseen, -⟩ :=
    w.runReq_write r pre h.sequential v hpre h.dir h.extra (h.mem.symm ▸ hwf) h.cls h.quiet
  obtain ⟨hbyte, hsettled, -⟩ := hseen pa b (h.stored ▸ hb)
  rw [h.platform, h.cur] at hbyte hsettled
  rcases hu with rfl | ⟨hn, hcaches⟩
  · exact hbyte o id a ho ha
  · have hd := MemAttr.isDevice_of_isNormal hn
    obtain ⟨hset, -, huf, -⟩ := (hsettled hd).cacheRun htwf hcaches
    rw [State.byteFor_of_reads _ _ _ _ _ (by rw [huf, hflight]; simp), if_neg (by rw [ha, hd]; simp)]
    exact hset.valueFor o ho a

/-- Observers of one Inner domain are in one Outer domain (20_memory.md R72). -/
theorem sameOuter_of_sameInner {p : Platform} (hd : domainsValid p.observers = true) {a b : Nat}
    (ha : ∃ i ∈ p.observers, i.id = a) (hb : ∃ i ∈ p.observers, i.id = b) (h : sameInner p a b = true) : sameOuter p a b = true := by
  have hab := List.all_eq_true.1 (List.all_eq_true.1 hd _ (infoOf_mem p a ha).1) _ (infoOf_mem p b hb).1
  have hinner : (infoOf p a).inner = (infoOf p b).inner := by simpa [sameInner] using h
  simpa [hinner, sameOuter] using hab

/-- The observers a record's accesses are data coherent for must see its writes. -/
theorem mustSee_of_coherent {p : Platform} {a : MemAttr} {w o : Nat}
    (h : a.isDevice = true ∨ a.isNormalNC = true ∨ (a.effSh = .ish ∧ sameInner p w o = true) ∨
      (a.effSh = .osh ∧ sameOuter p w o = true)) : mustSee p a w o = true := by
  have hc : coherentFor p a w o = true := by
    unfold coherentFor
    rcases h with h | h | ⟨h, k⟩ | ⟨h, k⟩ <;> simp [*]
  simp [mustSee, hc]

/-- Settles O19: coherency reaches the observers of the same domain, where those of one Inner domain are in one Outer domain. -/
theorem completedStoresAreCoherent : Obligations.CompletedStoresAreCoherent := by
  intro i s c f es wi oi hform hfeat hseq hwf hadm hquiet hdom hwi hwid hoi
  obtain ⟨t, ht, hseen⟩ := exec_store_seen hform hfeat hseq hwf hadm hquiet
  refine ⟨t, ht, fun pa b hb hcoh u hu id a ha => hseen pa b hb oi.id (.inr ⟨mustSee_of_coherent ?_, oi, hoi, rfl⟩) u hu id a ha⟩
  have houter := sameOuter_of_sameInner hdom ⟨wi, hwi, hwid⟩ ⟨oi, hoi, rfl⟩
  rcases hcoh with h | h | h | ⟨hsh, h | h⟩
  · exact .inl h
  · exact .inr (.inl h)
  · exact .inr (.inr (.inl h))
  · exact .inr (.inr (.inr ⟨hsh, houter h⟩))
  · exact .inr (.inr (.inr ⟨hsh, h⟩))

/-- The observers on the other side of a level of cache, where the record is not kept back by it, must see a write. -/
theorem mustSee_of_across {p : Platform} {a : MemAttr} {w o : Nat} (l : CacheLevel)
    (h : ((a.cacheAt l = .nc ∨ a.cacheAt l = .wt) ∧ insideLevel p w l = true ∧ insideLevel p o l = false) ∨
      (a.cacheAt l = .nc ∧ insideLevel p w l = false ∧ insideLevel p o l = true)) : mustSee p a w o = true := by
  have hv : visibleAcross p a w o l = true := by
    unfold visibleAcross
    rcases h with ⟨h | h, hw, ho⟩ | ⟨h, hw, ho⟩ <;> simp [h, hw, ho]
  cases l with
  | inner => simp [mustSee, hv]
  | outer => simp [mustSee, hv]

/-- Settles O20: the same lemma for the observers that visibility across the level reaches. -/
theorem writesAreVisibleAcrossCacheLevels : Obligations.WritesAreVisibleAcrossCacheLevels := by
  intro i s c f es oi l hform hfeat hseq hwf hadm hquiet hoi
  obtain ⟨t, ht, hseen⟩ := exec_store_seen hform hfeat hseq hwf hadm hquiet
  exact ⟨t, ht, fun pa b hb hn hacross u hu =>
    hseen pa b hb oi.id (.inr ⟨mustSee_of_across l hacross, oi, hoi, rfl⟩) u (.inr ⟨hn, hu⟩)⟩

/-! ### Who need not see a completed store (20_memory.md R68, R77) -/

theorem staleUnit_hints (p : Platform) {a b : MemAttr} (h : a.eraseHints = b.eraseHints) (w unit : Nat) :
    staleUnit p a w unit = staleUnit p b w unit := by
  simp only [staleUnit, mustSee_hints p h]

/-- The accesses of a request in a simple sequential execution to which no peripheral reacts are committed one after the other. -/
theorem State.runReq_commits (s : State) (r : Req) (pre : State → State) (h : Sequential s) (v : Observer)
    (hpre : pre s = s.setObs s.cur v) (hr : r.dir = .write) (hc : r.cls ≠ .memCopy)
    (hq : ∀ x ∈ xactsOf s r, x.Quiet s.platform) :
    ∃ w : State, w.platform = s.platform ∧ w.mem = s.mem ∧ w.lines = s.lines ∧ w.inflight = [] ∧
      ∀ o id a pa, (s.runReq r none pre).byteFor o id a pa = ((xactsOf s r).foldl State.commit w).byteFor o id a pa := by
  obtain ⟨as, ks, he, -⟩ := s.runReq_sequential r pre h v hpre
  refine ⟨(s.setObs s.cur v).touch (allBytes r.rs ++ r.ex), by simp, by simp, by simp, by simpa using h.1, fun o id a pa => ?_⟩
  rw [he, State.foldl_performed_quiet _ _ (fun x hx => by simpa using hq x hx),
    State.foldl_commit_of_writes _ _ (fun x hx => (mem_xactsOf s r x hx).1.2.1.trans hr)
      (fun x hx => (xactsOf_sourceless s r (.inr (.inr h.1)) x hx).complete (by rw [(mem_xactsOf s r x hx).1.1]; exact hc))]
  refine State.byteFor_congr _ _ _ _ _ _ _ rfl rfl rfl (by simp [State.withTraffic]) ?_
  rw [State.foldl_commit_inflight]
  simp [h.1]

/-- The writes of a store run at a location: each is the current observer's, goes where the plan says, and has the record of the
byte stored there, but for the hints. -/
theorem StoreRun.writes {s : State} {f : RegFile} {es : List Elem} {w : State} {r : Req} {v : Observer} (h : StoreRun s f es w r v)
    {pa : Nat} {b : StoredByte} (hb : lastStored (storeBytes s f es) pa = some b) {x : Xact} (hx : x ∈ xactsOf w r)
    (hpa : ∃ c ∈ x.bs, c.pa = pa) : x.obs = s.cur ∧ x.hold = s.plan.hold ∧ x.attr.eraseHints = b.attr.eraseHints := by
  refine ⟨(mem_xactsOf w r x hx).1.2.2.1.trans h.cur, (mkXact_hold w r 0 x hx).trans (by rw [h.plan]), ?_⟩
  obtain ⟨c, hc, hce⟩ := hpa
  obtain ⟨d, rfl, hattr, ⟨-, ⟨p, hp, hd⟩, -⟩ | ⟨-, hex, -⟩⟩ := mem_xactsOf_byte w r x hx c hc
  · have hmem : b ∈ r.stored := by rw [h.stored]; exact List.mem_reverse.1 (List.mem_of_find?_eq_some hb)
    have hbpa : b.pa = pa := by simpa using List.find?_some hb
    obtain ⟨e, he, rfl⟩ := List.mem_map.1 hmem
    exact hattr.trans (h.records d (List.mem_flatMap.2 ⟨p, hp, hd⟩) e he (hce.trans hbpa.symm))
  · rw [h.extra] at hex; cases hex

/-- The caches on the path of `o` keep what they hold of a location through a write of `w` with this record that stops elsewhere,
or lose it to one that passes through: by whether a copy there is stale, or there is none. -/
def PathCopies (s : State) (a : MemAttr) (w o pa : Nat) (stale : Bool) : Prop :=
  ∀ v ∈ (infoOf s.platform o).path, staleUnit s.platform a w v.id = stale ∨ ∀ l ∈ s.lines, l.unit = some v.id → l.pa ≠ pa

theorem PathCopies.hints {s : State} {a b : MemAttr} {w o pa : Nat} {stale : Bool} (h : PathCopies s a w o pa stale)
    (e : a.eraseHints = b.eraseHints) : PathCopies s b w o pa stale :=
  fun v hv => (h v hv).imp_left (fun k => by rw [← staleUnit_hints _ e]; exact k)

/-- A write elsewhere leaves the copies of a location as they are. -/
theorem PathCopies.commit_ne {s : State} {a : MemAttr} {w o pa : Nat} {stale : Bool} (h : PathCopies s a w o pa stale) (x : Xact)
    (hne : ∀ b ∈ x.bs, b.pa ≠ pa) : PathCopies (s.commit x) a w o pa stale := by
  unfold PathCopies
  rw [s.commit_platform x]
  refine fun v hv => (h v hv).imp_right (fun k l hl hu hpa => k l ?_ hu hpa)
  have hm : l ∈ (s.commit x).lines.filter (fun l => l.pa == pa) := List.mem_filter.2 ⟨hl, by simpa using hpa⟩
  rw [s.commit_copies x pa hne] at hm
  exact (List.mem_filter.1 hm).1

/-- A write that passes through the caches puts no copy in one. -/
theorem PathCopies.commit_through {s : State} {a : MemAttr} {w o pa : Nat} {stale : Bool} (h : PathCopies s a w o pa stale)
    (x : Xact) (hx : x.hold = none) : PathCopies (s.commit x) a w o pa stale := by
  have horigin : ∀ l ∈ (s.commit x).lines, ∃ m ∈ s.lines, m.unit = l.unit ∧ m.pa = l.pa := by
    intro l hl
    have hu : (s.clearReservations x).holdUnit x = none := by unfold State.holdUnit; rw [hx]
    unfold State.commit at hl
    dsimp only at hl
    rw [hu] at hl
    split at hl
    · exact ⟨l, by simpa using hl, rfl, rfl⟩
    · obtain ⟨m, hm, ⟨-, rfl⟩ | ⟨-, hk⟩⟩ := State.mem_keptLines _ _ _ _ hl
      · exact ⟨l, hm, rfl, rfl⟩
      · obtain ⟨u, -, -, rfl⟩ := Line.afterThrough_some hk
        exact ⟨m, hm, rfl, rfl⟩
  unfold PathCopies
  rw [s.commit_platform x]
  refine fun v hv => (h v hv).imp_right (fun k l hl hu hpa => ?_)
  obtain ⟨m, hm, hmu, hmp⟩ := horigin l hl
  exact k m hm (hmu.trans hu) (hmp.trans hpa)

/-- The cache the plan names takes in a write whose record is Write-Back there. -/
theorem State.holdUnit_of_plan {s : State} {x : Xact} {u : CacheUnit} (hu : u ∈ (infoOf s.platform x.obs).path)
    (hh : x.hold = some u.id) (hwb : x.attr.cacheAt u.tag = .wb) : ∃ u', s.holdUnit x = some u' ∧ u'.id = u.id := by
  unfold State.holdUnit
  rw [hh]
  cases hf : (infoOf s.platform x.obs).path.find? (fun c => c.id == u.id && x.attr.cacheAt c.tag == .wb) with
  | none => exact absurd (List.find?_eq_none.1 hf u hu) (by simp [hwb])
  | some u' =>
    have := List.find?_some hf
    simp only [Bool.and_eq_true, beq_iff_eq] at this
    exact ⟨u', hf, this.1⟩

/-- WRITES THAT STOP IN A CACHE off the path of an observer that need not see them: it reads what it read before. -/
theorem State.foldl_commit_unseen_held (xs : List Xact) (w : State) (a : MemAttr) (c o pa : Nat) (u : CacheUnit)
    (ha : a.isNormal = true) (hl : ∃ i ∈ w.platform.observers, i.id = o) (hs : mustSee w.platform a c o = false)
    (hu : u ∈ (infoOf w.platform c).path) (hwb : a.cacheAt u.tag = .wb) (hoff : ∀ v ∈ (infoOf w.platform o).path, v.id ≠ u.id)
    (hc : PathCopies w a c o pa false)
    (hx : ∀ x ∈ xs, (∃ b ∈ x.bs, b.pa = pa) → x.obs = c ∧ x.hold = some u.id ∧ x.attr.eraseHints = a.eraseHints) (m : MemAttr) :
    (xs.foldl State.commit w).valueFor o m pa = w.valueFor o m pa := by
  refine (foldl_property (fun t : State => t.platform = w.platform ∧ t.valueFor o m pa = w.valueFor o m pa ∧
    PathCopies t a c o pa false) State.commit xs w ⟨rfl, rfl, hc⟩ ?_).2.1
  rintro t x hxs ⟨htp, htv, htc⟩
  refine ⟨(t.commit_platform x).trans htp, ?_⟩
  by_cases hpa : ∃ b ∈ x.bs, b.pa = pa
  · obtain ⟨hobs, hhold, hattr⟩ := hx x hxs hpa
    obtain ⟨u', hu', hid⟩ := State.holdUnit_of_plan (s := t) (by rw [htp, hobs]; exact hu) hhold
      (by rw [MemAttr.cacheAt_hints hattr]; exact hwb)
    have htc' : PathCopies t x.attr x.obs o pa false := by rw [hobs]; exact htc.hints hattr.symm
    obtain ⟨hval, hcop⟩ := t.commit_unseen_held x u' o pa
      (by rw [MemAttr.isDevice_hints hattr]; exact MemAttr.isDevice_of_isNormal ha) hu'
      (by rw [htp, hid]; exact hoff) (by rw [htp]; exact hl) (by rw [htp, hobs, mustSee_hints _ hattr]; exact hs) htc'
    refine ⟨(hval m).trans htv, ?_⟩
    have hcop' : PathCopies (t.commit x) x.attr x.obs o pa false := by
      unfold PathCopies; rw [t.commit_platform x]; exact hcop
    rw [hobs] at hcop'
    exact hcop'.hints hattr
  · have hne : ∀ b ∈ x.bs, b.pa ≠ pa := fun b hb he => hpa ⟨b, hb, he⟩
    exact ⟨(t.commit_valueFor_ne x o m pa hne).trans htv, htc.commit_ne x hne⟩

/-- WRITES THAT REACH THE ENDPOINT, where the caches of an observer's path keep no copy: it reads the last of them. -/
theorem State.foldl_commit_unseen_through (xs : List Xact) (w : State) (a : MemAttr) (c o pa : Nat) (b : StoredByte)
    (hwf : Memory.wf w.mem = true) (ha : a.isNormal = true) (hb : lastStored (xs.flatMap Xact.stored) pa = some b)
    (hc : PathCopies w a c o pa true)
    (hx : ∀ x ∈ xs, x.hold = none ∧ ((∃ b ∈ x.bs, b.pa = pa) → x.obs = c ∧ x.attr.eraseHints = a.eraseHints)) (m : MemAttr) :
    (xs.foldl State.commit w).valueFor o m pa = b.val := by
  obtain ⟨l₁, x, l₂, rfl, hv, -, hne⟩ := lastStored_split xs pa b hb
  obtain ⟨hhold, hxpa⟩ := hx x (by simp)
  obtain ⟨d, hd, hde⟩ := lastVal_some_mem hv
  obtain ⟨hobs, hattr⟩ := hxpa ⟨d, hd, hde⟩
  have hcop : PathCopies (l₁.foldl State.commit w) a c o pa true :=
    foldl_property (fun t : State => PathCopies t a c o pa true) State.commit l₁ w hc
      (fun t y hy ht => ht.commit_through y (hx y (by simp [hy])).1)
  rw [List.foldl_append, List.foldl_cons]
  refine foldl_property (fun t : State => t.valueFor o m pa = b.val) State.commit l₂ _ ?_
    (fun t y hy ht => (t.commit_valueFor_ne y o m pa (hne y hy)).trans ht)
  refine State.commit_unseen_through _ x o pa b.val (State.foldl_commit_wf l₁ w hwf)
    (by rw [MemAttr.isDevice_hints hattr]; exact MemAttr.isDevice_of_isNormal ha) (by unfold State.holdUnit; rw [hhold]) hv ?_ m
  exact hobs.symm ▸ hcop.hints hattr.symm

theorem State.byteFor_normal_idle {s : State} (h : s.inflight = []) {a : MemAttr} (ha : a.isNormal = true) (o id pa : Nat) :
    s.byteFor o id a pa = s.valueFor o a pa := by
  rw [State.byteFor_of_reads _ _ _ _ _ (by simp [h]), if_neg (by simp [MemAttr.isDevice_of_isNormal ha])]

theorem State.valueFor_of_memory {s t : State} (hp : t.platform = s.platform) (hm : t.mem = s.mem) (hl : t.lines = s.lines)
    (o : Nat) (a : MemAttr) (pa : Nat) : t.valueFor o a pa = s.valueFor o a pa :=
  State.valueFor_congr s t o a pa hp (by rw [hl]) (by rw [hm])

/-- Settles O21: the store's writes one after the other, which all stop in the cache the plan names, or all pass through. -/
theorem unseenStoresAreReadStaleOrFresh : Obligations.UnseenStoresAreReadStaleOrFresh := by
  intro i s c f es oi hform hfeat hseq hwf hadm hquiet hoi hne
  obtain ⟨w, r, pre, hexec, hrun⟩ := exec_store hform hfeat hseq hadm hquiet
  refine ⟨_, hexec, fun pa b hb hn hs => ?_⟩
  have hme : s.me ≠ Observer.absent := fun h => by rw [storeBytes_of_absent h] at hb; cases hb
  obtain ⟨v, hpre, h⟩ := hrun hme
  obtain ⟨w', hp, hm, hl, hidle, hbyte⟩ := w.runReq_commits r pre h.sequential v hpre h.dir h.cls h.quiet
  have hplat : w'.platform = s.platform := hp.trans h.platform
  have hmem : w'.mem = s.mem := hm.trans h.mem
  have hlines : w'.lines = s.lines := hl.trans h.lines
  have hidle' : ((xactsOf w r).foldl State.commit w').inflight = [] := by rw [State.foldl_commit_inflight, hidle]
  have copies : ∀ stale, (∀ v ∈ (infoOf s.platform oi.id).path, staleUnit s.platform b.attr s.cur v.id = stale ∨
      ∀ l ∈ s.lines, l.unit = some v.id → l.pa ≠ pa) → PathCopies w' b.attr s.cur oi.id pa stale := by
    unfold PathCopies; rw [hplat, hlines]; exact fun _ h => h
  refine ⟨fun hheld hc id a ha => ?_, fun hhold hc id a ha => ?_⟩
  · obtain ⟨u, hu, hhold, hwb, hoff⟩ := hheld
    rw [hbyte, State.byteFor_normal_idle hidle' ha, State.byteFor_normal_idle hseq.1 ha,
      ← State.valueFor_of_memory hplat hmem hlines]
    refine State.foldl_commit_unseen_held _ w' b.attr s.cur oi.id pa u hn (by rw [hplat]; exact ⟨oi, hoi, rfl⟩)
      (by rw [hplat]; exact hs) (by rw [hplat]; exact hu) hwb (by rw [hplat]; exact hoff) (copies _ hc) (fun x hx hpa => ?_) a
    obtain ⟨hobs, hh, hattr⟩ := h.writes hb hx hpa
    exact ⟨hobs, hh.trans hhold, hattr⟩
  · obtain ⟨d, hd, hval, -⟩ := (lastStored_hints (xactsOf_stored w r h.extra) pa).1 b (h.stored ▸ hb)
    rw [hbyte, State.byteFor_normal_idle hidle' ha, ← hval]
    refine State.foldl_commit_unseen_through _ w' b.attr s.cur oi.id pa d (hmem.symm ▸ hwf) hn hd (copies _ hc) (fun x hx => ?_) a
    refine ⟨(mkXact_hold w r 0 x hx).trans (by rw [h.plan, hhold]), fun hpa => ?_⟩
    obtain ⟨hobs, -, hattr⟩ := h.writes hb hx hpa
    exact ⟨hobs, hattr⟩

/-! ### Refused records (20_memory.md R63, R81; 21_device_memory.md R158) -/

/-- The refusals for a record. -/
def Refusal.ofRecord (q : Refusal) : Prop := q = .mismatchedAttributes ∨ q = .nonIdempotentNormal

theorem State.recordRefusal_some {s : State} {bs : List RByte} {q : Refusal} (h : s.recordRefusal bs = some q) : q.ofRecord := by
  unfold State.recordRefusal at h
  split at h
  · cases h; exact .inl rfl
  · split at h
    · cases h; exact .inr rfl
    · cases h

/-- No refusal for the records of some bytes: none mismatches, with an earlier access or with another of them, and a Normal one is of
an idempotent location. -/
theorem State.recordRefusal_none_iff (s : State) (bs : List RByte) : s.recordRefusal bs = none ↔
    ∀ b ∈ bs, (∀ t ∈ s.touched, t.1 = b.tr.pa → t.2.mismatched b.tr.attr = false) ∧
      (∀ c ∈ bs, c.tr.pa = b.tr.pa → c.tr.attr.mismatched b.tr.attr = false) ∧
      (b.tr.attr.isNormal = true → (regionAt s.platform b.tr.pa).idempotent = true) := by
  have hnone : s.recordRefusal bs = none ↔ mismatchedBytes s.touched bs = false ∧ nonIdempotent s.platform bs = false := by
    unfold State.recordRefusal
    cases mismatchedBytes s.touched bs <;> cases nonIdempotent s.platform bs <;> simp
  rw [hnone]
  simp only [mismatchedBytes, nonIdempotent, List.any_eq_false, Bool.not_eq_true, Bool.or_eq_false_iff, Bool.and_eq_false_iff,
    beq_eq_false_iff_ne, Bool.not_eq_false', ← forall_and]
  refine forall₂_congr (fun b _ => ?_)
  rw [and_assoc]
  refine and_congr (forall₂_congr fun t _ => ?_) (and_congr (forall₂_congr fun c _ => ?_) ?_)
  · exact Decidable.imp_iff_not_or.symm
  · exact Decidable.imp_iff_not_or.symm
  · rw [← Bool.not_eq_true]; exact Decidable.imp_iff_not_or.symm

/-- A byte whose record clashes is refused, with whatever other bytes. -/
theorem State.recordRefusal_of_clash {s : State} {bs : List RByte} {b : RByte} (hb : b ∈ bs) (h : Clashes s b) :
    ∃ q, s.recordRefusal bs = some q ∧ q.ofRecord := by
  cases hr : s.recordRefusal bs with
  | some q => exact ⟨q, rfl, State.recordRefusal_some hr⟩
  | none =>
    obtain ⟨htouched, -, hnormal⟩ := (s.recordRefusal_none_iff bs).1 hr b hb
    rcases h with ⟨hn, hi⟩ | ⟨a, ha, hne⟩
    · rw [hnormal hn] at hi; cases hi
    · exact absurd ((MemAttr.mismatched_false _ _).1 (htouched _ ha rfl)) hne

/-- The refusals of the checks: those of the two restrictions, of the records, and of an unaligned access. -/
theorem State.verdict_refuse {s : State} {cls : AccessClass} {rd wr : List RElem} {F : List Nat} {q : Refusal}
    (h : s.verdict cls rd wr F = .refuse q) :
    q = .attributeBoundary ∨ q = .granuleBoundary ∨ s.recordRefusal (s.reached cls rd wr F) = some q ∨ q = .unalignedNormal := by
  unfold State.verdict at h
  dsimp only at h
  split at h
  · cases h; exact .inl rfl
  split at h
  · cases h; exact .inr (.inl rfl)
  split at h
  · next hr => cases h; exact .inr (.inr (.inl hr))
  split at h
  · cases h; exact .inr (.inr (.inr rfl))
  split at h
  · cases h
  · split at h <;> cases h

/-- Records that are refused keep an instruction from passing its checks; only the two restrictions come before them. -/
theorem State.verdict_of_recordRefusal {s : State} {cls : AccessClass} {rd wr : List RElem} {F : List Nat} {q : Refusal}
    (h : s.recordRefusal (s.reached cls rd wr F) = some q) :
    s.verdict cls rd wr F = .refuse .attributeBoundary ∨ s.verdict cls rd wr F = .refuse .granuleBoundary ∨
      s.verdict cls rd wr F = .refuse q := by
  unfold State.verdict
  dsimp only
  split
  · exact .inl rfl
  · split
    · exact .inr (.inl rfl)
    · rw [h]; exact .inr (.inr rfl)

/-! #### What the translations reach -/

/-- The walks of a translation are reached with their records. -/
theorem ReachedWith.walkBytes {s : State} {o va : Nat} {t : Tr} {ws : List WalkRef}
    (ht : dataTr s.platform (s.getObs o).ctl va = some t ∨ fetchTr (s.getObs o).ctl va = some t) (hws : ∀ w ∈ ws, w ∈ t.walk) :
    ∀ b ∈ Sys2Proof.Machine.walkBytes s.platform (s.getObs o).ctl ws, ReachedWith s b.tr.pa b.tr.attr := by
  intro b hb
  obtain ⟨w, hw, hb⟩ := List.mem_flatMap.1 hb
  obtain ⟨pa, hpa, rfl⟩ := List.mem_map.1 hb
  exact ⟨o, va, t, ht, .inr ⟨w, hws w (List.mem_filter.1 hw).1, hpa, rfl⟩⟩

/-- The bytes of a footprint have the translations of their addresses. -/
theorem resolve_tr {p : Platform} {o : Observer} {f : RegFile} {es : List Elem} {rs : List RElem} (h : resolve p o f es = .ok rs) :
    ∀ b ∈ allBytes rs, ∃ va, dataTr p o.ctl va = some b.tr := by
  intro b hb
  obtain ⟨r, hr, hb⟩ := List.mem_flatMap.1 hb
  obtain ⟨-, hbs⟩ := resolveBytes_eq _ _ _ _ _ _ ((resolve_eq p o f es rs h).2 r hr)
  rw [hbs] at hb
  obtain ⟨k, -, hk⟩ := List.mem_filterMap.1 hb
  obtain ⟨t, ht, rfl⟩ := Option.map_eq_some_iff.1 hk
  exact ⟨_, ht⟩

/-- So have the extra bytes of an instruction. -/
theorem State.extraBytes_tr {s : State} {cls : AccessClass} {rd : List RElem} {F : List Nat} :
    ∀ b ∈ s.extraBytes cls rd F, ∃ va, dataTr s.platform s.me.ctl va = some b.tr := by
  intro b hb
  obtain ⟨va, -, h⟩ := List.mem_filterMap.1 hb
  obtain ⟨t, ht, h⟩ := Option.bind_eq_some_iff.1 h
  obtain ⟨d, -, h⟩ := Option.bind_eq_some_iff.1 h
  dsimp only at h
  split at h
  · cases h; exact ⟨va, ht⟩
  · cases h

theorem mem_walksOf {bs : List RByte} {w : WalkRef} (h : w ∈ walksOf bs) : ∃ b ∈ bs, w ∈ b.tr.walk := by
  obtain ⟨ws, hws, hw⟩ := List.mem_flatten.1 h
  obtain ⟨b, hb, rfl⟩ := List.mem_map.1 (List.mem_eraseDups.1 hws)
  exact ⟨b, hb, hw⟩

/-- Everything an instruction accesses is reached under the current translations with the record it is accessed with. -/
theorem State.reached_reachedWith {s : State} {cls : AccessClass} {f g : RegFile} {es ds : List Elem} {rd wr : List RElem} {F : List Nat}
    (hr : resolve s.platform s.me f es = .ok rd) (hw : resolve s.platform s.me g ds = .ok wr) :
    ∀ b ∈ s.reached cls rd wr F, ReachedWith s b.tr.pa b.tr.attr := by
  have htr : ∀ b ∈ allBytes rd ++ allBytes wr ++ s.extraBytes cls rd F, ∃ va, dataTr s.platform (s.getObs s.cur).ctl va = some b.tr := by
    intro b hb
    rcases List.mem_append.1 hb with hb | hb
    · rcases List.mem_append.1 hb with hb | hb
      · exact resolve_tr hr b hb
      · exact resolve_tr hw b hb
    · exact State.extraBytes_tr b hb
  intro b hb
  rcases List.mem_append.1 hb with hb | hb
  · obtain ⟨va, ht⟩ := htr b hb
    exact ⟨s.cur, va, b.tr, .inl ht, .inl ⟨rfl, rfl⟩⟩
  · obtain ⟨w, hw, hb⟩ := List.mem_flatMap.1 hb
    obtain ⟨c, hc, hwc⟩ := mem_walksOf (List.mem_filter.1 hw).1
    obtain ⟨va, ht⟩ := htr c hc
    obtain ⟨pa, hpa, rfl⟩ := List.mem_map.1 hb
    exact ⟨s.cur, va, c.tr, .inl ht, .inr ⟨w, hwc, hpa, rfl⟩⟩

/-- Under the launch premises, with only such accesses made before, no record is refused. -/
theorem LaunchPremises.recordRefusal {s : State} {os pas : List Nat} (h : LaunchPremises s os pas)
    (htouched : ∀ q ∈ s.touched, ∃ a, ReachedWith s q.1 a ∧ a.eraseHints = q.2) {bs : List RByte}
    (hbs : ∀ b ∈ bs, ReachedWith s b.tr.pa b.tr.attr) : s.recordRefusal bs = none := by
  obtain ⟨-, hidem, -, -, hmatch, -⟩ := h
  refine (s.recordRefusal_none_iff bs).2 (fun b hb => ⟨fun t ht he => ?_, fun c hc he => ?_, hidem _ _ (hbs b hb)⟩)
  · obtain ⟨a, ha, hat⟩ := htouched t ht
    rw [← hat, MemAttr.mismatched_erase_left]
    exact hmatch _ _ _ (he ▸ ha) (hbs b hb)
  · exact hmatch _ _ _ (he ▸ hbs c hc) (hbs b hb)

/-! #### Fetches -/

/-- A fetch whose walk clashes, or which is made and clashes, is refused. -/
theorem State.fetchAccess_of_clash {s : State} {slot : Slot} {va : Nat} {t : Tr} (hva : slot.va = some va)
    (ht : fetchTr s.me.ctl va = some t)
    (h : (∃ b ∈ walkBytes s.platform s.me.ctl t.walk, Clashes s b) ∨
      (Clashes s (fetchByte va t) ∧ (∀ w ∈ t.walk, walkFaults s.platform s.me.ctl w = false) ∧ s.me.ctl.el ∉ t.xn ∧
        (t.attr.isDevice = true → s.plan.fetchAsNC = true))) :
    ∃ q, s.fetchAccess slot = .refuse q ∧ q.ofRecord := by
  unfold State.fetchAccess
  simp only [hva, ht]
  cases hwalk : s.recordRefusal (walkBytes s.platform s.me.ctl t.walk) with
  | some q => exact ⟨q, rfl, State.recordRefusal_some hwalk⟩
  | none =>
    dsimp only
    rcases h with ⟨b, hb, hc⟩ | ⟨hc, hfaults, hxn, hnc⟩
    · obtain ⟨q, hq, -⟩ := State.recordRefusal_of_clash hb hc
      rw [hwalk] at hq; cases hq
    · obtain ⟨q, hq, hqr⟩ := State.recordRefusal_of_clash (List.mem_cons_self (l := walkBytes s.platform s.me.ctl t.walk)) hc
      rw [if_neg (by simpa using hfaults), if_neg (by simpa using ⟨hxn, hnc⟩), hq]
      exact ⟨q, rfl, hqr⟩

/-- A fetch is refused for its records alone. -/
theorem State.fetchAccess_refuse {s : State} {slot : Slot} {q : Refusal} (h : s.fetchAccess slot = .refuse q) :
    ∃ va t bs, fetchTr s.me.ctl va = some t ∧ s.recordRefusal bs = some q ∧
      ∀ b ∈ bs, b = fetchByte va t ∨ b ∈ walkBytes s.platform s.me.ctl t.walk := by
  unfold State.fetchAccess at h
  split at h
  · cases h
  dsimp only at h
  split at h
  · cases h
  next va _ _ t ht =>
  split at h
  · next hr => cases h; exact ⟨va, t, _, ht, hr, fun b hb => .inr hb⟩
  split at h
  · cases h
  split at h
  · cases h
  split at h
  · next hr => cases h; exact ⟨va, t, _, ht, hr, fun b hb => List.mem_cons.1 hb⟩
  · cases h

/-- Settles O35: by the checks of an instruction and of a fetch, of which the records of everything accessed are one; under the
launch premises every such record is one the translations give. -/
theorem nonIdempotentAndMismatchedAreRefused : Obligations.NonIdempotentAndMismatchedAreRefused := by
  refine ⟨fun i s m rd wr first hreach hclash => ?_, fun s slot va t hva ht h => ?_, fun s os pas hl htouched => ⟨?_, ?_⟩⟩
  · obtain ⟨b, hb, hc⟩ := hclash
    obtain ⟨q, hq, hqr⟩ := State.recordRefusal_of_clash hb hc
    have hrefuse := (exec_decides i s m rd wr first hreach).refuse
    rcases State.verdict_of_recordRefusal hq with h | h | h
    · exact ⟨_, hrefuse _ h, .inl rfl⟩
    · exact ⟨_, hrefuse _ h, .inr (.inl rfl)⟩
    · exact ⟨q, hrefuse _ h, .inr (.inr hqr)⟩
  · obtain ⟨q, hq, rfl | rfl⟩ := State.fetchAccess_of_clash hva ht h
    · exact .inl hq
    · exact .inr hq
  · intro i m rd wr first hreach
    have hd := exec_decides i s m rd wr first hreach
    obtain ⟨-, -, -, -, hr, hw, -⟩ := hreach
    have hnone := hl.recordRefusal htouched (State.reached_reachedWith (cls := m.cls) (F := pasOf first) hr hw)
    have hno : ∀ q, q.ofRecord → exec i s ≠ .refused q := by
      intro q hq he
      cases hv : s.verdict m.cls rd wr (pasOf first) with
      | refuse q' =>
        rw [hd.refuse q' hv] at he
        cases he
        rcases State.verdict_refuse hv with rfl | rfl | h | rfl
        · exact hq.elim nofun nofun
        · exact hq.elim nofun nofun
        · rw [hnone] at h; cases h
        · exact hq.elim nofun nofun
      | _ =>
        obtain ⟨t, ht⟩ := hd.next (fun q' h => by rw [hv] at h; cases h)
        rw [ht] at he; cases he
    exact ⟨hno _ (.inl rfl), hno _ (.inr rfl)⟩
  · intro slot q h
    obtain ⟨va, t, bs, ht, hr, hbs⟩ := State.fetchAccess_refuse h
    rw [hl.recordRefusal htouched] at hr
    · cases hr
    · intro b hb
      rcases hbs b hb with rfl | hb
      · exact ⟨s.cur, va, t, .inr ht, .inl ⟨rfl, rfl⟩⟩
      · exact ReachedWith.walkBytes (o := s.cur) (.inr ht) (fun _ h => h) b hb

/-! ### Speculative data reads (20_memory.md R55; 10_state.md R36; log 35) -/

/-- Records are kept by adding some of the new ones, without their hints. -/
theorem State.keepRecords_touched (s : State) (l : List (Nat × MemAttr)) :
    ∃ new, (s.keepRecords l).touched = s.touched ++ new ∧ ∀ q ∈ new, ∃ b ∈ l, q = (b.1, b.2.eraseHints) := by
  refine foldl_property (fun t => ∃ new, t = s.touched ++ new ∧ ∀ q ∈ new, ∃ b ∈ l, q = (b.1, b.2.eraseHints)) _ l s.touched
    ⟨[], by simp, by simp⟩ ?_
  rintro t b hb ⟨new, rfl, hnew⟩
  split
  · exact ⟨new, rfl, hnew⟩
  · refine ⟨new ++ [(b.1, b.2.eraseHints)], (List.append_assoc _ _ _), fun q hq => ?_⟩
    rcases List.mem_append.1 hq with hq | hq
    · exact hnew q hq
    · exact ⟨b, hb, List.mem_singleton.1 hq⟩

theorem allocUnit_id {p : Platform} {o unit : Nat} {a : MemAttr} {u : CacheUnit} (h : allocUnit p o unit a = some u) : u.id = unit := by
  have := List.find?_some h
  simp only [Bool.and_eq_true, beq_iff_eq] at this
  exact this.1

/-- A cache takes in nothing, or a clean copy of a Normal location of which it held none, with the value read there. -/
theorem State.allocate_cases (s : State) (o unit : Nat) (late : Bool) (a : MemAttr) (pa : Nat) :
    s.allocate o unit late a pa = s ∨ (a.isNormal = true ∧ (∀ l ∈ s.lines, l.unit = some unit → l.pa ≠ pa) ∧
      s.allocate o unit late a pa = { s with lines := s.lines ++
        [{ unit := some unit, pa := pa, val := s.valueFor o a pa, dirty := false, writer := o, attr := a, pending := late }] }) := by
  unfold State.allocate
  split
  · exact .inl rfl
  · next u hu =>
    have hid := allocUnit_id hu
    split
    · next h =>
      simp only [Bool.and_eq_true, Bool.not_eq_true', List.any_eq_false, beq_iff_eq, not_and, hid] at h
      obtain ⟨⟨⟨⟨hn, -⟩, -⟩, hnone⟩, -⟩ := h
      exact .inr ⟨hn, hnone, by rw [hid]⟩
    · exact .inl rfl

theorem State.mem_specBytes {s : State} {o : Nat} {vas : List Nat} {b : RByte} (h : b ∈ s.specBytes o vas) :
    b.tr.attr.isNormal = true ∧ ∃ va ∈ vas, dataTr s.platform (s.getObs o).ctl va = some b.tr := by
  obtain ⟨va, hva, h⟩ := List.mem_filterMap.1 h
  obtain ⟨t, ht, h⟩ := Option.bind_eq_some_iff.1 h
  dsimp only at h
  split at h
  · next hc => cases h; exact ⟨(Bool.and_eq_true_iff.1 hc).1, va, hva, ht⟩
  · cases h

/-- A byte of Normal memory whose walks do not fault may be read speculatively. -/
theorem State.specBytes_mem {s : State} {o va : Nat} {vas : List Nat} {t : Tr} (hva : va ∈ vas)
    (ht : dataTr s.platform (s.getObs o).ctl va = some t) (hn : t.attr.isNormal = true)
    (hw : ∀ w ∈ t.walk, walkFaults s.platform (s.getObs o).ctl w = false) : fetchByte va t ∈ s.specBytes o vas := by
  refine List.mem_filterMap.2 ⟨va, hva, ?_⟩
  have hf : RByte.faults s.platform (s.getObs o).ctl (fetchByte va t) = false := by
    simpa [RByte.faults, fetchByte] using hw
  rw [ht, Option.bind_some]
  exact if_pos (by rw [hn]; exact congrArg not hf)

theorem OnlyFills.refl (s : State) (o unit : Nat) (late : Bool) (vas : List Nat) : OnlyFills s s o unit late vas :=
  ⟨rfl, ⟨[], by simp, by simp⟩, ⟨[], by simp, by simp⟩, ⟨[], by simp, by simp⟩⟩

section

variable {s t : State} {o unit : Nat} {late : Bool} {vas : List Nat} {b : RByte}

/-- One more speculative read arrives, with a Normal record, which is kept. -/
theorem OnlyFills.arrive (h : OnlyFills s t o unit late vas) (hb : b ∈ s.specBytes o vas) :
    OnlyFills s ((t.touch [b]).logArrival ((specAccess o b).arrival t.platform)) o unit late vas := by
  obtain ⟨hn, -⟩ := State.mem_specBytes hb
  obtain ⟨hsame, hlines, ⟨na, harr, hna⟩, ⟨nt, htouched, hnt⟩⟩ := h
  obtain ⟨rt, hrt, hrtn⟩ := t.keepRecords_touched [(b.tr.pa, b.tr.attr)]
  refine ⟨?_, hlines, ⟨na ++ [(specAccess o b).arrival t.platform], ?_, fun a ha => ?_⟩,
    ⟨nt ++ rt, hrt.trans (by rw [htouched, List.append_assoc]), fun q hq => ?_⟩⟩
  · unfold State.touch State.keepRecords State.logArrival; rw [hsame]
  · rw [State.logArrival_arrivals, State.touch_arrivals, harr, List.append_assoc]
  · rcases List.mem_append.1 ha with ha | ha
    · exact hna a ha
    · rw [List.mem_singleton.1 ha]
      refine ⟨rfl, fun c hc => ?_⟩
      rw [List.mem_singleton.1 hc]
      exact ⟨rfl, rfl, _, rfl, hn⟩
  · rcases List.mem_append.1 hq with hq | hq
    · exact hnt q hq
    · obtain ⟨c, hc, rfl⟩ := hrtn q hq
      rw [List.mem_singleton.1 hc]
      exact (MemAttr.isNormal_erase _).trans hn

/-- The cache takes in one more byte: of a location it took in before it takes no second copy, and of any other the observer reads
what it read at first. -/
theorem OnlyFills.allocate (h : OnlyFills s t o unit late vas) (hb : b ∈ s.specBytes o vas) :
    OnlyFills s (t.allocate o unit late b.tr.attr b.tr.pa) o unit late vas := by
  rcases t.allocate_cases o unit late b.tr.attr b.tr.pa with he | ⟨hn, hnone, he⟩
  · rw [he]; exact h
  obtain ⟨-, va, hva, htr⟩ := State.mem_specBytes hb
  obtain ⟨hsame, ⟨nl, hlines, hnl⟩, harr, htouched⟩ := h
  have hother : nl.filter (fun l => l.pa == b.tr.pa) = [] := List.filter_eq_nil_iff.2 (fun m hm => by
    simpa using hnone m (by rw [hlines]; exact List.mem_append_right _ hm) (hnl m hm).1)
  have hval : t.valueFor o b.tr.attr b.tr.pa = s.valueFor o b.tr.attr b.tr.pa :=
    State.valueFor_congr s t o _ _ (by rw [hsame]) (by rw [hlines, List.filter_append, hother, List.append_nil]) (by rw [hsame])
  rw [he]
  refine ⟨by rw [hsame], ⟨_, by rw [hlines, List.append_assoc], fun l hl => ?_⟩, harr, htouched⟩
  rcases List.mem_append.1 hl with hl | hl
  · exact hnl l hl
  · rw [List.mem_singleton.1 hl]
    exact ⟨rfl, rfl, rfl, rfl, hn, hval, va, hva, b.tr, htr, rfl, rfl⟩

theorem OnlyFills.speculate (h : OnlyFills s t o unit late vas) (hb : b ∈ s.specBytes o vas) :
    OnlyFills s (t.speculate o unit late b) o unit late vas := (h.arrive hb).allocate hb

end

/-- Settles O41: read after read, from a state in which nothing was filled; a byte that clashes is among those read. -/
theorem speculativeReadsOnlyFillCaches : Obligations.SpeculativeReadsOnlyFillCaches := by
  intro s o va size unit late
  have hin : ∀ k < size, va + k ∈ List.range' va size := fun k hk => List.mem_range'_1.2 (by omega)
  have handle : s.handle (.specRead o va size unit late) = s.speculateAll o unit late (List.range' va size) := rfl
  rw [handle]
  unfold State.speculateAll
  refine ⟨fun hr => ?_, fun k t hk ht hn hw hc => ?_⟩
  · rw [hr]
    refine ⟨_, rfl, ?_, fun hdev => ?_⟩
    · exact foldl_property (fun t => OnlyFills s t o unit late (List.range' va size)) _ _ s (.refl ..) (fun _ _ hb h => h.speculate hb)
    · have hnil : s.specBytes o (List.range' va size) = [] := by
        refine List.eq_nil_iff_forall_not_mem.2 (fun b hb => ?_)
        obtain ⟨hn, a, ha, htr⟩ := State.mem_specBytes hb
        obtain ⟨k, rfl⟩ : ∃ k, a = va + k := ⟨a - va, by have := List.mem_range'_1.1 ha; omega⟩
        have hd := hdev k (by have := List.mem_range'_1.1 ha; omega) b.tr htr
        rw [MemAttr.isDevice_of_isNormal hn] at hd
        cases hd
      rw [hnil]; rfl
  · obtain ⟨q, hq, hqr⟩ := State.recordRefusal_of_clash (State.specBytes_mem (hin k hk) ht hn hw) hc
    rw [hq]
    exact hqr.imp (fun h => by rw [h]) (fun h => by rw [h])

/-! ### The accesses of one instruction, performed before its exception (20_memory.md R52; log 49) -/

/-- Two states with the same caches and the same bytes read by copies, and, where `m`, the same memory. -/
structure SameMemory (m : Prop) (u v : State) : Prop where
  platform : u.platform = v.platform
  lines : u.lines = v.lines
  mem : m → u.mem = v.mem
  copyBuf : ∀ o, (u.getObs o).copyBuf = (v.getObs o).copyBuf

theorem SameMemory.of_fields {m : Prop} {u u' v : State} (h : SameMemory m u v) (hp : u'.platform = u.platform)
    (hl : u'.lines = u.lines) (hm : m → u'.mem = u.mem) (ho : u'.obs = u.obs) : SameMemory m u' v :=
  ⟨hp.trans h.platform, hl.trans h.lines, fun k => (hm k).trans (h.mem k),
    fun o => by rw [State.getObs_congr ho]; exact h.copyBuf o⟩

/-- What a write leaves of the copies, by where it goes. -/
theorem State.commit_lines (s : State) (x : Xact) : (s.commit x).lines =
    if x.attr.isDevice then s.lines else
      match s.holdUnit x with
      | some u => dirtyLines u.id x ++ s.keptLines x (Line.afterHeld s.platform x)
      | none => s.keptLines x (Line.afterThrough s.platform x) := by
  have hu : (s.clearReservations x).holdUnit x = s.holdUnit x := rfl
  unfold State.commit
  dsimp only
  rw [hu]
  split
  · rfl
  · cases s.holdUnit x <;> rfl

/-- What a write leaves of memory. -/
theorem State.commit_mem_eq (s : State) (x : Xact) : (s.commit x).mem =
    if x.attr.isDevice = false ∧ (s.holdUnit x).isSome then s.mem else Memory.writeBytes s.mem x.bs := by
  have hu : (s.clearReservations x).holdUnit x = s.holdUnit x := rfl
  unfold State.commit
  dsimp only
  rw [hu]
  split
  · next hd => rw [hd, if_neg (by simp)]; rfl
  · next hd => cases s.holdUnit x <;> simp [hd]

section

variable {m : Prop} {u v : State}

theorem SameMemory.holdUnit (h : SameMemory m u v) (x : Xact) : u.holdUnit x = v.holdUnit x := by
  simp only [State.holdUnit, h.platform]

theorem SameMemory.commit (h : SameMemory m u v) (x : Xact) : SameMemory m (u.commit x) (v.commit x) := by
  refine ⟨by simpa using h.platform, ?_, fun k => ?_, fun o => ?_⟩
  · simp only [State.commit_lines, h.holdUnit, State.keptLines, h.lines, h.platform]
  · simp only [State.commit_mem_eq, h.holdUnit, h.mem k]
  · obtain ⟨e, he⟩ := (u.getObs_commit x o).1.eq
    obtain ⟨d, hd⟩ := (v.getObs_commit x o).1.eq
    rw [he, hd]
    exact h.copyBuf o

/-- A write that waits for no register takes its bytes from the copy alone. -/
theorem SameMemory.filled (h : SameMemory m u v) {x : Xact} (hx : x.Sourceless) : u.filled x = v.filled x := by
  have hb : x.bs.map (u.filledByte x) = x.bs.map (v.filledByte x) := by
    refine List.map_congr_left (fun b hb => ?_)
    simp only [State.filledByte, Observer.regByte, h.copyBuf, hx b hb]
  unfold State.filled
  rw [hb]

/-- What a copy holds after a read depends on what it held alone. -/
theorem Observer.putBytes_copy (o : Observer) (id : Nat) (bs : List ByteAcc) (vs : List Byte) :
    (o.putBytes .copy id bs vs).copyBuf = (bs.zip vs).foldl (fun c p => holdByte c p.1.lane p.2) o.copyBuf := by
  unfold Observer.putBytes
  generalize bs.zip vs = ps
  induction ps generalizing o with
  | nil => rfl
  | cons p t ih => rw [List.foldl_cons, List.foldl_cons, ih]; rfl

theorem SameMemory.deliverCopy (h : SameMemory m u v) {x : Xact} (hd : x.dst = some .copy) (vs : List Byte) :
    SameMemory m (u.deliverTo x vs) (v.deliverTo x vs) := by
  refine ⟨by simpa using h.platform, by simpa using h.lines, by simpa using h.mem, fun o => ?_⟩
  simp only [State.deliverTo, hd, State.getObs_setObs]
  split
  · simp only [Observer.holdBytes, Observer.putBytes_copy, h.copyBuf]
  · exact h.copyBuf o

end

/-- The accesses of one instruction that an exception ends, alone in flight: none waits for a register, and those that deliver
bytes are the reads of a copy, each before the writes it feeds. -/
structure Ended (o n : Nat) (ys : List Xact) : Prop where
  obs : ∀ y ∈ ys, y.obs = o
  instr : ∀ y ∈ ys, y.instr = n
  numbers : ys.Pairwise (fun a b => a.id < b.id)
  sourceless : ∀ y ∈ ys, y.Sourceless
  dst : ∀ y ∈ ys, y.dst = none ∨ (y.dst = some .copy ∧ y.dir = .read ∧ ∀ z ∈ ys, z.cls = .memCopy)
  feeders : ∀ r ∈ ys, ∀ w ∈ ys, r.feeds w = true → r.id < w.id

section

variable {o n : Nat} {ys : List Xact} (h : Ended o n ys)
include h

theorem Ended.eq_of_id {x y : Xact} (hx : x ∈ ys) (hy : y ∈ ys) (he : x.id = y.id) : x = y := by
  obtain ⟨i, hi, rfl⟩ := List.getElem_of_mem hx
  obtain ⟨j, hj, rfl⟩ := List.getElem_of_mem hy
  have hlt := List.pairwise_iff_getElem.1 h.numbers
  rcases Nat.lt_trichotomy i j with hij | rfl | hij
  · exact absurd he (Nat.ne_of_lt (hlt i j hi hj hij))
  · rfl
  · exact absurd he.symm (Nat.ne_of_lt (hlt j i hj hi hij))

/-- Only a read feeds an access, and only a write is fed. -/
theorem Ended.feeds_dirs {r w : Xact} (hr : r ∈ ys) (hw : w ∈ ys) (hf : r.feeds w = true) : r.dir = .read ∧ w.dir = .write := by
  unfold Xact.feeds at hf
  rw [if_pos ((h.instr r hr).trans (h.instr w hw).symm)] at hf
  simp only [Xact.feedsCopy, Bool.and_eq_true, beq_iff_eq] at hf
  obtain ⟨⟨⟨hdst, -⟩, hdir⟩, -⟩ := hf
  refine ⟨?_, hdir⟩
  rcases h.dst r hr with hd | ⟨-, hd, -⟩
  · rw [hd] at hdst; cases hdst
  · exact hd

/-- The only order among them is that of a copy. -/
theorem Ended.waitsFor_iff (u : State) {y z : Xact} (hy : y ∈ ys) (hz : z ∈ ys) : u.waitsFor z y = true ↔ y.feeds z = true := by
  have hobs : y.obs = z.obs := (h.obs y hy).trans (h.obs z hz).symm
  have hinstr : y.instr = z.instr := (h.instr y hy).trans (h.instr z hz).symm
  have hlt := h.feeders y hy z hz
  simp only [State.waitsFor, State.mustPrecede, State.seenBefore, hobs, hinstr, bne_self_eq_false, Bool.false_and, Bool.or_false,
    beq_self_eq_true, Bool.true_and, Bool.and_eq_true, decide_eq_true_eq]
  exact ⟨And.right, fun hf => ⟨hlt hf, hf⟩⟩

/-- No buffered write answers one of them: those in flight are of the same instruction. -/
theorem Ended.forwardSource (u : State) (hu : ∀ y ∈ u.inflight, y ∈ ys) {x : Xact} (hx : x ∈ ys) : u.forwardSource x = none := by
  have hnone : u.inflight.reverse.find? (fun w => w.obs == x.obs && decide (w.id < x.id) && w.instr != x.instr && w.overlaps x) =
      none := by
    refine List.find?_eq_none.2 (fun w hw => ?_)
    simp [h.instr w (hu w (List.mem_reverse.1 hw)), h.instr x hx]
  unfold State.forwardSource
  rw [hnone]
  split <;> rfl

theorem Ended.performOne (u : State) (hu : ∀ y ∈ u.inflight, y ∈ ys) {x : Xact} (hx : x ∈ ys) (again : List Nat) :
    u.performOne x again = u.transact [x] again := by
  unfold State.performOne
  rw [h.forwardSource u hu hx]

/-- One of them does the same to memory in two states, of which only the caches, the bytes of copies and, for a copy, memory are
the same. -/
theorem SameMemory.perform {m : Prop} {u v : State} (hs : SameMemory m u v) (hu : ∀ y ∈ u.inflight, y ∈ ys) (hv : v.inflight = [])
    {x : Xact} (hx : x ∈ ys) (hm : (∃ y ∈ ys, y.cls = .memCopy) → m) : SameMemory m (u.perform x) (v.perform x) := by
  unfold State.perform
  cases hdir : x.dir with
  | write => rw [hs.filled (h.sourceless x hx)]; exact hs.commit _
  | read =>
    dsimp only
    rcases h.dst x hx with hd | ⟨hd, -, hcopy⟩
    · simpa only [State.deliverTo, hd] using hs
    · have hreads : u.readVals x = v.readVals x := by
        refine List.map_congr_left (fun b _ => ?_)
        refine State.byteFor_congr u v _ _ _ _ _ hs.platform (hs.mem (hm ⟨x, hx, hcopy x hx⟩)) hs.lines (fun y hy => ?_) (by simp [hv])
        exact ⟨.inr ⟨hcopy y (hu y hy), (h.obs y (hu y hy)).trans (h.obs x hx).symm⟩, h.sourceless y (hu y hy)⟩
      rw [hreads]
      exact hs.deliverCopy hd _

end

/-- The run from `u` to `v` performed exactly the accesses `done`, in this order (one as often as it was repeated): what left the
accesses in flight is among them, what feeds one of them was performed before it or is gone, those seen at an endpoint arrived, and
memory and caches are as after performing just them (memory, and what a copy does, where no peripheral reacts to one of `ys`). -/
structure Performs (ys : List Xact) (u v : State) (done : List Xact) : Prop where
  platform : v.platform = u.platform
  flight : v.inflight.Sublist u.inflight
  gone : ∀ y ∈ u.inflight, y ∈ v.inflight ∨ y ∈ done
  among : ∀ y ∈ done, y ∈ u.inflight
  before : ∀ w ∈ done, ∀ y ∈ v.inflight, y.feeds w = false
  order : done.Pairwise (fun a b => b.feeds a = false)
  arrived : v.arrived = u.arrived ++ done.filter u.reachesEndpoint
  memory : ∀ (m : Prop) (z : State), (m → ∀ y ∈ ys, y.Quiet u.platform) → ((∃ y ∈ ys, y.cls = .memCopy) → m) →
    z.inflight = [] → SameMemory m u z → SameMemory m v (done.foldl State.perform z)

theorem Performs.refl (ys : List Xact) (u : State) : Performs ys u u [] :=
  ⟨rfl, .refl _, fun _ hy => .inl hy, fun _ hy => absurd hy List.not_mem_nil, fun _ hw => absurd hw List.not_mem_nil, .nil,
    by simp, fun _ _ _ _ _ h => h⟩

theorem State.reachesEndpoint_congr {s t : State} (h : t.platform = s.platform) : t.reachesEndpoint = s.reachesEndpoint := by
  funext x
  simp only [State.reachesEndpoint, State.holdUnit, h]

theorem Performs.trans {ys : List Xact} {u v w : State} {d e : List Xact} (h : Performs ys u v d) (k : Performs ys v w e) :
    Performs ys u w (d ++ e) where
  platform := k.platform.trans h.platform
  flight := k.flight.trans h.flight
  gone := fun y hy => by
    rcases h.gone y hy with hv | hd
    · exact (k.gone y hv).imp_right (List.mem_append_right d)
    · exact .inr (List.mem_append_left _ hd)
  among := fun y hy => (List.mem_append.1 hy).elim (h.among y) (fun he => h.flight.subset (k.among y he))
  before := fun x hx y hy => (List.mem_append.1 hx).elim (fun hd => h.before x hd y (k.flight.subset hy)) (fun he => k.before x he y hy)
  order := List.pairwise_append.2 ⟨h.order, k.order, fun a ha b hb => h.before a ha b (k.among b hb)⟩
  arrived := by
    rw [k.arrived, h.arrived, List.append_assoc, List.filter_append, State.reachesEndpoint_congr h.platform]
  memory := fun m z hq hc hz hs => by
    rw [List.foldl_append]
    refine k.memory m _ (by rw [h.platform]; exact hq) hc ?_ (h.memory m z hq hc hz hs)
    rw [State.foldl_perform_inflight]; exact hz

theorem State.transact_obs (s : State) (xs : List Xact) (again : List Nat) :
    (s.transact xs again).obs = (xs.foldl State.perform (s.logGroup xs)).obs := by
  unfold State.transact
  rw [foldl_keeps State.obs (State.finish again) (fun t x => t.finish_obs again x), State.reactGroup_obs]

/-- A group to which no peripheral reacts leaves memory as its accesses do. -/
theorem State.reactGroup_mem_quiet (s : State) (xs : List Xact) (h : ∀ x ∈ xs, x.Quiet s.platform) : (s.reactGroup xs).mem = s.mem := by
  unfold State.reactGroup
  split
  · rfl
  · next y ys hf =>
    refine Memory.react_quiet _ _ _ _ (fun pa hpa => ?_)
    obtain ⟨z, hz, hb⟩ := List.mem_flatMap.1 hpa
    rw [← hf] at hz
    obtain ⟨b, hbz, rfl⟩ := List.mem_map.1 hb
    exact h z (List.mem_filter.1 hz).1 b hbz

section

variable {o n : Nat} {ys : List Xact} (h : Ended o n ys)
include h

theorem SameMemory.foldl_perform {m : Prop} (xs : List Xact) (hxs : ∀ x ∈ xs, x ∈ ys) {u v : State} (hs : SameMemory m u v)
    (hu : ∀ y ∈ u.inflight, y ∈ ys) (hv : v.inflight = []) (hm : (∃ y ∈ ys, y.cls = .memCopy) → m) :
    SameMemory m (xs.foldl State.perform u) (xs.foldl State.perform v) := by
  induction xs generalizing u v with
  | nil => exact hs
  | cons x t ih =>
    exact ih (fun y hy => hxs y (by simp [hy])) (hs.perform h hu hv (hxs x (by simp)) hm) (by simpa using hu) (by simpa using hv)

/-- A group that nothing in flight feeds performs just its accesses. -/
theorem Ended.transact (u : State) (hu : u.inflight.Sublist ys) (xs : List Xact) (hxs : ∀ x ∈ xs, x ∈ u.inflight)
    (hf : ∀ y ∈ u.inflight, ∀ x ∈ xs, y.feeds x = false) (again : List Nat) : Performs ys u (u.transact xs again) xs where
  platform := (u.transact_sameShape xs again).platform
  flight := by rw [State.transact_inflight_again]; exact List.filter_sublist
  gone := fun y hy => by
    by_cases hx : ∃ x ∈ xs, x.id = y.id
    · obtain ⟨x, hx, he⟩ := hx
      exact .inr (h.eq_of_id (hu.subset (hxs x hx)) (hu.subset hy) he ▸ hx)
    · refine .inl ?_
      rw [State.transact_inflight_again, List.mem_filter, List.all_eq_true]
      refine ⟨hy, fun x hxm => ?_⟩
      have hne : y.id ≠ x.id := fun he => hx ⟨x, hxm, he.symm⟩
      simp [hne]
  among := hxs
  before := fun w hw y hy => hf y (State.transact_sub u xs again y hy) w hw
  order := List.Pairwise.imp_of_mem (R := fun _ _ => True) (fun ha hb _ => hf _ (hxs _ hb) _ ha) (List.pairwise_of_forall (fun _ _ => trivial))
  arrived := by
    unfold State.arrived
    rw [State.transact_arrivals]
    rcases u.logGroup_arrivals xs with ⟨ha, hx⟩ | ⟨a, ha, -, hx, -⟩
    · rw [ha, hx, List.append_nil]
    · rw [ha, List.flatMap_append, ← hx]; simp
  memory := fun m z hq hm hz hs => by
    have hgroup : SameMemory m (u.logGroup xs) z := hs.of_fields (by simp) (by simp) (fun _ => by simp) (by simp)
    have hperf := SameMemory.foldl_perform h xs (fun x hx => hu.subset (hxs x hx)) hgroup
      (by rw [State.logGroup_inflight]; exact fun y hy => hu.subset hy) hz hm
    refine hperf.of_fields ?_ (u.transact_lines xs again) (fun k => ?_) (u.transact_obs xs again)
    · rw [(u.transact_sameShape xs again).platform, foldl_keeps State.platform State.perform (fun s x => s.perform_platform x)]
      simp
    · rw [State.transact_mem]
      refine State.reactGroup_mem_quiet _ xs (fun x hx => ?_)
      rw [foldl_keeps State.platform State.perform (fun s x => s.perform_platform x), State.logGroup_platform]
      exact hq k x (hu.subset (hxs x hx))

/-- Accesses that nothing in flight feeds, one after the other. -/
theorem Ended.performEach (L : List Xact) (u : State) (hu : u.inflight.Sublist ys) (hL : L.Pairwise (fun a b => a.id < b.id))
    (hin : ∀ x ∈ L, x ∈ u.inflight) (hf : ∀ y ∈ u.inflight, ∀ x ∈ L, y.feeds x = false) :
    Performs ys u (L.foldl (fun s y => s.performOne y []) u) L := by
  induction L generalizing u with
  | nil => exact .refl ys u
  | cons a t ih =>
    obtain ⟨hlt, hL⟩ := List.pairwise_cons.1 hL
    have ha : a ∈ u.inflight := hin a (by simp)
    have hp : Performs ys u (u.performOne a []) [a] := by
      rw [h.performOne u (fun y hy => hu.subset hy) (hu.subset ha)]
      exact h.transact u hu [a] (by simpa using ha) (fun y hy x hx => hf y hy x (by simp [List.mem_singleton.1 hx])) []
    refine hp.trans (ih _ (hp.flight.trans hu) hL (fun x hx => ?_) (fun y hy x hx => hf y (hp.flight.subset hy) x (by simp [hx])))
    rw [State.performOne_inflight, List.mem_filter]
    exact ⟨hin x (by simp [hx]), by simpa using (Nat.ne_of_lt (hlt x hx)).symm⟩

/-- What must be performed before some of them: the reads in flight that feed one of them. -/
theorem Ended.mem_required (u : State) (hu : u.inflight.Sublist ys) (xs : List Xact) (hxs : ∀ x ∈ xs, x ∈ ys) (y : Xact) :
    y ∈ u.required xs ↔ y ∈ u.inflight ∧ (∀ x ∈ xs, x.id ≠ y.id) ∧ ∃ x ∈ xs, y.feeds x = true := by
  have hfilter : ∀ {L : List Xact} {y : Xact}, y ∈ L.filter (fun y => !xs.any (fun x => x.id == y.id)) ↔
      y ∈ L ∧ ∀ x ∈ xs, x.id ≠ y.id := by
    intro L y; simp [List.mem_filter]
  have hwaits : ∀ L : List Xact, (∀ y ∈ L, y ∈ ys) →
      ∀ y ∈ L.foldr (fun y acc => if (acc ++ xs).any (fun z => u.waitsFor z y) then y :: acc else acc) [],
        ∃ x ∈ xs, y.feeds x = true := by
    intro L hL
    induction L with
    | nil => exact fun _ hy => absurd hy List.not_mem_nil
    | cons a t ih =>
      have iht := ih (fun y hy => hL y (by simp [hy]))
      have hsub := u.required_step xs t
      rw [List.foldr_cons]
      split
      · next hany =>
        intro y hy
        rcases List.mem_cons.1 hy with rfl | hy
        · obtain ⟨z, hz, hw⟩ := List.any_eq_true.1 hany
          have hy' : y ∈ ys := hL y (by simp)
          rcases List.mem_append.1 hz with hz | hz
          · have hzy : z ∈ ys := hL z (by simp [hsub.subset hz])
            obtain ⟨x, hx, hzx⟩ := iht z hz
            have hread := (h.feeds_dirs hzy (hxs x hx) hzx).1
            have hwrite := (h.feeds_dirs hy' hzy ((h.waitsFor_iff u hy' hzy).1 hw)).2
            rw [hread] at hwrite; cases hwrite
          · exact ⟨z, hz, (h.waitsFor_iff u hy' (hxs z hz)).1 hw⟩
        · exact iht y hy
      · exact iht
  constructor
  · intro hy
    obtain ⟨hin, hne⟩ := hfilter.1 ((u.required_step xs _).subset hy)
    exact ⟨hin, hne, hwaits _ (fun z hz => hu.subset (hfilter.1 hz).1) y hy⟩
  · rintro ⟨hin, hne, x, hx, hf⟩
    refine u.required_closed xs _ ((h.numbers.sublist hu).sublist List.filter_sublist) y x (hfilter.2 ⟨hin, hne⟩)
      (List.mem_append_right _ hx) ((h.waitsFor_iff u (hu.subset hin) (hxs x hx)).2 hf)

/-- Accesses of one direction, as one transaction, after what feeds them. -/
theorem Ended.performGroup (u : State) (hu : u.inflight.Sublist ys) (xs : List Xact) (hxs : ∀ x ∈ xs, x ∈ u.inflight)
    (hdir : ∀ x ∈ xs, ∀ y ∈ xs, x.dir = y.dir) (again : List Nat) :
    Performs ys u (((u.required xs).foldl (fun s y => s.performOne y []) u).transact xs again) (u.required xs ++ xs) := by
  have hxy : ∀ x ∈ xs, x ∈ ys := fun x hx => hu.subset (hxs x hx)
  have hmem := h.mem_required u hu xs hxy
  have hfirst : Performs ys u ((u.required xs).foldl (fun s y => s.performOne y []) u) (u.required xs) := by
    refine h.performEach _ u hu (((h.numbers.sublist hu).sublist List.filter_sublist).sublist (u.required_step xs _))
      (fun y hy => ((hmem y).1 hy).1) (fun y hy x hx => ?_)
    obtain ⟨hin, -, z, hz, hf⟩ := (hmem x).1 hx
    have hread := (h.feeds_dirs (hu.subset hin) (hxy z hz) hf).1
    refine Bool.eq_false_iff.2 (fun hyx => ?_)
    rw [(h.feeds_dirs (hu.subset hy) (hu.subset hin) hyx).2] at hread; cases hread
  have hleft : ∀ y, y ∈ ((u.required xs).foldl (fun s y => s.performOne y []) u).inflight ↔
      y ∈ u.inflight ∧ ∀ x ∈ u.required xs, y.id ≠ x.id := by
    intro y
    rw [State.foldl_performOne_inflight, List.mem_filter]
    simp
  refine hfirst.trans (h.transact _ (hfirst.flight.trans hu) xs (fun x hx => ?_) (fun y hy x hx => ?_) again)
  · exact (hleft x).2 ⟨hxs x hx, fun z hz => (((hmem z).1 hz).2.1 x hx)⟩
  · obtain ⟨hin, hnot⟩ := (hleft y).1 hy
    refine Bool.eq_false_iff.2 (fun hf => ?_)
    by_cases hid : ∃ z ∈ xs, z.id = y.id
    · obtain ⟨z, hz, he⟩ := hid
      have hzy := h.eq_of_id (hxy z hz) (hu.subset hin) he
      obtain ⟨hread, hwrite⟩ := h.feeds_dirs (hu.subset hin) (hxy x hx) hf
      rw [← hzy, hdir z hz x hx, hwrite] at hread; cases hread
    · exact hnot y ((hmem y).2 ⟨hin, fun z hz he => hid ⟨z, hz, he⟩, x, hx, hf⟩) rfl

end

/-- The accesses performed are those with these numbers that are in flight, and some that feed one with such a number. -/
structure Covers (ys : List Xact) (u : State) (ids : List Nat) (done : List Xact) : Prop where
  only : ∀ y ∈ done, y.id ∈ ids ∨ ∃ w ∈ ys, w.id ∈ ids ∧ y.feeds w = true
  every : ∀ x ∈ u.inflight, x.id ∈ ids → x ∈ done

/-- The run from `u` to `v` performed the accesses with these numbers, each after what feeds it. -/
def Makes (ys : List Xact) (u v : State) (ids : List Nat) : Prop := ∃ done, Performs ys u v done ∧ Covers ys u ids done

theorem Makes.refl {ys : List Xact} {u : State} {ids : List Nat} (h : ∀ x ∈ u.inflight, x.id ∉ ids) : Makes ys u u ids :=
  ⟨[], .refl ys u, fun _ hy => absurd hy List.not_mem_nil, fun x hx hi => absurd hi (h x hx)⟩

theorem Makes.trans {ys : List Xact} {u v w : State} {ids ids' : List Nat} (h : Makes ys u v ids) (k : Makes ys v w ids') :
    Makes ys u w (ids ++ ids') := by
  obtain ⟨d, hd, ho, he⟩ := h
  obtain ⟨e, ke, ko, ke'⟩ := k
  refine ⟨d ++ e, hd.trans ke, fun y hy => ?_, fun x hx hi => ?_⟩
  · rcases List.mem_append.1 hy with hy | hy
    · exact (ho y hy).imp (List.mem_append_left _) (fun ⟨w, hw, hwi, hf⟩ => ⟨w, hw, List.mem_append_left _ hwi, hf⟩)
    · exact (ko y hy).imp (List.mem_append_right _) (fun ⟨w, hw, hwi, hf⟩ => ⟨w, hw, List.mem_append_right _ hwi, hf⟩)
  · rcases List.mem_append.1 hi with hi | hi
    · exact List.mem_append_left _ (he x hx hi)
    · rcases hd.gone x hx with hv | hv
      · exact List.mem_append_right _ (ke' x hv hi)
      · exact List.mem_append_left _ hv

theorem Makes.of_ids {ys : List Xact} {u v : State} {ids ids' : List Nat} (h : Makes ys u v ids) (hsub : ∀ i ∈ ids, i ∈ ids')
    (hsup : ∀ x ∈ u.inflight, x.id ∈ ids' → x.id ∈ ids) : Makes ys u v ids' := by
  obtain ⟨d, hd, ho, he⟩ := h
  exact ⟨d, hd, fun y hy => (ho y hy).imp (hsub _) (fun ⟨w, hw, hwi, hf⟩ => ⟨w, hw, hsub _ hwi, hf⟩),
    fun x hx hi => he x hx (hsup x hx hi)⟩

theorem Makes.flight {ys : List Xact} {u v : State} {ids : List Nat} (h : Makes ys u v ids) (hu : u.inflight.Sublist ys) :
    v.inflight.Sublist ys := by
  obtain ⟨d, hd, -⟩ := h
  exact hd.flight.trans hu

theorem State.mayGather_dir {s : State} {a b : Xact} (h : s.mayGather a b = true) : a.dir = b.dir := by
  simp only [State.mayGather, Bool.and_eq_true, beq_iff_eq] at h
  exact h.1

/-- What may be gathered is of one direction. -/
theorem State.allGather_dirs {s : State} {xs : List Xact} (h : s.allGather xs = true) : ∀ x ∈ xs, ∀ y ∈ xs, x.dir = y.dir := by
  cases xs with
  | nil => exact fun _ hx => absurd hx List.not_mem_nil
  | cons a t =>
    simp only [State.allGather, Bool.and_eq_true, List.all_eq_true] at h
    have ha : ∀ x ∈ a :: t, a.dir = x.dir := by
      intro x hx
      rcases List.mem_cons.1 hx with rfl | hx
      · rfl
      · exact State.mayGather_dir (h.1 x hx)
    exact fun x hx y hy => (ha x hx).symm.trans (ha y hy)

section

variable {o n : Nat} {ys : List Xact} (h : Ended o n ys)
include h

/-- A group performed after what feeds it. -/
theorem Ended.makesGroup (u : State) (hu : u.inflight.Sublist ys) (xs : List Xact) (hxs : ∀ x ∈ xs, x ∈ u.inflight)
    (hdir : ∀ x ∈ xs, ∀ y ∈ xs, x.dir = y.dir) (again : List Nat) :
    Makes ys u (((u.required xs).foldl (fun s y => s.performOne y []) u).transact xs again) (xs.map Xact.id) := by
  refine ⟨_, h.performGroup u hu xs hxs hdir again, fun y hy => ?_, fun x hx hi => ?_⟩
  · rcases List.mem_append.1 hy with hy | hy
    · obtain ⟨-, -, x, hx, hf⟩ := (h.mem_required u hu xs (fun x hx => hu.subset (hxs x hx)) y).1 hy
      exact .inr ⟨x, hu.subset (hxs x hx), List.mem_map_of_mem hx, hf⟩
    · exact .inl (List.mem_map_of_mem hy)
  · obtain ⟨y, hy, he⟩ := List.mem_map.1 hi
    exact List.mem_append_right _ (h.eq_of_id (hu.subset (hxs y hy)) (hu.subset hx) he ▸ hy)

theorem Ended.force (u : State) (hu : u.inflight.Sublist ys) (id : Nat) (again : List Nat) : Makes ys u (u.force id again) [id] := by
  unfold State.force
  split
  · next hf =>
    refine .refl (fun x hx hi => ?_)
    have := List.find?_eq_none.1 hf x hx
    simp [List.mem_singleton.1 hi] at this
  · next x hf =>
    obtain ⟨hx, rfl⟩ := u.findXact_some id x hf
    rw [h.forwardSource u (fun y hy => hu.subset hy) (hu.subset hx)]
    have hone := h.makesGroup u hu [x] (by simpa using hx) (by simp) again
    rw [h.performOne _ (fun y hy => hu.subset (State.foldl_performOne_sub _ u y hy)) (hu.subset hx)]
    exact hone

theorem Ended.forceAll (ids : List Nat) (u : State) (hu : u.inflight.Sublist ys) : Makes ys u (u.forceAll ids) ids := by
  induction ids generalizing u with
  | nil => exact .refl (fun _ _ hi => absurd hi List.not_mem_nil)
  | cons i t ih =>
    have hi := h.force u hu i []
    exact hi.trans (ih _ (hi.flight hu))

theorem Ended.forceGroup (u : State) (hu : u.inflight.Sublist ys) (ids again : List Nat) :
    Makes ys u (u.forceGroup ids again) ids := by
  have hsel : ∀ x, x ∈ u.select ids ↔ x ∈ u.inflight ∧ x.id ∈ ids := by simp [State.select]
  unfold State.forceGroup
  split
  · next he => exact .refl (fun x hx hi => by have := (hsel x).2 ⟨hx, hi⟩; simp [he] at this)
  · next x he =>
    refine (h.force u hu x.id again).of_ids (fun i hi => ?_) (fun y hy hi => ?_)
    · rw [List.mem_singleton.1 hi]
      exact ((hsel x).1 (by simp [he])).2
    · have hmem := (hsel y).2 ⟨hy, hi⟩
      rw [he, List.mem_singleton] at hmem
      simp [hmem]
  · split
    · next hg =>
      have hdirs := State.allGather_dirs (Bool.and_eq_true_iff.1 hg).1
      refine (h.makesGroup u hu _ (fun x hx => ((hsel x).1 hx).1) hdirs _).of_ids (fun i hi => ?_) (fun y hy hi => ?_)
      · obtain ⟨x, hx, rfl⟩ := List.mem_map.1 hi
        exact ((hsel x).1 hx).2
      · exact List.mem_map_of_mem ((hsel y).2 ⟨hy, hi⟩)
    · exact h.forceAll ids u hu

/-- The performances of a plan. -/
theorem Ended.acts (xs : List Xact) (acts : List Act) (u : State) (hu : u.inflight.Sublist ys) :
    Makes ys u (u.performPlan xs acts false) (acts.flatMap (fun a => idsAt xs a.ks)) := by
  change Makes ys u (acts.foldl (State.act xs) u) _
  induction acts generalizing u with
  | nil => exact .refl (fun _ _ hi => absurd hi List.not_mem_nil)
  | cons a t ih =>
    have ha : Makes ys u (State.act xs u a) (idsAt xs a.ks) := h.forceGroup u hu _ _
    exact ha.trans (ih _ (ha.flight hu))

end

/-- The numbers a plan names. -/
theorem mem_idsAt {xs : List Xact} {ks : List Nat} {i : Nat} : i ∈ idsAt xs ks ↔ ∃ k ∈ ks, ∃ x, xs[k]? = some x ∧ x.id = i := by
  simp [idsAt, List.mem_filterMap]

theorem mem_ids_iff_named (s : State) (ys : List Xact) (i : Nat) :
    i ∈ s.plan.acts.flatMap (fun a => idsAt ys a.ks) ↔ ∃ x, Named s ys x ∧ x.id = i := by
  simp only [List.mem_flatMap, mem_idsAt, Named]
  constructor
  · rintro ⟨a, ha, k, hk, x, hx, hi⟩
    exact ⟨x, ⟨a, ha, k, hk, hx⟩, hi⟩
  · rintro ⟨x, ⟨a, ha, k, hk, hx⟩, hi⟩
    exact ⟨a, ha, k, hk, x, hx, hi⟩

theorem Named.mem {s : State} {ys : List Xact} {x : Xact} (h : Named s ys x) : x ∈ ys := by
  obtain ⟨a, -, k, -, hx⟩ := h
  exact List.mem_of_getElem? hx

/-- Walks are no accesses of an instruction. -/
theorem State.walk_arrived (s : State) (ws : List WalkRef) : (s.walk ws).arrived = s.arrived := by
  have hnone : ∀ l : List WalkRef,
      (l.map (fun w => (walkAccess s.platform s.cur s.me.ctl w).arrival s.platform)).flatMap Arrival.xs = [] := by
    intro l
    simp [List.flatMap_map, Access.arrival, arrivalOf]
  rw [State.walk_eq, State.walkReads_frame]
  simp only [State.arrived, List.flatMap_append, hnone, List.append_nil]

theorem State.abandonSeq_me (v : State) (ys : List Xact) (c : Raise) : (v.abandonSeq ys c).me = { v.me with
    esr := esrAfter v.platform v.me.ctl c v.plan.syndrome v.me.esr
    handler := some { cause := c, slot := v.me.current, restarts := true }
    current := none } := State.takeException_me _ c true

section

variable {s : State} {ys : List Xact} (h : Ended s.cur s.nextInstr ys)
include h

/-- What a plan performs: the accesses it names and those that feed one of them. -/
theorem Ended.mem_done_iff {u v : State} {done : List Xact} (hu : u.inflight = ys) (hp : Performs ys u v done)
    (hc : Covers ys u (s.plan.acts.flatMap (fun a => idsAt ys a.ks)) done) (x : Xact) :
    x ∈ done ↔ Named s ys x ∨ (x ∈ ys ∧ ∃ w, Named s ys w ∧ x.feeds w = true) := by
  have hnamed : ∀ y, Named s ys y → y ∈ done :=
    fun y hy => hc.every y (hu ▸ hy.mem) ((mem_ids_iff_named s ys _).2 ⟨y, hy, rfl⟩)
  have hid : ∀ y ∈ ys, y.id ∈ s.plan.acts.flatMap (fun a => idsAt ys a.ks) → Named s ys y := by
    intro y hy hi
    obtain ⟨z, hz, he⟩ := (mem_ids_iff_named s ys _).1 hi
    exact h.eq_of_id hz.mem hy he ▸ hz
  constructor
  · intro hx
    have hxy : x ∈ ys := hu ▸ hp.among x hx
    rcases hc.only x hx with hi | ⟨w, hw, hi, hf⟩
    · exact .inl (hid x hxy hi)
    · exact .inr ⟨hxy, w, hid w hw hi, hf⟩
  · rintro (hx | ⟨hxy, w, hw, hf⟩)
    · exact hnamed x hx
    · rcases hp.gone x (hu ▸ hxy) with hv | hd
      · rw [hp.before w (hnamed w hw) x hv] at hf; cases hf
      · exact hd

/-- What stays of the accesses in flight after an exception. -/
theorem Ended.stillMade_iff {y : Xact} (hy : y ∈ ys) : stillMade s.plan ys y = true ↔ LeftInFlight s ys y := by
  simp only [stillMade, LeftInFlight, List.any_eq_true, List.mem_filterMap, Bool.or_eq_true, Bool.and_eq_true, beq_iff_eq]
  constructor
  · rintro ⟨w, ⟨k, hk, hw⟩, hid | ⟨-, hf⟩⟩
    · exact ⟨k, hk, w, hw, .inl (h.eq_of_id (List.mem_of_getElem? hw) hy hid)⟩
    · exact ⟨k, hk, w, hw, .inr hf⟩
  · rintro ⟨k, hk, w, hw, rfl | hf⟩
    · exact ⟨w, ⟨k, hk, hw⟩, .inl rfl⟩
    · exact ⟨w, ⟨k, hk, hw⟩, .inr ⟨(h.instr w (List.mem_of_getElem? hw)).trans (h.instr y hy).symm, hf⟩⟩

/-- What the performances of the plan leave of the observer, which the exception then ends. -/
theorem Ended.performPlan_me (u : State) (hcur : u.cur = s.cur) (hu : u.inflight = ys) (hme : u.me = s.me) :
    (u.performPlan ys s.plan.acts false).me = { s.me with copyBuf := (u.performPlan ys s.plan.acts false).me.copyBuf } := by
  have hobs : u.getObs s.cur = s.getObs s.cur := by rw [← hcur]; exact hme.trans (by rw [hcur]; rfl)
  obtain ⟨k1, -, k3⟩ := (Performable.ofMine s).performPlan ys s.plan.acts false u
    ⟨hcur, by rw [hu]; exact h.sourceless, by rw [hobs]⟩
    (by rw [hu]; exact fun y hy => ⟨h.obs y hy, (h.dst y hy).imp_right And.left⟩)
  have hw : (u.performPlan ys s.plan.acts false).me = (u.performPlan ys s.plan.acts false).getObs s.cur := by rw [← k1]; rfl
  rw [hw]
  exact k3

/-- AN EXCEPTION ENDS THE INSTRUCTION after the performances of its plan, which follow its walks (20_memory.md R52, log 49). -/
theorem Ended.stopped (h0 : s.inflight = []) (ws : List WalkRef) (bs : List RByte) (c : Raise) (places : List Nat)
    (hq : quietAt s.platform places = true → (∀ y ∈ ys, y.Quiet s.platform) ∧ (s.walk ws).mem = s.mem) :
    StoppedAfter s (((((s.walk ws).touch bs).issue ys).performPlan ys s.plan.acts false).abandonSeq ys c) ys c places := by
  generalize hu : ((s.walk ws).touch bs).issue ys = u
  have hin : u.inflight = ys := by rw [← hu]; simp [h0]
  have hme : u.me = s.me := by rw [← hu]; exact s.me_walk ws
  have hcur : u.cur = s.cur := by rw [← hu]; simp
  have hplat : u.platform = s.platform := by rw [← hu]; simp
  have hplan : u.plan = s.plan := by rw [← hu]; simp
  have harr : u.arrived = s.arrived := by
    rw [← hu]
    exact s.walk_arrived ws
  have hsame : SameMemory (quietAt s.platform places = true) u s :=
    ⟨hplat, by rw [← hu]; simp, fun k => by rw [← hu]; simpa using (hq k).2, fun o => by
      rw [← hu]; exact congrArg Observer.copyBuf (s.getObs_walkReads _ _ _ o)⟩
  obtain ⟨done, hp, hc⟩ := h.acts ys s.plan.acts u (hin ▸ .refl _)
  have hshape := u.performPlan_sameShape ys s.plan.acts false
  have hmine := h.performPlan_me u hcur hin hme
  generalize u.performPlan ys s.plan.acts false = v at hp hc hshape hmine
  have hvp : v.platform = s.platform := hp.platform.trans hplat
  have hvplan : v.plan = s.plan := hshape.plan.trans hplan
  have hmem : ∀ y, y ∈ (v.abandonSeq ys c).inflight ↔ y ∈ v.inflight ∧ LeftInFlight s ys y := by
    intro y
    simp only [State.abandonSeq, State.takeException_eq, State.setObs_inflight, List.mem_filter, hvplan, Bool.or_eq_true,
      Bool.not_eq_true', List.any_eq_false, beq_iff_eq]
    refine and_congr_right (fun hy => ?_)
    have hyy : y ∈ ys := hin ▸ hp.flight.subset hy
    rw [h.stillMade_iff hyy]
    exact ⟨fun k => k.resolve_left (fun hne => hne y hyy rfl), .inr⟩
  have hdone := h.mem_done_iff hin hp hc
  refine ⟨⟨fun x hx => ?_, fun x hx hl hn hf => ?_⟩, ?_, done, hdone, hp.order, ?_, fun k => ?_, fun k => ?_⟩
  · obtain ⟨hxv, hl⟩ := (hmem x).1 hx
    exact ⟨hin ▸ hp.flight.subset hxv, hl⟩
  · refine (hmem x).2 ⟨(hp.gone x (hin ▸ hx)).resolve_right (fun hd => ?_), hl⟩
    rcases (hdone x).1 hd with hn' | ⟨-, w, hw, hfw⟩
    · exact hn hn'
    · rw [hf w hw] at hfw; cases hfw
  · obtain ⟨b, hb⟩ : ∃ b, v.me = { s.me with copyBuf := b } := ⟨_, hmine⟩
    rw [State.abandonSeq_me, hb, hvp, hvplan]
  · rw [show (v.abandonSeq ys c).arrived = v.arrived from rfl, hp.arrived, harr, State.reachesEndpoint_congr hplat]
  · rw [show (v.abandonSeq ys c).lines = v.lines from rfl]
    refine (hp.memory (quietAt s.platform places = true) s (fun k => hplat ▸ (hq k).1) (fun ⟨y, hy, hcls⟩ => ?_) h0 hsame).lines
    exact k.resolve_left (fun hno => hno y hy hcls)
  · rw [show (v.abandonSeq ys c).mem = v.mem from rfl]
    exact (hp.memory (quietAt s.platform places = true) s (fun k => hplat ▸ (hq k).1) (fun _ => k) h0 hsame).mem k

end

/-! #### The accesses of a request or a copy, ended -/

theorem Xact.unheeded_dst {x : Xact} (h : x.unheeded.dst = some .copy) : x.dst = some .copy := by
  simp only [Xact.unheeded] at h
  split at h
  · assumption
  · cases h

/-- Accesses that are numbered anew, of which only the reads of a copy deliver. -/
theorem Ended.ofXacts {s : State} {xs : List Xact} (hf : Fresh s xs) (hx : ∀ x ∈ xs, x.obs = s.cur ∧ x.Sourceless)
    (hd : ∀ x ∈ xs, x.dst = some .copy → x.dir = .read ∧ ∀ z ∈ xs, z.cls = .memCopy)
    (hlt : ∀ r ∈ xs, ∀ w ∈ xs, r.dir = .read → w.dir = .write → r.id < w.id) : Ended s.cur s.nextInstr (xs.map Xact.unheeded) where
  obs := by
    rw [List.forall_mem_map]
    exact fun x hxm => (hx x hxm).1
  instr := by
    rw [List.forall_mem_map]
    exact fun x hxm => hf.instr x hxm
  numbers := by
    rw [List.pairwise_map, List.pairwise_iff_getElem]
    intro i j hi hj hij
    have h1 := (hf i _ (List.getElem?_eq_getElem hi)).1
    have h2 := (hf j _ (List.getElem?_eq_getElem hj)).1
    change xs[i].id < xs[j].id
    omega
  sourceless := by
    rw [List.forall_mem_map]
    exact fun x hxm => (hx x hxm).2
  dst := by
    simp only [List.forall_mem_map]
    intro x hxm
    by_cases hc : x.dst = some .copy
    · obtain ⟨hread, hall⟩ := hd x hxm hc
      exact .inr ⟨by simp [Xact.unheeded, hc], hread, hall⟩
    · exact .inl (by simp [Xact.unheeded, hc])
  feeders := by
    simp only [List.forall_mem_map]
    intro r hr w hw hfeeds
    unfold Xact.feeds at hfeeds
    rw [if_pos (show r.unheeded.instr = w.unheeded.instr from (hf.instr r hr).trans (hf.instr w hw).symm)] at hfeeds
    simp only [Xact.feedsCopy, Bool.and_eq_true, beq_iff_eq] at hfeeds
    obtain ⟨⟨⟨hdst, -⟩, hdir⟩, -⟩ := hfeeds
    exact hlt r hr w hw (hd r hr (Xact.unheeded_dst hdst)).1 hdir

/-- The accesses of one request: they have one direction, and deliver to no copy. -/
theorem Ended.xactsOf (s : State) (r : Req) (h0 : s.inflight = []) (hr : r.file ≠ .copy) :
    Ended s.cur s.nextInstr ((xactsOf s r).map Xact.unheeded) := by
  refine .ofXacts (xactsOf_fresh s r)
    (fun x hx => ⟨(mem_xactsOf s r x hx).1.2.2.1, xactsOf_sourceless s r (.inr (.inr h0)) x hx⟩) (fun x hx hc => ?_)
    (fun x hx y hy hread hwrite => ?_)
  · obtain ⟨-, -, q, -, -, hd, -⟩ := mem_xactsOf s r x hx
    rw [hd] at hc
    split at hc
    · exact absurd (Option.some.inj hc) hr
    · cases hc
  · obtain ⟨⟨-, hx, -⟩, -⟩ := mem_xactsOf s r x hx
    obtain ⟨⟨-, hy, -⟩, -⟩ := mem_xactsOf s r y hy
    rw [← hx, hread] at hy
    rw [hy] at hwrite; cases hwrite

/-- The accesses of a copy: its reads come first. -/
theorem Ended.copyXacts (s : State) (rd wr : List RElem) (h0 : s.inflight = []) :
    Ended s.cur s.nextInstr ((s.copyXacts rd wr).map Xact.unheeded) := by
  have hmem : ∀ x ∈ s.copyXacts rd wr, (x.cls = .memCopy ∧ x.obs = s.cur ∧ x.Sourceless) ∧
      ((x ∈ Machine.xactsOf s (s.copyReads rd wr) ∧ x.dir = .read) ∨
        x ∈ xactsFrom s (s.copyWrites rd wr) (Machine.xactsOf s (s.copyReads rd wr)).length ∧ x.dir = .write ∧ x.dst = none) := by
    intro x hx
    rcases List.mem_append.1 hx with hx | hx
    · obtain ⟨⟨hc, hd, ho, -⟩, -⟩ := mem_xactsOf s _ x hx
      exact ⟨⟨hc, ho, xactsOf_sourceless s _ (.inr (.inr h0)) x hx⟩, .inl ⟨hx, hd⟩⟩
    · obtain ⟨⟨hc, hd, ho, -⟩, -, q, -, -, hdst, -⟩ := mem_xactsFrom s _ _ x hx
      exact ⟨⟨hc, ho, xactsFrom_sourceless s _ _ (.inr (.inr h0)) x hx⟩, .inr ⟨hx, hd, hdst⟩⟩
  refine .ofXacts (s.copyXacts_fresh rd wr) (fun x hx => (hmem x hx).1.2) (fun x hx hc => ⟨?_, fun z hz => (hmem z hz).1.1⟩)
    (fun r hr w hw hread hwrite => ?_)
  · rcases (hmem x hx).2 with ⟨-, hd⟩ | ⟨-, -, hd⟩
    · exact hd
    · rw [hd] at hc; cases hc
  · rcases (hmem r hr).2 with ⟨hr1, -⟩ | ⟨-, hd, -⟩
    · rcases (hmem w hw).2 with ⟨-, hd⟩ | ⟨hw2, -, -⟩
      · rw [hd] at hwrite; cases hwrite
      · obtain ⟨i, hi, rfl⟩ := List.getElem_of_mem hr1
        obtain ⟨j, hj, rfl⟩ := List.getElem_of_mem hw2
        have h1 := (xactsFrom_number s _ 0 i _ (List.getElem?_eq_getElem hi)).1
        have h2 := (xactsFrom_number s _ _ j _ (List.getElem?_eq_getElem hj)).1
        change ((Machine.xactsOf s (s.copyReads rd wr))[i]).id = _ at h1
        omega
    · rw [hd] at hread; cases hread

/-- Walks change no access that follows them. -/
theorem State.xactsOf_walk (s : State) (ws : List WalkRef) (r : Req) : xactsOf (s.walk ws) r = xactsOf s r := by
  rw [State.walk_eq, State.walkReads_frame]; rfl

theorem State.copyXacts_walk (s : State) (ws : List WalkRef) (rd wr : List RElem) :
    (s.walk ws).copyXacts rd wr = s.copyXacts rd wr := by
  rw [State.walk_eq, State.walkReads_frame]; rfl

/-- An instruction that an exception ends after its walks and the performances of its plan. -/
theorem Ended.runAccesses {s : State} {xs : List Xact} (h : Ended s.cur s.nextInstr (xs.map Xact.unheeded)) (h0 : s.inflight = [])
    (ws : List WalkRef) (bs : List RByte) (c : Raise) (pre : State → State) (places : List Nat)
    (hq : quietAt s.platform places = true → (∀ y ∈ xs, y.Quiet s.platform) ∧ (s.walk ws).mem = s.mem) :
    StoppedAfter s ((s.walk ws).runAccesses bs xs (some c) pre) (xs.map Xact.unheeded) c places := by
  have hstop := h.stopped h0 ws bs c places (fun k => ⟨by rw [List.forall_mem_map]; exact (hq k).1, (hq k).2⟩)
  have hplan : (s.walk ws).plan = s.plan := s.walkReads_plan _ _ _
  rw [← hplan] at hstop
  exact hstop

/-! #### Instructions that make one request -/

/-- The instruction makes one request of the memory system, of all its parts and in one direction, to no copy. -/
def OneRequest (i : Instr) (s : State) (m : MemForm) (rd wr first : List RElem) : Prop :=
  m.file ≠ .copy ∧ ∃ dir rel all rs pre, readParts dir rs = rd ∧ writtenParts dir rs = wr ∧ rs.map RElem.e = m.rd ++ m.wr ∧
    requestOf i s m rd wr first = s.reqOf m.cls dir m.file rel all rs (pasOf first) ∧
    exec i s = s.request m.cls dir m.file rel all rs (pasOf first) pre

theorem resolve_parts {p : Platform} {o : Observer} {f : RegFile} {es : List Elem} {rs : List RElem} (h : resolve p o f es = .ok rs) :
    rs.map RElem.e = es :=
  (resolve_eq p o f es rs h).1

theorem State.load_eq_request {s : State} {f : RegFile} {es first : List Elem} {rs fs : List RElem} (cls : AccessClass)
    (all : List Elem) (pre : List RElem → State → State) (hr : resolve s.platform s.me f es = .ok rs)
    (hx : resolve s.platform s.me f first = .ok fs) :
    ∃ pre', s.load cls f all es first pre = s.request cls .read f false all rs (pasOf fs) pre' :=
  ⟨fun t => (pre rs t).scrambleAll f all, by simp only [State.load, State.access, hr, hx]⟩

theorem State.store_eq_request {s : State} {f : RegFile} {es : List Elem} {rs : List RElem} (cls : AccessClass) (rel : Bool)
    (all : List Elem) (pre : List RElem → State → State) (hr : resolve s.platform s.me f es = .ok rs) :
    s.store cls f rel all es pre = s.request cls .write f rel all rs [] (pre rs) := by
  simp only [State.store, State.access, hr]
  rfl

section

variable {i : Instr} {s : State} {cls : AccessClass} {f : RegFile} {es fe : List Elem} {rd wr first : List RElem}

/-- An instruction that makes one request to read. -/
theorem OneRequest.ofRead (hf : f ≠ .copy) (hr : resolve s.platform s.me f es = .ok rd)
    (he : ∃ pre, exec i s = s.request cls .read f false (allParts i ⟨cls, f, es, [], fe⟩) rd (pasOf first) pre) :
    OneRequest i s ⟨cls, f, es, [], fe⟩ rd [] first := by
  obtain ⟨pre, he⟩ := he
  exact ⟨hf, .read, false, _, rd, pre, rfl, rfl, by rw [resolve_parts hr, List.append_nil], rfl, he⟩

/-- An instruction that loads. -/
theorem OneRequest.ofLoad (hf : f ≠ .copy) (hr : resolve s.platform s.me f es = .ok rd) (hx : resolve s.platform s.me f fe = .ok first)
    {all : List Elem} {pre : List RElem → State → State} (ha : allParts i ⟨cls, f, es, [], fe⟩ = all)
    (he : exec i s = s.load cls f all es fe pre) : OneRequest i s ⟨cls, f, es, [], fe⟩ rd [] first :=
  .ofRead hf hr (by rw [he, ha]; exact State.load_eq_request cls all pre hr hx)

/-- An instruction that makes one request to write. -/
theorem OneRequest.ofWrite (hf : f ≠ .copy) (hw : resolve s.platform s.me f es = .ok wr) (hne : es ≠ [])
    (he : ∃ pre, exec i s = s.request cls .write f (releases i) (allParts i ⟨cls, f, [], es, []⟩) wr [] pre) :
    OneRequest i s ⟨cls, f, [], es, []⟩ [] wr [] := by
  obtain ⟨pre, he⟩ := he
  refine ⟨hf, .write, releases i, allParts i ⟨cls, f, [], es, []⟩, wr, pre, rfl, rfl, resolve_parts hw, ?_, he⟩
  cases es with
  | nil => exact absurd rfl hne
  | cons e t => rfl

/-- An instruction that stores. -/
theorem OneRequest.ofStore (hf : f ≠ .copy) (hw : resolve s.platform s.me f es = .ok wr) (hne : es ≠ [])
    {all : List Elem} {rel : Bool} {pre : List RElem → State → State} (ha : allParts i ⟨cls, f, [], es, []⟩ = all) (hrel : releases i = rel)
    (he : exec i s = s.store cls f rel all es pre) : OneRequest i s ⟨cls, f, [], es, []⟩ [] wr [] :=
  .ofWrite hf hw hne ⟨_, by rw [he, ha, hrel]; exact State.store_eq_request cls rel all pre hw⟩

end

theorem State.loadPair_idle {s : State} (h0 : s.inflight = []) (cls : AccessClass) (f : RegFile) (size : Nat) (imm7 : BitVec 7)
    (rt2 rn rt : RegNum) :
    s.loadPair cls f size imm7 rt2 rn rt = s.plainLoad cls f (pairElems (pairAddr (s.me.base rn) imm7 size) size rt rt2) := by
  unfold State.loadPair
  rw [State.settle_idle _ _ _ h0]

theorem State.loadAuth_eq_request {s : State} (h0 : s.inflight = []) {sb : BitVec 1} {imm9 : BitVec 9} (w : BitVec 1) {rn rt : RegNum}
    {rd : List RElem} (ho : s.plan.authOk = true)
    (hr : resolve s.platform s.me .gp [authElem (authAddr (s.me.base rn) sb imm9) rt] = .ok rd) :
    ∃ pre, s.loadAuth sb imm9 w rn rt =
      s.request .ldrax .read .gp false [authElem (authAddr (s.me.base rn) sb imm9) rt] rd [] pre := by
  unfold State.loadAuth
  rw [State.settle_idle _ _ _ h0]
  simp only [hr, ho, if_true]
  exact ⟨_, rfl⟩

theorem requireFeature_of_present {p : Bool} {f : Feature} {o : Out} (h : p = true) : requireFeature p f o = o := if_pos h

/-- Every instruction that reaches its checks with a part, but CPY, makes one request. -/
theorem exec_oneRequest (i : Instr) (s : State) (m : MemForm) (rd wr first : List RElem) (h : Reaches i s m rd wr first)
    (hc : ∀ a b c, i ≠ .cpy a b c) (hex : ∀ rel n es, i = .storeExcl n ⟨rel, es⟩ → s.exclSucceeds wr = true)
    (hne : m.rd ++ m.wr ≠ []) : OneRequest i s m rd wr first := by
  obtain ⟨hm, h0, hf, ha, hr, hw, hx⟩ := h
  have nil : ∀ {f : RegFile} {x : List RElem}, resolve s.platform s.me f [] = .ok x → x = [] := by
    intro f x hx; cases hx; rfl
  cases i with
  | dmb => cases hm
  | dsb => cases hm
  | svePrefetch => cases hm
  | cacheMaint => cases hm
  | cpy a b c => exact absurd rfl (hc a b c)
  | ldnpGp sf imm7 rt2 rn rt =>
    cases hm; cases nil hw; exact .ofLoad nofun hr hx (List.append_nil _) (State.loadPair_idle h0 _ _ _ _ _ _ _)
  | ldnpFp opc imm7 rt2 rn rt =>
    cases hm; cases nil hw; exact .ofLoad nofun hr hx (List.append_nil _) (State.loadPair_idle h0 _ _ _ _ _ _ _)
  | ldraa sb imm9 w rn rt | ldrab sb imm9 w rn rt =>
    cases hm; cases nil hw; cases nil hx
    obtain ⟨pre, he⟩ := State.loadAuth_eq_request h0 w ha hr
    exact .ofRead nofun hr ⟨pre, (requireFeature_of_present hf).trans he⟩
  | storeExcl st f =>
    cases hm; cases nil hr; cases nil hx
    have hs : s.exclSucceeds wr = true := hex f.also st f.es rfl
    refine .ofWrite nofun hw hne ?_
    simp only [exec, execStoreExcl, hw, hs, if_true]
    exact ⟨_, rfl⟩
  | memSet addr len rs =>
    cases hm; cases nil hr; cases nil hx
    exact .ofStore nofun hw hne rfl rfl (requireFeature_of_present hf)
  | ld1 es | loadExcl f => cases hm; cases nil hw; exact .ofLoad nofun hr hx (List.append_nil _) rfl
  | st1 es => cases hm; cases nil hr; cases nil hx; exact .ofStore nofun hw hne rfl rfl rfl
  | loadAcq f =>
    obtain ⟨simd, es⟩ := f
    cases simd
    all_goals cases hm; cases nil hw; exact .ofLoad nofun hr hx (List.append_nil _) rfl
  | storeRel f =>
    obtain ⟨simd, es⟩ := f
    cases simd
    all_goals cases hm; cases nil hr; cases nil hx; exact .ofStore nofun hw hne rfl rfl rfl
  | gpSingle d e | gpMulti d es | simdFp d es | simdFpStreaming d es =>
    cases d with
    | read => cases hm; cases nil hw; exact .ofLoad nofun hr hx (List.append_nil _) rfl
    | write => cases hm; cases nil hr; cases nil hx; exact .ofStore nofun hw hne rfl rfl rfl
  | sveUnpred es => cases hm; cases nil hw; exact .ofLoad nofun hr hx (List.append_nil _) (requireFeature_of_present hf)
  | svePred es | svePredNT es | sveFirstFault es | sveNonFault es =>
    cases hm; cases nil hw; exact .ofLoad nofun hr hx rfl (requireFeature_of_present hf)
  | sveStore es => cases hm; cases nil hr; cases nil hx; exact .ofStore nofun hw hne rfl rfl (requireFeature_of_present hf)

/-! #### An instruction that an exception ends -/

/-- What the checks and the plan end with the exception `c`, of the accesses `xs`: of `full` those the plan abandons, of `spared` those
of parts that do not fault, before the fault of another. -/
def EndsEarly (s : State) (v : Verdict) (full spared xs : List Xact) (c : Raise) : Prop :=
  (v = .go ∧ s.plan.abandon = true ∧ c = .abandoned ∧ xs = full.map Xact.unheeded) ∨
  ∃ e, v = .take e ∧ ((s.plan.abandon = true ∧ c = .abandoned) ∨ (s.plan.abandon = false ∧ s.plan.midway = true ∧ c = e)) ∧
    xs = spared.map Xact.unheeded

theorem State.cutShort_abandon {s : State} (h : s.plan.abandon = true) (e : Option Raise) : s.cutShort true e = some .abandoned := by
  simp [State.cutShort, h]

theorem State.cutShort_fault {s : State} {e c : Raise}
    (h : (s.plan.abandon = true ∧ c = .abandoned) ∨ (s.plan.abandon = false ∧ s.plan.midway = true ∧ c = e)) :
    s.cutShort true (some e) = some c := by
  rcases h with ⟨ha, rfl⟩ | ⟨ha, hm, rfl⟩
  · exact State.cutShort_abandon ha _
  · simp [State.cutShort, ha, hm]

theorem quietAt_iff {p : Platform} {pas : List Nat} : quietAt p pas = true ↔
    ∀ pa ∈ pas, (regionAt p pa).idempotent = true ∨ ∀ r ∈ p.reactions, r.pa ≠ pa := by
  simp [quietAt]

/-- These walks and accesses stay at these places. -/
structure Inside (s : State) (ws : List WalkRef) (xs : List Xact) (places : List Nat) : Prop where
  walks : ∀ w ∈ madeWalks s.platform s.me.ctl ws, ∀ pa ∈ w.bytes, pa ∈ places
  accesses : ∀ x ∈ xs, ∀ b ∈ x.bs, b.pa ∈ places

theorem Inside.quiet {s : State} {ws : List WalkRef} {xs : List Xact} {places : List Nat} (h : Inside s ws xs places)
    (hq : quietAt s.platform places = true) : (∀ y ∈ xs, y.Quiet s.platform) ∧ (s.walk ws).mem = s.mem :=
  ⟨fun y hy b hb => quietAt_iff.1 hq _ (h.accesses y hy b hb),
    s.walk_mem_quiet ws (fun w hw pa hpa => quietAt_iff.1 hq _ (h.walks w hw pa hpa))⟩

theorem walksOf_mono {bs cs : List RByte} (h : ∀ b ∈ bs, b ∈ cs) : ∀ w ∈ walksOf bs, w ∈ walksOf cs := by
  simp only [walksOf, List.mem_flatten, List.mem_eraseDups, List.mem_map]
  rintro w ⟨l, ⟨b, hb, rfl⟩, hw⟩
  exact ⟨_, ⟨b, h b hb, rfl⟩, hw⟩

section

variable {s : State} {cls : AccessClass} {rd wr : List RElem} {F : List Nat}

theorem State.pa_mem_reached {b : RByte} (h : b ∈ allBytes rd ++ allBytes wr ++ s.extraBytes cls rd F) :
    b.tr.pa ∈ (s.reached cls rd wr F).map (fun b => b.tr.pa) :=
  List.mem_map_of_mem (List.mem_append_left _ h)

/-- Accesses to bytes an instruction accesses, and walks it makes, are inside what it reaches. -/
theorem Inside.reached {ws : List WalkRef} {xs : List Xact} (hw : ∀ w ∈ ws, w ∈ s.instrWalks cls rd wr F)
    (hx : ∀ x ∈ xs, ∀ b ∈ x.bs, ∃ c ∈ allBytes rd ++ allBytes wr ++ s.extraBytes cls rd F, b.pa = c.tr.pa) :
    Inside s ws xs ((s.reached cls rd wr F).map (fun b => b.tr.pa)) where
  walks := fun w hwm pa hpa => by
    obtain ⟨hin, hmade⟩ := List.mem_filter.1 hwm
    refine List.mem_map.2 ⟨_, List.mem_append_right _ (List.mem_flatMap.2 ⟨w, List.mem_filter.2 ⟨hw w hin, hmade⟩,
      List.mem_map_of_mem hpa⟩), rfl⟩
  accesses := fun x hxm b hb => by
    obtain ⟨c, hc, he⟩ := hx x hxm b hb
    rw [he]
    exact State.pa_mem_reached hc

end

/-- The bytes of the accesses of a request are its bytes. -/
theorem xactsFrom_bytes {s : State} {r : Req} {k : Nat} {x : Xact} (h : x ∈ xactsFrom s r k) {b : ByteAcc} (hb : b ∈ x.bs) :
    ∃ c ∈ allBytes r.rs ++ r.ex, b.pa = c.tr.pa := by
  obtain ⟨c, rfl, -, ⟨-, ⟨p, hp, hc⟩, -⟩ | ⟨-, hc, -⟩⟩ := mem_xactsFrom_byte s r k x h b hb
  · exact ⟨c, List.mem_append_left _ (List.mem_flatMap.2 ⟨p, hp, hc⟩), rfl⟩
  · exact ⟨c, List.mem_append_right _ hc, rfl⟩

theorem mem_allBytes_spared {p : Platform} {c : PeCtl} {cls : AccessClass} {rs : List RElem} {b : RByte}
    (h : b ∈ allBytes (rs.map (RElem.spared p c cls))) : b ∈ allBytes rs := by
  obtain ⟨q, hq, hb⟩ := List.mem_flatMap.1 h
  obtain ⟨r, hr, rfl⟩ := List.mem_map.1 hq
  exact List.mem_flatMap.2 ⟨r, hr, RElem.mem_spared hb⟩

/-- The bytes of a request in one direction are among those it reaches. -/
theorem State.mem_reqOf_bytes {s : State} {cls : AccessClass} {dir : Dir} {rs : List RElem} {F : List Nat} {c : RByte}
    (h : c ∈ allBytes rs ++ (if dir = .read then s.extraBytes cls rs F else [])) :
    c ∈ allBytes (readParts dir rs) ++ allBytes (writtenParts dir rs) ++ s.extraBytes cls (readParts dir rs) F := by
  cases dir with
  | read => simpa [readParts, writtenParts, allBytes] using h
  | write =>
    simp only [reduceCtorEq, if_false, List.append_nil] at h
    exact List.mem_append_left _ (List.mem_append_right _ h)

/-- ONE REQUEST that an exception ends. -/
theorem State.request_stopped {s : State} {cls : AccessClass} {dir : Dir} {f : RegFile} {rel : Bool} {all : List Elem} {rs : List RElem}
    {F : List Nat} {pre : State → State} {c : Raise} {xs : List Xact} (h0 : s.inflight = []) (hf : f ≠ .copy)
    (hseq : isSequence s.platform cls (rs.map RElem.e) = true)
    (h : EndsEarly s (s.verdict cls (readParts dir rs) (writtenParts dir rs) F) (xactsOf s (s.reqOf cls dir f rel all rs F))
      (xactsOf s ((s.reqOf cls dir f rel all rs F).spared s.platform s.me.ctl)) xs c) :
    ∃ t, s.request cls dir f rel all rs F pre = .next t ∧
      StoppedAfter s t xs c ((s.reached cls (readParts dir rs) (writtenParts dir rs) F).map (fun b => b.tr.pa)) := by
  have hs : (s.reqOf cls dir f rel all rs F).isSeq s.platform = true := hseq
  unfold State.request
  rcases h with ⟨hv, ha, rfl, rfl⟩ | ⟨e, hv, hc, rfl⟩
  · simp only [hv, hs, State.cutShort_abandon ha]
    refine ⟨_, rfl, ?_⟩
    unfold State.runReq
    rw [State.xactsOf_walk]
    refine (Ended.xactsOf s _ h0 hf).runAccesses h0 _ _ _ pre _ (Inside.quiet (.reached (fun w hw => hw) (fun x hx b hb => ?_)))
    obtain ⟨d, hd, he⟩ := xactsFrom_bytes hx hb
    exact ⟨d, State.mem_reqOf_bytes hd, he⟩
  · simp only [hv, hs, State.cutShort_fault hc]
    refine ⟨_, rfl, ?_⟩
    have hin : ∀ b ∈ allBytes ((s.reqOf cls dir f rel all rs F).spared s.platform s.me.ctl).rs,
        b ∈ allBytes (readParts dir rs) ++ allBytes (writtenParts dir rs) ++ s.extraBytes cls (readParts dir rs) F :=
      fun b hb => State.mem_reqOf_bytes (List.mem_append_left _ (mem_allBytes_spared hb))
    unfold State.runReq
    rw [State.xactsOf_walk]
    refine (Ended.xactsOf s _ h0 hf).runAccesses h0 _ _ _ pre _
      (Inside.quiet (.reached (walksOf_mono hin) (fun x hx b hb => ?_)))
    obtain ⟨d, hd, he⟩ := xactsFrom_bytes hx hb
    rw [show ((s.reqOf cls dir f rel all rs F).spared s.platform s.me.ctl).ex = [] from rfl, List.append_nil] at hd
    exact ⟨d, hin d hd, he⟩

/-- A copy reads no more beyond its bytes where it copies less. -/
theorem State.extraBytes_copy_mono {s : State} {rd rd' : List RElem} {F : List Nat} (h : ∀ b ∈ allBytes rd', b ∈ allBytes rd) :
    ∀ b ∈ s.extraBytes .memCopy rd' F, b ∈ s.extraBytes .memCopy rd F := by
  have hp : ∀ pa ∈ pasOf rd', pa ∈ pasOf rd := by
    intro pa hpa
    obtain ⟨b, hb, rfl⟩ := List.mem_map.1 hpa
    exact List.mem_map_of_mem (h b hb)
  have hperm : ∀ d pa, permittedDeviceRead .memCopy d (pasOf rd') (pasOf rd') F (pasOf rd') pa = true →
      permittedDeviceRead .memCopy d (pasOf rd) (pasOf rd) F (pasOf rd) pa = true := by
    intro d pa
    simp only [permittedDeviceRead, inWindows, Bool.or_eq_true, List.contains_iff_mem, List.any_eq_true]
    exact Or.imp (hp pa) (fun ⟨x, hx, hw⟩ => ⟨x, hp x hx, hw⟩)
  intro b hb
  simp only [State.extraBytes, List.mem_filterMap, Option.bind_eq_some_iff, Option.ite_none_right_eq_some, Bool.and_eq_true] at hb ⊢
  obtain ⟨va, hva, t, ht, d, hd, ⟨⟨hk, hx⟩, hb⟩, he⟩ := hb
  exact ⟨va, hva, t, ht, d, hd, ⟨⟨hperm _ _ hk, by simp⟩, hb⟩, he⟩

/-- The bytes of a copy's accesses are those it copies and the extra ones. -/
theorem State.copyXacts_bytes {s : State} {rd wr : List RElem} {x : Xact} (hx : x ∈ s.copyXacts rd wr) {b : ByteAcc} (hb : b ∈ x.bs) :
    ∃ c ∈ allBytes rd ++ allBytes wr ++ s.extraBytes .memCopy rd [], b.pa = c.tr.pa := by
  rcases List.mem_append.1 hx with hx | hx
  · obtain ⟨c, hc, he⟩ := xactsFrom_bytes hx hb
    refine ⟨c, ?_, he⟩
    rcases List.mem_append.1 hc with hc | hc
    · exact List.mem_append_left _ (List.mem_append_left _ hc)
    · exact List.mem_append_right _ hc
  · obtain ⟨c, hc, he⟩ := xactsFrom_bytes hx hb
    rw [show (s.copyWrites rd wr).ex = [] from rfl, List.append_nil] at hc
    exact ⟨c, List.mem_append_left _ (List.mem_append_right _ hc), he⟩

/-- A COPY that an exception ends, of all its bytes or of those spared. -/
theorem State.runCopy_stopped {s : State} {rd wr rd' wr' : List RElem} (h0 : s.inflight = []) (hr : ∀ b ∈ allBytes rd', b ∈ allBytes rd)
    (hw : ∀ b ∈ allBytes wr', b ∈ allBytes wr) (c : Raise) :
    StoppedAfter s ((s.walk (s.instrWalks .memCopy rd' wr' [])).runCopy rd' wr' (some c)) ((s.copyXacts rd' wr').map Xact.unheeded) c
      ((s.reached .memCopy rd wr []).map (fun b => b.tr.pa)) := by
  have hin : ∀ b ∈ allBytes rd' ++ allBytes wr' ++ s.extraBytes .memCopy rd' [],
      b ∈ allBytes rd ++ allBytes wr ++ s.extraBytes .memCopy rd [] := by
    simp only [List.mem_append]
    rintro b ((hb | hb) | hb)
    · exact .inl (.inl (hr b hb))
    · exact .inl (.inr (hw b hb))
    · exact .inr (State.extraBytes_copy_mono hr b hb)
  unfold State.runCopy
  rw [State.copyXacts_walk]
  refine (Ended.copyXacts s rd' wr' h0).runAccesses h0 _ _ c id _ (Inside.quiet (.reached (walksOf_mono hin) (fun x hx b hb => ?_)))
  obtain ⟨d, hd, he⟩ := State.copyXacts_bytes hx hb
  exact ⟨d, hin d hd, he⟩

theorem mem_allBytes_filter {rs : List RElem} {p : RElem → Bool} {b : RByte} (h : b ∈ allBytes (rs.filter p)) : b ∈ allBytes rs := by
  obtain ⟨q, hq, hb⟩ := List.mem_flatMap.1 h
  exact List.mem_flatMap.2 ⟨q, (List.mem_filter.1 hq).1, hb⟩

/-- A CPY that an exception ends. -/
theorem execCpy_stopped {a b n : RegNum} {s : State} {m : MemForm} {rd wr first : List RElem} {c : Raise} {xs : List Xact}
    (h : Reaches (.cpy a b n) s m rd wr first) (hne : m.rd ++ m.wr ≠ [])
    (hs : EndsEarly s (s.verdict m.cls rd wr (pasOf first)) (accessesOf (.cpy a b n) s m rd wr first)
      (sparedAccesses (.cpy a b n) s m rd wr first) xs c) :
    ∃ t, exec (.cpy a b n) s = .next t ∧ StoppedAfter s t xs c ((s.reached m.cls rd wr (pasOf first)).map (fun b => b.tr.pa)) := by
  obtain ⟨hm, h0, hf, -, hr, hw, hx⟩ := h
  cases hm; cases hx
  have hn : (s.me.xreg n).toNat ≠ 0 := fun he => hne (by dsimp only; rw [he]; rfl)
  have hp : s.platform.haveMOPS = true := hf
  simp only [exec, execCpy, requireFeature, hp, if_true]
  rw [State.settle_idle _ _ _ h0]
  simp only [hr, hw, hn, ne_eq, not_false_eq_true, decide_true]
  rcases hs with ⟨hv, ha, rfl, rfl⟩ | ⟨e, hv, hc, rfl⟩
  · change s.verdict .memCopy rd wr [] = .go at hv
    simp only [hv, State.cutShort_abandon ha]
    exact ⟨_, rfl, State.runCopy_stopped h0 (fun _ hb => hb) (fun _ hb => hb) _⟩
  · change s.verdict .memCopy rd wr [] = .take e at hv
    simp only [hv, State.cutShort_fault hc]
    exact ⟨_, rfl, State.runCopy_stopped h0 (fun _ hb => mem_allBytes_spared (mem_allBytes_filter hb))
      (fun _ hb => mem_allBytes_spared (mem_allBytes_filter hb)) _⟩

section

variable {i : Instr} (s : State) (m : MemForm) (rd wr first : List RElem) (h : ∀ a b n, i ≠ .cpy a b n)
include h

theorem accessesOf_one : accessesOf i s m rd wr first = xactsOf s (requestOf i s m rd wr first) := by
  unfold accessesOf
  split
  · next a b n => exact absurd rfl (h a b n)
  · rfl

theorem sparedAccesses_one :
    sparedAccesses i s m rd wr first = xactsOf s ((requestOf i s m rd wr first).spared s.platform s.me.ctl) := by
  unfold sparedAccesses
  split
  · next a b n => exact absurd rfl (h a b n)
  · rfl

end

/-- AN INSTRUCTION that an exception ends in the middle of its sequence (20_memory.md R52; 60_exceptions.md R244). -/
theorem exec_stopped {i : Instr} {s : State} {m : MemForm} {rd wr first : List RElem} {c : Raise} {xs : List Xact}
    (h : Reaches i s m rd wr first) (hex : ∀ rel n es, i = .storeExcl n ⟨rel, es⟩ → s.exclSucceeds wr = true)
    (hseq : isSequence s.platform m.cls (m.rd ++ m.wr) = true)
    (hs : EndsEarly s (s.verdict m.cls rd wr (pasOf first)) (accessesOf i s m rd wr first) (sparedAccesses i s m rd wr first) xs c) :
    ∃ t, exec i s = .next t ∧ StoppedAfter s t xs c ((s.reached m.cls rd wr (pasOf first)).map (fun b => b.tr.pa)) := by
  have hne : m.rd ++ m.wr ≠ [] := fun he => by rw [he] at hseq; cases hseq
  by_cases hcpy : ∃ a b n, i = .cpy a b n
  · obtain ⟨a, b, n, rfl⟩ := hcpy
    exact execCpy_stopped h hne hs
  · have hc : ∀ a b n, i ≠ .cpy a b n := fun a b n he => hcpy ⟨a, b, n, he⟩
    obtain ⟨hfile, dir, rel, all, rs, pre, rfl, rfl, hparts, hreq, he⟩ := exec_oneRequest i s m rd wr first h hc hex hne
    rw [he]
    rw [accessesOf_one _ _ _ _ _ hc, sparedAccesses_one _ _ _ _ _ hc, hreq] at hs
    exact State.request_stopped h.2.1 hfile (hparts ▸ hseq) hs

/-- The return from an exception that ended a sequence restarts the instruction. -/
theorem State.exceptionReturn_restarts {s t : State} {c : Raise} (retry : Bool) (hp : t.me.program = s.me.program) (hc : t.cur = s.cur)
    (hh : t.me.handler = some { cause := c, slot := s.me.current, restarts := true }) :
    ∃ u, t.handle (.exceptionReturn s.cur retry) = .next u ∧ u = { t with obs := u.obs } ∧
      u.me = { t.me with handler := none, program := s.me.current.toList ++ s.me.program } := by
  rw [← hc, ← hp]
  refine ⟨t.setObs t.cur { t.me with handler := none, program := s.me.current.toList ++ t.me.program }, ?_, rfl, t.getObs_setObs_self _ _⟩
  change Host.Outcome.next (t.returnFromException t.cur retry) = _
  unfold State.returnFromException
  rw [← State.me_eq, hh]
  simp

/-- Settles O42: the accesses of one instruction, alone in flight, are performed by the plan as a list of performances (`Performs`),
of exactly those it names and of what feeds them (`Covers`). -/
theorem abandonedInstructionsRestart : Obligations.AbandonedInstructionsRestart := by
  unfold Obligations.AbandonedInstructionsRestart
  exact ⟨fun i s m rd wr first c xs h hex hseq hs => exec_stopped h hex hseq hs,
    fun s t c retry hp hc hh => State.exceptionReturn_restarts retry hp hc hh⟩

end Sys2Proof.Machine
end

section
/-! The statements on the access restrictions: which bytes one instruction may not access together. -/

namespace Sys2Proof.Machine

open Sys2Proof

/-! ### The two restrictions (22_access_restrictions.md R190, R194; D38; log 24) -/

/-- The comparison of R190 fails for two records exactly where the statements' words say that they differ. -/
theorem MemAttr.sameTypeAndShareability_eq_false (a b : MemAttr) : a.sameTypeAndShareability b = false ↔ differ a b := by
  unfold MemAttr.sameTypeAndShareability differ
  cases a.ty <;> cases b.ty
  case normal.normal | device.device => exact beq_eq_false_iff_ne
  case normal.device | device.normal => exact iff_of_true rfl trivial

/-- Bytes cross an attribute boundary exactly where two adjacent ones differ. -/
theorem crossesAttributes_iff (bs : List RByte) : crossesAttributes bs = true ↔
    ∃ a ∈ bs, ∃ b ∈ bs, b.tr.pa = a.tr.pa + 1 ∧ differ a.tr.attr b.tr.attr := by
  simp only [crossesAttributes, List.any_eq_true, Bool.and_eq_true, beq_iff_eq, Bool.not_eq_true',
    MemAttr.sameTypeAndShareability_eq_false]

/-- Bytes cross a granule boundary exactly where a sequence accesses Device memory alone, in two granules. -/
theorem crossesGranule_iff (p : Platform) (sequence : Bool) (bs : List RByte) : crossesGranule p sequence bs = true ↔
    sequence = true ∧ (∀ b ∈ bs, b.tr.attr.isDevice = true) ∧
      ∃ a ∈ bs, ∃ b ∈ bs, a.tr.pa / p.minGranule ≠ b.tr.pa / p.minGranule := by
  simp only [crossesGranule, List.any_eq_true, List.all_eq_true, Bool.and_eq_true, bne_iff_ne, and_assoc]

/-- Bytes of one direction across an attribute boundary are refused before everything else is checked (R190, R197). -/
theorem State.verdict_of_crossesAttributes (s : State) (cls : AccessClass) {rd wr : List RElem} (F : List Nat)
    (h : crossesAttributes (allBytes rd) = true ∨ crossesAttributes (allBytes wr) = true) :
    s.verdict cls rd wr F = .refuse .attributeBoundary :=
  if_pos (Bool.or_eq_true_iff.2 h)

/-- Bytes of both directions across a granule boundary are refused, if not for an attribute boundary (R194, R197). -/
theorem State.verdict_of_crossesGranule (s : State) (cls : AccessClass) {rd wr : List RElem} (F : List Nat)
    (h : crossesGranule s.platform (isSequence s.platform cls ((rd ++ wr).map RElem.e)) (allBytes rd ++ allBytes wr) = true) :
    s.verdict cls rd wr F = .refuse .attributeBoundary ∨ s.verdict cls rd wr F = .refuse .granuleBoundary := by
  by_cases ha : crossesAttributes (allBytes rd) = true ∨ crossesAttributes (allBytes wr) = true
  · exact .inl (s.verdict_of_crossesAttributes cls F ha)
  · exact .inr ((if_neg (mt Bool.or_eq_true_iff.1 ha)).trans (if_pos h))

/-- The parts that reach the checks are those of the instruction's form. -/
theorem Reaches.parts_eq {i : Instr} {s : State} {m : MemForm} {rd wr first : List RElem} (h : Reaches i s m rd wr first) :
    (rd ++ wr).map RElem.e = m.rd ++ m.wr := by
  obtain ⟨-, -, -, -, hr, hw, -⟩ := h
  rw [List.map_append, (resolve_eq _ _ _ _ _ hr).1, (resolve_eq _ _ _ _ _ hw).1]

/-- Settles O34: the two restrictions are the first checks, and an instruction that reaches its checks does what they decide. -/
theorem boundaryCrossingsAreRefused : Obligations.BoundaryCrossingsAreRefused := by
  intro i s m rd wr first hreach
  have hrefuse := (exec_decides i s m rd wr first hreach).refuse
  refine ⟨fun hdiffer => ?_, fun hseq hdevice hgranules => ?_⟩
  · rw [← crossesAttributes_iff, ← crossesAttributes_iff] at hdiffer
    exact hrefuse _ (s.verdict_of_crossesAttributes m.cls _ hdiffer)
  · rw [← hreach.parts_eq] at hseq
    have hcross := (crossesGranule_iff _ _ _).2 ⟨hseq, hdevice, hgranules⟩
    exact (s.verdict_of_crossesGranule m.cls _ hcross).imp (hrefuse _) (hrefuse _)

end Sys2Proof.Machine
end

section
/-! The statements on the encoding: words decode to their instructions, and decoding and encoding undo each other. -/

namespace Sys2Proof

/-! ### From a word to its instruction (30_encoding.md R204) -/

/-- Every word that encodes a well-formed instruction decodes to it: the encoded rows, and the classes that have no word. -/
theorem decode_of_encode : ∀ i : Instr, Laws.EncodeDecode.Statement i
  | .dmb crm => Laws.EncodeDecode.dmb crm
  | .dsb crm => Laws.EncodeDecode.dsb crm
  | .ldnpGp sf imm7 rt2 rn rt => Laws.EncodeDecode.ldnpGp sf imm7 rt2 rn rt
  | .ldnpFp opc imm7 rt2 rn rt => Laws.EncodeDecode.ldnpFp opc imm7 rt2 rn rt
  | .ldraa s imm9 w rn rt => Laws.EncodeDecode.ldraa s imm9 w rn rt
  | .ldrab s imm9 w rn rt => Laws.EncodeDecode.ldrab s imm9 w rn rt
  | .cpy rd rs rn => Laws.EncodeDecode.cpy rd rs rn
  | .memSet addr len rs => Laws.EncodeDecode.memSet addr len rs
  | .ld1 es => Laws.EncodeDecode.ld1 es
  | .st1 es => Laws.EncodeDecode.st1 es
  | .loadExcl f => Laws.EncodeDecode.loadExcl f
  | .storeExcl rs f => Laws.EncodeDecode.storeExcl rs f
  | .loadAcq f => Laws.EncodeDecode.loadAcq f
  | .storeRel f => Laws.EncodeDecode.storeRel f
  | .gpSingle d e => Laws.EncodeDecode.gpSingle d e
  | .gpMulti d es => Laws.EncodeDecode.gpMulti d es
  | .simdFp d es => Laws.EncodeDecode.simdFp d es
  | .simdFpStreaming d es => Laws.EncodeDecode.simdFpStreaming d es
  | .sveUnpred es => Laws.EncodeDecode.sveUnpred es
  | .svePred es => Laws.EncodeDecode.svePred es
  | .svePredNT es => Laws.EncodeDecode.svePredNT es
  | .sveFirstFault es => Laws.EncodeDecode.sveFirstFault es
  | .sveNonFault es => Laws.EncodeDecode.sveNonFault es
  | .svePrefetch es => Laws.EncodeDecode.svePrefetch es
  | .sveStore es => Laws.EncodeDecode.sveStore es
  | .cacheMaint addr len => Laws.EncodeDecode.cacheMaint addr len

/-- Adjacent fields of a word, side by side, are one field of it. -/
theorem extract_append (w : BitVec 32) (k n m : Nat) :
    w.extractLsb' (k + m) n ++ w.extractLsb' k m = w.extractLsb' k (n + m) :=
  BitVec.extractLsb'_append_extractLsb'_eq_extractLsb' rfl

/-- The four bytes of a word, put together again, are the word. -/
theorem wordOfBytes_of_word (w : BitVec 32) : wordOfBytes (w.extractLsb' 0 8) (w.extractLsb' 8 8) (w.extractLsb' 16 8)
    (w.extractLsb' 24 8) = w := by
  unfold wordOfBytes
  rw [extract_append w 16 8 8, extract_append w 8 16 8, extract_append w 0 24 8]
  exact BitVec.extractLsb'_eq_self

/-- The bytes of a word that decodes give its instruction, and leave the bytes after them. -/
theorem decodeBytes_bytesOfWord {w : BitVec 32} {i : Instr} (rest : List Byte) (h : decode w = .ok i) :
    decodeBytes (bytesOfWord w ++ rest) = .ok (i, rest) := by
  simp only [bytesOfWord, List.cons_append, List.nil_append, decodeBytes, wordOfBytes_of_word, h]

/-- Settles O2: the word decodes to its instruction, and its bytes put together are that word. -/
theorem decodeOfEncodeIsIdentity : Obligations.DecodeOfEncodeIsIdentity := by
  intro i w rest hencode hwf
  have hdecode : decode w = .ok i := decode_of_encode i w hencode hwf
  exact ⟨hdecode, decodeBytes_bytesOfWord rest hdecode⟩

/-! ### From an instruction back to its word (30_encoding.md R204) -/

/-- A field of a matching word that the row fixes, every bit of it, is the row's. -/
theorem extract_of_matchesRow {w mask value : BitVec 32} (h : matchesRow w mask value = true) (k l : Nat)
    (hfixed : mask.extractLsb' k l = BitVec.allOnes l) : w.extractLsb' k l = value.extractLsb' k l := by
  rw [← beq_iff_eq.1 h, BitVec.extractLsb'_and, hfixed, BitVec.and_allOnes]

/-- The rows of the decoder: a word that decodes matches the row of its instruction, and its fields are the instruction's. -/
theorem decode_cases {w : BitVec 32} {i : Instr} (h : decode w = .ok i) :
    (matchesRow w 0xFFFFF0FF 0xD50330BF = true ∧ i = .dmb (fieldCRm w)) ∨
    (matchesRow w 0xFFFFF0FF 0xD503309F = true ∧ i = .dsb (fieldCRm w)) ∨
    (matchesRow w 0x7FC00000 0x28400000 = true ∧
      i = .ldnpGp (w.extractLsb' 31 1) (fieldImm7 w) (fieldRt2 w) (fieldRn w) (fieldRt w)) ∨
    (matchesRow w 0x3FC00000 0x2C400000 = true ∧ w.extractLsb' 30 2 ≠ 3 ∧
      i = .ldnpFp (w.extractLsb' 30 2) (fieldImm7 w) (fieldRt2 w) (fieldRn w) (fieldRt w)) ∨
    (matchesRow w 0xFFA00400 0xF8200400 = true ∧
      i = .ldraa (w.extractLsb' 22 1) (fieldImm9 w) (w.extractLsb' 11 1) (fieldRn w) (fieldRt w)) ∨
    (matchesRow w 0xFFA00400 0xF8A00400 = true ∧
      i = .ldrab (w.extractLsb' 22 1) (fieldImm9 w) (w.extractLsb' 11 1) (fieldRn w) (fieldRt w)) := by
  unfold decode at h
  split at h
  case isTrue hrow => cases h; exact .inl ⟨hrow, rfl⟩
  split at h
  case isTrue hrow => cases h; exact .inr (.inl ⟨hrow, rfl⟩)
  split at h
  case isTrue hrow => cases h; exact .inr (.inr (.inl ⟨hrow, rfl⟩))
  split at h
  case isTrue hrow =>
    split at h
    case isTrue => cases h
    case isFalse hopc => cases h; exact .inr (.inr (.inr (.inl ⟨hrow, hopc, rfl⟩)))
  split at h
  case isTrue hrow => cases h; exact .inr (.inr (.inr (.inr (.inl ⟨hrow, rfl⟩))))
  split at h
  case isTrue hrow => cases h; exact .inr (.inr (.inr (.inr (.inr ⟨hrow, rfl⟩))))
  case isFalse => cases h

/-! The fields of a word side by side, with the bits that a row fixes, are the word. -/

theorem barrier_fields_append {w : BitVec 32} {hi : BitVec 20} {lo : BitVec 8} (hhi : w.extractLsb' 12 20 = hi)
    (hlo : w.extractLsb' 0 8 = lo) : hi ++ fieldCRm w ++ lo = w := by
  subst hhi hlo
  unfold fieldCRm
  rw [extract_append w 8 20 4, extract_append w 0 24 8]
  exact BitVec.extractLsb'_eq_self

theorem pair_fields_append (w : BitVec 32) :
    w.extractLsb' 22 10 ++ fieldImm7 w ++ fieldRt2 w ++ fieldRn w ++ fieldRt w = w := by
  unfold fieldImm7 fieldRt2 fieldRn fieldRt
  rw [extract_append w 15 10 7, extract_append w 10 17 5, extract_append w 5 22 5, extract_append w 0 27 5]
  exact BitVec.extractLsb'_eq_self

theorem auth_fields_append {w : BitVec 32} {hi : BitVec 9} {b21 b10 : BitVec 1} (hhi : w.extractLsb' 23 9 = hi)
    (h21 : w.extractLsb' 21 1 = b21) (h10 : w.extractLsb' 10 1 = b10) :
    hi ++ w.extractLsb' 22 1 ++ b21 ++ fieldImm9 w ++ w.extractLsb' 11 1 ++ b10 ++ fieldRn w ++ fieldRt w = w := by
  subst hhi h21 h10
  unfold fieldImm9 fieldRn fieldRt
  rw [extract_append w 22 9 1, extract_append w 21 10 1, extract_append w 12 11 9, extract_append w 11 20 1,
    extract_append w 10 21 1, extract_append w 5 22 5, extract_append w 0 27 5]
  exact BitVec.extractLsb'_eq_self

/-! The instruction that each row of the decoder reads encodes to the word. -/

theorem encode_dmb_of_matchesRow {w : BitVec 32} (h : matchesRow w 0xFFFFF0FF 0xD50330BF = true) :
    encode (.dmb (fieldCRm w)) = some w :=
  congrArg some (barrier_fields_append (extract_of_matchesRow h 12 20 rfl) (extract_of_matchesRow h 0 8 rfl))

theorem encode_dsb_of_matchesRow {w : BitVec 32} (h : matchesRow w 0xFFFFF0FF 0xD503309F = true) :
    encode (.dsb (fieldCRm w)) = some w :=
  congrArg some (barrier_fields_append (extract_of_matchesRow h 12 20 rfl) (extract_of_matchesRow h 0 8 rfl))

theorem encode_ldnpGp_of_matchesRow {w : BitVec 32} (h : matchesRow w 0x7FC00000 0x28400000 = true) :
    encode (.ldnpGp (w.extractLsb' 31 1) (fieldImm7 w) (fieldRt2 w) (fieldRn w) (fieldRt w)) = some w := by
  have hrow : w.extractLsb' 22 9 = 0b010100001#9 := extract_of_matchesRow h 22 9 rfl
  rw [encode, ← hrow, extract_append w 22 1 9, pair_fields_append]

theorem encode_ldnpFp_of_matchesRow {w : BitVec 32} (h : matchesRow w 0x3FC00000 0x2C400000 = true) :
    encode (.ldnpFp (w.extractLsb' 30 2) (fieldImm7 w) (fieldRt2 w) (fieldRn w) (fieldRt w)) = some w := by
  have hrow : w.extractLsb' 22 8 = 0b10110001#8 := extract_of_matchesRow h 22 8 rfl
  rw [encode, ← hrow, extract_append w 22 2 8, pair_fields_append]

theorem encode_ldraa_of_matchesRow {w : BitVec 32} (h : matchesRow w 0xFFA00400 0xF8200400 = true) :
    encode (.ldraa (w.extractLsb' 22 1) (fieldImm9 w) (w.extractLsb' 11 1) (fieldRn w) (fieldRt w)) = some w :=
  congrArg some (auth_fields_append (extract_of_matchesRow h 23 9 rfl) (extract_of_matchesRow h 21 1 rfl)
    (extract_of_matchesRow h 10 1 rfl))

theorem encode_ldrab_of_matchesRow {w : BitVec 32} (h : matchesRow w 0xFFA00400 0xF8A00400 = true) :
    encode (.ldrab (w.extractLsb' 22 1) (fieldImm9 w) (w.extractLsb' 11 1) (fieldRn w) (fieldRt w)) = some w :=
  congrArg some (auth_fields_append (extract_of_matchesRow h 23 9 rfl) (extract_of_matchesRow h 21 1 rfl)
    (extract_of_matchesRow h 10 1 rfl))

/-- Settles O3: each row fixes the bits that are no field of its instruction, and the decoder rejects opc 11. -/
theorem encodeOfDecodeIsIdentity : Obligations.EncodeOfDecodeIsIdentity := by
  intro w i hdecode
  obtain ⟨hrow, rfl⟩ | ⟨hrow, rfl⟩ | ⟨hrow, rfl⟩ | ⟨hrow, hopc, rfl⟩ | ⟨hrow, rfl⟩ | ⟨hrow, rfl⟩ := decode_cases hdecode
  · exact ⟨encode_dmb_of_matchesRow hrow, rfl⟩
  · exact ⟨encode_dsb_of_matchesRow hrow, rfl⟩
  · exact ⟨encode_ldnpGp_of_matchesRow hrow, rfl⟩
  · exact ⟨encode_ldnpFp_of_matchesRow hrow, bne_iff_ne.2 hopc⟩
  · exact ⟨encode_ldraa_of_matchesRow hrow, rfl⟩
  · exact ⟨encode_ldrab_of_matchesRow hrow, rfl⟩

/-! ### Words of the spec's programs -/

/-- Settles O1, by running the decoder on the eight words. -/
theorem sampleWordsDecode : Obligations.SampleWordsDecode := by
  unfold Obligations.SampleWordsDecode
  decide

end Sys2Proof
end

section
/-! The statements on the access classes: a step runs the decoded instruction, what loads and stores deliver, write and leave
unchanged, Store-Exclusive, copies and cache maintenance. -/

namespace Sys2Proof.Machine

open Sys2Proof

/-! ### The step and DMB -/

/-- Settles O4: the slot's instruction is the one that runs, and its fetch gives the state it runs in. -/
theorem stepRunsTheDecodedInstruction : Obligations.StepRunsTheDecodedInstruction := by
  intro s p rest slot more i t hinputs hhandler hprogram hcode hopc hfetch
  refine ⟨fun hva => ?_, ?_⟩
  · rw [State.fetchAccess, hva] at hfetch
    exact (Fetched.go.inj hfetch).symm
  · have hslot : slot.instr = .ok i := by
      unfold Slot.instr
      rcases hcode with hcode | ⟨bs, tail, hcode, hdecode⟩
      · rw [hcode]
        split
        · next h => cases h
        · next h => cases h; exact absurd rfl (hopc _ _ _ _)
        · next h => cases h; rfl
      · rw [hcode]; simp only [hdecode]
    have hnext : ({ s with inputs := rest, plan := p } : State).nextInstruction = .run i t := by
      unfold State.nextInstruction
      rw [show ({ s with inputs := rest, plan := p } : State).me = s.me from rfl, hhandler, hprogram]
      simp only [hfetch, hslot]
    have hstep : step s = ({ s with inputs := rest, plan := p } : State).runNext := by
      unfold step
      rcases hinputs with h | ⟨h, rfl, rfl⟩ <;> rw [h]
    rw [hstep]
    cases hout : exec i t <;> simp only [State.runNext, hnext, hout]

/-- Settles O28: a mark is an update of the current observer alone. -/
theorem dmbStandsInProgramOrder : Obligations.DmbStandsInProgramOrder := by
  intro crm s
  exact ⟨s.addMark .dmb crm.toNat, rfl, rfl, s.me_setObs_cur _, fun o ho => s.getObs_setObs_ne _ ho⟩

/-! ### Loads and stores, from the instruction to the shared operation -/

theorem Observers.set_set (l : List (Nat × Observer)) (o : Nat) (v w : Observer) :
    Observers.set (Observers.set l o v) o w = Observers.set l o w := by
  induction l with
  | nil => simp [Observers.set]
  | cons e t ih =>
    obtain ⟨k, u⟩ := e
    by_cases h : o = k
    · simp [Observers.set, h]
    · simp [Observers.set, h, ih]

/-- Of two updates of one observer the later counts. -/
@[simp] theorem State.setObs_setObs (s : State) (o : Nat) (v w : Observer) : (s.setObs o v).setObs o w = s.setObs o w :=
  congrArg (fun l => ({ s with obs := l } : State)) (Observers.set_set s.obs o v w)

/-- What a load does beside its accesses: a Load-Exclusive reserves its bytes, an acquire is marked, and a First-fault or Non-fault
load reports what it suppresses. -/
def loadEffect (i : Instr) (s : State) : List RElem → State → State :=
  match i with
  | .loadExcl f => fun rs t => if f.also then (t.reserve rs).addMark .acquire 0 else t.reserve rs
  | .loadAcq _ => fun _ t => t.addMark .acquire 0
  | .sveFirstFault es => fun _ t => t.reportSuppressed (s.suppressedFrom true 0 es)
  | .sveNonFault es => fun _ t => t.reportSuppressed (s.suppressedFrom false 0 es)
  | _ => noEffect

/-- What a store does beside its accesses: a release is marked. -/
def storeEffect (release : Bool) (_ : List RElem) (t : State) : State := if release then t.addMark .release 0 else t

/-- Every load is the shared load, in the state after the reads in flight for its base register: of its form there, whose parts
are the same but for their addresses, and which is the form before where nothing is in flight. -/
theorem exec_of_loadForm {i : Instr} {s : State} {l : LoadForm} (h : loadForm i s = some l) :
    ∃ g u m, exec i s = requireFeature (featurePresent i s.platform) g (u.load l.cls l.file m.all m.es m.first (loadEffect i s)) ∧
      Kept s u ∧ regsWritten l.file m.all = regsWritten l.file l.all ∧ (∀ e ∈ m.es, e ∈ m.all) ∧ (s.inflight = [] → u = s ∧ m = l) := by
  have active : ∀ es : List Elem, ∀ e ∈ activeElems es, e ∈ es := fun es e he => (List.mem_filter.1 he).1
  have unsuppressed : ∀ (keep : Bool) (es : List Elem), ∀ e ∈ s.unsuppressed keep es, e ∈ es := fun keep es e he => by
    refine active es e ?_
    unfold State.unsuppressed at he
    split at he
    · cases he
    · next d rest heq =>
      rw [heq]
      rcases List.mem_append.1 he with he | he
      · split at he
        · exact List.mem_cons.2 (.inl (List.mem_singleton.1 he))
        · cases he
      · exact List.mem_cons_of_mem _ (List.mem_filter.1 he).1
  cases i with
  | ldnpGp sf imm7 rt2 rn rt =>
    cases h
    exact ⟨.sve, s.settle s.cur [(.gp, rn)], ⟨_, .gp, _, _, []⟩, rfl, s.settle_kept _ _, rfl, fun _ he => he,
      fun h0 => by rw [s.settle_idle _ _ h0]; exact ⟨rfl, rfl⟩⟩
  | ldnpFp opc imm7 rt2 rn rt =>
    cases h
    exact ⟨.sve, s.settle s.cur [(.gp, rn)], ⟨_, .vec, _, _, []⟩, rfl, s.settle_kept _ _, rfl, fun _ he => he,
      fun h0 => by rw [s.settle_idle _ _ h0]; exact ⟨rfl, rfl⟩⟩
  | ld1 es => cases h; exact ⟨.sve, s, _, rfl, .refl s, rfl, fun _ he => he, fun _ => ⟨rfl, rfl⟩⟩
  | gpSingle d e => cases d <;> cases h; exact ⟨.sve, s, _, rfl, .refl s, rfl, fun _ he => he, fun _ => ⟨rfl, rfl⟩⟩
  | gpMulti d es => cases d <;> cases h; exact ⟨.sve, s, _, rfl, .refl s, rfl, fun _ he => he, fun _ => ⟨rfl, rfl⟩⟩
  | simdFp d es => cases d <;> cases h; exact ⟨.sve, s, _, rfl, .refl s, rfl, fun _ he => he, fun _ => ⟨rfl, rfl⟩⟩
  | simdFpStreaming d es => cases d <;> cases h; exact ⟨.sve, s, _, rfl, .refl s, rfl, fun _ he => he, fun _ => ⟨rfl, rfl⟩⟩
  | loadExcl f => cases h; exact ⟨.sve, s, _, rfl, .refl s, rfl, fun _ he => he, fun _ => ⟨rfl, rfl⟩⟩
  | loadAcq f =>
    obtain ⟨also, es⟩ := f
    cases also <;> cases h <;> exact ⟨.sve, s, _, rfl, .refl s, rfl, fun _ he => he, fun _ => ⟨rfl, rfl⟩⟩
  | sveUnpred es => cases h; exact ⟨_, s, _, rfl, .refl s, rfl, fun _ he => he, fun _ => ⟨rfl, rfl⟩⟩
  | svePred es => cases h; exact ⟨_, s, _, rfl, .refl s, rfl, active es, fun _ => ⟨rfl, rfl⟩⟩
  | svePredNT es => cases h; exact ⟨_, s, _, rfl, .refl s, rfl, active es, fun _ => ⟨rfl, rfl⟩⟩
  | sveFirstFault es => cases h; exact ⟨_, s, _, rfl, .refl s, rfl, unsuppressed true es, fun _ => ⟨rfl, rfl⟩⟩
  | sveNonFault es => cases h; exact ⟨_, s, _, rfl, .refl s, rfl, unsuppressed false es, fun _ => ⟨rfl, rfl⟩⟩
  | _ => cases h

/-- Every store without a status is the shared store of its form, with no effect beside it but a release's mark. -/
theorem exec_eq_store {i : Instr} {c : AccessClass} {f : RegFile} {es : List Elem} (h : storeForm i = some (c, f, es)) (s : State) :
    ∃ g all, exec i s =
      requireFeature (featurePresent i s.platform) g (s.store c f (releases i) all es (storeEffect (releases i))) := by
  cases i with
  | st1 => cases h; exact ⟨.sve, _, rfl⟩
  | memSet => cases h; exact ⟨_, _, rfl⟩
  | sveStore => cases h; exact ⟨_, _, rfl⟩
  | storeRel g => obtain ⟨also, es'⟩ := g; cases also <;> cases h <;> exact ⟨.sve, _, rfl⟩
  | gpSingle d => cases d <;> cases h; exact ⟨.sve, _, rfl⟩
  | gpMulti d => cases d <;> cases h; exact ⟨.sve, _, rfl⟩
  | simdFp d => cases d <;> cases h; exact ⟨.sve, _, rfl⟩
  | simdFpStreaming d => cases d <;> cases h; exact ⟨.sve, _, rfl⟩
  | _ => cases h

theorem requireFeature_next {p : Bool} {g : Feature} {o : Out} {t : State} (h : requireFeature p g o = .next t) : o = .next t := by
  unfold requireFeature at h
  split at h
  · exact h
  · cases h

/-! ### What loads and stores leave unchanged -/

/-- The FFR, the marks and the reservation are no register. -/
theorem MineOnly.setOwn {ds : List (RegFile × RegNum)} (u : State) (f : FFR) (m : List Mark) (e : Option Reservation) :
    MineOnly ds u (u.setMe { u.me with ffr := f, marks := m, excl := e }) :=
  .setMe u _ (fun _ _ => rfl) (fun _ _ => rfl) (fun _ => rfl) (fun g _ _ _ _ => by cases g <;> rfl) ⟨rfl, rfl, rfl, rfl, rfl⟩

/-- What leaves every register alone leaves those of a list that need not be left alone. -/
theorem MineOnly.mono {ds es : List (RegFile × RegNum)} {u w : State} (h : MineOnly ds u w) (hsub : ∀ r ∈ ds, r ∈ es) : MineOnly es u w :=
  ⟨h.eq, h.others, fun n hn => h.gp n (fun k => hn (hsub _ k)), fun n hn => h.vec n (fun k => hn (hsub _ k)),
    fun hn => h.copy (fun n k => hn n (hsub _ k)), fun f n id h31 hn => h.takes f n id h31 (fun k => hn (hsub _ k)), h.same⟩

theorem loadEffect_mineOnly (i : Instr) (s : State) (rs : List RElem) (u : State) : MineOnly [] u (loadEffect i s rs u) := by
  cases i with
  | loadExcl f =>
    obtain ⟨also, es⟩ := f
    cases also
    · exact .setOwn u _ _ _
    · exact (MineOnly.setOwn u _ _ _).trans (.setOwn (u.reserve rs) _ _ _)
  | loadAcq f => exact .setOwn u _ _ _
  | sveFirstFault es => exact .setOwn u _ _ _
  | sveNonFault es => exact .setOwn u _ _ _
  | _ => exact .refl u

theorem storeEffect_mineOnly (release : Bool) (rs : List RElem) (u : State) : MineOnly [] u (storeEffect release rs u) := by
  cases release
  · exact .refl u
  · exact .setOwn u _ _ _

/-- What a load does beside its accesses changes only what its class says. -/
theorem loadEffect_own (i : Instr) (s : State) (rs : List RElem) (u : State) :
    ((∀ es, i ≠ .sveFirstFault es) → (∀ es, i ≠ .sveNonFault es) → (loadEffect i s rs u).me.ffr = u.me.ffr) ∧
    ((∀ simd es, i ≠ .loadAcq ⟨simd, es⟩) → (∀ es, i ≠ .loadExcl ⟨true, es⟩) → (loadEffect i s rs u).me.marks = u.me.marks) ∧
    ((∀ acq es, i ≠ .loadExcl ⟨acq, es⟩) → (loadEffect i s rs u).me.excl = u.me.excl) := by
  cases i with
  | loadExcl f =>
    obtain ⟨also, es⟩ := f
    refine ⟨fun _ _ => ?_, fun _ h => ?_, fun h => absurd rfl (h _ _)⟩
    · cases also <;> simp [loadEffect, State.reserve]
    · cases also
      · simp [loadEffect, State.reserve]
      · exact absurd rfl (h _)
  | loadAcq f => exact ⟨fun _ _ => by simp [loadEffect], fun h => absurd rfl (h _ _), fun _ => by simp [loadEffect]⟩
  | sveFirstFault es =>
    exact ⟨fun h => absurd rfl (h es), fun _ _ => by simp [loadEffect, Observer.reportAll], fun _ => by simp [loadEffect, Observer.reportAll]⟩
  | sveNonFault es =>
    exact ⟨fun _ h => absurd rfl (h es), fun _ _ => by simp [loadEffect, Observer.reportAll], fun _ => by simp [loadEffect, Observer.reportAll]⟩
  | _ => exact ⟨fun _ _ => rfl, fun _ _ => rfl, fun _ => rfl⟩

/-- Settles O31: the frame of the shared load, and what each class does beside its accesses. -/
theorem loadsFrame : Obligations.LoadsFrame := by
  intro i s t l hform hexec
  obtain ⟨g, u, m, hload, hkept, hregs, hes, -⟩ := exec_of_loadForm hform
  obtain ⟨hframe, rs, hends⟩ := s.load_framed u hkept l.cls l.file m.all m.es m.first (loadEffect i s) t hes
    (loadEffect_mineOnly i s) (requireFeature_next (hload.symm.trans hexec))
  rw [hregs] at hframe
  have hown := loadEffect_own i s rs
  have hmine : ∀ w, MineOnly (regsWritten l.file m.all) w ((loadEffect i s rs w).scrambleAll l.file m.all) := fun w =>
    ((loadEffect_mineOnly i s rs w).mono (by simp)).trans (.scrambleAll _ _ _)
  refine ⟨hframe.untouched, hends.onlyByException hmine, fun h1 h2 => ?_, fun h1 h2 => ?_, fun h1 h2 => ?_, hframe.theirs (fun _ h => h)⟩
  · exact hends.field Observer.ffr (fun _ _ _ _ _ _ _ _ _ => rfl)
      (fun w => (State.scrambleAll_own Observer.ffr _ _ _ (fun _ _ _ _ _ => rfl)).trans ((hown w).1 h1 h2))
  · exact hends.field Observer.marks (fun _ _ _ _ _ _ _ _ _ => rfl)
      (fun w => (State.scrambleAll_own Observer.marks _ _ _ (fun _ _ _ _ _ => rfl)).trans ((hown w).2.1 h1 h2))
  · exact hends.excl h2
      (fun w => (State.scrambleAll_own Observer.excl _ _ _ (fun _ _ _ _ _ => rfl)).trans ((hown w).2.2 h1))

/-- Settles O32: the frame of the shared store, beside which only a release's mark is made. -/
theorem storesFrame : Obligations.StoresFrame := by
  intro i s t c f es hform hexec
  obtain ⟨g, all, hstore⟩ := exec_eq_store hform s
  obtain ⟨hframe, rs, hends⟩ := s.store_framed s (.refl s) c f (releases i) all es _ t (storeEffect_mineOnly (releases i))
    (requireFeature_next (hstore.symm.trans hexec))
  refine ⟨hframe.untouched, hends.onlyByException (storeEffect_mineOnly _ rs), ?_, fun hrel => ?_, fun h => ?_⟩
  · exact hends.field Observer.ffr (fun _ _ _ _ _ _ _ _ _ => rfl) (fun w => by cases releases i <;> simp [storeEffect])
  · exact hends.field Observer.marks (fun _ _ _ _ _ _ _ _ _ => rfl) (fun w => by simp [storeEffect, hrel])
  · exact hends.excl h (fun w => by cases releases i <;> simp [storeEffect])

end Sys2Proof.Machine
end

section
/-! The statements on the access classes, continued: what the instructions with operands in registers beside their addresses leave
unchanged. -/

namespace Sys2Proof.Machine

open Sys2Proof

/-! ### Effects on one register -/

theorem Observer.takes_claim_gp_ne (o : Observer) {f : RegFile} {n m : RegNum} (id i : Nat) (h : (f, m) ≠ (.gp, n)) :
    (o.claim .gp n id).takes f m i = o.takes f m i := by
  cases f with
  | gp =>
    exact congrArg (fun x : Nat => decide (x ≤ i))
      (Vector.getElem_set_ne n.isLt m.isLt (fun e => h (by rw [BitVec.eq_of_toNat_eq e])))
  | vec => rfl
  | copy => rfl

section

variable {ds : List (RegFile × RegNum)} (u : State) {n : RegNum}

/-- Overwriting a transferred register, beside the marks and the reservation. -/
theorem MineOnly.overwriteX (m : List Mark) (e : Option Reservation) (v : Word) (id : Nat)
    (h : (RegFile.gp, n) = (.gp, 31) ∨ (RegFile.gp, n) ∈ ds) :
    MineOnly ds u (u.setMe (({ u.me with marks := m, excl := e } : Observer).overwriteX n v id)) := by
  have hne : ∀ k, (RegFile.gp, k) ∉ ds → n = 31 ∨ n ≠ k := fun k hk =>
    h.imp (fun h => (Prod.mk.inj h).2) (fun h e => hk (e ▸ h))
  obtain ⟨g, a, b, hkeep⟩ := Observer.overwriteX_keeps { u.me with marks := m, excl := e } n v id
  refine .setMe u _ (fun k hk => Observer.setX_base_ne _ v (hne k hk)) (fun k _ => ?_) (fun _ => ?_) (fun f k i h31 hk => ?_) ?_
  · exact Observer.setX_vec _ k n v
  · rw [hkeep]
  · have hfk : (f, k) ≠ (.gp, n) := fun e => h.elim (fun h => h31 (e.trans h)) (fun h => hk (e ▸ h))
    refine (Observer.takes_claim_gp_ne _ id i hfk).trans ?_
    obtain ⟨g', hx⟩ := Observer.setX_keeps { u.me with marks := m, excl := e } n v
    rw [hx]
    cases f <;> rfl
  · rw [hkeep]; exact ⟨rfl, rfl, rfl, rfl, rfl⟩

theorem MineOnly.writeBack (w : BitVec 1) (addr : Word) (h : w = 1 → (RegFile.gp, n) ∈ ds) : MineOnly ds u (u.writeBack w n addr) := by
  unfold State.writeBack
  split
  · next hw =>
    refine .setMe u _ (fun k hk => ?_) (fun _ _ => rfl) (fun _ => rfl) (fun f _ _ _ _ => by cases f <;> rfl) ⟨rfl, rfl, rfl, rfl, rfl⟩
    have hne : n ≠ k := fun e => hk (e ▸ h hw)
    exact Vector.getElem_set_ne n.isLt k.isLt (fun e => hne (BitVec.eq_of_toNat_eq e))
  · exact .refl u

end

/-- What an instruction does beside its accesses leaves the FFR, the marks and the reservation. -/
def LeavesOwn (pre : State → State) : Prop :=
  ∀ u, (pre u).me.ffr = u.me.ffr ∧ (pre u).me.marks = u.me.marks ∧ (pre u).me.excl = u.me.excl

theorem LeavesOwn.overwriteX (n : RegNum) (v : Word) (id : Nat) : LeavesOwn (fun u => u.setMe (u.me.overwriteX n v id)) := by
  intro u
  obtain ⟨g, a, b, h⟩ := u.me.overwriteX_keeps n v id
  dsimp only
  rw [State.setMe_eq, State.me_setObs_cur, h]
  exact ⟨rfl, rfl, rfl⟩

theorem LeavesOwn.authLoad (w : BitVec 1) (rn : RegNum) (addr : Word) (es : List Elem) :
    LeavesOwn (fun u => (u.writeBack w rn addr).scrambleAll .gp es) := by
  intro u
  have hw : (u.writeBack w rn addr).me.ffr = u.me.ffr ∧ (u.writeBack w rn addr).me.marks = u.me.marks ∧
      (u.writeBack w rn addr).me.excl = u.me.excl := by
    unfold State.writeBack
    split
    · rw [State.setMe_eq, State.me_setObs_cur]; exact ⟨rfl, rfl, rfl⟩
    · exact ⟨rfl, rfl, rfl⟩
  exact ⟨(State.scrambleAll_own Observer.ffr _ _ _ (fun _ _ _ _ _ => rfl)).trans hw.1,
    (State.scrambleAll_own Observer.marks _ _ _ (fun _ _ _ _ _ => rfl)).trans hw.2.1,
    (State.scrambleAll_own Observer.excl _ _ _ (fun _ _ _ _ _ => rfl)).trans hw.2.2⟩

section

variable {s t : State} {ds : List (RegFile × RegNum)} {pas : Nat → Prop} {pre : State → State}

/-- The frame of an instruction whose effect beside its accesses is on registers alone. -/
theorem Ends.frame (he : Ends s pre t) (hf : Framed s ds pas t) (hm : ∀ u, MineOnly ds u (pre u)) (ho : LeavesOwn pre) :
    Untouched s t ds pas ∧ OnlyByException s t ∧ t.me.ffr = s.me.ffr ∧ t.me.marks = s.me.marks ∧
      ((∀ x ∈ s.inflight, x.obs = s.cur) → t.me.excl = s.me.excl) :=
  ⟨hf.untouched, he.onlyByException hm, he.field Observer.ffr (fun _ _ _ _ _ _ _ _ _ => rfl) (fun u => (ho u).1),
    he.field Observer.marks (fun _ _ _ _ _ _ _ _ _ => rfl) (fun u => (ho u).2.1), fun h => he.excl h (fun u => (ho u).2.2)⟩

/-- An exception taken where only earlier accesses have been performed. -/
theorem Ends.takeException {u : State} (hu : Kept s u) (r : Raise) (b : Bool) : Ends s pre (u.takeException r b) :=
  .taken u hu r b _ _ _ _ _ (by rw [State.takeException_me]) (fun _ => rfl)

/-- The effect alone, with no access. -/
theorem Ends.effect {u : State} (hu : Kept s u) : Ends s pre (pre u) := .done u hu _ _ _ _ _ rfl (fun _ => rfl)

/-- Accesses put in flight, of which some have been performed: the current observer is as before but for registers, what is held
and, where accesses of others were in flight, the reservation. -/
theorem Kept.issued {u w : State} {xs : List Xact} {bs : List RByte} (hu : Kept s u) (hx : ∀ x ∈ xs, Allows s ds pas x)
    (hk : Kept ((u.touch bs).issue xs) w) : Framed s ds pas w ∧
      ∃ g v c l e, w.me = { u.me with gpr := g, vreg := v, copyBuf := c, held := l, excl := e } ∧
        ((∀ x ∈ s.inflight, x.obs = s.cur) → e = u.me.excl) := by
  have hissue : Framed s ds pas ((u.touch bs).issue xs) := State.issue_framed hu (.refl u) bs (fun x h => .inr (hx x h))
  obtain ⟨g, v, c, l, e, hme, hmine⟩ := hk.me
  refine ⟨hissue.kept hk, g, v, c, l, e, hme, fun h => hmine (fun x hxf => ?_)⟩
  have hcur : ((u.touch bs).issue xs).cur = s.cur := hu.cur
  rw [hcur]
  exact (hissue.flight x hxf).elim (fun hxs => h x hxs) (fun ha => ha.1)

end

/-! ### LDRAA and LDRAB -/

/-- The registers an authenticated load writes. -/
def authRegs (w : BitVec 1) (rn rt : RegNum) : List (RegFile × RegNum) :=
  (if rt = 31 then [] else [(.gp, rt)]) ++ (if w = 1 then [(.gp, rn)] else [])

theorem authRegs_loaded (w : BitVec 1) (rn rt : RegNum) : (RegFile.gp, rt) = (.gp, 31) ∨ (RegFile.gp, rt) ∈ authRegs w rn rt := by
  by_cases h : rt = 31
  · exact .inl (by rw [h])
  · exact .inr (by rw [authRegs, if_neg h]; exact List.mem_append_left _ (List.mem_singleton.2 rfl))

theorem authRegs_base {w : BitVec 1} (rn rt : RegNum) (h : w = 1) : (RegFile.gp, rn) ∈ authRegs w rn rt := by
  simp [authRegs, h]

/-- The one read of a failed check delivers to no register. -/
theorem State.failedRead_framed {s u : State} (hu : Kept s u) (ds : List (RegFile × RegNum)) (pas : Nat → Prop) {r : Req}
    (hr : r.dir = .read) : Framed s ds pas (u.failedRead r) ∧
      ∃ g v c l e, (u.failedRead r).me = { u.me with gpr := g, vreg := v, copyBuf := c, held := l, excl := e } ∧
        ((∀ x ∈ s.inflight, x.obs = s.cur) → e = u.me.excl) := by
  have hnone : Framed s ds pas u ∧ ∃ g v c l e, u.me = { u.me with gpr := g, vreg := v, copyBuf := c, held := l, excl := e } ∧
      ((∀ x ∈ s.inflight, x.obs = s.cur) → e = u.me.excl) := ⟨Framed.refl.kept hu, _, _, _, _, _, rfl, fun _ => rfl⟩
  unfold State.failedRead
  split
  · next g _ _ =>
    dsimp only
    split
    · have hx : ∀ x ∈ [{ mkXact u r false g 0 with repeatable := false, dst := none }], Allows s ds pas x := by
        simp only [List.mem_singleton, forall_eq]
        exact ⟨hu.cur, fun _ _ h => (nomatch h), fun h => nomatch hr.symm.trans h⟩
      have hwalk : Kept s (u.walk (walksOf (allBytes r.rs))) := hu.walkReads _ _ _
      rw [← u.me_walk (walksOf (allBytes r.rs))]
      split
      · exact hwalk.issued hx (State.forceAll_kept _ [_])
      · exact hwalk.issued hx (.refl _)
    · exact hnone
  · exact hnone

/-- What a failed check leaves, after the one read it may cause. -/
theorem State.authFail_frame {s u v : State} (hu : Kept s u) (w : BitVec 1) (rn rt : RegNum)
    (hf : Framed s (authRegs w rn rt) (fun _ => False) v)
    (hm : ∃ g x c l e, v.me = { u.me with gpr := g, vreg := x, copyBuf := c, held := l, excl := e } ∧
      ((∀ x ∈ s.inflight, x.obs = s.cur) → e = u.me.excl)) :
    ∃ pre, Ends s pre (v.authFail rt) ∧ Framed s (authRegs w rn rt) (fun _ => False) (v.authFail rt) ∧
      (∀ u, MineOnly (authRegs w rn rt) u (pre u)) ∧ LeavesOwn pre := by
  obtain ⟨g, x, c, l, e, hme, hmine⟩ := hm
  have hov : ∀ u, MineOnly (authRegs w rn rt) u (u.setMe (u.me.overwriteX rt v.plan.freeVal v.nextId)) := fun u =>
    .overwriteX u u.me.marks u.me.excl _ _ (authRegs_loaded w rn rt)
  refine ⟨fun u => u.setMe (u.me.overwriteX rt v.plan.freeVal v.nextId), ?_, ?_, hov, .overwriteX _ _ _⟩
  all_goals
    unfold State.authFail
    split
  · refine .taken u hu .authFailure false g x c l e ?_ hmine
    rw [State.takeException_me, State.takeException_me, hme]
    simp only [hf.platform, hf.machine.2.1, hu.platform, hu.machine.2.1]
  · have hown := LeavesOwn.overwriteX rt v.plan.freeVal v.nextId u
    refine .done u hu (v.me.overwriteX rt v.plan.freeVal v.nextId).gpr x c l e ?_ (fun h => (hmine h).trans hown.2.2.symm)
    rw [State.setMe_eq, State.me_setObs_cur, State.setMe_eq, State.me_setObs_cur, hme]
    unfold Observer.overwriteX Observer.setX
    split <;> rfl
  · exact hf.takeException _ _
  · exact hf.mineOnly (hov v)

/-- The frame of an authenticated load, in each of its outcomes. -/
theorem State.loadAuth_frame {s t : State} {sb : BitVec 1} {imm9 : BitVec 9} {w : BitVec 1} {rn rt : RegNum}
    (h : s.loadAuth sb imm9 w rn rt = .next t) :
    ∃ pre, Ends s pre t ∧ Framed s (authRegs w rn rt) (fun _ => False) t ∧ (∀ u, MineOnly (authRegs w rn rt) u (pre u)) ∧
      LeavesOwn pre := by
  have hu := s.settle_kept s.cur [(.gp, rn)]
  unfold State.loadAuth at h
  dsimp only at h
  generalize s.settle s.cur [(.gp, rn)] = u at h hu
  have hfails : ∃ pre, Ends s pre (u.authFail rt) ∧ Framed s (authRegs w rn rt) (fun _ => False) (u.authFail rt) ∧
      (∀ u, MineOnly (authRegs w rn rt) u (pre u)) ∧ LeavesOwn pre :=
    State.authFail_frame hu w rn rt (Framed.refl.kept hu) ⟨_, _, _, _, _, rfl, fun _ => rfl⟩
  split at h
  · split at h <;> cases h
    exact hfails
  · next rs hrs =>
    split at h
    · have hpre : ∀ v, MineOnly (authRegs w rn rt) v
          ((v.writeBack w rn (authAddr (u.me.base rn) sb imm9)).scrambleAll .gp [authElem (authAddr (u.me.base rn) sb imm9) rt]) := by
        refine fun v => (MineOnly.writeBack v w _ (authRegs_base rn rt)).trans ((MineOnly.scrambleAll _ _ _).mono (fun r hr => ?_))
        obtain ⟨hin, hne⟩ := List.mem_filter.1 hr
        obtain rfl := List.mem_singleton.1 hin
        exact (authRegs_loaded w rn rt).resolve_left (bne_iff_ne.1 hne)
      have hreg : ∀ p ∈ rs, ∀ b ∈ p.bs, (RegFile.gp, b.reg) = (.gp, 31) ∨ (RegFile.gp, b.reg) ∈ authRegs w rn rt := fun p hp b hb => by
        rw [resolve_reg _ _ _ _ _ hrs p hp b hb, List.mem_singleton.1 (resolve_parts hrs ▸ List.mem_map_of_mem hp : p.e ∈ [_])]
        exact authRegs_loaded w rn rt
      obtain ⟨hf, he⟩ := s.request_framed (pas := fun _ => False) u hu .ldrax .read .gp false _ rs [] _ t hpre
        (fun _ => hreg) (fun h => nomatch h) h
      exact ⟨_, he, hf, hpre, .authLoad _ _ _ _⟩
    · split at h <;> cases h
      · obtain ⟨hf, hm⟩ := State.failedRead_framed (r := u.reqOf .ldrax .read .gp false [authElem (authAddr (u.me.base rn) sb imm9) rt] rs [])
          hu (authRegs w rn rt) (fun _ => False) rfl
        exact State.authFail_frame hu w rn rt hf hm
      · exact hfails

/-! ### Store-Exclusive -/

/-- The register of the status. -/
def statusRegs (n : RegNum) : List (RegFile × RegNum) := if n = 31 then [] else [(.gp, n)]

theorem MineOnly.exclDone (u : State) (n : RegNum) (status : Word) : MineOnly (statusRegs n) u (u.exclDone n status) := by
  refine .overwriteX u u.me.marks none status u.nextId ?_
  by_cases h : n = 31
  · exact .inl (by rw [h])
  · exact .inr (by rw [statusRegs, if_neg h]; exact List.mem_singleton.2 rfl)

theorem State.exclDone_own (u : State) (n : RegNum) (status : Word) :
    (u.exclDone n status).me.ffr = u.me.ffr ∧ (u.exclDone n status).me.marks = u.me.marks := by
  obtain ⟨g, a, b, h⟩ := Observer.overwriteX_keeps { u.me with excl := none } n status u.nextId
  rw [State.exclDone_eq, State.me_setObs_cur, h]
  exact ⟨rfl, rfl⟩

/-- The effect of a Store-Exclusive beside its write, by whether it is a Store-Release, too. -/
def exclEffect (release : Bool) (n : RegNum) (status : Word) (u : State) : State := (storeEffect release [] u).exclDone n status

theorem exclEffect_mineOnly (release : Bool) (n : RegNum) (status : Word) (u : State) :
    MineOnly (statusRegs n) u (exclEffect release n status u) :=
  ((storeEffect_mineOnly release [] u).mono (by simp)).trans (.exclDone _ n status)

theorem exclEffect_own (release : Bool) (n : RegNum) (status : Word) (u : State) :
    (exclEffect release n status u).me.ffr = u.me.ffr ∧ (release = false → (exclEffect release n status u).me.marks = u.me.marks) := by
  obtain ⟨hffr, hmarks⟩ := (storeEffect release [] u).exclDone_own n status
  refine ⟨hffr.trans ?_, fun h => hmarks.trans (by simp [storeEffect, h])⟩
  cases release <;> simp [storeEffect]

/-- A Store-Exclusive ends with its effect, its write or an exception; where it fails, with status 1 and no mark. -/
theorem execStoreExcl_framed {s t : State} {n : RegNum} {f : OrderedForm} (h : execStoreExcl n f s = .next t) :
    Framed s (statusRegs n) (fun pa => pa ∈ placesOf s .gp f.es) t ∧
      ∃ release status, (f.also = false → release = false) ∧ Ends s (exclEffect release n status) t := by
  unfold execStoreExcl at h
  split at h
  · cases h
  · next q hq =>
    split at h
    · obtain ⟨hf, he⟩ := s.request_framed (pas := fun pa => pa ∈ placesOf s .gp f.es) s (.refl s) .storeExclusive .write .gp f.also
        f.es q [] (exclEffect f.also n 0) t (exclEffect_mineOnly f.also n 0) (fun h => nomatch h) (fun _ => resolve_places s .gp f.es q hq) h
      exact ⟨hf, f.also, 0, id, he⟩
    · unfold State.exclFail at h
      split at h <;> cases h
      · exact ⟨Framed.refl.takeException _ _, false, 0, fun _ => rfl, .takeException (.refl s) _ _⟩
      · have hwalk : Kept s (s.walk (s.instrWalks .storeExclusive [] q [])) := (Kept.refl s).walkReads _ _ _
        exact ⟨(Framed.refl.kept hwalk).mineOnly (exclEffect_mineOnly false n 1 _), false, 1, fun _ => rfl, .effect (pre := exclEffect false n 1) hwalk⟩

/-! ### Copies -/

theorem copyElems_reg {addr len base : Nat} : ∀ e ∈ copyElems addr len base, e.reg = 0 := by
  intro e he
  obtain ⟨k, -, rfl⟩ := List.mem_map.1 he
  rfl

/-- A copy changes the bytes it holds, and the locations of its destination range as it stands when the registers it reads are
there. -/
theorem execCpy_framed {s t u : State} {rd rs rn : RegNum} (hu : u = s.settle s.cur [(.gp, rd), (.gp, rs), (.gp, rn)])
    (h : execCpy rd rs rn s = .next t) :
    Framed s [(.copy, 0)] (fun pa => pa ∈ placesOf u .copy (copyElems (u.me.xreg rd).toNat (u.me.xreg rn).toNat u.nextId)) t ∧
      Ends s id t := by
  have hk : Kept s u := hu ▸ s.settle_kept _ _
  have h := requireFeature_next h
  dsimp only at h
  rw [← hu] at h
  split at h
  · cases h
  · cases h
  · next src dst hsrc hdst =>
    have hwritten := resolve_places u .copy _ dst hdst
    have hread : ∀ p ∈ src, ∀ b ∈ p.bs, (RegFile.copy, b.reg) ∈ [(RegFile.copy, (0 : RegNum))] := fun p hp b hb => by
      rw [resolve_reg _ _ _ _ _ hsrc p hp b hb, copyElems_reg p.e (resolve_parts hsrc ▸ List.mem_map_of_mem hp)]
      exact List.mem_singleton.2 rfl
    split at h
    · cases h
    · split at h <;> cases h
      · refine s.runCopy_framed _ (hk.walkReads _ _ _) _ _ _ (fun p hp b hb => ?_) (fun p hp b hb => ?_)
        · obtain ⟨q, hq, rfl⟩ := List.mem_map.1 (List.mem_filter.1 hp).1
          exact hwritten q hq b (RElem.mem_spared hb)
        · obtain ⟨q, hq, rfl⟩ := List.mem_map.1 (List.mem_filter.1 hp).1
          exact hread q hq b (RElem.mem_spared hb)
      · exact ⟨(Framed.refl.kept hk).takeException _ _, .takeException hk _ _⟩
    · cases h
      exact s.runCopy_framed _ (hk.walkReads _ _ _) src dst _ hwritten hread

/-- Settles O33: one frame for each of the four. -/
theorem otherInstructionsFrame : Obligations.OtherInstructionsFrame := by
  refine ⟨fun rel rs es s t h => ?_, fun i sb imm9 w rn rt s t hi h => ?_, fun crm s t h => ?_, fun rd rs rn s t u hu h => ?_⟩
  · obtain ⟨hf, release, status, hrel, he⟩ := execStoreExcl_framed h
    exact ⟨hf.untouched, he.onlyByException (exclEffect_mineOnly release rs status),
      he.field Observer.ffr (fun _ _ _ _ _ _ _ _ _ => rfl) (fun u => (exclEffect_own release rs status u).1),
      fun hr => he.field Observer.marks (fun _ _ _ _ _ _ _ _ _ => rfl) (fun u => (exclEffect_own release rs status u).2 (hrel hr))⟩
  · have hload : s.loadAuth sb imm9 w rn rt = .next t := by
      rcases hi with rfl | rfl <;> exact requireFeature_next h
    obtain ⟨pre, he, hf, hm, ho⟩ := State.loadAuth_frame hload
    exact he.frame hf hm ho
  · cases h
    have hk := s.forceAll_kept ((s.inflight.filter (s.dsbWaitsFor crm.toNat)).map Xact.id)
    generalize s.forceAll ((s.inflight.filter (s.dsbWaitsFor crm.toNat)).map Xact.id) = u at hk ⊢
    obtain ⟨g, v, c, l, e, hme, hmine⟩ := hk.me
    refine ⟨((Framed.refl.kept hk).mineOnly (.setOwn u u.me.ffr _ u.me.excl)).untouched, ?_⟩
    rw [State.addMark_eq, State.me_setObs_cur, hme]
    exact ⟨rfl, rfl, rfl, rfl, hmine⟩
  · obtain ⟨hf, he⟩ := execCpy_framed hu h
    exact he.frame hf (fun u => .refl u) (fun _ => ⟨rfl, rfl, rfl⟩)

end Sys2Proof.Machine
end

section
/-! The statements on the access classes, continued: what loads deliver in a simple sequential execution. -/

namespace Sys2Proof.Machine

open Sys2Proof

/-! ### An admitted request -/

/-- An admitted request has its bytes, passes its checks and meets no peripheral that reacts. -/
theorem admitted_cases {s : State} {cls : AccessClass} {rd wr : RegFile × List Elem} {first : List Elem}
    (ha : admitted s cls rd wr first = true) (hq : quiet s cls rd wr first = true) :
    ∃ a b c, resolve s.platform s.me rd.1 rd.2 = .ok a ∧ resolve s.platform s.me wr.1 wr.2 = .ok b ∧
      resolve s.platform s.me rd.1 first = .ok c ∧ s.verdict cls a b (pasOf c) = .go ∧
      quietAt s.platform ((s.reached cls a b (pasOf c)).map (fun b => b.tr.pa)) = true := by
  unfold admitted at ha
  unfold quiet at hq
  split at ha
  · next a b c h1 h2 h3 =>
    rw [h1, h2, h3] at hq
    exact ⟨a, b, c, h1, h2, h3, beq_iff_eq.1 ha, hq⟩
  · cases ha

/-- No peripheral reacts to the accesses of a request, or to its walks. -/
theorem State.request_quiet {s : State} {cls : AccessClass} (dir : Dir) (f : RegFile) (rel : Bool) (all : List Elem) (rs : List RElem)
    {F : List Nat}
    (hq : quietAt s.platform ((s.reached cls (readParts dir rs) (writtenParts dir rs) F).map (fun b => b.tr.pa)) = true) :
    (∀ x ∈ xactsOf s (s.reqOf cls dir f rel all rs F), x.Quiet s.platform) ∧
      (s.walk (s.instrWalks cls (readParts dir rs) (writtenParts dir rs) F)).mem = s.mem :=
  Inside.quiet (.reached (fun _ hw => hw) (fun _ hx _ hb => by
    obtain ⟨c, hc, he⟩ := xactsFrom_bytes hx hb
    exact ⟨c, State.mem_reqOf_bytes hc, he⟩)) hq

/-! ### Loads -/

/-- A LOAD IN A SIMPLE SEQUENTIAL EXECUTION, where what it does beside its accesses leaves the observer `v` before its registers are
freed. -/
theorem State.request_loads {s : State} {cls : AccessClass} {f : RegFile} {all es : List Elem} {rs : List RElem} {F : List Nat}
    {pre : State → State} (v : Observer) (h : Sequential s) (hr : resolve s.platform s.me f es = .ok rs)
    (hv : s.verdict cls rs [] F = .go) (hq : quietAt s.platform ((s.reached cls rs [] F).map (fun b => b.tr.pa)) = true)
    (hes : ∀ e ∈ es, e ∈ all)
    (hpre : ∀ w : State, w.cur = s.cur → w.me = s.me → w.nextId = s.nextId → w.plan = s.plan →
      pre w = w.setObs s.cur (freedRegs s f all v)) :
    ∃ t, s.request cls .read f false all rs F pre = .next t ∧ t.me = loadElems s f es (freedRegs s f all v) ∧
      (∀ o, o ≠ s.cur → t.getObs o = s.getObs o) ∧ t.mem = s.mem ∧ t.lines = s.lines ∧ t.inflight = [] := by
  obtain ⟨hquiet, hmem⟩ := State.request_quiet .read f false all rs hq
  rw [State.request_admitted s cls .read f false all rs F pre hv h.2.2.2]
  generalize hw : s.walk (s.instrWalks cls (readParts .read rs) (writtenParts .read rs) F) = w at hmem
  obtain ⟨hcur, hme, hid, hplan, hplat, hlines, hxs, hothers⟩ : w.cur = s.cur ∧ w.me = s.me ∧ w.nextId = s.nextId ∧ w.plan = s.plan ∧
      w.platform = s.platform ∧ w.lines = s.lines ∧ (∀ r, xactsOf w r = xactsOf s r) ∧ ∀ o, w.getObs o = s.getObs o := by
    subst hw
    exact ⟨by simp, s.me_walk _, by simp, by simp, by simp, by simp, s.xactsOf_walk _, s.getObs_walkReads _ _ _⟩
  have htakes : ∀ b ∈ allBytes rs, (freedRegs s f all v).takes f b.reg w.nextId = true := fun b hb => by
    obtain ⟨p, hp, hbp⟩ := List.mem_flatMap.1 hb
    rw [resolve_reg _ _ _ _ _ hr p hp b hbp, hid]
    exact Observer.prepare_takes v s.plan f s.nextId all p.e (hes p.e (resolve_parts hr ▸ List.mem_map_of_mem hp))
  obtain ⟨t, ht, htme, hto, htm, htl, htf, -⟩ := w.runReq_read (s.reqOf cls .read f false all rs F) pre (hw ▸ h.walk _)
    (freedRegs s f all v) (by rw [hcur]; exact hpre w hcur hme hid hplan) rfl (fun x hx => by rw [hplat]; exact hquiet x (hxs _ ▸ hx)) htakes
  refine ⟨t, by rw [ht], ?_, fun o ho => (hto o (hcur ▸ ho)).trans (hothers o), htm.trans hmem, htl.trans hlines, htf⟩
  have hbyte : ∀ a pa, w.byteFor w.cur w.nextId a pa = s.byteFor s.cur s.nextId a pa := fun a pa => by
    rw [hcur, hid]; subst hw; exact State.byteFor_walkReads _ _ _ _ _ _ _ _ hmem
  rw [htme, ← putAll_eq_loadElems s f es rs _ hr]
  simp only [putAll, hbyte]
  rfl

/-- An observer with these marks and this reservation. -/
def Observer.withOwn (o : Observer) (m : List Mark) (e : Option Reservation) : Observer := { o with marks := m, excl := e }

section

variable (o : Observer) (f : RegFile) (m : List Mark) (e : Option Reservation) (n : RegNum)

theorem Observer.scramble_withOwn (v : VReg) : (o.withOwn m e).scramble f n v = (o.scramble f n v).withOwn m e := by
  cases f with
  | gp => unfold Observer.scramble Observer.setX; dsimp only; split <;> rfl
  | vec => rfl
  | copy => rfl

theorem Observer.claim_withOwn (id : Nat) : (o.withOwn m e).claim f n id = (o.claim f n id).withOwn m e := by cases f <;> rfl

theorem Observer.setRegByte_withOwn (k : Nat) (b : Byte) : (o.withOwn m e).setRegByte f n k b = (o.setRegByte f n k b).withOwn m e := by
  cases f with
  | gp => unfold Observer.setRegByte Observer.setX; dsimp only; split <;> rfl
  | vec => rfl
  | copy => rfl

/-- The marks and the reservation play no part in what a load does to the registers. -/
theorem loadElems_withOwn (s : State) (es all : List Elem) :
    loadElems s f es (freedRegs s f all (o.withOwn m e)) = (loadElems s f es (freedRegs s f all o)).withOwn m e := by
  have hfreed : freedRegs s f all (o.withOwn m e) = (freedRegs s f all o).withOwn m e := by
    unfold freedRegs Observer.prepare
    exact List.foldl_hom (fun o => Observer.withOwn o m e) (fun o d => by rw [Observer.scramble_withOwn, Observer.claim_withOwn])
  rw [hfreed]
  unfold loadElems
  refine List.foldl_hom (fun o => Observer.withOwn o m e) (fun o d => List.foldl_hom (fun o => Observer.withOwn o m e) (fun o k => ?_))
  unfold loadByte
  split
  · rfl
  · exact o.setRegByte_withOwn f m e _ _ _

end

/-- The shared load, where beside its accesses it changes at most the marks and the reservation. -/
theorem State.load_delivers {s : State} {cls : AccessClass} {f : RegFile} {all es first : List Elem} {pre : List RElem → State → State}
    (m : List Mark) (e : Option Reservation) (h : Sequential s) (ha : admitted s cls (f, es) (f, []) first = true)
    (hq : quiet s cls (f, es) (f, []) first = true) (hes : ∀ d ∈ es, d ∈ all)
    (hpre : ∀ rs, resolve s.platform s.me f es = .ok rs → ∀ w : State, w.me = s.me → w.nextId = s.nextId →
      pre rs w = w.setObs w.cur (s.me.withOwn m e) ∨ (pre rs w = w ∧ m = s.me.marks ∧ e = s.me.excl)) :
    ∃ t, s.load cls f all es first pre = .next t ∧ t.me = loadElems s f es (freedRegs s f all (s.me.withOwn m e)) ∧
      (∀ o, o ≠ s.cur → t.getObs o = s.getObs o) ∧ t.mem = s.mem ∧ t.lines = s.lines ∧ t.inflight = [] := by
  obtain ⟨rs, wr, fs, hr, hw, hf, hv, hquiet⟩ := admitted_cases ha hq
  cases hw
  rw [State.load, State.access, hr, hf]
  refine State.request_loads (s.me.withOwn m e) h hr hv hquiet hes (fun w hcur hme hid hplan => ?_)
  rcases hpre rs hr w hme hid with k | ⟨k, rfl, rfl⟩
  · rw [k, State.scrambleAll_eq, State.me_setObs_cur, State.setObs_plan, State.setObs_nextId, hplan, hid]
    exact (w.setObs_setObs w.cur _ _).trans (by rw [hcur]; rfl)
  · rw [k, State.scrambleAll_eq, hme, hplan, hid, hcur]; rfl

theorem loadForm_of_plain {i : Instr} {s : State} {l : LoadForm} (h : plainLoadForm i s = some l) :
    loadForm i s = some l ∧ loadEffect i s = noEffect := by
  cases i with
  | loadExcl f => cases h
  | loadAcq f => cases h
  | sveFirstFault es => cases h
  | sveNonFault es => cases h
  | _ => exact ⟨h, rfl⟩

/-- Settles O13: the shared load of the form, with no effect beside its accesses. -/
theorem plainLoadsDeliverTheirBytes : Obligations.PlainLoadsDeliverTheirBytes := by
  intro i s l hform hfeat hseq hadm hquiet
  obtain ⟨hload, heffect⟩ := loadForm_of_plain hform
  obtain ⟨g, u, m, hexec, -, -, hes, hidle⟩ := exec_of_loadForm hload
  obtain ⟨rfl, rfl⟩ := hidle hseq.1
  rw [hexec, requireFeature_of_present hfeat, heffect]
  exact State.load_delivers u.me.marks u.me.excl hseq hadm hquiet hes (fun _ _ _ _ _ => .inr ⟨rfl, rfl, rfl⟩)

/-- Settles O14: the same shared load, with the reservation of the bytes read and the mark as its effect. -/
theorem orderedLoadsDeliverAndMark : Obligations.OrderedLoadsDeliverAndMark := by
  refine ⟨fun acq es s hseq hadm hquiet => ?_, fun simd es s c f hcf hseq hadm hquiet => ?_⟩
  · have heffect : ∀ rs, resolve s.platform s.me .gp es = .ok rs → ∀ w : State, w.me = s.me → w.nextId = s.nextId →
        loadEffect (.loadExcl ⟨acq, es⟩) s rs w = w.setObs w.cur (s.me.withOwn
          (if acq = true then s.me.marks ++ [{ kind := .acquire, option := 0, at_ := s.nextId }] else s.me.marks)
          (some { bytes := (storeBytes s .gp es).map (fun b => (b.pa, b.attr)), lost := false })) := by
      intro rs hrs w hme hid
      rw [← stored_eq_storeBytes s .gp es rs hrs, List.map_map]
      cases acq <;> simp [loadEffect, State.reserve, Observer.withOwn, Function.comp_def, hme, hid]
    obtain ⟨t, ht, hme, -, hmem, -⟩ := State.load_delivers (all := es) _ _ hseq hadm hquiet (fun _ h => h)
      (fun rs hrs w hme hid => .inl (heffect rs hrs w hme hid))
    exact ⟨t, ht, hmem, hme.trans (loadElems_withOwn _ _ _ _ _ _ _)⟩
  · obtain ⟨t, ht, hme, -, hmem, -⟩ := State.load_delivers (all := es) (pre := fun _ t => t.addMark .acquire 0)
      (s.me.marks ++ [{ kind := .acquire, option := 0, at_ := s.nextId }]) s.me.excl hseq hadm hquiet (fun _ h => h)
      (fun rs hrs w hme hid => .inl (by rw [State.addMark_eq, hme, hid]; rfl))
    have hown : loadElems s f es (freedRegs s f es s.me) = (loadElems s f es (freedRegs s f es s.me)).withOwn s.me.marks s.me.excl :=
      loadElems_withOwn s.me f _ _ s es es
    have hexcl : (loadElems s f es (freedRegs s f es s.me)).excl = s.me.excl := by rw [hown]; rfl
    rw [loadElems_withOwn, ← hexcl] at hme
    cases simd <;> cases hcf <;> exact ⟨t, ht, hmem, hme⟩

/-- Settles O16: the check passes, and the base is written back before the register is freed for its bytes. -/
theorem authenticatedLoadsDeliver : Obligations.AuthenticatedLoadsDeliver := by
  intro i sb imm9 w rn rt s e hi hfeat hseq hauth he hadm hquiet
  obtain ⟨rs, wr, fs, hr, hw, hf, hv, hq⟩ := admitted_cases hadm hquiet
  cases hw
  cases hf
  subst he
  have hexec : exec i s = s.loadAuth sb imm9 w rn rt := by
    rcases hi with rfl | rfl <;> exact requireFeature_of_present hfeat
  rw [hexec, State.loadAuth, State.settle_idle _ _ _ hseq.1]
  simp only [show resolve s.platform s.me .gp [authElem (authAddr (s.me.base rn) sb imm9) rt] = .ok rs from hr, hauth, if_true]
  have heffect : ∀ u : State, u.cur = s.cur → u.me = s.me → u.nextId = s.nextId → u.plan = s.plan →
      (u.writeBack w rn (authAddr (s.me.base rn) sb imm9)).scrambleAll .gp [authElem (authAddr (s.me.base rn) sb imm9) rt] =
        u.setObs s.cur (freedRegs s .gp [authElem (authAddr (s.me.base rn) sb imm9) rt]
          (if w = 1 then s.me.setBase rn (authAddr (s.me.base rn) sb imm9) else s.me)) := by
    intro u hcur hme hid hplan
    rw [State.scrambleAll_eq, State.writeBack]
    split
    · rw [State.setMe_eq, State.me_setObs_cur, State.setObs_plan, State.setObs_nextId, hme, hplan, hid]
      exact (u.setObs_setObs u.cur _ _).trans (by rw [hcur]; rfl)
    · rw [hme, hplan, hid, hcur]; rfl
  obtain ⟨t, ht, hme, -, hmem, -⟩ := State.request_loads _ hseq hr hv hq (fun _ h => h) heffect
  exact ⟨t, ht, hmem, hme⟩

end Sys2Proof.Machine
end

section
/-! The statements on the access classes, continued: cache maintenance, and what stores and Store-Exclusive write in a simple
sequential execution. -/

namespace Sys2Proof.Machine

open Sys2Proof

/-! ### Cache maintenance -/

/-- Of a write back of every dirty copy at some locations nothing dirty is left there, and no other copy is met. -/
theorem linesAfter_named (pas newer : List Nat) (L : List Line) (hn : ∀ q ∈ newer, q ∈ pas) :
    linesAfter (fun l => pas.contains l.pa) newer L = L.filter (fun l => !(l.dirty && pas.contains l.pa)) := by
  induction L generalizing newer with
  | nil => rfl
  | cons l t ih =>
    unfold linesAfter
    cases hd : l.dirty with
    | false => rw [if_pos (by simp), ih newer hn, List.filter_cons_of_pos (by simp [hd])]
    | true =>
      rw [if_neg (by simp)]
      by_cases hp : l.pa ∈ pas
      · rw [if_pos (List.contains_iff_mem.2 hp), ih (l.pa :: newer) (List.forall_mem_cons.2 ⟨hp, hn⟩),
          List.filter_cons_of_neg (by simp [hd, hp])]
      · have hnot : l.pa ∉ newer := fun h => hp (hn _ h)
        rw [if_neg (by simpa using hp), if_neg (by simpa using hnot), ih newer hn, List.filter_cons_of_pos (by simp [hp])]

/-- A dirty copy as the byte its write back writes. -/
def Line.byte (l : Line) : ByteAcc := { pa := l.pa, reg := 0, lane := 0, val := l.val }

/-- The write back of every dirty copy at some locations. -/
theorem State.writebackToMem_named (s : State) (pas : List Nat) : ∃ as,
    s.writebackToMem (fun l => pas.contains l.pa) = { s with
      mem := Memory.writeBytes s.mem ((s.dirtyOf (fun l => pas.contains l.pa)).map Line.byte)
      lines := s.lines.filter (fun l => !(l.dirty && pas.contains l.pa))
      arrivals := s.arrivals ++ as } := by
  unfold State.writebackToMem
  split
  · next h =>
    refine ⟨[], ?_⟩
    have hnone : ∀ l ∈ s.lines, (!(l.dirty && pas.contains l.pa)) = true := fun l hl => by
      simpa only [Bool.not_eq_true', Bool.not_eq_true] using List.filter_eq_nil_iff.1 (List.reverse_eq_nil_iff.1 h) l hl
    rw [h, List.filter_eq_self.2 hnone, List.append_nil]
    rfl
  · next l ls h =>
    rw [h, linesAfter_named pas [] s.lines (by simp)]
    exact ⟨_, rfl⟩

/-- The last byte a write back writes at one of its locations is the newest dirty copy's. -/
theorem lastVal_dirtyOf (s : State) {pas : List Nat} {pa : Nat} (hpa : pa ∈ pas) :
    lastVal ((s.dirtyOf (fun l => pas.contains l.pa)).map Line.byte) pa =
      (s.lines.find? (fun l => l.dirty && l.pa == pa)).map Line.val := by
  unfold lastVal State.dirtyOf
  rw [← List.map_reverse, List.reverse_reverse, List.find?_map, List.find?_filter, Option.map_map]
  refine congrArg (Option.map Line.val) (congrArg (fun p => List.find? p s.lines) (funext fun l => ?_))
  by_cases h : l.pa = pa
  · simp [Line.byte, h, hpa]
  · simp [Line.byte, h]

/-- Settles O27: nothing, or the write back of the dirty copies at the locations, after which their clean ones are dropped. -/
theorem cacheMaintenanceWritesBack : Obligations.CacheMaintenanceWritesBack := by
  intro addr len s pas hlocs hwf
  have hexec : exec (.cacheMaint addr len) s = .next
      (if s.plan.maint then (s.writebackToMem (fun l => pas.contains l.pa)).dropClean pas else s) := by
    rw [exec, execCacheMaint, hlocs]
  cases hm : s.plan.maint with
  | false =>
    rw [hm] at hexec
    exact ⟨s, hexec, rfl, fun _ => rfl, fun h => nomatch h⟩
  | true =>
    obtain ⟨as, hback⟩ := s.writebackToMem_named pas
    rw [hm, if_pos rfl, hback] at hexec
    refine ⟨_, hexec, rfl, fun h => Bool.noConfusion h, fun _ => ⟨?_, fun pa hpa l hl => ?_, fun pa hclean => ?_⟩⟩
    · refine (List.filter_filter ..).trans (List.filter_congr (fun l _ => ?_))
      cases l.dirty <;> simp
    · exact Memory.read_writeBytes_last _ _ _ _ hwf (by rw [lastVal_dirtyOf s hpa, hl]; rfl)
    · refine Memory.read_writeBytes_ne _ _ (fun b hb hpa => ?_)
      obtain ⟨l, hl, rfl⟩ := List.mem_map.1 hb
      obtain ⟨hin, hsel⟩ := List.mem_filter.1 (List.mem_reverse.1 hl)
      simp only [Bool.and_eq_true, List.contains_iff_mem] at hsel
      exact hclean l hin hsel.1 hpa (hpa ▸ hsel.2)

/-! ### Stores -/

/-- Each location of some stored bytes holds the last of them: for the observer that stored it, and at the endpoint where the record
is Device or no cache holds the write. -/
def HoldsLast (s t : State) (bs : List StoredByte) : Prop :=
  ∀ pa b, lastStored bs pa = some b →
    (∀ id a, a.isDevice = b.attr.isDevice → t.byteFor s.cur id a pa = b.val) ∧
    (b.attr.isDevice = true ∨ s.plan.hold = none → Memory.read t.mem pa = b.val)

theorem HoldsLast.nil (s t : State) : HoldsLast s t [] := fun _ _ h => nomatch h

/-- An instruction that makes no access, in a simple sequential execution. -/
theorem State.runAccesses_nil {s : State} (h : Sequential s) (bs : List RByte) (pre : State → State) :
    s.runAccesses bs [] none pre = ((pre s).touch bs).issue [] := by
  obtain ⟨-, hacts, hrest, -⟩ := h
  unfold State.runAccesses State.performPlan
  rw [hacts, hrest]
  rfl

/-- A request without a byte makes no access. -/
theorem xactsFrom_nil (s : State) (r : Req) (k : Nat) (hb : allBytes r.rs = []) (hex : r.ex = []) : xactsFrom s r k = [] := by
  have hgroups : groupsOf s r = [] := List.eq_nil_iff_forall_not_mem.2 (fun g hg => by
    obtain ⟨hne, -, hin⟩ := groupsOf_mem s r g hg
    obtain ⟨b, hbg⟩ := List.exists_mem_of_ne_nil g hne
    obtain ⟨p, hp, hbp⟩ := hin b hbg
    exact absurd (List.mem_flatMap.2 ⟨p, hp, hbp⟩) (by rw [show r.rs.flatMap RElem.bs = [] from hb]; simp))
  simp [xactsFrom, piecesOf, hgroups, hex]

/-- An observer that is not there has no byte to access. -/
theorem allBytes_of_absent {s : State} (h : s.me = Observer.absent) {f : RegFile} {es : List Elem} {rs : List RElem}
    (hr : resolve s.platform s.me f es = .ok rs) : allBytes rs = [] := by
  have := stored_eq_storeBytes s f es rs hr
  rw [storeBytes_of_absent h] at this
  exact List.map_eq_nil_iff.1 this

/-- A STORE IN A SIMPLE SEQUENTIAL EXECUTION, where what it does beside its accesses leaves the observer `v`. -/
theorem State.request_stores {s : State} {cls : AccessClass} {f : RegFile} {rel : Bool} {all es : List Elem} {rs : List RElem}
    {pre : State → State} (v : Observer) (h : Sequential s) (hwf : Memory.wf s.mem = true) (hc : cls ≠ .memCopy)
    (hr : resolve s.platform s.me f es = .ok rs) (hv : s.verdict cls [] rs [] = .go)
    (hq : quietAt s.platform ((s.reached cls [] rs []).map (fun b => b.tr.pa)) = true)
    (hpre : ∀ w : State, w.me = s.me → w.nextId = s.nextId → pre w = w.setObs w.cur v ∨ (pre w = w ∧ v = s.me)) :
    ∃ t, s.request cls .write f rel all rs [] pre = .next t ∧ t.me = v ∧ t.inflight = [] ∧ HoldsLast s t (storeBytes s f es) := by
  obtain ⟨hquiet, hmem⟩ := State.request_quiet .write f rel all rs hq
  rw [State.request_admitted s cls .write f rel all rs [] pre hv h.2.2.2]
  generalize hw : s.walk (s.instrWalks cls (readParts .write rs) (writtenParts .write rs) []) = w at hmem
  obtain ⟨hseq, hcur, hme, hid, hplan, hplat, hxs⟩ : Sequential w ∧ w.cur = s.cur ∧ w.me = s.me ∧ w.nextId = s.nextId ∧
      w.plan = s.plan ∧ w.platform = s.platform ∧ ∀ r, xactsOf w r = xactsOf s r := by
    subst hw
    exact ⟨h.walk _, by simp, s.me_walk _, by simp, by simp, by simp, s.xactsOf_walk _⟩
  have hset : pre w = w.setObs w.cur v ∨ (s.me = Observer.absent ∧ pre w = w ∧ v = s.me) := by
    rcases hpre w hme hid with k | ⟨k, hvs⟩
    · exact .inl k
    · by_cases habs : s.me = Observer.absent
      · exact .inr ⟨habs, k, hvs⟩
      · exact .inl (by rw [k, hvs, ← hme]; exact (State.setObs_me (hme ▸ habs)).symm)
  rcases hset with hset | ⟨habs, hset, rfl⟩
  · obtain ⟨t, ht, htme, -, htf, -, -, -, hseen, -⟩ := w.runReq_write (s.reqOf cls .write f rel all rs []) pre hseq v hset rfl rfl
      (hmem.symm ▸ hwf) hc (fun x hx => by rw [hplat]; exact hquiet x (hxs _ ▸ hx))
    refine ⟨t, by rw [ht], htme, htf, fun pa b hb => ?_⟩
    rw [← stored_eq_storeBytes s f es rs hr] at hb
    obtain ⟨hbyte, -, hread⟩ := hseen pa b hb
    exact ⟨fun id a ha => hbyte s.cur id a (.inl hcur.symm) ha, fun hd => hread (hplan.symm ▸ hd)⟩
  · have hnil : xactsOf w (s.reqOf cls .write f rel all rs []) = [] := xactsFrom_nil _ _ _ (allBytes_of_absent habs hr) rfl
    rw [State.runReq, hnil, State.runAccesses_nil hseq, hset, storeBytes_of_absent habs]
    exact ⟨_, rfl, hme, by simpa using hseq.1, .nil _ _⟩

/-- Settles O18: the shared store of the form, with a release's mark as its effect. -/
theorem storesWriteTheirBytes : Obligations.StoresWriteTheirBytes := by
  intro i s c f es hform hfeat hseq hwf hadm hquiet
  obtain ⟨rd, rs, first, hrd, hr, hfirst, hv, hq⟩ := admitted_cases hadm hquiet
  cases hrd
  cases hfirst
  obtain ⟨g, all, hexec⟩ := exec_eq_store hform s
  obtain ⟨-, -, -, -, -, hc⟩ := exec_of_storeForm hform hfeat
  rw [hexec, requireFeature_of_present hfeat, State.store_eq_request c _ all _ hr]
  obtain ⟨t, ht, hme, hflight, hholds⟩ := State.request_stores (rel := releases i) (all := all) (pre := storeEffect (releases i) rs)
    (if releases i = true then { s.me with marks := s.me.marks ++ [{ kind := .release, option := 0, at_ := s.nextId }] } else s.me)
    hseq hwf hc hr hv hq (fun w hme hid => by
      cases releases i
      · exact .inr ⟨rfl, rfl⟩
      · exact .inl (by simp [storeEffect, hme, hid]))
  exact ⟨t, ht, hflight, hme, hholds⟩

/-! ### Store-Exclusive -/

/-- With nothing in flight a Store-Exclusive must fail where a lost reservation is on one of its locations. -/
theorem State.exclMustFail_iff {s : State} (h0 : s.inflight = []) {es : List Elem} {rs : List RElem}
    (hr : resolve s.platform s.me .gp es = .ok rs) : s.exclMustFail rs = true ↔
      ∃ r, s.me.excl = some r ∧ r.lost = true ∧ ∃ pa ∈ placesOf s .gp es, ∃ q ∈ r.bytes, q.1 = pa := by
  have hplaces : placesOf s .gp es = (allBytes rs).map (fun b => b.tr.pa) := by
    unfold placesOf
    rw [← stored_eq_storeBytes s .gp es rs hr, List.map_map]
    rfl
  have htouches : ∀ r : Reservation, r.touches rs = true ↔ ∃ pa ∈ placesOf s .gp es, ∃ q ∈ r.bytes, q.1 = pa := fun r => by
    simp only [Reservation.touches, hplaces, List.any_eq_true, beq_iff_eq, List.mem_map]
    exact ⟨fun ⟨b, hb, q, hq, he⟩ => ⟨b.tr.pa, ⟨b, hb, rfl⟩, q, hq, he⟩, fun ⟨_, ⟨b, hb, hpa⟩, q, hq, he⟩ => ⟨b, hb, q, hq, he.trans hpa.symm⟩⟩
  unfold State.exclMustFail
  cases he : s.me.excl with
  | none => simp
  | some r => simp [State.exclContended, h0, htouches r, and_comm]

/-- Settles O22: the write of the shared request, or a status of 1 after the checks and walks alone. -/
theorem storeExclusiveWritesUnlessOthersIntervened : Obligations.StoreExclusiveWritesUnlessOthersIntervened := by
  intro rel rs es s hseq hwf hadm hquiet
  obtain ⟨rd, q, first, hrd, hr, hfirst, hv, hq⟩ := admitted_cases hadm hquiet
  cases hrd
  cases hfirst
  have hexec : exec (.storeExcl rs ⟨rel, es⟩) s = if s.exclSucceeds q then
      s.request .storeExclusive .write .gp rel es q [] (fun u => (if rel then u.addMark .release 0 else u).exclDone rs 0)
      else s.exclFail rs q := by
    simp only [exec, execStoreExcl, show resolve s.platform s.me .gp es = .ok q from hr]
  rw [hexec]
  refine ⟨fun hok hkept => ?_, fun hfail => ?_⟩
  · have hmay : s.exclMustFail q = false := by
      rw [Bool.eq_false_iff, Ne, State.exclMustFail_iff hseq.1 hr]
      rintro ⟨r, he, hl, pa, hpa, b, hb, hbp⟩
      exact hkept r he hl pa hpa b hb hbp
    rw [if_pos (by rw [State.exclSucceeds, hok, hmay]; rfl)]
    obtain ⟨t, ht, hme, -, hholds⟩ := State.request_stores (cls := .storeExclusive) (rel := rel) (all := es)
      (pre := fun u => (if rel then u.addMark .release 0 else u).exclDone rs 0)
      (({ s.me with
        excl := none
        marks := if rel = true then s.me.marks ++ [{ kind := .release, option := 0, at_ := s.nextId }]
          else s.me.marks } : Observer).overwriteX rs 0 s.nextId) hseq hwf nofun hr hv hq (fun w hme hid => .inl (by
        cases rel <;> simp [hme, hid]))
    exact ⟨t, ht, hme, hholds⟩
  · have hnot : s.exclSucceeds q = false := by
      rcases hfail with hok | hlost
      · rw [State.exclSucceeds, hok]; rfl
      · rw [State.exclSucceeds, (State.exclMustFail_iff hseq.1 hr).2 hlost]; simp
    have hmem : (s.walk (s.instrWalks .storeExclusive [] q [])).mem = s.mem := (State.request_quiet .write .gp rel es q hq).2
    rw [hnot, if_neg (by simp), State.exclFail, show s.verdict .storeExclusive [] q [] = .go from hv]
    refine ⟨_, rfl, ?_, hmem, by simp, by simpa using hseq.1⟩
    rw [State.exclDone_eq, State.me_setObs_cur, State.me_walk]
    simp

end Sys2Proof.Machine
end

section
/-! The statements on the access classes, continued: what a copy moves in a simple sequential execution. -/

namespace Sys2Proof.Machine

open Sys2Proof

/-! ### The footprint of a copy -/

/-- The bytes of a resolved footprint, part by part. -/
theorem allBytes_eq {p : Platform} {o : Observer} {f : RegFile} {es : List Elem} {rs : List RElem} (h : resolve p o f es = .ok rs) :
    allBytes rs = es.flatMap (fun e => (List.range e.size).filterMap (fun k => (dataTr p o.ctl (e.addr + k)).map (fun t =>
      { va := e.addr + k, tr := t, reg := e.reg, lane := laneOf p e k, val := o.regByte f e.reg (laneOf p e k) }))) := by
  obtain ⟨he, hb⟩ := resolve_eq _ _ _ _ _ h
  rw [← he, List.flatMap_map]
  unfold allBytes List.flatMap
  rw [List.map_congr_left (fun r hr => (resolveBytes_eq _ _ _ _ _ _ (hb r hr)).2)]

/-- Every byte of a resolved footprint has its translation. -/
theorem resolve_translates {p : Platform} {o : Observer} {f : RegFile} {es : List Elem} {rs : List RElem}
    (h : resolve p o f es = .ok rs) : ∀ e ∈ es, ∀ k < e.size, ∃ t, dataTr p o.ctl (e.addr + k) = some t := by
  obtain ⟨he, hb⟩ := resolve_eq _ _ _ _ _ h
  intro e hin k hk
  rw [← he] at hin
  obtain ⟨r, hr, rfl⟩ := List.mem_map.1 hin
  exact (resolveBytes_eq _ _ _ _ _ _ (hb r hr)).1 k (List.mem_range.2 hk)

/-- Byte `k` of a range of a copy is the one that the copy holds under its number. -/
theorem allBytes_copyElems {p : Platform} {o : Observer} {addr n base : Nat} {rs : List RElem}
    (h : resolve p o .copy (copyElems addr n base) = .ok rs) :
    allBytes rs = (List.range n).filterMap (fun k => (dataTr p o.ctl (addr + k)).map (fun t =>
      { va := addr + k, tr := t, reg := 0, lane := base + k, val := o.regByte .copy 0 (base + k) })) := by
  rw [allBytes_eq h, copyElems, List.flatMap_map]
  induction List.range n with
  | nil => rfl
  | cons k ks ih =>
    rw [List.flatMap_cons, ih, List.filterMap_cons]
    cases ht : dataTr p o.ctl (addr + k) <;> simp only [List.range_one, List.filterMap_cons, List.filterMap_nil, Nat.add_zero, laneOf, ht,
      Nat.sub_self, ite_self, Option.map_some, Option.map_none, List.singleton_append, List.nil_append]

theorem copyElems_translates {p : Platform} {o : Observer} {addr n base : Nat} {rs : List RElem}
    (h : resolve p o .copy (copyElems addr n base) = .ok rs) {k : Nat} (hk : k < n) : ∃ t, dataTr p o.ctl (addr + k) = some t :=
  resolve_translates h { addr := addr + k, size := 1, reg := 0, lane := base + k, active := true }
    (List.mem_map_of_mem (List.mem_range.2 hk)) 0 (by simp)

/-! ### What a copy holds after its reads -/

theorem loadElems_copyElems_succ (s : State) (addr n base : Nat) (o : Observer) :
    loadElems s .copy (copyElems addr (n + 1) base) o =
      loadByte s .copy { addr := addr + n, size := 1, reg := 0, lane := base + n, active := true }
        (loadElems s .copy (copyElems addr n base) o) 0 := by
  unfold loadElems copyElems
  rw [List.range_succ, List.map_append, List.foldl_append]
  rfl

/-- After its reads a copy holds under each number the byte of its source. -/
theorem regByte_loadElems_copy (s : State) {addr base n k : Nat} {t : Tr} (o : Observer) (hk : k < n)
    (ht : dataTr s.platform s.me.ctl (addr + k) = some t) :
    (loadElems s .copy (copyElems addr n base) o).regByte .copy 0 (base + k) = s.byteFor s.cur s.nextId t.attr t.pa := by
  induction n with
  | zero => omega
  | succ n ih =>
    rw [loadElems_copyElems_succ, loadByte, Nat.add_zero]
    by_cases hkn : k = n
    · subst hkn
      simp only [ht, laneOf]
      rw [Observer.regByte_setRegByte_copy, if_pos (by simp)]
    · split
      · exact ih (by omega)
      · simp only [laneOf]
        rw [Observer.regByte_setRegByte_copy, if_neg (by simpa using hkn)]
        exact ih (by omega)

/-- The reads of a copy change what it holds alone. -/
theorem putAll_copy (s : State) (rs : List RElem) (o : Observer) :
    putAll s .copy rs o = { o with copyBuf := (putAll s .copy rs o).copyBuf } :=
  foldl_property (fun v : Observer => v = { o with copyBuf := v.copyBuf }) _ _ _ rfl
    (fun v b _ h => by rw [h]; rfl)

/-! ### The writes of a copy -/

/-- What the accesses of a request without extra bytes say of their bytes, where it does not depend on the hints, the request says. -/
theorem xactsFrom_flatMap {α : Type} (s : State) (r : Req) (k : Nat) (hex : r.ex = []) (F : MemAttr → ByteAcc → α)
    (hF : ∀ a b c, a.eraseHints = b.eraseHints → F a c = F b c) :
    (xactsFrom s r k).flatMap (fun x => x.bs.map (F x.attr)) = (allBytes r.rs).map (fun b => F b.tr.attr (s.accByte r b)) := by
  have hgroup : ∀ q ∈ (piecesOf s r).zipIdx k, (mkXact s r q.1.1 q.1.2 q.2).bs.map (F (mkXact s r q.1.1 q.1.2 q.2).attr) =
      q.1.2.map (fun b => F b.tr.attr (s.accByte r b)) := by
    intro q hq
    obtain ⟨g, hg, he⟩ | ⟨b, hb, -⟩ := mem_piecesOf s r q.1 (List.fst_mem_of_mem_zipIdx hq)
    · have hsame := (groupsOf_mem s r g hg).2.1
      rw [he]
      show (g.map (s.accByte r)).map _ = _
      rw [List.map_map]
      refine List.map_congr_left (fun b hb => hF _ _ _ ?_)
      cases g with
      | nil => cases hb
      | cons c t => exact hsame c (by simp) b hb
    · rw [hex] at hb; cases hb
  unfold xactsFrom
  rw [List.flatMap_map]
  unfold List.flatMap
  rw [List.map_congr_left hgroup, ← groupsOf_bytes s r]
  have hfst : ((piecesOf s r).zipIdx k).map (fun q => q.1.2.map (fun b => F b.tr.attr (s.accByte r b))) =
      (piecesOf s r).map (fun q => q.2.map (fun b => F b.tr.attr (s.accByte r b))) := by
    have hz := congrArg (List.map (fun p => p.2.map (fun b => F b.tr.attr (s.accByte r b)))) (List.zipIdx_map_fst k (piecesOf s r))
    rwa [List.map_map] at hz
  rw [hfst, piecesOf, hex, List.map_nil, List.append_nil, List.map_map, List.map_flatten]
  rfl

/-- The bytes a copy's writes write, as what the copy holds. -/
theorem State.stored_filled_copy (w : State) {x : Xact} (hc : x.cls = .memCopy) (hd : x.dir = .write) :
    (w.filled x).stored = x.bs.map (fun c => { pa := c.pa, attr := x.attr, val := (w.getObs x.obs).regByte .copy c.reg c.lane }) := by
  unfold Xact.stored
  rw [State.filled_attr, State.filled, hd]
  simp only [List.map_map]
  exact List.map_congr_left (fun c _ => by simp [State.filledByte, hc])

/-- Writes of the current observer, one after the other, leave the last byte at each location. -/
theorem State.foldl_commit_holdsLast {w : State} {ys : List Xact} {bs : List StoredByte} (h0 : w.inflight = [])
    (hwf : Memory.wf w.mem = true) (hobs : ∀ y ∈ ys, y.obs = w.cur) (hhold : ∀ y ∈ ys, y.hold = w.plan.hold)
    (hst : (ys.flatMap Xact.stored).map StoredByte.erase = bs.map StoredByte.erase) : HoldsLast w (ys.foldl State.commit w) bs := by
  intro pa b hb
  obtain ⟨c, hc, hval, hattr⟩ := (lastStored_hints hst pa).1 b hb
  rw [← hval]
  refine ⟨fun id a ha => ?_, fun hd => ?_⟩
  · exact State.foldl_commit_byteFor ys w w.cur id a pa c h0 hwf hobs hc (by rw [ha, MemAttr.isDevice_hints hattr]) (.inl rfl)
  · refine State.foldl_commit_reads_mem ys w pa c h0 hwf hc ?_
    exact hd.imp (fun hd => by rw [MemAttr.isDevice_hints hattr]; exact hd) (fun hd y hy => (hhold y hy).trans hd)

/-- Writes of the current observer leave it as it is. -/
theorem State.foldl_commit_me {w : State} {ys : List Xact} (hobs : ∀ y ∈ ys, y.obs = w.cur) : (ys.foldl State.commit w).me = w.me :=
  (foldl_property (fun t : State => t.cur = w.cur ∧ t.me = w.me) _ _ _ ⟨rfl, rfl⟩ (fun t y hy ⟨hcur, hme⟩ => by
    refine ⟨(t.commit_cur y).trans hcur, ?_⟩
    have hself := t.commit_getObs_self y
    rw [hobs y hy, ← hcur] at hself
    rw [State.me_eq, State.commit_cur, hself]
    exact hme)).2

theorem HoldsLast.congr {s s' t t' : State} {bs : List StoredByte} (h : HoldsLast s t bs) (hcur : s'.cur = s.cur)
    (hplan : s'.plan = s.plan) (hp : t'.platform = t.platform) (hm : t'.mem = t.mem) (hl : t'.lines = t.lines)
    (hi : t.inflight = []) (hi' : t'.inflight = []) : HoldsLast s' t' bs := by
  intro pa b hb
  obtain ⟨hbyte, hread⟩ := h pa b hb
  rw [hcur, hplan, hm]
  refine ⟨fun id a ha => ?_, hread⟩
  rw [State.byteFor_congr t' t s.cur id id a pa hp hm hl (by simp [hi']) (by simp [hi])]
  exact hbyte id a ha

/-! ### The reads and the writes of a copy -/

/-- A copy's accesses are the current observer's, and take their bytes from what the copy holds. -/
theorem State.mem_copyXacts {s : State} {rd wr : List RElem} {x : Xact} (h : x ∈ s.copyXacts rd wr) :
    x.Unread s.cur ∧ x.obs = s.cur := by
  rcases List.mem_append.1 h with h | h
  · obtain ⟨-, hd, ho, -⟩ := (mem_xactsOf s _ x h).1
    exact ⟨⟨.inl hd, xactsOf_sourceless s _ (.inr (.inl rfl)) x h⟩, ho⟩
  · obtain ⟨hc, -, ho, -⟩ := (mem_xactsFrom s _ _ x h).1
    exact ⟨⟨.inr ⟨hc, ho⟩, xactsFrom_sourceless s _ _ (.inr (.inl rfl)) x h⟩, ho⟩

/-- The writes of a copy, filled, store in the order of its bytes what its observer holds for them. -/
theorem stored_copyWrites (s : State) (rd wr : List RElem) (k : Nat) {u : State} (hcur : u.cur = s.cur) :
    (((xactsFrom s (s.copyWrites rd wr) k).map u.filled).flatMap Xact.stored).map StoredByte.erase = ((allBytes wr).map (fun b =>
      ({ pa := b.tr.pa, attr := b.tr.attr, val := u.me.regByte .copy b.reg b.lane } : StoredByte))).map StoredByte.erase := by
  have hbs := xactsFrom_flatMap s (s.copyWrites rd wr) k rfl
    (fun a c => ({ pa := c.pa, attr := a.eraseHints, val := u.me.regByte .copy c.reg c.lane } : StoredByte)) (fun a b c hab => by rw [hab])
  rw [List.flatMap_map, List.map_flatMap, List.map_map]
  refine Eq.trans ?_ hbs
  unfold List.flatMap
  refine congrArg List.flatten (List.map_congr_left (fun x hx => ?_))
  obtain ⟨hc, hd, ho, -⟩ := (mem_xactsFrom s _ _ x hx).1
  rw [State.stored_filled_copy u hc hd, List.map_map, ho]
  exact List.map_congr_left (fun c _ => by rw [Function.comp_apply, u.me_eq, hcur]; rfl)

/-- A COPY IN A SIMPLE SEQUENTIAL EXECUTION: the reads bring their bytes to what it holds, and the writes write them from there. -/
theorem State.runCopy_sequential {s : State} {rd wr : List RElem} (h : Sequential s) (hwf : Memory.wf s.mem = true)
    (hme : s.me ≠ Observer.absent) (hq : ∀ x ∈ s.copyXacts rd wr, x.Quiet s.platform) :
    (s.runCopy rd wr none).inflight = [] ∧ (s.runCopy rd wr none).me = putAll s .copy rd s.me ∧
      HoldsLast s (s.runCopy rd wr none) ((allBytes wr).map (fun b =>
        { pa := b.tr.pa, attr := b.tr.attr, val := (putAll s .copy rd s.me).regByte .copy b.reg b.lane })) := by
  obtain ⟨as, ks, he, -⟩ := s.runAccesses_sequential (allBytes rd ++ (s.copyReads rd wr).ex ++ allBytes wr) (s.copyXacts rd wr) id h
    s.me (State.setObs_me hme).symm (s.copyXacts_fresh rd wr) (.inl (fun x hx => State.mem_copyXacts hx))
  unfold State.runCopy
  rw [he, State.setObs_me hme]
  generalize hw : s.touch (allBytes rd ++ (s.copyReads rd wr).ex ++ allBytes wr) = w
  obtain ⟨hw0, hcur, hplat, hplan, hmem, hwme⟩ : w.inflight = [] ∧ w.cur = s.cur ∧ w.platform = s.platform ∧ w.plan = s.plan ∧
      w.mem = s.mem ∧ w.me = s.me := by
    subst hw
    exact ⟨by simpa using h.1, rfl, rfl, rfl, rfl, rfl⟩
  have hbyte : ∀ a pa i, w.byteFor s.cur i a pa = s.byteFor s.cur s.nextId a pa := fun a pa i => by
    subst hw
    exact State.byteFor_congr _ _ _ _ _ _ _ rfl rfl rfl (by simp [h.1]) (by simp [h.1])
  rw [State.foldl_performed_quiet _ w (fun x hx => by rw [hplat]; exact hq x hx), State.copyXacts, List.foldl_append]
  have hreads : ∀ x ∈ xactsOf s (s.copyReads rd wr), x.dir = .read ∧ x.obs = w.cur := fun x hx => by
    obtain ⟨-, hd, ho, -⟩ := (mem_xactsOf s _ x hx).1
    exact ⟨hd, ho.trans hcur.symm⟩
  obtain ⟨hu, hume, -⟩ := State.foldl_perform_reads _ w (fun x hx => (hreads x hx).1) (fun x hx => (hreads x hx).2) hw0
  rw [foldl_receive_xactsOf s w (s.copyReads rd wr) rfl _ hbyte (fun _ _ => rfl), hwme] at hume
  generalize (xactsOf s (s.copyReads rd wr)).foldl State.perform w = u at hu hume
  replace hume : u.me = putAll s .copy rd s.me := hume
  have hucur : u.cur = s.cur := by rw [hu]; exact hcur
  have hwrites : ∀ x ∈ xactsFrom s (s.copyWrites rd wr) (xactsOf s (s.copyReads rd wr)).length,
      x.dir = .write ∧ x.obs = u.cur ∧ x.hold = u.plan.hold := fun x hx => by
    obtain ⟨-, hd, ho, -⟩ := (mem_xactsFrom s _ _ x hx).1
    exact ⟨hd, ho.trans hucur.symm, (mkXact_hold s _ _ x hx).trans (by rw [hu]; simp [hplan])⟩
  have hstored := stored_copyWrites s rd wr (xactsOf s (s.copyReads rd wr)).length hucur
  rw [State.foldl_perform_writes _ u u.cur (fun x hx => (hwrites x hx).1) (fun x hx => (hwrites x hx).2.1), ← hume]
  generalize hys : (xactsFrom s (s.copyWrites rd wr) (xactsOf s (s.copyReads rd wr)).length).map u.filled = ys at hstored
  have hyobs : ∀ y ∈ ys, y.obs = u.cur ∧ y.hold = u.plan.hold := fun y hy => by
    subst hys
    obtain ⟨x, hx, rfl⟩ := List.mem_map.1 hy
    exact ⟨(u.filled_obs x).trans (hwrites x hx).2.1, (u.filled_hold x).trans (hwrites x hx).2.2⟩
  have hu0 : u.inflight = [] := by rw [hu]; exact hw0
  refine ⟨rfl, State.foldl_commit_me (fun y hy => (hyobs y hy).1), ?_⟩
  refine (State.foldl_commit_holdsLast hu0 (by rw [hu]; exact hmem ▸ hwf) (fun y hy => (hyobs y hy).1) (fun y hy => (hyobs y hy).2)
    hstored).congr hucur.symm (by rw [hu]; exact hplan.symm) rfl rfl rfl ?_ rfl
  rw [State.foldl_commit_inflight, hu0]

/-- A copy of an observer that is not there makes no access. -/
theorem State.copyXacts_of_absent {s : State} (h : s.me = Observer.absent) {src dst : List Elem} {rd wr : List RElem}
    (hr : resolve s.platform s.me .copy src = .ok rd) (hw : resolve s.platform s.me .copy dst = .ok wr) : s.copyXacts rd wr = [] := by
  have hex : s.extraBytes .memCopy rd [] = [] := List.eq_nil_iff_forall_not_mem.2 (fun b hb => by
    obtain ⟨va, hva⟩ := State.extraBytes_tr b hb
    rw [h] at hva
    cases hva)
  have hreads : xactsOf s (s.copyReads rd wr) = [] := xactsFrom_nil s _ 0 (allBytes_of_absent h hr) hex
  rw [State.copyXacts, hreads, xactsFrom_nil s (s.copyWrites rd wr) _ (allBytes_of_absent h hw) rfl]
  rfl

/-- Core Lean has this of `List.map` alone. -/
theorem filterMap_congr_of_mem {α β : Type} {f g : α → Option β} {l : List α} (h : ∀ a ∈ l, f a = g a) : l.filterMap f = l.filterMap g := by
  have hmap := congrArg (List.filterMap id) (List.map_congr_left h)
  rwa [List.filterMap_map, List.filterMap_map] at hmap

/-- What a copy writes is what its source held. -/
theorem copyBytes_eq {s : State} {a d n base : Nat} {rd wr : List RElem}
    (hr : resolve s.platform s.me .copy (copyElems a n base) = .ok rd) (hw : resolve s.platform s.me .copy (copyElems d n base) = .ok wr) :
    (allBytes wr).map (fun b => { pa := b.tr.pa, attr := b.tr.attr, val := (putAll s .copy rd s.me).regByte .copy b.reg b.lane }) =
      copyBytes s a d n := by
  rw [putAll_eq_loadElems s .copy _ rd s.me hr, allBytes_copyElems hw, List.map_filterMap, copyBytes]
  refine filterMap_congr_of_mem (fun k hk => ?_)
  obtain ⟨t, ht⟩ := copyElems_translates hr (List.mem_range.1 hk)
  rw [ht]
  cases dataTr s.platform s.me.ctl (d + k) with
  | none => rfl
  | some t' =>
    simp only [Option.map_some]
    rw [regByte_loadElems_copy s s.me (List.mem_range.1 hk) ht]

/-- Settles O24: the copy reads its bytes into what it holds and writes them from there. -/
theorem copyMovesTheBytes : Obligations.CopyMovesTheBytes := by
  intro rd rs rn s src dst hfeat hseq hwf hsrc hdst hadm hquiet
  obtain ⟨a, b, first, ha, hb, hfirst, hv, hq⟩ := admitted_cases hadm hquiet
  cases hfirst
  subst hsrc hdst
  have hcut : ∀ c, s.cutShort c none = none := fun c => by cases c <;> simp [State.cutShort, hseq.2.2.2]
  have hexec : exec (.cpy rd rs rn) s = .next ((s.walk (s.instrWalks .memCopy a b [])).runCopy a b none) := by
    rw [exec, execCpy, requireFeature_of_present hfeat, State.settle_idle _ _ _ hseq.1]
    simp only [show resolve s.platform s.me .copy _ = .ok a from ha, show resolve s.platform s.me .copy _ = .ok b from hb,
      show s.verdict .memCopy a b [] = .go from hv, hcut]
  have hinside : Inside s (s.instrWalks .memCopy a b []) (s.copyXacts a b) ((s.reached .memCopy a b []).map (fun b => b.tr.pa)) :=
    .reached (fun _ hw => hw) (fun _ hx _ hb => State.copyXacts_bytes hx hb)
  obtain ⟨hxs, hmem⟩ := hinside.quiet hq
  rw [hexec]
  refine ⟨_, rfl, ?_⟩
  generalize hw : s.walk (s.instrWalks .memCopy a b []) = w at hmem
  obtain ⟨hwseq, hcur, hme, hplan, hplat, hwxs, hid⟩ : Sequential w ∧ w.cur = s.cur ∧ w.me = s.me ∧ w.plan = s.plan ∧
      w.platform = s.platform ∧ w.copyXacts a b = s.copyXacts a b ∧ w.nextId = s.nextId := by
    subst hw
    exact ⟨hseq.walk _, by simp, s.me_walk _, by simp, by simp, s.copyXacts_walk _ a b, by simp⟩
  by_cases habs : s.me = Observer.absent
  · have hnone : copyBytes s (s.me.xreg rs).toNat (s.me.xreg rd).toNat (s.me.xreg rn).toNat = [] := by
      rw [← copyBytes_eq ha hb, allBytes_of_absent habs hb]; rfl
    rw [State.runCopy, hwxs, State.copyXacts_of_absent habs ha hb, State.runAccesses_nil hwseq, hnone]
    exact ⟨by rw [show (((id w).touch _).issue []).me = w.me from rfl, hme], by simpa using hwseq.1, fun _ _ h => nomatch h⟩
  · obtain ⟨hflight, htme, hholds⟩ := State.runCopy_sequential (rd := a) (wr := b) hwseq (hmem ▸ hwf) (hme ▸ habs)
      (fun x hx => by rw [hplat]; exact hxs x (hwxs ▸ hx))
    have hput : putAll w .copy a w.me = putAll s .copy a s.me := by
      have hbyte : ∀ m pa, w.byteFor w.cur w.nextId m pa = s.byteFor s.cur s.nextId m pa := fun m pa => by
        rw [hcur, hid]; subst hw; exact State.byteFor_walkReads _ _ _ _ _ _ _ _ hmem
      simp only [putAll, hbyte, hme]
    rw [hput] at htme hholds
    rw [copyBytes_eq ha hb] at hholds
    refine ⟨?_, hflight, fun pa c hc => ?_⟩
    · rw [htme]; exact putAll_copy s a s.me
    · rw [← hcur, ← hplan]; exact hholds pa c hc

end Sys2Proof.Machine
end

section
/-! The statements on exceptions: what holds the program until the return, and the stage and the syndrome of the Alignment fault
where all locations are Device. -/

namespace Sys2Proof.Machine

open Sys2Proof

/-! ### An exception and its return (60_exceptions.md R244, R248, R250; logs 10, 21) -/

/-- A run input, or none, runs the next instruction with the plan that is given. -/
theorem step_runs {s : State} {p : Plan} {rest : List Event}
    (h : s.inputs = .run p :: rest ∨ (s.inputs = [] ∧ rest = [] ∧ p = Config.freePlan s.clock)) :
    step s = ({ s with inputs := rest, plan := p } : State).runNext := by
  unfold step
  rcases h with h | ⟨h, rfl, rfl⟩ <;> rw [h]

/-- While an exception is pending only time passes. -/
theorem State.runNext_of_pending {s : State} {h : Handler} (hh : s.me.handler = some h) : s.runNext = .next s.tick := by
  have hidle : s.nextInstruction = .idle := by simp only [State.nextInstruction, hh]
  rw [State.runNext, hidle]

theorem State.externalException_of_none {s : State} {o : Nat} (h : (s.getObs o).handler = none) :
    s.externalException o = s.setObs o { s.getObs o with handler := some { cause := .external, slot := none, restarts := false } } := by
  rw [State.externalException, h]

theorem State.returnFromException_of_pending {s : State} {o : Nat} (retry : Bool) {h : Handler} (hh : (s.getObs o).handler = some h) :
    s.returnFromException o retry = s.setObs o { s.getObs o with
      handler := none
      program := if h.restarts = true ∨ retry = true then h.slot.toList ++ (s.getObs o).program else (s.getObs o).program } := by
  simp only [State.returnFromException, hh, Bool.or_eq_true]

/-- Settles O5: one lemma for each of the two inputs and one for a step while the exception is pending. -/
theorem exceptionsHoldTheProgram : Obligations.ExceptionsHoldTheProgram :=
  ⟨fun _ _ hnone => congrArg _ (State.externalException_of_none hnone),
   fun _ _ _ _ hinputs hpending => (step_runs hinputs).trans (State.runNext_of_pending hpending),
   fun _ _ retry _ hpending => congrArg _ (State.returnFromException_of_pending retry hpending)⟩

/-! ### TGE and not DC (21_device_memory.md R137; 60_exceptions.md R243; log 5) -/

theorem allDevice_of_tge {p : Platform} {c : PeCtl} (hel2 : p.haveEL2 = true) (htge : c.hcrTGE = true) (hdc : c.hcrDC = false)
    (hel : c.el = .el0 ∨ c.el = .el1) : allDevice p c = true := by
  rcases hel with hel | hel <;> simp [allDevice, PeCtl.isEL10, hel2, htge, hdc, hel]

/-- Where all locations are Device, a translation gives a Device record at stage 1. -/
theorem dataTr_of_allDevice {p : Platform} {c : PeCtl} (h : allDevice p c = true) {va : Nat} {t : Tr} (ht : dataTr p c va = some t) :
    t.attr.isDevice = true ∧ t.stage = .s1 := by
  obtain ⟨u, -, rfl⟩ := Option.map_eq_some_iff.1 ht
  rw [if_pos h]
  exact ⟨rfl, rfl⟩

/-- There an Alignment fault of either stage leaves ISS[24] clear, whatever the rest of the syndrome. -/
theorem esrAfter_alignment_bit24 {p : Platform} {c : PeCtl} (h : allDevice p c = true) (st : Stage) (syndrome old : Word) :
    (esrAfter p c (.alignment st) syndrome old).getLsbD 24 = false := by
  rw [esrAfter, if_pos h]
  simp

/-- Settles O37: TGE and not DC make all locations of the regime Device, from which both clauses follow. -/
theorem tgeFaultsAreAtStageOne : Obligations.TgeFaultsAreAtStageOne := by
  intro s hel2 htge hdc hel
  have hall := allDevice_of_tge hel2 htge hdc hel
  refine ⟨fun va t ht => dataTr_of_allDevice hall ht, fun st again => ?_⟩
  rw [State.takeException_me]
  exact esrAfter_alignment_bit24 hall st _ _

end Sys2Proof.Machine
end

section
/-! The whole-machine rules: what every step keeps of the order of arrival, of the caches, of the acknowledgements and of
the accesses that arrive once. -/

namespace Sys2Proof.Machine

open Sys2Proof

section

variable {lo : Nat} {s t : State}

/-- A change makes no mark but one before the next access. -/
theorem Change.marks (h : Change lo s t) (o : Nat) : ∀ m ∈ (t.getObs o).marks, m ∈ (s.getObs o).marks ∨ m.at_ = s.nextId := by
  cases h with
  | observer o' v hm hc =>
    rw [State.getObs_setObs]
    split
    · next e => subst e; exact fun m h => .inl (hm m h)
    · exact fun m h => .inl h
  | mark k n =>
    intro m hm
    rcases s.getObs_addMark_marks k n o with h | h <;> rw [h] at hm
    · exact .inl hm
    · rcases List.mem_append.1 hm with hm | hm
      · exact .inl hm
      · rw [List.mem_singleton.1 hm]; exact .inr rfl
  | transact xs again hs hp hg ha => rw [(s.transact_sameShape xs again).marks]; exact fun m h => .inl h
  | answer x vals hx hd =>
    rw [((s.deliverTo_sameShape x vals).trans (State.retire_sameShape _ x)).marks]; exact fun m h => .inl h
  | earlyAck id => obtain ⟨l, hl⟩ := s.earlyAckOf_frame id; rw [hl]; exact fun m h => .inl h
  | writeback sel => rw [State.getObs_congr (s.writebackToMem_obs sel)]; exact fun m h => .inl h
  | _ => exact fun m h => .inl h

/-- A change orders no pair of accesses anew whose later one was there. -/
theorem Change.mustPrecede (h : Change lo s t) {a b : Xact} (hb : b.id < s.nextId) (hp : t.mustPrecede a b = true) :
    s.mustPrecede a b = true := by
  have between (hm : barrierBetween t.platform (t.getObs a.obs).marks [.dmb] a b = true) :
      barrierBetween s.platform (s.getObs a.obs).marks [.dmb] a b = true := by
    obtain ⟨m, hm, hk⟩ := List.any_eq_true.1 hm
    simp only [Bool.and_eq_true, decide_eq_true_eq] at hk
    obtain ⟨⟨⟨hk, ha⟩, hmb⟩, haff⟩ := hk
    rcases h.marks a.obs m hm with hm | hm
    · rw [h.platform] at haff
      exact List.any_eq_true.2 ⟨m, hm, by simp [List.contains_iff_mem.1 hk |> List.mem_singleton.1, ha, hmb, haff]⟩
    · omega
  simp only [State.mustPrecede, State.ob, State.bob, h.platform, h.relations.1, h.relations.2, Bool.and_eq_true,
    Bool.or_eq_true] at hp ⊢
  rw [h.platform] at between
  obtain ⟨hpair, hfeeds | ⟨hinstr, (hnr | ((⟨hmay, hbar⟩ | hbob) | hob)) | hloc⟩⟩ := hp
  · exact ⟨hpair, .inl hfeeds⟩
  · exact ⟨hpair, .inr ⟨hinstr, .inl (.inl hnr)⟩⟩
  · exact ⟨hpair, .inr ⟨hinstr, .inl (.inr (.inl (.inl ⟨hmay, between hbar⟩)))⟩⟩
  · exact ⟨hpair, .inr ⟨hinstr, .inl (.inr (.inl (.inr hbob)))⟩⟩
  · exact ⟨hpair, .inr ⟨hinstr, .inl (.inr (.inr hob))⟩⟩
  · exact ⟨hpair, .inr ⟨hinstr, .inr hloc⟩⟩

/-- What was performed at once with other accesses: some of those in flight, which may be gathered, with nothing in flight that
must precede one of them. -/
structure Transacted (s t : State) (xs : List Xact) (again : List Nat) : Prop where
  eq : t = s.transact xs again
  sub : xs.Sublist s.inflight
  first : ∀ y ∈ s.inflight, (∀ x ∈ xs, y.id ≠ x.id) → ∀ x ∈ xs, s.mustPrecede y x = false
  gather : s.allGather xs = true
  recur : ∀ x ∈ xs, x.id ∈ again → ∀ y ∈ xs, s.mustPrecede x y = false

/-- Accesses of instructions arrive by a transaction alone. -/
theorem Change.arrivals (h : Change lo s t) :
    (∃ xs again, Transacted s t xs again) ∨ ∃ l, t.arrivals = s.arrivals ++ l ∧ ∀ e ∈ l, e.xs = [] := by
  cases h with
  | transact xs again hs hp hg ha => exact .inl ⟨xs, again, rfl, hs, hp, hg, ha⟩
  | answer x vals hx hd => exact .inr ⟨[], by simp, by simp⟩
  | earlyAck id => obtain ⟨l, hl⟩ := s.earlyAckOf_frame id; rw [hl]; exact .inr ⟨[], by simp, by simp⟩
  | arrive a h => exact .inr ⟨[a], rfl, by simpa using h⟩
  | writeback sel =>
    right
    unfold State.writebackToMem
    split
    · exact ⟨[], by simp, by simp⟩
    · exact ⟨_, rfl, by simp⟩
  | _ => exact .inr ⟨[], by simp, by simp⟩

/-- What is in flight after a change was in flight before it, but for its fuel, or has a new number. -/
theorem Change.inflight (h : Change lo s t) : ∀ y ∈ t.inflight, (∃ n, { y with fuel := n } ∈ s.inflight) ∨ s.nextId ≤ y.id := by
  intro y hy
  have old (hy : y ∈ s.inflight) : (∃ n, { y with fuel := n } ∈ s.inflight) ∨ s.nextId ≤ y.id := .inl ⟨y.fuel, hy⟩
  cases h with
  | issue xs hf =>
    rcases List.mem_append.1 hy with hy | hy
    · exact old hy
    · exact .inr (hf.id_ge y hy)
  | abandon p hp => exact old (List.mem_filter.1 hy).1
  | transact xs again hs hp hg ha => exact old (s.transact_sub xs again y hy)
  | answer x vals hx hd =>
    rw [State.retire_inflight, State.deliverTo_inflight] at hy
    exact old (List.mem_filter.1 hy).1
  | earlyAck id => obtain ⟨l, hl⟩ := s.earlyAckOf_frame id; rw [hl] at hy; exact old hy
  | writeback sel => rw [State.writebackToMem_inflight] at hy; exact old hy
  | age hf =>
    obtain ⟨x, hx, rfl⟩ := List.mem_map.1 hy
    exact .inl ⟨x.fuel, hx⟩
  | _ => exact old hy

namespace Transacted

variable {xs : List Xact} {again : List Nat}

/-- The accesses of the transaction that are seen at an endpoint arrive together. -/
theorem arrivals (h : Transacted s t xs again) :
    ∃ l, t.arrivals = s.arrivals ++ l ∧ (l.flatMap Arrival.xs = xs.filter s.reachesEndpoint) ∧
      (l = [] ∨ ∃ a, l = [a] ∧ a.xs = xs.filter s.reachesEndpoint) := by
  rw [h.eq, State.transact_arrivals]
  rcases s.logGroup_arrivals xs with ⟨e, hx⟩ | ⟨a, e, -, hx, -, -⟩
  · exact ⟨[], by simp [e], by simp [hx], .inl rfl⟩
  · exact ⟨[a], e, by simp [hx], .inr ⟨a, rfl, hx⟩⟩

theorem arrived (h : Transacted s t xs again) : t.arrived = s.arrived ++ xs.filter s.reachesEndpoint := by
  obtain ⟨l, hl, hx, -⟩ := h.arrivals
  simp [State.arrived, hl, hx]

/-- An access that is in flight before and after was not performed, or is to be performed again. -/
theorem stays (h : Transacted s t xs again) {x : Xact} (hx : x ∈ t.inflight) :
    x ∈ s.inflight ∧ ∀ y ∈ xs, x.id = y.id → y.id ∈ again ∧ y.repeatable = true := by
  rw [h.eq, State.transact_inflight_again] at hx
  obtain ⟨hx, hk⟩ := List.mem_filter.1 hx
  refine ⟨hx, fun y hy e => ?_⟩
  have := List.all_eq_true.1 hk y hy
  simpa [e] using this

/-- Nothing that stays in flight must precede an access of the transaction. -/
theorem not_mustPrecede (h : Transacted s t xs again) (hs : NumbersOk s) {x y : Xact} (hx : x ∈ t.inflight) (hy : y ∈ xs) :
    s.mustPrecede x y = false := by
  obtain ⟨hin, hstay⟩ := h.stays hx
  by_cases hc : ∃ z ∈ xs, x.id = z.id
  · obtain ⟨z, hz, e⟩ := hc
    obtain rfl := hs.eq_of_id hin (h.sub.subset hz) e
    exact h.recur x hz (hstay x hz rfl).1 y hy
  · exact h.first x hin (fun z hz e => hc ⟨z, hz, e⟩) y hy

end Transacted

theorem State.mem_arrived {s : State} {a : Xact} : a ∈ s.arrived ↔ ∃ e ∈ s.arrivals, a ∈ e.xs := List.mem_flatMap

/-- No change lets an access arrive before one that must precede it. -/
theorem Change.arrivalOrderOk (h : Change lo s t) (hs : NumbersOk s) (ho : ArrivalOrderOk s) : ArrivalOrderOk t := by
  have ⟨_, hnum, hold, _⟩ := hs
  obtain ⟨hover, hpairs⟩ := ho
  have keep {a b : Xact} (hb : b.id < s.nextId) (hp : s.mustPrecede a b = false) : t.mustPrecede a b = false := by
    rw [Bool.eq_false_iff] at hp ⊢
    exact fun k => hp (h.mustPrecede hb k)
  have hpairs' : s.arrivals.Pairwise (fun e l => ∀ a ∈ e.xs, ∀ b ∈ l.xs, t.mustPrecede b a = false) :=
    hpairs.imp_of_mem (fun he _ k a ha b hb => keep (hold a (State.mem_arrived.2 ⟨_, he, ha⟩)).1 (k a ha b hb))
  have hover' : ∀ a ∈ s.arrived, ∀ x ∈ t.inflight, t.mustPrecede x a = false := by
    intro a ha x hx
    rcases h.inflight x hx with ⟨n, hn⟩ | hn
    · have hp : s.mustPrecede x a = false := hover a ha { x with fuel := n } hn
      exact keep (hold a ha).1 hp
    · rw [Bool.eq_false_iff]
      have := (hold a ha).1
      exact fun k => by have := State.mustPrecede_lt k; omega
  rcases h.arrivals with ⟨xs, again, hx⟩ | ⟨l, hl, hxs⟩
  · refine ⟨fun a ha x hin => ?_, ?_⟩
    · rw [hx.arrived] at ha
      rcases List.mem_append.1 ha with ha | ha
      · exact hover' a ha x hin
      · have ha := (List.mem_filter.1 ha).1
        exact keep (hnum a (hx.sub.subset ha)).1 (hx.not_mustPrecede hs hin ha)
    · obtain ⟨l, hl, -, rfl | ⟨e, rfl, he⟩⟩ := hx.arrivals
      · simpa [hl] using hpairs'
      · rw [hl, List.pairwise_append]
        refine ⟨hpairs', List.pairwise_singleton _ _, fun d hd e' he' a ha b hb => ?_⟩
        obtain rfl := List.mem_singleton.1 he'
        have ha : a ∈ s.arrived := State.mem_arrived.2 ⟨d, hd, ha⟩
        rw [he] at hb
        exact keep (hold a ha).1 (hover a ha b (hx.sub.subset (List.mem_filter.1 hb).1))
  · have harr : t.arrived = s.arrived := by
      have : l.flatMap Arrival.xs = [] := by simpa [List.flatMap_eq_nil_iff] using hxs
      simp [State.arrived, hl, this]
    refine ⟨harr ▸ hover', ?_⟩
    rw [hl, List.pairwise_append]
    refine ⟨hpairs', ?_, fun d _ e he a _ b hb => by simp [hxs e he] at hb⟩
    exact List.pairwise_of_forall_mem_list (fun d hd e _ a ha => by simp [hxs d hd] at ha)

end

/-- What every change of a state with ordered numbers keeps, every step keeps. -/
theorem step_keeps {P : State → Prop} (hP : ∀ lo s t, NumbersOk s → Change lo s t → P s → P t) {s t : State} (hn : NumbersOk s)
    (h : step s = .next t) (hs : P s) : P t :=
  ((step_changes s t hn h).keeps (P := fun u => NumbersOk u ∧ P u)
    (fun u v ⟨hu, hp⟩ k => ⟨k.numbersOk hu, hP _ u v hu k hp⟩) ⟨hn, hs⟩).2

/-- Settles O55: every primitive change of a step keeps the order. -/
theorem stepsKeepTheArrivalOrder : Obligations.StepsKeepTheArrivalOrder := by
  unfold Obligations.StepsKeepTheArrivalOrder
  intro s t hn ho h
  exact step_keeps (fun _ _ _ hu k => k.arrivalOrderOk hu) hn h ho

end Sys2Proof.Machine
end

section
namespace Sys2Proof.Machine

open Sys2Proof

theorem MemAttr.isNormal_of_not_isDevice {a : MemAttr} (h : a.isDevice = false) : a.isNormal = true := by
  obtain ⟨ty, xs⟩ := a
  cases ty with
  | normal n => rfl
  | device d => cases h

/-! ### Caches (21_device_memory.md R130) -/

/-- A write leaves copies of its own record, which is Normal, and such as were there. -/
theorem State.commit_lines_attr (s : State) (x : Xact) {m : Line} (h : m ∈ (s.commit x).lines) :
    m.attr.isNormal = true ∨ ∃ l ∈ s.lines, m.attr = l.attr := by
  have kept {keep : Line → Option Line} (hk : ∀ l n, keep l = some n → n.attr = l.attr) (hm : m ∈ s.keptLines x keep) :
      ∃ l ∈ s.lines, m.attr = l.attr := by
    obtain ⟨l, hl, ⟨-, rfl⟩ | ⟨-, he⟩⟩ := s.mem_keptLines x keep m hm
    · exact ⟨_, hl, rfl⟩
    · exact ⟨l, hl, hk l m he⟩
  rw [State.commit_lines] at h
  split at h
  · exact .inr ⟨m, h, rfl⟩
  · next hd =>
    split at h
    · rcases List.mem_append.1 h with h | h
      · rw [(mem_dirtyLines h).2.2.2.1]
        exact .inl (MemAttr.isNormal_of_not_isDevice (by simpa using hd))
      · refine .inr (kept (fun l n he => ?_) h)
        rcases (Line.afterHeld_some he).1 with rfl | rfl <;> rfl
    · refine .inr (kept (fun l n he => ?_) h)
      obtain ⟨u, -, -, rfl⟩ := Line.afterThrough_some he
      rfl

theorem State.perform_cachesHoldNormal (s : State) (x : Xact) (h : CachesHoldNormal s) : CachesHoldNormal (s.perform x) := by
  unfold State.perform
  split
  · intro l hl; rw [State.deliverTo_lines] at hl; exact h l hl
  · intro l hl
    rcases s.commit_lines_attr _ hl with hn | ⟨m, hm, he⟩
    · exact hn
    · rw [he]; exact h m hm

theorem State.writebackToMem_lines_attr (s : State) (sel : Line → Bool) {m : Line} (h : m ∈ (s.writebackToMem sel).lines) :
    ∃ l ∈ s.lines, m.attr = l.attr := by
  unfold State.writebackToMem at h
  split at h
  · exact ⟨m, h, rfl⟩
  · obtain ⟨l, hl, rfl | rfl⟩ := mem_linesAfter sel [] s.lines m h <;> exact ⟨_, hl, rfl⟩

/-- No change puts Device memory into a cache. -/
theorem Change.cachesHoldNormal {lo : Nat} {s t : State} (h : Change lo s t) (hs : CachesHoldNormal s) : CachesHoldNormal t := by
  cases h with
  | transact xs again hsub hp hg ha =>
    intro l hl
    rw [State.transact_lines] at hl
    refine foldl_property CachesHoldNormal State.perform xs _ ?_ (fun u x _ hu => u.perform_cachesHoldNormal x hu) l hl
    intro m hm
    exact hs m (((s.logGroup_lines xs) ▸ hm))
  | answer x vals hx hd => intro l hl; rw [State.retire_lines, State.deliverTo_lines] at hl; exact hs l hl
  | earlyAck id =>
    obtain ⟨acks, e⟩ := s.earlyAckOf_frame id
    rw [e]; exact hs
  | caches ls hls =>
    intro l hl
    rcases hls l hl with hn | ⟨m, hm, he⟩
    · exact hn
    · rw [he]; exact hs m hm
  | writeback sel =>
    intro l hl
    obtain ⟨m, hm, he⟩ := s.writebackToMem_lines_attr sel hl
    rw [he]; exact hs m hm
  | _ => exact hs

theorem State.mem_dirtyOf (s : State) (sel : Line → Bool) {l : Line} (h : l ∈ s.dirtyOf sel) : l ∈ s.lines ∧ l.dirty = true := by
  obtain ⟨hl, hd⟩ := List.mem_filter.1 (List.mem_reverse.1 h)
  exact ⟨hl, (Bool.and_eq_true_iff.1 hd).1⟩

/-- A write back arrives with the bytes of the dirty copies it selects. -/
theorem State.writebackToMem_arrivals (s : State) (sel : Line → Bool) : ∃ l, (s.writebackToMem sel).arrivals = s.arrivals ++ l ∧
    ∀ a ∈ l, a.bytes = (s.dirtyOf sel).map Line.pa := by
  unfold State.writebackToMem
  split
  · exact ⟨[], by simp, by simp⟩
  · next l ls hd => exact ⟨_, rfl, by simp [hd]⟩

/-- Settles O56: every primitive change keeps Device memory out of the caches; a read with a Device record takes the first
branch of `State.byteFor`, and a write back the dirty copies there are. -/
theorem cachesNeverHoldDeviceMemory : Obligations.CachesNeverHoldDeviceMemory := by
  unfold Obligations.CachesNeverHoldDeviceMemory
  refine ⟨fun s t hn hc h => step_keeps (fun _ _ _ _ k => k.cachesHoldNormal) hn h hc, fun s o id a pa ha => if_pos ha,
    fun s sel hc => ?_⟩
  obtain ⟨l, hl, hb⟩ := s.writebackToMem_arrivals sel
  refine ⟨l, hl, fun a ha pa hpa => ?_⟩
  rw [hb a ha] at hpa
  obtain ⟨m, hm, rfl⟩ := List.mem_map.1 hpa
  obtain ⟨hm, hd⟩ := s.mem_dirtyOf sel hm
  exact ⟨m, hm, rfl, hd, hc m hm⟩

/-! ### Acknowledgements (21_device_memory.md R165, R166) -/

/-- What is acknowledged when a transaction is done are Device writes of it, by the endpoint. -/
theorem State.foldl_finish_acks (again : List Nat) (xs : List Xact) (s : State) :
    ∀ a ∈ (xs.foldl (State.finish again) s).acks,
      a ∈ s.acks ∨ a.byEndpoint = true ∧ a.x ∈ xs ∧ a.x.attr.isDevice = true := by
  refine foldl_property (fun u => ∀ a ∈ u.acks, a ∈ s.acks ∨ a.byEndpoint = true ∧ a.x ∈ xs ∧ a.x.attr.isDevice = true)
    (State.finish again) xs s (fun a ha => .inl ha) (fun u x hx hu a ha => ?_)
  unfold State.finish at ha
  split at ha
  · exact hu a ha
  · rw [State.retire_acks] at ha
    unfold State.endpointAck at ha
    split at ha
    · next hc =>
      simp only [Bool.and_eq_true] at hc
      rcases List.mem_append.1 ha with ha | ha
      · exact hu a ha
      · obtain rfl := List.mem_singleton.1 ha
        exact .inr ⟨rfl, hx, hc.1.2⟩
    · exact hu a ha

theorem State.transact_acks (s : State) (xs : List Xact) (again : List Nat) :
    ∀ a ∈ (s.transact xs again).acks, a ∈ s.acks ∨ a.byEndpoint = true ∧ a.x ∈ xs ∧ a.x.attr.isDevice = true := by
  intro a ha
  rcases State.foldl_finish_acks again xs _ a ha with h | h
  · rw [State.reactGroup_acks, foldl_keeps State.acks State.perform (fun u x => u.perform_acks x), State.logGroup_acks] at h
    exact .inl h
  · exact .inr h

/-- An early acknowledgement is one of a write whose endpoint need not give it. -/
theorem State.earlyAckOf_acks (s : State) (id : Nat) :
    ∀ a ∈ (s.earlyAckOf id).acks, a ∈ s.acks ∨ s.endpointMustAck a.x = false := by
  intro a ha
  unfold State.earlyAckOf at ha
  split at ha
  · exact .inl ha
  · split at ha
    · next hc =>
      simp only [Bool.and_eq_true, Bool.not_eq_true'] at hc
      rcases List.mem_append.1 ha with ha | ha
      · exact .inl ha
      · obtain rfl := List.mem_singleton.1 ha
        exact .inr hc.1.2
    · exact .inl ha

/-- Whether the endpoint must acknowledge a write is a parameter's. -/
theorem State.endpointMustAck_congr {s t : State} (h : t.platform = s.platform) (x : Xact) :
    t.endpointMustAck x = s.endpointMustAck x := by
  unfold State.endpointMustAck; rw [h]

/-- Every acknowledgement of a change keeps the rule. -/
theorem Change.acksOk {lo : Nat} {s t : State} (h : Change lo s t) (hs : AcksOk s) : AcksOk t := by
  obtain ⟨l, harr, -⟩ := h.arrived
  have keep : ∀ a ∈ s.acks, t.endpointMustAck a.x = true → a.byEndpoint = true ∧ ∃ y ∈ t.arrived, y.id = a.x.id := by
    intro a ha hm
    rw [State.endpointMustAck_congr h.platform] at hm
    obtain ⟨he, y, hy, hid⟩ := hs a ha hm
    exact ⟨he, y, by rw [harr]; exact List.mem_append_left l hy, hid⟩
  have hp := h.platform
  intro a ha hm
  cases h with
  | transact xs again hsub hfirst hg hr =>
    rcases s.transact_acks xs again a ha with ha | ⟨he, hx, hd⟩
    · exact keep a ha hm
    · have ht : Transacted s (s.transact xs again) xs again := ⟨rfl, hsub, hfirst, hg, hr⟩
      refine ⟨he, a.x, ?_, rfl⟩
      rw [ht.arrived]
      exact List.mem_append_right _ (List.mem_filter.2 ⟨hx, by simp [State.reachesEndpoint, hd]⟩)
  | answer x vals hx hd => rw [State.retire_acks, State.deliverTo_acks] at ha; exact keep a ha hm
  | earlyAck id =>
    rcases s.earlyAckOf_acks id a ha with ha | hno
    · exact keep a ha hm
    · rw [State.endpointMustAck_congr hp, hno] at hm; cases hm
  | writeback sel => rw [State.writebackToMem_acks] at ha; exact keep a ha hm
  | _ => exact keep a ha hm

theorem State.endpointMustAck_iff (s : State) (x : Xact) : s.endpointMustAck x = true ↔
    x.dt = some .nGnRnE ∧ ∃ b ∈ x.bs, (regionAt s.platform b.pa).ackRequired = true := by
  simp [State.endpointMustAck]

/-- The early acknowledgement of a Device write that has none, where R166 permits it. -/
theorem State.earlyAckOf_eq (s : State) {x : Xact} (hx : s.findXact x.id = some x) (hd : x.dir = .write)
    (ha : x.attr.isDevice = true) (hk : ∀ a ∈ s.acks, a.x.id ≠ x.id) : s.earlyAckOf x.id =
      if s.endpointMustAck x then s else { s with acks := s.acks ++ [{ x := x, byEndpoint := false }] } := by
  have hk : s.acks.any (fun a => a.x.id == x.id) = false := List.any_eq_false.2 (fun a h => by simpa using hk a h)
  simp only [State.earlyAckOf, hx, hd, ha, hk]
  cases s.endpointMustAck x <;> rfl

/-- Settles O57: every primitive change keeps the rule, and an early acknowledgement asks whether the endpoint must give it. -/
theorem onlyEndpointsAcknowledgeNEWrites : Obligations.OnlyEndpointsAcknowledgeNEWrites := by
  unfold Obligations.OnlyEndpointsAcknowledgeNEWrites
  refine ⟨fun s t hn hk h => step_keeps (fun _ _ _ _ k => k.acksOk) hn h hk, fun s x hx hd ha hk => ?_⟩
  have hh : s.handle (.earlyAck x.id) = .next (s.earlyAckOf x.id) := rfl
  rw [hh, s.earlyAckOf_eq hx hd ha hk]
  refine ⟨fun hm => by rw [if_pos ((s.endpointMustAck_iff x).2 hm)], fun hm => congrArg Host.Outcome.next (if_neg (fun h => ?_))⟩
  obtain ⟨hdt, b, hb, hr⟩ := (s.endpointMustAck_iff x).1 h
  rcases hm with hm | hm
  · exact hm hdt
  · rw [hm b hb] at hr; cases hr

end Sys2Proof.Machine
end

section
/-! The rules of what arrives once and of what may be gathered (21_device_memory.md R142, R145, R174). -/

namespace Sys2Proof.Machine

open Sys2Proof

/-- An access that arrives through a change was in flight, and stays there only to be performed again. -/
theorem Change.arrivesOnce {lo : Nat} {s t : State} (h : Change lo s t) (hn : NumbersOk s) (hs : ArrivesOnce s) :
    ArrivesOnce t := by
  have ⟨hsorted, _, hold, _⟩ := hn
  obtain ⟨hflight, hpairs⟩ := hs
  have old : ∀ x ∈ t.inflight, ∀ a ∈ s.arrived, a.id = x.id → a.repeatable = true ∧ x.repeatable = true := by
    intro x hx a ha e
    rcases h.inflight x hx with ⟨n, hx⟩ | hx
    · exact hflight { x with fuel := n } hx a ha e
    · have := (hold a ha).1; omega
  rcases h.arrivals with ⟨xs, again, hx⟩ | ⟨l, hl, hxs⟩
  · refine ⟨fun x hin a ha e => ?_, ?_⟩
    · rw [hx.arrived] at ha
      rcases List.mem_append.1 ha with ha | ha
      · exact old x hin a ha e
      · have ha := (List.mem_filter.1 ha).1
        obtain ⟨hin, hstay⟩ := hx.stays hin
        obtain rfl := hn.eq_of_id hin (hx.sub.subset ha) e.symm
        exact ⟨(hstay x ha rfl).2, (hstay x ha rfl).2⟩
    · rw [hx.arrived, List.pairwise_append]
      refine ⟨hpairs, ?_, fun a ha b hb hr e => ?_⟩
      · have hxs := hsorted.sublist ((List.filter_sublist (p := s.reachesEndpoint)).trans hx.sub)
        exact hxs.imp (S := fun a b : Xact => a.repeatable = false → a.id ≠ b.id) (fun hlt _ => Nat.ne_of_lt hlt)
      · have := (hflight b (hx.sub.subset (List.mem_filter.1 hb).1) a ha e).1
        rw [hr] at this; cases this
  · have harr : t.arrived = s.arrived := by
      have : l.flatMap Arrival.xs = [] := by simpa [List.flatMap_eq_nil_iff] using hxs
      simp [State.arrived, hl, this]
    exact ⟨harr ▸ old, harr ▸ hpairs⟩

/-- What the memory system may gather, the types of the accesses permit. -/
theorem gatherable_of_mayGather {s : State} {a b : Xact} (h : s.mayGather a b = true) : gatherable a b := by
  simp only [State.mayGather, Bool.and_eq_true, Bool.or_eq_true, beq_iff_eq] at h
  obtain ⟨hd, hm | ⟨⟨-, hty⟩, -⟩⟩ := h
  · exact ⟨hd, .inl hm⟩
  · refine ⟨hd, .inr ?_⟩
    split at hty
    · next ha hb => exact .inl ⟨ha, hb⟩
    · next d e ha hb =>
      refine .inr ⟨d, e, ha, hb, ?_⟩
      simp only [Xact.oneMulti, Bool.and_eq_true, Bool.or_eq_true, beq_iff_eq] at hty
      rcases hty with (hg | ⟨⟨hi, hm⟩, -⟩) | hw
      · exact .inl hg
      · exact .inr (.inl ⟨hi, hm⟩)
      · exact .inr (.inr hw)
    · cases hty

theorem State.allGather_pairwise {s : State} {xs : List Xact} (h : s.allGather xs = true) : xs.Pairwise gatherable := by
  induction xs with
  | nil => exact .nil
  | cons a t ih =>
    simp only [State.allGather, Bool.and_eq_true, List.all_eq_true] at h
    exact .cons (fun b hb => gatherable_of_mayGather (h.1 b hb)) (ih h.2)

/-- A change lets only accesses arrive together that may be gathered. -/
theorem Change.gatheredOk {lo : Nat} {s t : State} (h : Change lo s t) (hs : GatheredOk s) : GatheredOk t := by
  have new {l : List Arrival} (hl : t.arrivals = s.arrivals ++ l) (hp : ∀ a ∈ l, a.xs.Pairwise gatherable) : GatheredOk t := by
    intro a ha
    rw [hl] at ha
    exact (List.mem_append.1 ha).elim (hs a) (hp a)
  rcases h.arrivals with ⟨xs, again, hx⟩ | ⟨l, hl, hxs⟩
  · obtain ⟨l, hl, -, hone⟩ := hx.arrivals
    refine new hl (fun a ha => ?_)
    rcases hone with rfl | ⟨e, rfl, he⟩
    · cases ha
    · rw [List.mem_singleton.1 ha, he]
      exact (State.allGather_pairwise hx.gather).sublist List.filter_sublist
  · exact new hl (fun a ha => by rw [hxs a ha]; exact .nil)

/-- Bytes whose records do not mismatch stay together where their sizes are not free. -/
theorem cutGroups_whole (cuts : List Nat) {bs : List RByte} (hne : bs ≠ [])
    (hm : ∀ b ∈ bs, ∀ c ∈ bs, b.tr.attr.mismatched c.tr.attr = false) : cutGroups false cuts bs = [bs] := by
  induction bs with
  | nil => exact absurd rfl hne
  | cons b t ih =>
    cases t with
    | nil => rfl
    | cons c t =>
      have htail := ih (by simp) (fun x hx y hy => hm x (List.mem_cons_of_mem _ hx) y (List.mem_cons_of_mem _ hy))
      have hbc : b.tr.attr.mismatched c.tr.attr = false := hm b (by simp) c (by simp)
      rw [cutGroups, htail]
      simp [hbc]

/-- The sizes of the accesses of one single-copy atomic access are not free, where it is not of Normal memory and several or
vector registers, nor of Gathering memory. -/
theorem freeSizes_false (s : State) (r : Req) {bs : List RByte} (hne : bs ≠ []) (hseq : r.isSeq s.platform = false)
    (hty : (r.cls.isMulti = false ∧ r.parts.length ≤ 1) ∨ ∀ b ∈ bs, b.tr.attr.isDevice = true)
    (hg : ∀ b ∈ bs, ∀ d, b.tr.attr.deviceType = some d → (effType s.platform s.me.ctl s.plan r.cls d).gathering = false) :
    freeSizes s r bs = false := by
  obtain ⟨b, hb⟩ := List.exists_mem_of_ne_nil bs hne
  have hnormal : ((r.cls.isMulti || decide (1 < r.parts.length)) && bs.all (fun b => b.tr.attr.isNormal)) = false := by
    rcases hty with ⟨hm, hl⟩ | hd
    · simp [hm, Nat.not_lt.2 hl]
    · have : b.tr.attr.isNormal = false := by
        rw [Bool.eq_false_iff]
        exact fun h => by have := hd b hb; rw [MemAttr.isDevice_of_isNormal h] at this; cases this
      rw [Bool.and_eq_false_iff]
      exact .inr (List.all_eq_false.2 ⟨b, hb, by simp [this]⟩)
  rw [freeSizes, hseq, hnormal, Bool.false_or, Bool.false_or]
  refine List.all_eq_false.2 ⟨b, hb, ?_⟩
  split
  · next d hd => simp [hg b hb d hd]
  · simp

/-- The explicit accesses of a request that is cut nowhere: one, of all its bytes. -/
theorem xactsOf_explicit_of_groupsOf {s : State} {r : Req} {g : List RByte} (h : groupsOf s r = [g]) :
    (xactsOf s r).filter (fun y => !y.extra) = [mkXact s r false g 0] := by
  have hextra : ∀ k : Nat, (((r.ex.map (fun b => (true, [b]))).zipIdx k).map (fun q => mkXact s r q.1.1 q.1.2 q.2)).filter
      (fun y => !y.extra) = [] := by
    intro k
    rw [List.filter_eq_nil_iff]
    intro y hy
    obtain ⟨q, hq, rfl⟩ := List.mem_map.1 hy
    obtain ⟨b, -, hb⟩ := List.mem_map.1 (List.fst_mem_of_mem_zipIdx hq)
    simp [mkXact, ← hb]
  have hcons : xactsOf s r = mkXact s r false g 0 ::
      ((r.ex.map (fun b => (true, [b]))).zipIdx 1).map (fun q => mkXact s r q.1.1 q.1.2 q.2) := by
    simp [xactsOf, xactsFrom, piecesOf, h]
  rw [hcons, List.filter_cons_of_pos (by rfl), hextra]

/-- Settles O58: every primitive change keeps both rules; which accesses may be repeated is said where they are made, and one
single-copy atomic access is cut nowhere. -/
theorem accessesArriveOnceAndGatheredOnlyIfAllowed : Obligations.AccessesArriveOnceAndGatheredOnlyIfAllowed := by
  unfold Obligations.AccessesArriveOnceAndGatheredOnlyIfAllowed
  refine ⟨fun s t hn h => ⟨step_keeps (fun _ _ _ hu k => k.arrivesOnce hu) hn h, step_keeps (fun _ _ _ _ k => k.gatheredOk) hn h⟩,
    fun s r x hx => ?_, fun s r hseq hne hm hty hg => ?_⟩
  · obtain ⟨-, ⟨-, hrep, hmulti, -⟩, -⟩ := mem_xactsOf s r x hx
    rw [hrep, hmulti]
    simp only [Req.mayRepeat, Req.isSeq, Bool.or_eq_true, Bool.and_eq_true]
    exact ⟨trivial, fun h => h.2⟩
  · have hunits : unitsOf s.platform r = [allBytes r.rs] := by simp [unitsOf, Req.isSeq, hseq]
    have hgroups : groupsOf s r = [allBytes r.rs] := by
      simp [groupsOf, hunits, freeSizes_false s r hne hseq hty hg, cutGroups_whole s.plan.cuts hne hm]
    refine ⟨_, xactsOf_explicit_of_groupsOf hgroups, ?_, ?_, ?_⟩
    · simp [mkXact, Xact.touchedBytes, Function.comp_def]
    · simp [mkXact, Req.mayRepeat, Req.isSeq, hseq]
    · simp [mkXact, Req.isSeq, hseq]

end Sys2Proof.Machine
end

section
/-! The statements on the memory system: reads of Device memory, forwarding, gathering, order, changes at endpoints and
peripherals. -/

namespace Sys2Proof.Machine

open Sys2Proof

/-! ### One access performed (21_device_memory.md R110, R149) -/

/-- Acknowledging and retiring leaves memory, arrivals and observers. -/
theorem State.finish_frame (again : List Nat) (s : State) (x : Xact) : (State.finish again s x).obs = s.obs ∧
    (State.finish again s x).mem = s.mem ∧ (State.finish again s x).arrivals = s.arrivals := by
  unfold State.finish
  split
  · exact ⟨rfl, rfl, rfl⟩
  · simp

/-- One access to Device memory arrives, is performed, and the peripheral reacts to it. -/
theorem State.transact_one_device (s : State) {x : Xact} (again : List Nat) (hx : x.attr.isDevice = true) : s.transact [x] again =
    State.finish again (((s.logArrival (arrivalOf s.platform x.dir x.touchedBytes [x] [])).perform x).react x.dir x.touchedBytes) x := by
  have hr (u : State) : [x].filter u.reachesEndpoint = [x] := by simp [State.reachesEndpoint, hx]
  simp [State.transact, State.logGroup, State.reactGroup, hr]

/-- What a read puts into its registers; besides, bytes may be held for stores in flight. -/
theorem State.getObs_deliverTo_self (s : State) {x : Xact} {f : RegFile} (vals : List Byte) (hf : x.dst = some f) :
    (s.deliverTo x vals).getObs x.obs = { (s.getObs x.obs).putBytes f x.id x.bs vals with
      held := ((s.deliverTo x vals).getObs x.obs).held } := by
  simp [State.deliverTo, hf, Observer.holdBytes]

theorem State.readVals_device (s : State) {x : Xact} (hx : x.attr.isDevice = true) :
    s.readVals x = x.bs.map (fun b => Memory.read s.mem b.pa) := by
  simp [State.readVals, State.byteFor, hx]

/-- One access to Device memory that no buffered write answers: what it leaves of memory and of its registers. -/
theorem State.performOne_device (s : State) (x : Xact) (again : List Nat) (hx : x.attr.isDevice = true)
    (hf : s.forwardSource x = none) :
    (s.performOne x again).arrivals = s.arrivals ++ [arrivalOf s.platform x.dir x.touchedBytes [x] []] ∧
    (s.performOne x again).mem = (match x.dir with
      | .read => Memory.react s.platform .read s.mem x.touchedBytes
      | .write => Memory.react s.platform .write (Memory.writeBytes s.mem (s.filled x).bs) x.touchedBytes) ∧
    ∀ f, x.dir = .read → x.dst = some f → (s.performOne x again).getObs x.obs =
      { (s.getObs x.obs).putBytes f x.id x.bs (x.bs.map (fun b => Memory.read s.mem b.pa)) with
        held := ((s.performOne x again).getObs x.obs).held } := by
  have hone : s.performOne x again = s.transact [x] again := by unfold State.performOne; rw [hf]
  rw [hone, s.transact_one_device again hx]
  obtain ⟨hobs, hmem, -⟩ := State.finish_frame again
    (((s.logArrival (arrivalOf s.platform x.dir x.touchedBytes [x] [])).perform x).react x.dir x.touchedBytes) x
  refine ⟨by simp, ?_, fun f hd hdst => ?_⟩
  · rw [hmem]
    unfold State.perform
    cases x.dir with
    | read => simp
    | write =>
      have hfill := State.filled_congr s (s.logArrival (arrivalOf s.platform .write x.touchedBytes [x] [])) x rfl
      simp [hfill, State.commit_mem_eq, hx]
  · rw [State.getObs_congr hobs]
    unfold State.perform
    rw [hd]
    exact State.getObs_deliverTo_self _ _ hdst |>.trans (by rw [State.readVals_device _ hx]; rfl)

/-- Settles O46: a buffered write answers only reads of Gathering memory, so that the read is performed at the endpoint. -/
theorem nonGatheringReadsComeFromTheEndpoint : Obligations.NonGatheringReadsComeFromTheEndpoint := by
  unfold Obligations.NonGatheringReadsComeFromTheEndpoint
  intro s x again d hd hx hdt hg
  have hf : s.forwardSource x = none := by
    rw [Option.eq_none_iff_forall_not_mem]
    intro w hw
    obtain ⟨v, -, -, -, hmay, -, -⟩ := s.forwardSource_some x w hw
    obtain ⟨-, -, -, -, -, -, ⟨e, he, heg⟩, -⟩ := s.mayForward_spec v x hmay
    rw [hdt] at he
    cases he
    rw [hg] at heg
    cases heg
  obtain ⟨harr, hmem, hreg⟩ := s.performOne_device x again hx hf
  rw [hd] at harr hmem
  exact ⟨hf, harr, hmem, fun f => hreg f hd⟩

/-- Settles O47: the write a read is answered from meets `State.mayForward`, and the read is delivered and retired. -/
theorem forwardingKeepsItsConditions : Obligations.ForwardingKeepsItsConditions := by
  unfold Obligations.ForwardingKeepsItsConditions
  intro s x u again hu
  obtain ⟨w, hw, rfl, -, hmay, harr, -⟩ := s.forwardSource_some x u hu
  obtain ⟨hwd, hxd, ho, hid, -, hdev, hgath, hcov, -, hbar, hacq, hob, hrel⟩ := s.mayForward_spec w x hmay
  have hone : s.performOne x again = (s.deliverTo x (forwardedVals (s.filled w) x)).retire x := by
    unfold State.performOne; rw [hu]
  have hnot : ∀ a ∈ s.arrivals, ∀ y ∈ a.xs, y.id ≠ w.id := by
    intro a ha y hy e
    rw [State.hasArrived, List.any_eq_false] at harr
    exact harr a ha (List.any_eq_true.2 ⟨y, hy, by simp [e]⟩)
  rw [hone]
  refine ⟨w, hw, rfl, hwd, hdev, ho, hid, hxd, hnot, hgath, hbar, hacq, hob, hrel, hcov, by simp, by simp, fun f hf => ?_⟩
  exact State.getObs_deliverTo_self s _ hf

/-! ### Gathering (21_device_memory.md R132, R142 to R148) -/

theorem Xact.overlaps_comm (a b : Xact) : a.overlaps b = b.overlaps a := by
  rw [Bool.eq_iff_iff]
  simp only [Xact.overlaps, List.any_eq_true, beq_iff_eq]
  exact ⟨fun ⟨p, hp, q, hq, e⟩ => ⟨q, hq, p, hp, e.symm⟩, fun ⟨p, hp, q, hq, e⟩ => ⟨q, hq, p, hp, e.symm⟩⟩

/-- Why two accesses may not be gathered: barrier-ordered-before (R147), two writes to one location that are ordered-before
related (R132; 20_memory.md R58), or two to Device memory neither of which is Gathering, of different instructions or writes to
one location (R132, R142, R145). -/
def KeptApart (s : State) (a b : Xact) : Prop :=
  (s.bob a b = true ∨ s.bob b a = true) ∨
  (a.dir = .write ∧ b.dir = .write ∧ a.overlaps b = true ∧ (s.ob a b = true ∨ s.ob b a = true)) ∨
  ∃ d e, a.dt = some d ∧ b.dt = some e ∧ d.gathering = false ∧ e.gathering = false ∧
    (a.instr ≠ b.instr ∨ (a.dir = .write ∧ b.dir = .write ∧ a.overlaps b = true))

theorem KeptApart.symm {s : State} {a b : Xact} (h : KeptApart s a b) : KeptApart s b a := by
  rcases h with h | ⟨ha, hb, ho, h⟩ | ⟨d, e, ha, hb, hd, he, h⟩
  · exact .inl h.symm
  · exact .inr (.inl ⟨hb, ha, Xact.overlaps_comm a b ▸ ho, h.symm⟩)
  · refine .inr (.inr ⟨e, d, hb, ha, he, hd, ?_⟩)
    rcases h with h | ⟨h1, h2, h3⟩
    · exact .inl h.symm
    · exact .inr ⟨h2, h1, Xact.overlaps_comm a b ▸ h3⟩

theorem KeptApart.mayGather {s : State} {a b : Xact} (h : KeptApart s a b) (hm : ¬ (a.cls.isMops = true ∧ b.cls.isMops = true)) :
    s.mayGather a b = false := by
  rw [Bool.eq_false_iff]
  intro hg
  simp only [State.mayGather, Bool.and_eq_true, Bool.or_eq_true, Bool.not_eq_true', beq_iff_eq, Bool.and_eq_false_iff,
    Bool.or_eq_false_iff] at hg
  obtain ⟨-, hmops | ⟨⟨⟨hab, hba⟩, hty⟩, hw⟩⟩ := hg
  · exact hm hmops
  · rcases h with h | ⟨ha, -, ho, h⟩ | ⟨d, e, ha, hb, hd, he, h⟩
    · simp [hab, hba] at h
    · simp [ha, ho] at hw
      simp [hw] at h
    · simp only [ha, hb, hd, he, Xact.oneMulti] at hty
      rcases h with h | ⟨h1, -, h3⟩
      · simp [h] at hty
      · simp [h1, h3] at hty

/-- A group that holds two accesses that may not be gathered may not. -/
theorem State.allGather_false {s : State} {xs : List Xact} {a b : Xact} (ha : a ∈ xs) (hb : b ∈ xs) (hne : a ≠ b)
    (hab : s.mayGather a b = false) (hba : s.mayGather b a = false) : s.allGather xs = false := by
  induction xs with
  | nil => cases ha
  | cons x t ih =>
    rw [Bool.eq_false_iff]
    intro hg
    simp only [State.allGather, Bool.and_eq_true, List.all_eq_true] at hg
    rcases List.mem_cons.1 ha with rfl | hat <;> rcases List.mem_cons.1 hb with rfl | hbt
    · exact hne rfl
    · rw [hg.1 b hbt] at hab; cases hab
    · rw [hg.1 a hat] at hba; cases hba
    · rw [hg.2] at ih; cases ih hat hbt

/-- The transactions of a state are those of an earlier one and then such of one access each. -/
def ArrivedSingly (s t : State) : Prop := ∃ l, t.arrivals = s.arrivals ++ l ∧ ∀ e ∈ l, e.xs.length = 1

namespace ArrivedSingly

variable {s t : State}

theorem of_eq (h : t.arrivals = s.arrivals) : ArrivedSingly s t := ⟨[], by simp [h], by simp⟩

theorem trans {u : State} (h : ArrivedSingly s t) (k : ArrivedSingly t u) : ArrivedSingly s u := by
  obtain ⟨l, hl, h⟩ := h
  obtain ⟨m, hm, k⟩ := k
  exact ⟨l ++ m, by simp [hl, hm], fun e he => (List.mem_append.1 he).elim (h e) (k e)⟩

theorem foldl {β : Type} (g : State → β → State) (h : ∀ s x, ArrivedSingly s (g s x)) (l : List β) (s : State) :
    ArrivedSingly s (l.foldl g s) :=
  foldl_property (ArrivedSingly s) g l s (of_eq rfl) (fun u x _ hu => hu.trans (h u x))

theorem performOne (s : State) (x : Xact) (again : List Nat) : ArrivedSingly s (s.performOne x again) := by
  unfold State.performOne
  split
  · exact of_eq (by simp)
  · rcases s.logGroup_arrivals [x] with ⟨h, -⟩ | ⟨a, h, -, hx, -, y, hy, -⟩
    · exact of_eq (by rw [State.transact_arrivals, h])
    · refine ⟨[a], by rw [State.transact_arrivals, h], fun e he => ?_⟩
      obtain rfl := List.mem_singleton.1 he
      have hle : e.xs.length ≤ 1 := by rw [hx]; exact List.length_filter_le _ _
      have : 0 < e.xs.length := List.length_pos_of_mem hy
      omega

theorem force (s : State) (id : Nat) (again : List Nat) : ArrivedSingly s (s.force id again) := by
  unfold State.force
  split
  · exact of_eq rfl
  · split
    · exact of_eq (by simp)
    · exact (foldl _ (fun s y => performOne s y []) _ s).trans (performOne _ _ again)

theorem forceAll (s : State) (ids : List Nat) : ArrivedSingly s (s.forceAll ids) :=
  foldl _ (fun s id => force s id []) ids s

end ArrivedSingly

/-- A list with two different members has two places. -/
theorem exists_cons_cons_of_mem_ne {α : Type} {l : List α} {a b : α} (ha : a ∈ l) (hb : b ∈ l) (hne : a ≠ b) :
    ∃ x y t, l = x :: y :: t := by
  match l with
  | [] => cases ha
  | [x] => exact absurd ((List.mem_singleton.1 ha).trans (List.mem_singleton.1 hb).symm) hne
  | x :: y :: t => exact ⟨x, y, t, rfl⟩

/-- Settles O48: two accesses the rules keep apart may not be gathered, in either order; so an input does nothing, and a plan
performs one after the other. -/
theorem orderedAccessesAreNotGathered : Obligations.OrderedAccessesAreNotGathered := by
  unfold Obligations.OrderedAccessesAreNotGathered
  intro s ids again a b ha hb hne hm hc
  have hc : KeptApart s a b := hc
  have hg : s.allGather (s.select ids) = false :=
    State.allGather_false ha hb hne (hc.mayGather hm) (hc.symm.mayGather (fun h => hm h.symm))
  obtain ⟨x, y, t, hsel⟩ := exists_cons_cons_of_mem_ne ha hb hne
  rw [hsel] at hg
  have hdel : s.deliverGroup ids again = s := by simp [State.deliverGroup, hsel, hg]
  have hfor : s.forceGroup ids again = s.forceAll ids := by simp [State.forceGroup, hsel, hg]
  rw [hfor]
  exact ⟨hdel, ArrivedSingly.forceAll s ids⟩

/-- Two accesses of one direction that the rules do not keep apart may be gathered. -/
theorem State.mayGather_of_unordered {s : State} {a b : Xact} (hd : a.dir = b.dir)
    (h : (a.cls.isMops = true ∧ b.cls.isMops = true) ∨ (s.ob a b = false ∧ s.ob b a = false ∧
      ((a.dt = none ∧ b.dt = none) ∨ ∃ d e, a.dt = some d ∧ b.dt = some e ∧ ((d.gathering = true ∧ e.gathering = true) ∨
        (a.instr = b.instr ∧ a.multi = true ∧ b.multi = true ∧ a.overlaps b = false))))) : s.mayGather a b = true := by
  have hbob {x y : Xact} (h : s.ob x y = false) : s.bob x y = false := by
    rw [State.ob, Bool.or_eq_false_iff] at h; exact h.1
  unfold State.mayGather
  rcases h with ⟨ha, hb⟩ | ⟨hab, hba, h⟩
  · simp [hd, ha, hb]
  · rcases h with ⟨ha, hb⟩ | ⟨d, e, ha, hb, ⟨hg, he⟩ | ⟨hi, hma, hmb, ho⟩⟩
    · simp [hd, hbob hab, hbob hba, hab, hba, ha, hb]
    · simp [hd, hbob hab, hbob hba, hab, hba, ha, hb, hg, he]
    · simp [hd, hbob hab, hbob hba, ha, hb, Xact.oneMulti, hi, hma, hmb, ho]

/-- No observer sees a write to Device memory before it completes. -/
theorem State.waitsFor_device {s : State} {a : Xact} (b : Xact) (ha : a.attr.isDevice = true) :
    s.waitsFor b a = s.mustPrecede a b := by
  have : a.attr.isNormal = false := by
    rw [Bool.eq_false_iff]
    exact fun h => by rw [MemAttr.isDevice_of_isNormal h] at ha; cases ha
  simp [State.waitsFor, State.seenBefore, this]

/-- Which of two Device accesses of one transaction may stay in flight to be performed again. -/
theorem State.mem_recurring_pair {s : State} {a b x : Xact} (again : List Nat) (hne : a.id ≠ b.id) (ha : a.attr.isDevice = true)
    (hb : b.attr.isDevice = true) (hx : x = a ∨ x = b) : x.id ∈ s.recurring [a, b] again ↔
      x.id ∈ again ∧ s.mustPrecede x a = false ∧ s.mustPrecede x b = false := by
  simp only [State.recurring, List.mem_filter, List.all_cons, List.all_nil, Bool.and_true, Bool.and_eq_true, Bool.or_eq_true,
    Bool.not_eq_true', bne_iff_ne, State.waitsFor_device _ ha, State.waitsFor_device _ hb]
  rcases hx with rfl | rfl
  · simp [hne.symm]
  · simp [hne]

/-- Settles O49: two accesses that nothing keeps apart are one transaction; which of them recur, `State.recurring` says. -/
theorem unorderedAccessesMayBeGathered : Obligations.UnorderedAccessesMayBeGathered := by
  unfold Obligations.UnorderedAccessesMayBeGathered
  intro s ids again a b hsel hreq hd hc
  have hg : s.allGather [a, b] = true := by simp [State.allGather, State.mayGather_of_unordered hd hc]
  have hdel : s.deliverGroup ids again = s.transact [a, b] (s.recurring [a, b] again) := by
    simp [State.deliverGroup, hsel, hreq, hg]
  have hin {x : Xact} (hx : x ∈ [a, b]) : x ∈ s.inflight := (s.select_sub ids).subset (hsel ▸ hx)
  rw [hdel]
  refine ⟨rfl, fun ha hb => ⟨?_, fun hne x hx => ?_⟩⟩
  · have hr : [a, b].filter s.reachesEndpoint = [a, b] := by simp [State.reachesEndpoint, ha, hb]
    rw [State.transact_arrivals]
    simp [State.logGroup, hr]
  · rw [State.transact_inflight_again, List.mem_filter]
    have hmem : x ∈ s.inflight := hin (by rcases hx with rfl | rfl <;> simp)
    have hrec := State.mem_recurring_pair (s := s) again hne ha hb hx
    rcases hx with rfl | rfl
    · simp [hmem, hrec, hne, and_comm, and_left_comm]
    · simp [hmem, hrec, hne.symm, and_comm, and_left_comm]

/-! ### Order -/

theorem Xact.isNonReordering_iff (x : Xact) :
    x.isNonReordering = true ↔ (∃ d, x.dt = some d ∧ d.reordering = false) ∧ x.cls.isMops = false := by
  unfold Xact.isNonReordering
  cases x.dt <;> simp

theorem samePeripheral_iff (p : Platform) (a b : Xact) : samePeripheral p a b = true ↔
    ∃ x ∈ a.bs, ∃ y ∈ b.bs, blockOf p x.pa = blockOf p y.pa ∧ inPeripheral p x.pa = true := by
  simp [samePeripheral]

theorem State.mustPrecede_iff (s : State) (a b : Xact) : s.mustPrecede a b = true ↔ a.obs = b.obs ∧ a.id < b.id ∧
    (a.feeds b = true ∨ a.instr ≠ b.instr ∧
      ((a.isNonReordering = true ∧ b.isNonReordering = true ∧ samePeripheral s.platform a b = true) ∨ s.ob a b = true ∨
        sameLocationOrdered a b = true)) := by
  simp only [State.mustPrecede, Bool.and_eq_true, Bool.or_eq_true, beq_iff_eq, decide_eq_true_eq, bne_iff_ne,
    and_assoc, or_assoc]

/-- Settles O50: the reasons of `State.mustPrecede`. -/
theorem onlyTheseAccessesAreOrdered : Obligations.OnlyTheseAccessesAreOrdered := by
  unfold Obligations.OnlyTheseAccessesAreOrdered
  intro s a b h
  obtain ⟨ho, hid, h⟩ := (s.mustPrecede_iff a b).1 h
  refine ⟨ho, hid, ?_⟩
  rcases h with hf | ⟨hi, ⟨ha, hb, hp⟩ | hob | hl⟩
  · exact ⟨fun _ => hf, .inl hf⟩
  · refine ⟨fun e => absurd e hi, .inr (.inl ?_)⟩
    obtain ⟨⟨d, hd, hdr⟩, hma⟩ := a.isNonReordering_iff.1 ha
    obtain ⟨⟨e, he, her⟩, hmb⟩ := b.isNonReordering_iff.1 hb
    exact ⟨d, e, hd, he, hdr, her, hma, hmb, (samePeripheral_iff _ a b).1 hp⟩
  · exact ⟨fun e => absurd e hi, .inr (.inr (.inl hob))⟩
  · simp only [sameLocationOrdered, Bool.and_eq_true] at hl
    exact ⟨fun e => absurd e hi, .inr (.inr (.inr (by simpa [Xact.overlaps] using hl.1.1.1)))⟩

/-- Settles O51: of two such accesses the one issued earlier must precede the other, so that it did not arrive after it. -/
theorem nonReorderingAccessesArriveInProgramOrder : Obligations.NonReorderingAccessesArriveInProgramOrder := by
  unfold Obligations.NonReorderingAccessesArriveInProgramOrder
  intro s ⟨_, hpairs⟩
  refine hpairs.imp (fun {e l} h a ha b hb ho hi hma hmb hda hdb ⟨x, hx, y, hy, hblock, hper⟩ => ?_)
  refine Nat.le_of_not_lt (fun hlt => ?_)
  have hp : s.mustPrecede b a = true := (s.mustPrecede_iff b a).2 ⟨ho.symm, hlt, .inr ⟨hi.symm, .inl
    ⟨b.isNonReordering_iff.2 ⟨hdb, hmb⟩, a.isNonReordering_iff.2 ⟨hda, hma⟩,
      (samePeripheral_iff _ b a).2 ⟨y, hy, x, hx, hblock.symm, hper⟩⟩⟩⟩
  rw [h a ha b hb] at hp
  cases hp

/-! ### Endpoints (21_device_memory.md R110, R128) -/

/-- What a read returns depends on memory at its own location alone. -/
theorem State.byteFor_of_mem (s : State) (m : List Host.Cell) (as : List Arrival) (o id : Nat) (a : MemAttr) {q : Nat}
    (h : Memory.read m q = Memory.read s.mem q) :
    ({ s with mem := m, arrivals := as } : State).byteFor o id a q = s.byteFor o id a q := by
  have hv : ({ s with mem := m, arrivals := as } : State).valueFor o a q = s.valueFor o a q := by
    simp only [State.valueFor, h]
  have hp : ({ s with mem := m, arrivals := as } : State).ownPending o id q = s.ownPending o id q := rfl
  simp only [State.byteFor, h, hv, hp]

/-- Settles O52: the change is written at the endpoint, where every read with a Device record looks. -/
theorem endpointChangesAreObservedByAll : Obligations.EndpointChangesAreObservedByAll := by
  unfold Obligations.EndpointChangesAreObservedByAll
  intro s pa v hwf hi
  refine ⟨s.endpointChangeEvent pa v, rfl, ?_, fun o id a ha => ?_, fun q o id a hq => ?_⟩ <;>
    simp only [State.endpointChangeEvent, hi, Bool.false_eq_true, if_false]
  · rfl
  · rw [State.byteFor, if_pos ha]
    exact Memory.read_write_self s.mem pa v hwf
  · exact s.byteFor_of_mem _ _ o id a (Memory.read_write_ne s.mem v hq)

/-- The transition a peripheral takes is the first that fits. -/
theorem reactionAt_eq_some {p : Platform} {m : List Host.Cell} {d : Dir} {pa : Nat} {us vs : List Reaction} {r : Reaction}
    (hi : (regionAt p pa).idempotent = false) (hs : p.reactions = us ++ r :: vs)
    (hu : ∀ q ∈ us, q.dir = d → q.pa = pa → ∃ c ∈ q.given, Memory.read m c.1 ≠ c.2) (hd : r.dir = d) (hpa : r.pa = pa)
    (hg : ∀ c ∈ r.given, Memory.read m c.1 = c.2) : reactionAt p m d pa = some r := by
  rw [reactionAt, if_neg (by simp [hi]), hs, List.find?_eq_some_iff_append]
  refine ⟨by simpa [hd, hpa] using hg, us, vs, rfl, fun q hq => ?_⟩
  by_cases h : q.dir = d ∧ q.pa = pa
  · obtain ⟨c, hc, hne⟩ := hu q hq h.1 h.2
    have : q.given.all (fun c => Memory.read m c.1 == c.2) = false := List.all_eq_false.2 ⟨c, hc, by simpa using hne⟩
    simp [this]
  · rw [Bool.not_eq_true', Bool.and_eq_false_iff]
    exact .inl (by simpa using h)

theorem Memory.react_one (p : Platform) (d : Dir) (m : List Host.Cell) (pa : Nat) :
    Memory.react p d m [pa] = match reactionAt p m d pa with
      | none => m
      | some r => applyReaction p r m := by
  have : [pa].eraseDups = [pa] := by simp [List.eraseDups_cons]
  rw [Memory.react, this]
  rfl

/-- What a location holds when some cells have been written, the last of them first. -/
theorem Memory.read_foldl_write (cs : List (Nat × Byte)) (m : List Host.Cell) (h : Memory.wf m = true) (q : Nat) :
    Memory.read (cs.foldr (fun c m => Memory.write m c.1 c.2) m) q =
      match cs.find? (fun c => c.1 == q) with
      | some c => c.2
      | none => Memory.read m q := by
  have hwf : ∀ cs : List (Nat × Byte), Memory.wf (cs.foldr (fun c m => Memory.write m c.1 c.2) m) = true := by
    intro cs
    induction cs with
    | nil => exact h
    | cons c t ih => exact Memory.wf_write _ _ _ ih
  induction cs with
  | nil => rfl
  | cons c t ih =>
    by_cases hc : c.1 = q
    · subst hc
      simpa using Memory.read_write_self _ c.1 c.2 (hwf t)
    · rw [List.find?_cons_of_neg (by simpa using hc), ← ih]
      exact Memory.read_write_ne _ _ (Ne.symm hc)

/-- What a location holds when a transition was taken: the last value it sets there, where it is a cell of the peripheral. -/
theorem read_applyReaction_eq (p : Platform) (r : Reaction) (m : List Host.Cell) (h : Memory.wf m = true) (q : Nat) :
    Memory.read (applyReaction p r m) q = match r.sets.reverse.find? (fun c => c.1 == q) with
      | some c => if (regionAt p q).idempotent = false ∧ blockOf p q = blockOf p r.pa then c.2 else Memory.read m q
      | none => Memory.read m q := by
  have hfind : ((r.sets.filter (fun c => mayChange p r.pa c.1)).reverse).find? (fun c => c.1 == q) =
      if mayChange p r.pa q then r.sets.reverse.find? (fun c => c.1 == q) else none := by
    rw [← List.filter_reverse, List.find?_filter]
    split
    · next hm =>
      refine congrArg (fun f => r.sets.reverse.find? f) (funext fun c => ?_)
      by_cases hc : c.1 = q
      · simp [hc, hm]
      · simp [hc]
    · next hm =>
      rw [List.find?_eq_none]
      intro c _ hc
      simp only [decide_eq_true_eq, beq_iff_eq] at hc
      exact hm (hc.2 ▸ hc.1)
  rw [applyReaction, ← List.foldr_reverse, Memory.read_foldl_write _ m h, hfind]
  have hmay : mayChange p r.pa q = true ↔ (regionAt p q).idempotent = false ∧ blockOf p q = blockOf p r.pa := by
    simp [mayChange]
  by_cases hc : (regionAt p q).idempotent = false ∧ blockOf p q = blockOf p r.pa
  · simp only [hmay.2 hc, if_true, if_pos hc]
  · simp only [Bool.eq_false_iff.2 (fun h => hc (hmay.1 h)), Bool.false_eq_true, if_false, if_neg hc]
    cases r.sets.reverse.find? (fun c => c.1 == q) <;> rfl

/-- Settles O60: one access performed, and the peripheral's first transition that fits. -/
theorem peripheralsReactToArrivals : Obligations.PeripheralsReactToArrivals := by
  unfold Obligations.PeripheralsReactToArrivals
  refine ⟨fun s x again hx hf => (s.performOne_device x again hx hf).2, fun p d m pa h => ?_,
    fun p d m pa us vs r hwf hi hs hu hd hpa hg q => ?_⟩
  · rw [Memory.react_one]
    have hnone : reactionAt p m d pa = none := by
      unfold reactionAt
      rcases h with hi | h
      · rw [if_pos hi]
      · split
        · rfl
        · rw [List.find?_eq_none]
          intro r hr hfit
          simp only [Bool.and_eq_true, beq_iff_eq, List.all_eq_true] at hfit
          obtain ⟨⟨hd, hpa⟩, hg⟩ := hfit
          obtain ⟨c, hc, hne⟩ := h r hr hd hpa
          exact hne (hg c hc)
    rw [hnone]
  · rw [Memory.react_one, reactionAt_eq_some hi hs hu hd hpa hg]
    subst hpa
    exact read_applyReaction_eq p r m hwf q

end Sys2Proof.Machine
end

section
/-! The statements on the Device types and on speculation: weaker types, relaxed accesses, prefetches, a copy of nothing,
fetches of Device memory, and what a DSB waits for. -/

namespace Sys2Proof.Machine

open Sys2Proof

/-! ### Weaker Device types (10_state.md R26; 21_device_memory.md R186) -/

section

variable {d e : DeviceType} (h : d.strength ≤ e.strength)
include h

theorem DeviceType.reordering_of_stronger (he : e.reordering = true) : d.reordering = true := by
  cases d <;> cases e <;> simp_all [DeviceType.strength, DeviceType.reordering]

theorem DeviceType.gathering_of_stronger (he : e.gathering = true) : d.gathering = true := by
  cases d <;> cases e <;> simp_all [DeviceType.strength, DeviceType.gathering]

theorem DeviceType.strongest_of_weaker (hd : d = .nGnRnE) : e = .nGnRnE := by
  cases d <;> cases e <;> simp_all [DeviceType.strength]

/-- A weaker type is non-Reordering only where the stronger one is. -/
theorem Xact.isNonReordering_stronger {x : Xact} (hx : ({ x with dt := some d } : Xact).isNonReordering = true) :
    ({ x with dt := some e } : Xact).isNonReordering = true := by
  simp only [Xact.isNonReordering, Bool.and_eq_true, Bool.not_eq_true'] at hx ⊢
  exact ⟨by rw [Bool.eq_false_iff] at hx ⊢; exact fun k => hx.1 (DeviceType.reordering_of_stronger h k), hx.2⟩

theorem State.mustPrecede_stronger_left {s : State} {a b : Xact} (hp : s.mustPrecede { a with dt := some d } b = true) :
    s.mustPrecede { a with dt := some e } b = true := by
  obtain ⟨ho, hid, hr⟩ := (s.mustPrecede_iff _ _).1 hp
  exact (s.mustPrecede_iff _ _).2 ⟨ho, hid, hr.imp_right (fun ⟨hi, hr⟩ => ⟨hi, hr.imp_left (fun ⟨ha, hb⟩ =>
    ⟨Xact.isNonReordering_stronger h ha, hb⟩)⟩)⟩

theorem State.mustPrecede_stronger_right {s : State} {a b : Xact} (hp : s.mustPrecede a { b with dt := some d } = true) :
    s.mustPrecede a { b with dt := some e } = true := by
  obtain ⟨ho, hid, hr⟩ := (s.mustPrecede_iff _ _).1 hp
  exact (s.mustPrecede_iff _ _).2 ⟨ho, hid, hr.imp_right (fun ⟨hi, hr⟩ => ⟨hi, hr.imp_left (fun ⟨ha, hb, hq⟩ =>
    ⟨ha, Xact.isNonReordering_stronger h hb, hq⟩)⟩)⟩

/-- The type of a read decides whether it may be forwarded. -/
theorem State.mayForward_weaker {s : State} {a b : Xact} (hp : s.mayForward a { b with dt := some e } = true) :
    s.mayForward a { b with dt := some d } = true := by
  have hg : e.gathering = true := by
    obtain ⟨-, -, -, -, -, -, ⟨e', he, hg⟩, -⟩ := s.mayForward_spec _ _ hp
    cases he; exact hg
  have hd := DeviceType.gathering_of_stronger h hg
  unfold State.mayForward at hp ⊢
  dsimp only at hp ⊢
  rw [hg] at hp
  rw [hd]
  exact hp

theorem State.mayGather_weaker_left {s : State} {a b : Xact} (hp : s.mayGather { a with dt := some e } b = true) :
    s.mayGather { a with dt := some d } b = true := by
  have hg := DeviceType.gathering_of_stronger h
  simp only [State.mayGather, Bool.and_eq_true, Bool.or_eq_true] at hp ⊢
  refine ⟨hp.1, hp.2.imp_right (fun ⟨⟨hb, hty⟩, hw⟩ => ⟨⟨hb, ?_⟩, hw⟩)⟩
  cases hbt : b.dt with
  | none => rw [hbt] at hty; cases hty
  | some f =>
    rw [hbt] at hty
    simp only [Bool.and_eq_true, Bool.or_eq_true] at hty ⊢
    exact hty.imp (fun k => k.imp_left (fun k => ⟨hg k.1, k.2⟩)) (fun k => ⟨k.1.imp_left hg, k.2⟩)

theorem State.mayGather_weaker_right {s : State} {a b : Xact} (hp : s.mayGather a { b with dt := some e } = true) :
    s.mayGather a { b with dt := some d } = true := by
  have hg := DeviceType.gathering_of_stronger h
  simp only [State.mayGather, Bool.and_eq_true, Bool.or_eq_true] at hp ⊢
  refine ⟨hp.1, hp.2.imp_right (fun ⟨⟨hb, hty⟩, hw⟩ => ⟨⟨hb, ?_⟩, hw⟩)⟩
  cases hat : a.dt with
  | none => rw [hat] at hty; cases hty
  | some f =>
    rw [hat] at hty
    simp only [Bool.and_eq_true, Bool.or_eq_true] at hty ⊢
    exact hty.imp (fun k => k.imp_left (fun k => ⟨k.1, hg k.2⟩)) (fun k => ⟨k.1.imp_right hg, k.2⟩)

theorem State.endpointMustAck_stronger {s : State} {a : Xact} (hp : s.endpointMustAck { a with dt := some d } = true) :
    s.endpointMustAck { a with dt := some e } = true := by
  obtain ⟨hdt, hb⟩ := (s.endpointMustAck_iff _).1 hp
  exact (s.endpointMustAck_iff _).2 ⟨congrArg some (DeviceType.strongest_of_weaker h (Option.some.inj hdt)), hb⟩

theorem State.dsbWaitsFor_stronger {s : State} {option : Nat} {a : Xact} (hp : s.dsbWaitsFor option { a with dt := some d } = true) :
    s.dsbWaitsFor option { a with dt := some e } = true := by
  simp only [State.dsbWaitsFor, Bool.and_eq_true, beq_iff_eq] at hp ⊢
  obtain ⟨⟨⟨ho, hdt⟩, hb⟩, haff⟩ := hp
  exact ⟨⟨⟨ho, congrArg some (DeviceType.strongest_of_weaker h (Option.some.inj hdt))⟩, hb⟩, haff⟩

/-- Only LDNP asks whether the type is Gathering, which opens the wider window. -/
theorem permittedDeviceRead_weaker {cls : AccessClass} {X A F S : List Nat} {b : Nat}
    (hp : permittedDeviceRead cls e X A F S b = true) : permittedDeviceRead cls d X A F S b = true := by
  have window {m n : Nat} (hmn : ∀ c, c / m = b / m → c / n = b / n) (hw : inWindows X m b = true) : inWindows X n b = true := by
    obtain ⟨c, hc, he⟩ := List.any_eq_true.1 hw
    exact List.any_eq_true.2 ⟨c, hc, by simpa using hmn c (by simpa using he)⟩
  have of_mem (hx : X.contains b = true) : inWindows X 128 b = true :=
    List.any_eq_true.2 ⟨b, List.contains_iff_mem.1 hx, by simp⟩
  have of_16 : inWindows X 16 b = true → inWindows X 128 b = true := window (fun c hc => by omega)
  have hg := DeviceType.gathering_of_stronger h
  cases cls with
  | ldnpGp =>
    simp only [permittedDeviceRead] at hp ⊢
    cases hd : d.gathering with
    | true => split at hp <;> simp_all
    | false => cases he : e.gathering <;> simp_all
  | ldnpSimdFp =>
    simp only [permittedDeviceRead] at hp ⊢
    cases hd : d.gathering with
    | true => split at hp <;> simp_all
    | false => cases he : e.gathering <;> simp_all
  | _ => exact hp

end

/-- The sizes of the accesses to Device bytes are free by their type where they are Gathering. -/
theorem freeSizes_weaker (s : State) (r : Req) (bs : List RByte) (weaker : RByte → RByte)
    (hw : ∀ b ∈ bs, ∃ d e, (weaker b).tr.attr.deviceType = some d ∧ b.tr.attr.deviceType = some e ∧
      (effType s.platform s.me.ctl s.plan r.cls d).strength ≤ (effType s.platform s.me.ctl s.plan r.cls e).strength)
    (h : freeSizes s r bs = true) : freeSizes s r (bs.map weaker) = true := by
  simp only [freeSizes, Bool.or_eq_true, Bool.and_eq_true, List.all_eq_true, List.forall_mem_map] at h ⊢
  rcases h with (h | ⟨-, hn⟩) | h
  · exact .inl (.inl h)
  · refine .inr (fun b hb => ?_)
    obtain ⟨d, e, -, he, -⟩ := hw b hb
    have := hn b hb
    simp only [MemAttr.isNormal, MemAttr.deviceType] at this he
    split at this
    · next hty => rw [hty] at he; cases he
    · cases this
  · refine .inr (fun b hb => ?_)
    obtain ⟨d, e, hd, he, hle⟩ := hw b hb
    have := h b hb
    rw [he] at this
    rw [hd]
    exact DeviceType.gathering_of_stronger hle this

/-- Settles O53: a lemma for each of the relations, of which each asks for one property of the type. -/
theorem weakerTypesAdmitMore : Obligations.WeakerTypesAdmitMore := by
  unfold Obligations.WeakerTypesAdmitMore
  exact ⟨fun s a b d e h => ⟨State.mustPrecede_stronger_left h, State.mustPrecede_stronger_right h, State.mayForward_weaker h,
    fun hp => hp, State.mayGather_weaker_left h, State.mayGather_weaker_right h, State.endpointMustAck_stronger h,
    fun option => State.dsbWaitsFor_stronger h⟩, fun cls d e X A F S b h => permittedDeviceRead_weaker h, freeSizes_weaker⟩

/-! ### Relaxed accesses (21_device_memory.md R182 to R184) -/

/-- An access has the record of one of its bytes. -/
theorem mem_xactsOf_attr {s : State} {r : Req} {x : Xact} (h : x ∈ xactsOf s r) :
    ∃ b ∈ allBytes r.rs ++ r.ex, x.attr = b.tr.attr := by
  obtain ⟨-, -, q, hq, -, -, -, hattr⟩ := mem_xactsOf s r x h
  rcases mem_piecesOf s r q hq with ⟨g, hg, rfl⟩ | ⟨b, hb, rfl⟩
  · obtain ⟨hne, -, hrs⟩ := groupsOf_mem s r g hg
    obtain ⟨b, t, rfl⟩ := List.exists_cons_of_ne_nil hne
    obtain ⟨p, hp, hbp⟩ := hrs b (by simp)
    exact ⟨b, List.mem_append_left _ (List.mem_flatMap.2 ⟨p, hp, hbp⟩), hattr⟩
  · exact ⟨b, List.mem_append_right _ hb, hattr⟩

theorem relaxable_iff (p : Platform) (c : PeCtl) (cls : AccessClass) : relaxable p c cls = true ↔
    cls.isSVE = true ∨ (cls.isSimdFp = true ∧ p.haveSME = true ∧ c.streamingSve = true ∧
      ¬ (p.featSmeFA64 = true ∧ c.fa64Enabled = true)) := by
  simp only [relaxable, Bool.or_eq_true, Bool.and_eq_true, Bool.not_eq_true', Bool.and_eq_false_iff, and_assoc]
  rw [Classical.not_and_iff_not_or_not, Bool.not_eq_true, Bool.not_eq_true]

theorem MemAttr.deviceType_of_isNormal {a : MemAttr} (h : a.isNormal = true) : a.deviceType = none := by
  obtain ⟨ty, xs⟩ := a
  cases ty with
  | normal n => rfl
  | device d => cases h

/-- A relaxation plays no part in the checks where the plan names no extra bytes. -/
theorem State.verdict_relaxed (s : State) (v : Bool) (cls : AccessClass) (rd wr : List RElem) (F : List Nat)
    (h : s.plan.extra = []) :
    ({ s with plan := { s.plan with relaxed := v } } : State).verdict cls rd wr F = s.verdict cls rd wr F := by
  have hex : ({ s with plan := { s.plan with relaxed := v } } : State).extraBytes cls rd F = s.extraBytes cls rd F := by
    simp [State.extraBytes, h]
  have hreach : ({ s with plan := { s.plan with relaxed := v } } : State).reached cls rd wr F = s.reached cls rd wr F := by
    simp only [State.reached, State.instrWalks, hex]; rfl
  unfold State.verdict
  rw [hreach]
  rfl

/-- Settles O45: the record of an access is one of its bytes', its type is `effType` of it, and the checks read the records. -/
theorem relaxedAccessesBehaveAsGre : Obligations.RelaxedAccessesBehaveAsGre := by
  unfold Obligations.RelaxedAccessesBehaveAsGre
  refine ⟨fun s r x hx => ⟨mem_xactsOf_attr hx, fun hn => ?_, fun d hd => ?_⟩,
    fun s v cls rd wr F => ⟨fun _ => rfl, s.verdict_relaxed v cls rd wr F⟩⟩ <;>
    obtain ⟨-, ⟨-, -, -, hdt⟩, -⟩ := mem_xactsOf s r x hx
  · rw [hdt, MemAttr.deviceType_of_isNormal hn]; rfl
  · rw [hdt, hd, ← relaxable_iff]
    refine ⟨fun hr hp => by simp [effType, hr, hp], fun h => ?_⟩
    rcases h with h | h
    · simp [effType, h]
    · simp [effType, h]

/-! ### Prefetch and a copy of nothing -/

/-- Settles O26: the reads of the elements' bytes, one after the other, each of Normal memory. -/
theorem prefetchNeverTouchesDeviceMemory : Obligations.PrefetchNeverTouchesDeviceMemory := by
  unfold Obligations.PrefetchNeverTouchesDeviceMemory
  intro es s vas hp hvas
  subst hvas
  have hexec : exec (.svePrefetch es) s = match s.plan.alloc with
      | none => .next s
      | some u => s.speculateAll s.cur u false ((activeElems es).flatMap (fun e => List.range' e.addr e.size)) :=
    requireFeature_of_present hp
  refine ⟨fun h => by rw [hexec, h], fun u hu => ?_⟩
  rw [hexec, hu]
  refine ⟨fun hr => ?_, fun q hq => by simp only [State.speculateAll, hq]⟩
  simp only [State.speculateAll, hr]
  refine ⟨_, rfl, ?_, fun hdev => ?_⟩
  · exact foldl_property (fun t => OnlyFills s t s.cur u false _) _ _ s (.refl ..) (fun _ _ hb h => h.speculate hb)
  · have hnil : s.specBytes s.cur ((activeElems es).flatMap (fun e => List.range' e.addr e.size)) = [] := by
      refine List.eq_nil_iff_forall_not_mem.2 (fun b hb => ?_)
      obtain ⟨hn, va, hva, htr⟩ := State.mem_specBytes hb
      have := hdev va hva b.tr htr
      rw [MemAttr.isDevice_of_isNormal hn] at this
      cases this
    rw [hnil]; rfl

/-- Of no source bytes there are no extra ones. -/
theorem State.extraBytes_copy_nil (s : State) : s.extraBytes .memCopy [] [] = [] := by
  refine List.eq_nil_iff_forall_not_mem.2 (fun b hb => ?_)
  obtain ⟨va, -, h⟩ := List.mem_filterMap.1 hb
  obtain ⟨t, -, h⟩ := Option.bind_eq_some_iff.1 h
  obtain ⟨d, -, h⟩ := Option.bind_eq_some_iff.1 h
  simp [permittedDeviceRead, inWindows, pasOf, allBytes] at h

theorem State.reached_copy_nil (s : State) : s.reached .memCopy [] [] [] = [] := by
  simp [State.reached, State.instrWalks, s.extraBytes_copy_nil, allBytes, walksOf, walkBytes, madeWalks]

theorem State.verdict_copy_nil (s : State) : s.verdict .memCopy [] [] [] = .go := by
  simp [State.verdict, s.reached_copy_nil, State.recordRefusal, mismatchedBytes, nonIdempotent, allBytes, crossesAttributes,
    crossesGranule, isSequence, unalignedNormal, alignmentFault]

theorem State.select_nil (s : State) : s.select [] = [] := List.filter_eq_nil_iff.2 (fun _ _ => by simp)

/-- A plan performs nothing of an instruction without accesses. -/
theorem State.performPlan_nil (s : State) (acts : List Act) (rest : Bool) : s.performPlan [] acts rest = s := by
  have hact : ∀ a : Act, State.act [] s a = s := by
    intro a
    have hids : idsAt [] a.ks = [] := by simp [idsAt]
    simp [State.act, hids, State.forceGroup, s.select_nil]
  have hacts : acts.foldl (State.act []) s = s :=
    foldl_property (fun u => u = s) (State.act []) acts s rfl (fun u a _ hu => by rw [hu]; exact hact a)
  unfold State.performPlan
  rw [hacts]
  cases rest <;> rfl

/-- Settles O25: a copy without bytes has no accesses and no walks. -/
theorem copyOfNothingAccessesNothing : Obligations.CopyOfNothingAccessesNothing := by
  unfold Obligations.CopyOfNothingAccessesNothing
  intro rd rs rn s hp h0 hn
  have hel : ∀ a b, copyElems a 0 b = [] := fun a b => rfl
  have hx : s.copyXacts [] [] = [] := by
    simp [State.copyXacts, xactsOf, xactsFrom, piecesOf, groupsOf, unitsOf, State.copyReads, State.copyWrites, Req.isSeq, isSequence,
      allBytes, cutGroups, s.extraBytes_copy_nil]
  have hw : s.walk (s.instrWalks .memCopy [] [] []) = s := by
    simp [State.instrWalks, s.extraBytes_copy_nil, allBytes, walksOf, State.dueWalks, State.walkReads, madeWalks, State.keepRecords]
  have hrun : exec (.cpy rd rs rn) s = .next (s.runCopy [] [] none) := by
    simp only [exec, execCpy, requireFeature_of_present hp, State.settle_idle _ _ _ h0, hn, hel, resolve_nil,
      BitVec.ofNat_eq_ofNat, BitVec.toNat_zero, s.verdict_copy_nil, hw]
    rfl
  refine ⟨_, hrun, ?_⟩
  have hmade : s.runCopy [] [] none = (s.touch []).issue [] := by
    simp only [State.runCopy, hx, State.runAccesses, State.performPlan_nil, State.copyReads, s.extraBytes_copy_nil, id]
    rfl
  rw [hmade]
  exact ⟨rfl, rfl, rfl, by simpa using h0, rfl, rfl⟩

end Sys2Proof.Machine
end

section
/-! The statements on barriers, on exceptions and on walks and fetches of Device memory. -/

namespace Sys2Proof.Machine

open Sys2Proof

/-! ### DSB (21_device_memory.md R168) -/

theorem State.dsbWaitsFor_iff (s : State) (crm : BitVec 4) (x : Xact) : s.dsbWaitsFor crm.toNat x = true ↔ AwaitedByDsb s crm x := by
  simp only [State.dsbWaitsFor, AwaitedByDsb, Bool.and_eq_true, Bool.or_eq_true, beq_iff_eq, List.any_eq_true, and_assoc]

/-- What is performed before some accesses of one observer is older than one of them, and its own where no write is seen before
it completes. -/
theorem State.mem_required {s : State} {x y : Xact} (h : y ∈ s.required [x]) :
    y.id < x.id ∧ (s.early = [] → y.obs = x.obs) := by
  refine ⟨s.required_older [x] _ x.id (by simp) y h, fun he => ?_⟩
  have hpre {a b : Xact} (hw : s.waitsFor b a = true) : a.obs = b.obs := by
    simp only [State.waitsFor, State.seenBefore, State.isSeen, he, Bool.or_eq_true] at hw
    rcases hw with hw | hw
    · exact ((s.mustPrecede_iff a b).1 hw).1
    · simp at hw
  revert h y
  unfold State.required
  induction s.inflight.filter (fun y => !([x].any (fun x => x.id == y.id))) with
  | nil => intro y h; cases h
  | cons z t ih =>
    intro y h
    rw [List.foldr_cons] at h
    split at h
    · next hany =>
      rcases List.mem_cons.1 h with rfl | h
      · obtain ⟨w, hw, hwz⟩ := List.any_eq_true.1 hany
        rcases List.mem_append.1 hw with hw | hw
        · exact (hpre hwz).trans (ih hw)
        · rw [← List.mem_singleton.1 hw]; exact hpre hwz
      · exact ih h
    · exact ih h

/-- Performing one access leaves in flight what is not older than it and, where no write is seen before it completes, what is
another observer's. -/
theorem State.force_spares {s : State} {id : Nat} {y : Xact} (hy : y ∈ s.inflight)
    (h : ∀ x, s.findXact id = some x → y.id ≠ x.id ∧ (x.id < y.id ∨ (s.early = [] ∧ y.obs ≠ x.obs ∧
      ∀ z ∈ s.inflight, z.id = y.id → z = y))) : y ∈ (s.force id []).inflight := by
  unfold State.force
  split
  · exact hy
  · next x hx =>
    obtain ⟨hne, hor⟩ := h x hx
    split
    · exact List.mem_filter.2 ⟨by simpa using hy, by simpa using hne⟩
    · have hreq : ∀ z ∈ s.required [x], y.id ≠ z.id := by
        intro z hz e
        obtain ⟨hlt, hobs⟩ := State.mem_required hz
        rcases hor with hor | ⟨he, ho, huniq⟩
        · omega
        · have hin : z ∈ s.inflight := (List.mem_filter.1 ((s.required_step _ _).subset hz)).1
          rw [huniq z hin e.symm] at hobs
          exact ho (hobs he)
      rw [State.performOne_inflight, State.foldl_performOne_inflight]
      exact List.mem_filter.2 ⟨List.mem_filter.2 ⟨hy, List.all_eq_true.2 (fun z hz => by simpa using hreq z hz)⟩, by simpa using hne⟩

/-- What is performed for some accesses of one observer leaves in flight what is later than they are and, where no write is seen
before it completes, what is another observer's. -/
theorem State.forceAll_spares {s : State} (hs : NumbersOk s) {y : Xact} (hy : y ∈ s.inflight) {o : Nat} {ids : List Nat}
    (hids : ∀ id ∈ ids, ∃ x ∈ s.inflight, x.id = id ∧ x.obs = o)
    (h : (y.obs ≠ o ∧ s.early = []) ∨ ∀ id ∈ ids, id < y.id) : y ∈ (s.forceAll ids).inflight := by
  refine (foldl_property (fun u => SameShape s u ∧ (∀ z ∈ u.inflight, z ∈ s.inflight) ∧ y ∈ u.inflight)
    (fun u id => u.force id []) ids s ⟨.refl s, fun _ h => h, hy⟩ (fun u id hid ⟨hsh, hsub, hyu⟩ => ?_)).2.2
  refine ⟨hsh.trans (u.force_sameShape id []), fun z hz => hsub z (u.force_sub id [] z hz), State.force_spares hyu (fun x hx => ?_)⟩
  obtain ⟨hxu, rfl⟩ := u.findXact_some id x hx
  obtain ⟨x', hx', he, ho⟩ := hids x.id hid
  obtain rfl := hs.eq_of_id hx' (hsub x hxu) he
  rcases h with ⟨hyo, hearly⟩ | h
  · refine ⟨fun e => ?_, .inr ⟨hsh.early.trans hearly, by rwa [ho], fun z hz e => hs.eq_of_id (hsub z hz) hy e⟩⟩
    obtain rfl := hs.eq_of_id hy hx' e
    exact hyo ho
  · have := h x'.id hid
    exact ⟨by omega, .inl this⟩

/-- Settles O30: the awaited writes are performed, which are those of this observer, and what is performed before them. -/
theorem dsbWaitsForTheEndpoint : Obligations.DsbWaitsForTheEndpoint := by
  unfold Obligations.DsbWaitsForTheEndpoint
  have hmem (s : State) (crm : BitVec 4) (id : Nat) : id ∈ (s.inflight.filter (s.dsbWaitsFor crm.toNat)).map Xact.id ↔
      ∃ x ∈ s.inflight, AwaitedByDsb s crm x ∧ x.id = id := by
    simp only [List.mem_map, List.mem_filter, State.dsbWaitsFor_iff, and_assoc]
  refine ⟨fun crm s hn => ⟨_, rfl, fun x hx ha => ?_, fun y hy h => ?_, ?_⟩, fun crm s hno => ⟨_, rfl, ?_⟩⟩
  · have hid := (hmem s crm x.id).2 ⟨x, hx, ha, rfl⟩
    have hgone : ∀ y ∈ (s.forceAll ((s.inflight.filter (s.dsbWaitsFor crm.toNat)).map Xact.id)).inflight, y.id ≠ x.id :=
      fun y hy e => (State.forceAll_inflight _ s y hy).2 (e ▸ hid)
    refine ⟨hgone, fun hdev => ?_⟩
    have hc := State.forceAll_changes (lo := s.nextId) ((s.inflight.filter (s.dsbWaitsFor crm.toNat)).map Xact.id) s ⟨hn, Nat.le_refl _⟩
    rcases hc.write_lands hn hx (hn.2.1 x hx).1 ha.2.1 (fun u _ n => by simp [State.reachesEndpoint, hdev]) with ⟨n, hin⟩ | harr
    · exact absurd rfl (hgone { x with fuel := n } hin)
    · exact harr
  · refine State.forceAll_spares hn hy (o := s.cur) (fun id hid => ?_) (h.imp_right (fun h id hid => ?_))
    · obtain ⟨x, hx, ha, rfl⟩ := (hmem s crm id).1 hid
      exact ⟨x, hx, rfl, ha.1⟩
    · obtain ⟨x, hx, ha, rfl⟩ := (hmem s crm id).1 hid
      exact h x hx ha
  · have hsh := s.forceAll_sameShape ((s.inflight.filter (s.dsbWaitsFor crm.toNat)).map Xact.id)
    rw [State.addMark_eq, State.me_setObs_cur]
    simp only [State.me_eq, hsh.cur, hsh.marks, hsh.nextId]
  · have hnil : s.inflight.filter (s.dsbWaitsFor crm.toNat) = [] := by
      refine List.filter_eq_nil_iff.2 (fun x hx h => ?_)
      obtain ⟨ho, hd, hdt, ⟨b, hb, hr⟩, -⟩ := (s.dsbWaitsFor_iff crm x).1 h
      rw [hno x hx ho hd hdt b hb] at hr
      cases hr
    rw [hnil]
    exact ⟨rfl, rfl, rfl, s.me_setObs_cur _⟩

/-! ### The exceptions of an access (21_device_memory.md R134, R135, R140) -/

/-- What the checks find of an instruction that breaks no restriction and is configured for its unaligned accesses: the fault of a
walk, or else that of an unaligned part. -/
theorem State.verdict_of_unrestricted {s : State} {cls : AccessClass} {rd wr first : List RElem}
    (hb : breaksRestriction s cls rd wr first = false)
    (hu : s.platform.unalignedAccessEnabled = true ∨ unalignedNormal (rd ++ wr) = false) :
    s.verdict cls rd wr (pasOf first) =
      if (allBytes rd ++ allBytes wr).any (RByte.faults s.platform s.me.ctl) then .take .permissionWalk
      else match alignmentFault s.platform (rd ++ wr) with
        | some st => .take (.alignment st)
        | none => .go := by
  simp only [breaksRestriction, Bool.or_eq_false_iff, Option.isSome_eq_false_iff, Option.isNone_iff_eq_none] at hb
  obtain ⟨⟨⟨hr, hw⟩, hg⟩, hrec⟩ := hb
  have hal : (!s.platform.unalignedAccessEnabled && unalignedNormal (rd ++ wr)) = false := by
    rcases hu with hu | hu <;> simp [hu]
  simp only [State.verdict, hr, hw, hg, hrec, hal, Bool.or_false, Bool.false_eq_true, if_false]
    <;> rfl

theorem mem_walksOf_iff {bs : List RByte} {w : WalkRef} : w ∈ walksOf bs ↔ ∃ b ∈ bs, w ∈ b.tr.walk :=
  ⟨mem_walksOf, fun ⟨b, hb, hw⟩ => List.mem_flatten.2 ⟨b.tr.walk, List.mem_eraseDups.2 (List.mem_map.2 ⟨b, hb, rfl⟩), hw⟩⟩

/-- A byte faults for its walk where one of the walks for the bytes does. -/
theorem any_faults_iff (p : Platform) (c : PeCtl) (bs : List RByte) :
    bs.any (RByte.faults p c) = true ↔ ∃ w ∈ walksOf bs, walkFaults p c w = true := by
  simp only [RByte.faults, List.any_eq_true, mem_walksOf_iff]
  exact ⟨fun ⟨b, hb, w, hw, hf⟩ => ⟨w, ⟨b, hb, hw⟩, hf⟩, fun ⟨w, ⟨b, hb, hw⟩, hf⟩ => ⟨b, hb, w, hw, hf⟩⟩

theorem faultsUnaligned_iff (p : Platform) (b : RByte) : faultsUnaligned p b = true ↔ b.tr.attr.isDevice = true ∧
    ((regionAt p b.tr.pa).supportsUnaligned = false ∨ p.deviceUnalignedFault = true) := by
  simp [faultsUnaligned]

/-- The stage of an Alignment fault is that of a byte of an unaligned part that faults. -/
theorem alignmentFault_some {p : Platform} {rs : List RElem} {st : Stage} (h : alignmentFault p rs = some st) :
    ∃ r ∈ rs, unalignedElem r.e = true ∧ ∃ b ∈ r.bs, faultsUnaligned p b = true ∧ b.tr.stage = st := by
  obtain ⟨r, hr, hst⟩ := Option.bind_eq_some_iff.1 h
  obtain ⟨b, hb, rfl⟩ := Option.map_eq_some_iff.1 hst
  have hu := List.find?_some hr
  rw [Bool.and_eq_true] at hu
  exact ⟨r, List.mem_of_find?_eq_some hr, hu.1, b, List.mem_of_find?_eq_some hb, List.find?_some hb, rfl⟩

/-- There is none only where no unaligned part has a byte that faults. -/
theorem alignmentFault_none_iff (p : Platform) (rs : List RElem) : alignmentFault p rs = none ↔
    ∀ r ∈ rs, unalignedElem r.e = true → ∀ b ∈ r.bs, faultsUnaligned p b = false := by
  constructor
  · intro h r hr hu b hb
    rw [Bool.eq_false_iff]
    intro hf
    unfold alignmentFault at h
    cases hfind : rs.find? (fun r => unalignedElem r.e && r.bs.any (faultsUnaligned p)) with
    | none => simpa [hu, List.any_eq_true.2 ⟨b, hb, hf⟩] using List.find?_eq_none.1 hfind r hr
    | some q =>
      have hq : (unalignedElem q.e && q.bs.any (faultsUnaligned p)) = true :=
        List.find?_some (p := fun (r : RElem) => unalignedElem r.e && r.bs.any (faultsUnaligned p)) hfind
      rw [Bool.and_eq_true] at hq
      obtain ⟨c, hc, hcf⟩ := List.any_eq_true.1 hq.2
      rw [hfind] at h
      cases hfc : q.bs.find? (faultsUnaligned p) with
      | none => exact List.find?_eq_none.1 hfc c hc hcf
      | some d => simp [hfc] at h
  · intro h
    cases ha : alignmentFault p rs with
    | none => rfl
    | some st =>
      obtain ⟨r, hr, hu, b, hb, hf, -⟩ := alignmentFault_some ha
      rw [h r hr hu b hb] at hf
      cases hf

/-- Settles O36: the checks find the Alignment fault of a byte of an unaligned part, or nothing, and decide what the instruction
does. -/
theorem unalignedDeviceAccessesFault : Obligations.UnalignedDeviceAccessesFault := by
  unfold Obligations.UnalignedDeviceAccessesFault
  intro i s m rd wr first hreach hbreaks hwalks hcfg
  have hdec := exec_decides i s m rd wr first hreach
  have hnofault : (allBytes rd ++ allBytes wr).any (RByte.faults s.platform s.me.ctl) = false := by
    rw [Bool.eq_false_iff, Ne, any_faults_iff]
    rintro ⟨w, hw, hf⟩
    rw [hwalks w hw] at hf
    cases hf
  have hv := State.verdict_of_unrestricted hbreaks hcfg
  rw [hnofault, if_neg (by simp)] at hv
  refine ⟨fun ⟨r, hr, hu, b, hb, hd, hf⟩ => ?_, fun hok => ?_⟩
  · cases ha : alignmentFault s.platform (rd ++ wr) with
    | none =>
      have := (alignmentFault_none_iff _ _).1 ha r hr hu b hb
      rw [(faultsUnaligned_iff _ b).2 ⟨hd, hf⟩] at this
      cases this
    | some st =>
      rw [ha] at hv
      obtain ⟨r', hr', hu', b', hb', hf', rfl⟩ := alignmentFault_some ha
      obtain ⟨hd', hf'⟩ := (faultsUnaligned_iff _ b').1 hf'
      exact ⟨r', hr', hu', b', hb', hd', hf', hdec.take _ hv, hdec.taken _ hv⟩
  · have ha : alignmentFault s.platform (rd ++ wr) = none := by
      refine (alignmentFault_none_iff _ _).2 (fun r hr hu b hb => ?_)
      rw [Bool.eq_false_iff, Ne, faultsUnaligned_iff]
      rintro ⟨hd, hf⟩
      obtain ⟨hs, hn⟩ := hok r hr hu b hb hd
      simp [hs, hn] at hf
    rw [ha] at hv
    exact ⟨hv, hdec.next (fun q h => by rw [hv] at h; cases h)⟩

/-! ### Fetches of Device memory (21_device_memory.md R136, R141) -/

/-- Records that are not refused with others are not refused without them. -/
theorem State.recordRefusal_mono {s : State} {bs cs : List RByte} (h : s.recordRefusal cs = none) (hsub : ∀ b ∈ bs, b ∈ cs) :
    s.recordRefusal bs = none := by
  rw [State.recordRefusal_none_iff] at h ⊢
  intro b hb
  obtain ⟨h1, h2, h3⟩ := h b (hsub b hb)
  exact ⟨h1, fun c hc => h2 c (hsub c hc), h3⟩

theorem any_walkFaults_false {p : Platform} {c : PeCtl} {ws : List WalkRef} (h : ∀ w ∈ ws, walkFaults p c w = false) :
    ws.any (walkFaults p c) = false := List.any_eq_false.2 (fun w hw => by simp [h w hw])

/-- A read of a fetch after its walks: what arrives, and what else it may change. -/
theorem State.walkReads_arrive (s : State) (o : Nat) (c : PeCtl) (ws : List WalkRef) (b : RByte) (a : Access) :
    ∃ m l, ((s.walkReads o c ws).touch [b]).arrive a = { s with
      arrivals := (s.walkReads o c ws).arrivals ++ [a.arrival s.platform], mem := m, touched := l } := by
  rw [State.walkReads_frame]
  exact ⟨_, _, rfl⟩

/-- What the fetch of a Device location comes to where nothing is refused and no walk faults. -/
theorem State.fetchAccess_device {s : State} {slot : Slot} {va : Nat} {t : Tr} (hva : slot.va = some va)
    (ht : fetchTr s.me.ctl va = some t) (hw : ∀ w ∈ t.walk, walkFaults s.platform s.me.ctl w = false)
    (hd : t.attr.isDevice = true)
    (hr : s.recordRefusal (fetchByte va t :: walkBytes s.platform s.me.ctl t.walk) = none) : s.fetchAccess slot =
      if t.xn.contains s.me.ctl.el || !s.plan.fetchAsNC then .take (.permissionFetch s.plan.faultStage)
      else .go (((s.walkReads s.cur s.me.ctl (s.dueWalks s.cur s.me.ctl s.plan.fetchKept t.walk)).touch [fetchByte va t]).arrive
        (fetchAccessOf s.cur t (MemAttr.normalNC t.attr.xs))) := by
  have hr' : s.recordRefusal (walkBytes s.platform s.me.ctl t.walk) = none :=
    State.recordRefusal_mono hr (fun b hb => List.mem_cons_of_mem _ hb)
  simp only [State.fetchAccess, hva, ht, hr, hr', any_walkFaults_false hw, hd, Bool.true_and, Bool.false_eq_true, if_false, if_true]

/-- Settles O39: the plan decides between the fetch and its exception, which the step takes. -/
theorem deviceFetchesAreMadeOrFault : Obligations.DeviceFetchesAreMadeOrFault := by
  unfold Obligations.DeviceFetchesAreMadeOrFault
  refine ⟨fun s slot va t hva ht hw hd hr => ⟨fun hx hp => ?_, fun hx hp => ?_⟩, fun s p rest slot more r hin hh hprog hf => ?_⟩
  · rw [State.fetchAccess_device hva ht hw hd hr, if_neg (by simpa [hp] using hx)]
    obtain ⟨m, l, hu⟩ := s.walkReads_arrive s.cur s.me.ctl (s.dueWalks s.cur s.me.ctl s.plan.fetchKept t.walk) (fetchByte va t)
      (fetchAccessOf s.cur t (MemAttr.normalNC t.attr.xs))
    exact ⟨_, MemAttr.normalNC t.attr.xs, rfl, by rw [hu], by rw [hu], rfl, rfl, rfl⟩
  · rw [State.fetchAccess_device hva ht hw hd hr, if_pos (by simp [hp])]
  · have hme : ({ s with inputs := rest, plan := p } : State).me = s.me := rfl
    simp only [step, hin, State.runNext, State.nextInstruction, hme, hh, hprog, hf]

theorem all_levels_iff (xn : List EL) : [EL.el0, .el1, .el2, .el3].all (fun l => xn.contains l) = true ↔ ∀ l : EL, l ∈ xn := by
  simp only [List.all_eq_true, List.contains_iff_mem]
  exact ⟨fun h l => h l (by cases l <;> simp), fun h l _ => h l⟩

/-- What a speculative fetch of a Device location comes to that is not execute-never everywhere, where nothing is refused and no
walk faults. -/
theorem State.specFetch_device {s : State} {o va : Nat} (kept : List Nat) (late : Option Nat) {t : Tr}
    (ht : fetchTr (s.getObs o).ctl va = some t) (hx : ∃ l : EL, l ∉ t.xn)
    (hw : ∀ w ∈ t.walk, walkFaults s.platform (s.getObs o).ctl w = false)
    (hr : s.recordRefusal (fetchByte va t :: walkBytes s.platform (s.getObs o).ctl t.walk) = none) :
    s.specFetch o va kept late =
      match late, mayLinger s.platform t.attr with
      | some n, true => .next ((s.walkReads o (s.getObs o).ctl (s.dueWalks o (s.getObs o).ctl kept t.walk)).lingering o .fetch n
          [([t.pa], t.attr)])
      | _, _ => .next (((s.walkReads o (s.getObs o).ctl (s.dueWalks o (s.getObs o).ctl kept t.walk)).touch [fetchByte va t]).arrive
          (fetchAccessOf o t t.attr)) := by
  have hall : [EL.el0, .el1, .el2, .el3].all (fun l => t.xn.contains l) = false := by
    rw [Bool.eq_false_iff, Ne, all_levels_iff]
    exact fun h => hx.elim (fun l hl => hl (h l))
  simp only [State.specFetch, ht, hall, any_walkFaults_false hw, hr, Bool.and_false, Bool.or_false, Bool.false_eq_true, if_false]
    <;> rfl

/-- Reads that stay in flight after some that were made: what is new in flight, and what else they may change. -/
theorem State.walkReads_lingering (s : State) (o : Nat) (c : PeCtl) (ws : List WalkRef) (cls : AccessClass) (n : Nat)
    (rs : List (List Nat × MemAttr)) : ∃ m l i k, (s.walkReads o c ws).lingering o cls n rs = { s with
      arrivals := (s.walkReads o c ws).arrivals, mem := m, touched := l
      inflight := s.inflight ++ rs.zipIdx.map (fun q => lateRead (s.walkReads o c ws) o cls n q.1.1 q.1.2 q.2)
      nextId := i, nextInstr := k } := by
  rw [State.walkReads_frame]
  exact ⟨_, _, _, _, rfl⟩

/-- Settles O40: the branches of `State.specFetch`; a fetch from a location that is execute-never everywhere takes an exception or is
refused. -/
theorem speculativeFetchesReachDevices : Obligations.SpeculativeFetchesReachDevices := by
  unfold Obligations.SpeculativeFetchesReachDevices
  refine ⟨fun s o va kept late t ht hd => ⟨fun hx => ?_, fun hx hw hr => ?_⟩, fun s u slot va t hva ht hd hx hgo => ?_⟩
  · have : s.specFetch o va kept late = .next s := by
      simp only [State.specFetch, ht, hd, (all_levels_iff t.xn).2 hx, Bool.and_self, Bool.true_or, if_true]
    exact this
  · have hspec : s.handle (.specFetch o va kept late) = s.specFetch o va kept late := rfl
    rw [hspec, State.specFetch_device kept late ht hx hw hr]
    refine ⟨fun hnow => ?_, fun n hl hg => ?_⟩
    · obtain ⟨m, l, hu⟩ := s.walkReads_arrive o (s.getObs o).ctl (s.dueWalks o (s.getObs o).ctl kept t.walk) (fetchByte va t)
        (fetchAccessOf o t t.attr)
      rcases hnow with rfl | hg
      · exact ⟨_, rfl, by rw [hu], by rw [hu]⟩
      · rw [hg]
        cases late <;> exact ⟨_, rfl, by rw [hu], by rw [hu]⟩
    · subst hl
      rw [hg]
      obtain ⟨m, l, i, k, hu⟩ := s.walkReads_lingering o (s.getObs o).ctl (s.dueWalks o (s.getObs o).ctl kept t.walk) .fetch n
        [([t.pa], t.attr)]
      exact ⟨_, _, rfl, by rw [hu]; rfl, by rw [hu], rfl, rfl, rfl, rfl, rfl, rfl, rfl⟩
  · unfold State.fetchAccess at hgo
    simp only [hva, ht] at hgo
    split at hgo
    · cases hgo
    · split at hgo
      · cases hgo
      · rw [if_pos (by simp [hx])] at hgo
        cases hgo

end Sys2Proof.Machine
end

section
/-! What the instructions that access memory make of it: the walks, then some of their accesses. -/

namespace Sys2Proof.Machine

open Sys2Proof

/-! ### Performing what is in flight -/

/-- What must be performed first is in flight. -/
theorem State.required_sub (u : State) (xs : List Xact) : ∀ y ∈ u.required xs, y ∈ u.inflight :=
  fun _ hy => List.filter_sublist.subset ((u.required_step xs _).subset hy)

/-- From `s` to `t` accesses in flight were performed and none was issued: what arrived was in flight, and each transaction touches
bytes of its accesses alone. -/
structure Performed (s t : State) : Prop where
  inflight : ∀ x ∈ t.inflight, x ∈ s.inflight
  arrivals : ∃ l, t.arrivals = s.arrivals ++ l ∧ ∀ a ∈ l, (∀ x ∈ a.xs, x ∈ s.inflight) ∧
    ∀ q ∈ a.bytes, ∃ x ∈ a.xs, ∃ b ∈ x.bs, b.pa = q

namespace Performed

variable {s u : State}

theorem refl (s : State) : Performed s s := ⟨fun _ h => h, [], by simp, by simp⟩

/-- Only what is in flight and what arrived count. -/
theorem of_eq {t : State} (h : Performed s u) (hi : ∀ x ∈ t.inflight, x ∈ u.inflight) (ha : t.arrivals = u.arrivals) : Performed s t :=
  ⟨fun x hx => h.inflight x (hi x hx), ha ▸ h.arrivals⟩

theorem transact (h : Performed s u) {xs : List Xact} (again : List Nat) (hx : ∀ x ∈ xs, x ∈ s.inflight) :
    Performed s (u.transact xs again) := by
  refine ⟨fun x hm => h.inflight x (u.transact_sub xs again x hm), ?_⟩
  obtain ⟨l, hl, hb⟩ := h.arrivals
  rw [State.transact_arrivals]
  rcases u.logGroup_arrivals xs with ⟨e, -⟩ | ⟨a, e, -, hxs, hbytes, -⟩
  · exact ⟨l, e.trans hl, hb⟩
  · refine ⟨l ++ [a], by rw [e, hl, List.append_assoc], fun a' ha' => ?_⟩
    rcases List.mem_append.1 ha' with ha' | ha'
    · exact hb a' ha'
    · rw [List.mem_singleton.1 ha', hbytes]
      refine ⟨fun x hxa => hx x (List.mem_filter.1 (hxs ▸ hxa)).1, fun q hq => ?_⟩
      obtain ⟨x, hxa, hq⟩ := List.mem_flatMap.1 hq
      exact ⟨x, hxa, List.mem_map.1 hq⟩

theorem answer (h : Performed s u) (x : Xact) (vals : List Byte) : Performed s ((u.deliverTo x vals).retire x) :=
  h.of_eq (fun y hy => by
    rw [State.retire_inflight, State.deliverTo_inflight] at hy
    exact (List.mem_filter.1 hy).1) (by simp)

theorem performOne (h : Performed s u) {x : Xact} (again : List Nat) (hx : x ∈ s.inflight) : Performed s (u.performOne x again) := by
  unfold State.performOne
  split
  · exact h.answer x _
  · exact h.transact again (by simpa using hx)

theorem foldl_performOne (h : Performed s u) {L : List Xact} (hL : ∀ x ∈ L, x ∈ s.inflight) :
    Performed s (L.foldl (fun s y => s.performOne y []) u) :=
  foldl_property (Performed s) _ _ _ h (fun _ _ hx hv => hv.performOne [] (hL _ hx))

theorem force (h : Performed s u) (id : Nat) (again : List Nat) : Performed s (u.force id again) := by
  unfold State.force
  split
  · exact h
  · next x hf =>
    split
    · exact h.answer x _
    · exact (h.foldl_performOne (fun y hy => h.inflight y (u.required_sub _ y hy))).performOne
        again (h.inflight x (u.findXact_some id x hf).1)

theorem forceAll (h : Performed s u) (ids : List Nat) : Performed s (u.forceAll ids) := by
  induction ids generalizing u with
  | nil => exact h
  | cons i t ih => exact ih (h.force i [])

theorem forceGroup (h : Performed s u) (ids again : List Nat) : Performed s (u.forceGroup ids again) := by
  unfold State.forceGroup
  split
  · exact h
  · exact h.force _ _
  · split
    · exact (h.foldl_performOne (fun y hy => h.inflight y (u.required_sub _ y hy))).transact _ (fun x hx => h.inflight x ((u.select_sub ids).subset hx))
    · exact h.forceAll _

theorem performPlan (h : Performed s u) (xs : List Xact) (acts : List Act) (rest : Bool) : Performed s (u.performPlan xs acts rest) := by
  have hfold : Performed s (acts.foldl (State.act xs) u) := foldl_property (Performed s) _ _ _ h (fun _ _ _ hv => hv.forceGroup _ _)
  unfold State.performPlan
  dsimp only
  split
  · exact hfold.forceAll _
  · exact hfold

end Performed

/-- From `s`, with nothing in flight, the walks `ws` were made that are due, then some of the accesses `xs`. -/
structure Accesses (s : State) (ws : List WalkRef) (xs : List Xact) (t : State) : Prop where
  inflight : ∀ x ∈ t.inflight, x ∈ xs
  arrivals : ∃ l, t.arrivals = (s.walk ws).arrivals ++ l ∧ ∀ a ∈ l, (∀ x ∈ a.xs, x ∈ xs) ∧
    ∀ q ∈ a.bytes, ∃ x ∈ a.xs, ∃ b ∈ x.bs, b.pa = q

/-- An effect beside the accesses touches neither what is in flight nor what arrived. -/
def SparesAccesses (pre : State → State) : Prop := ∀ u, (pre u).inflight = u.inflight ∧ (pre u).arrivals = u.arrivals

section

variable {s t : State} {ws : List WalkRef} {xs : List Xact}

/-- Nothing accessed, and no walk. -/
theorem Accesses.none (h0 : s.inflight = []) (hi : t.inflight = s.inflight) (ha : t.arrivals = s.arrivals) : Accesses s [] [] t :=
  ⟨by rw [hi, h0]; simp, [], by rw [ha, State.walk_eq, State.walkReads_frame]; simp [State.dueWalks, madeWalks], by simp⟩

/-- The walks alone. -/
theorem Accesses.walks (h0 : s.inflight = []) (hi : t.inflight = s.inflight) (ha : t.arrivals = (s.walk ws).arrivals) :
    Accesses s ws [] t :=
  ⟨by rw [hi, h0]; simp, [], by rw [ha, List.append_nil], by simp⟩

theorem Accesses.ofPerformed {u : State} (h : Performed u t) (hu : u.inflight = xs) (ha : u.arrivals = (s.walk ws).arrivals) :
    Accesses s ws xs t := by
  obtain ⟨hi, hl⟩ := h
  rw [hu] at hi
  rw [hu, ha] at hl
  exact ⟨hi, hl⟩

/-- What stays the same but for the registers. -/
theorem Accesses.of_eq {u : State} (h : Accesses s ws xs u) (hi : ∀ x ∈ t.inflight, x ∈ u.inflight) (ha : t.arrivals = u.arrivals) :
    Accesses s ws xs t :=
  ⟨fun x hx => h.inflight x (hi x hx), ha ▸ h.arrivals⟩

/-- Making accesses after the walks, all of them or up to an exception. -/
theorem State.runAccesses_accesses (h0 : s.inflight = []) (ws : List WalkRef) (bs : List RByte) (xs : List Xact) (stop : Option Raise)
    {pre : State → State} (hpre : SparesAccesses pre) :
    Accesses s ws (if stop.isSome then xs.map Xact.unheeded else xs) ((s.walk ws).runAccesses bs xs stop pre) := by
  have h0' : (s.walk ws).inflight = [] := by simpa using h0
  cases stop with
  | none =>
    obtain ⟨hi, ha⟩ := hpre (s.walk ws)
    exact .ofPerformed ((Performed.refl _).performPlan xs _ _) (by simp only [State.issue, State.touch, State.keepRecords, hi, h0']; rfl) ha
  | some e =>
    have h : Accesses s ws (xs.map Xact.unheeded) ((((s.walk ws).touch bs).issue (xs.map Xact.unheeded)).performPlan
        (xs.map Xact.unheeded) (s.walk ws).plan.acts false) :=
      .ofPerformed ((Performed.refl _).performPlan _ _ _) (by simp only [State.issue, State.touch, State.keepRecords, h0']; rfl) rfl
    exact h.of_eq (fun x hx => (List.mem_filter.1 hx).1) rfl

end

end Sys2Proof.Machine
end

section
/-! What an instruction that reaches its checks makes, and with which bytes. -/

namespace Sys2Proof.Machine

open Sys2Proof

/-- An access of an instruction of a class that reads `rd` and writes `wr`: of some of their bytes, or extra ones, with their record. -/
structure Fits (s : State) (cls : AccessClass) (rd wr : List RElem) (F : List Nat) (x : Xact) : Prop where
  nonempty : x.bs ≠ []
  bytes : ∀ b ∈ x.bs, ∃ c : RByte, b.pa = c.tr.pa ∧ x.attr.eraseHints = c.tr.attr.eraseHints ∧
    ((x.extra = false ∧ ((x.dir = .read ∧ c ∈ allBytes rd) ∨ (x.dir = .write ∧ c ∈ allBytes wr))) ∨
      (x.extra = true ∧ x.dir = .read ∧ c ∈ s.extraBytes cls rd F))

section

variable {s : State} {cls : AccessClass} {rd wr : List RElem} {F : List Nat}

/-- An access without its destination reads the same bytes. -/
theorem Fits.unheeded {x : Xact} (h : Fits s cls rd wr F x) : Fits s cls rd wr F x.unheeded := ⟨h.nonempty, h.bytes⟩

theorem xactsFrom_nonempty {r : Req} {k : Nat} {x : Xact} (h : x ∈ xactsFrom s r k) : x.bs ≠ [] := by
  obtain ⟨-, -, q, hq, hbs, -⟩ := mem_xactsFrom s r k x h
  rw [hbs, Ne, List.map_eq_nil_iff]
  rcases mem_piecesOf s r q hq with ⟨g, hg, rfl⟩ | ⟨d, -, rfl⟩
  · exact (groupsOf_mem s r g hg).1
  · exact List.cons_ne_nil _ _

/-- The accesses of a request for some of the bytes. -/
theorem xactsFrom_fits {r : Req} {k : Nat} (hr : r.dir = .read → ∀ b ∈ allBytes r.rs, b ∈ allBytes rd)
    (hw : r.dir = .write → ∀ b ∈ allBytes r.rs, b ∈ allBytes wr) (hex : ∀ b ∈ r.ex, r.dir = .read ∧ b ∈ s.extraBytes cls rd F) :
    ∀ x ∈ xactsFrom s r k, Fits s cls rd wr F x := by
  intro x hx
  refine ⟨xactsFrom_nonempty hx, fun b hb => ?_⟩
  have hdir : x.dir = r.dir := (mem_xactsFrom s r k x hx).1.2.1
  obtain ⟨c, rfl, ha, ⟨he, ⟨p, hp, hc⟩, -⟩ | ⟨he, hc, -⟩⟩ := mem_xactsFrom_byte s r k x hx b hb
  · have hc : c ∈ allBytes r.rs := List.mem_flatMap.2 ⟨p, hp, hc⟩
    refine ⟨c, rfl, ha, .inl ⟨he, ?_⟩⟩
    rw [hdir]
    cases hd : r.dir with
    | read => exact .inl ⟨rfl, hr hd c hc⟩
    | write => exact .inr ⟨rfl, hw hd c hc⟩
  · exact ⟨c, rfl, ha, .inr ⟨he, hdir ▸ (hex c hc).1, (hex c hc).2⟩⟩

/-- The accesses of a request of all parts in one direction, and of what is spared of it. -/
theorem reqOf_fits {dir : Dir} (f : RegFile) (rel : Bool) (all : List Elem) (rs : List RElem) :
    (∀ x ∈ xactsOf s (s.reqOf cls dir f rel all rs F), Fits s cls (readParts dir rs) (writtenParts dir rs) F x) ∧
    ∀ x ∈ xactsOf s ((s.reqOf cls dir f rel all rs F).spared s.platform s.me.ctl),
      Fits s cls (readParts dir rs) (writtenParts dir rs) F x := by
  constructor
  · cases dir with
    | read => exact xactsFrom_fits (fun _ b hb => hb) (fun h => (nomatch h)) (fun b hb => ⟨rfl, hb⟩)
    | write => exact xactsFrom_fits (fun h => nomatch h) (fun _ b hb => hb) (fun b hb => absurd hb List.not_mem_nil)
  · cases dir with
    | read =>
      exact xactsFrom_fits (fun _ b hb => mem_allBytes_spared hb) (fun h => nomatch h) (fun b hb => absurd hb List.not_mem_nil)
    | write =>
      exact xactsFrom_fits (fun h => nomatch h) (fun _ b hb => mem_allBytes_spared hb) (fun b hb => absurd hb List.not_mem_nil)

/-- The accesses of a copy of some of the bytes. -/
theorem copyXacts_fits {rd' wr' : List RElem} (hr : ∀ b ∈ allBytes rd', b ∈ allBytes rd) (hw : ∀ b ∈ allBytes wr', b ∈ allBytes wr) :
    ∀ x ∈ s.copyXacts rd' wr', Fits s .memCopy rd wr [] x := by
  intro x hx
  rcases List.mem_append.1 hx with hx | hx
  · exact xactsFrom_fits (fun _ => hr) (fun h => absurd (show Dir.read = .write from h) (by decide)) (fun b hb => ⟨rfl, State.extraBytes_copy_mono hr b hb⟩) x hx
  · exact xactsFrom_fits (fun h => absurd (show Dir.write = .read from h) (by decide)) (fun _ => hw) (fun b hb => absurd hb List.not_mem_nil) x hx

/-- What the checks let an instruction do, in terms of its accesses: where they find nothing, its walks come first. -/
structure Checked (s : State) (cls : AccessClass) (rd wr : List RElem) (F : List Nat) (o : Out) : Prop where
  next : ∀ t, o = .next t → ∃ ws xs, Accesses s ws xs t ∧ ∀ x ∈ xs, Fits s cls rd wr F x
  go : s.verdict cls rd wr F = .go → ∃ t xs, o = .next t ∧ Accesses s (s.instrWalks cls rd wr F) xs t

/-- Making some of an instruction's accesses, all of them or up to an exception. -/
theorem State.runAccesses_fits (h0 : s.inflight = []) (ws : List WalkRef) (bs : List RByte) {xs : List Xact} (stop : Option Raise)
    {pre : State → State} (hpre : SparesAccesses pre) (hx : ∀ x ∈ xs, Fits s cls rd wr F x) :
    ∃ ys, Accesses s ws ys ((s.walk ws).runAccesses bs xs stop pre) ∧ ∀ x ∈ ys, Fits s cls rd wr F x := by
  refine ⟨_, State.runAccesses_accesses h0 ws bs xs stop hpre, ?_⟩
  split
  · exact List.forall_mem_map.2 (fun x hm => (hx x hm).unheeded)
  · exact hx

/-- ONE REQUEST. -/
theorem State.request_checked (h0 : s.inflight = []) (dir : Dir) (f : RegFile) (rel : Bool) (all : List Elem) (rs : List RElem)
    {pre : State → State} (hpre : SparesAccesses pre) :
    Checked s cls (readParts dir rs) (writtenParts dir rs) F (s.request cls dir f rel all rs F pre) := by
  obtain ⟨hfull, hspared⟩ := reqOf_fits (s := s) (cls := cls) (F := F) (dir := dir) f rel all rs
  unfold State.request State.runReq
  cases hv : s.verdict cls (readParts dir rs) (writtenParts dir rs) F with
  | refuse q => exact ⟨fun t ht => (nomatch ht), fun h => nomatch hv.symm.trans h⟩
  | take e =>
    refine ⟨fun t ht => ?_, fun h => nomatch hv.symm.trans h⟩
    dsimp only at ht
    split at ht
    · cases ht
      rw [State.xactsOf_walk]
      obtain ⟨ys, ha, hy⟩ := State.runAccesses_fits h0 _ _ _ hpre hspared
      exact ⟨_, ys, ha, hy⟩
    · cases ht
      exact ⟨[], [], .none h0 rfl rfl, by simp⟩
  | go =>
    dsimp only
    rw [State.xactsOf_walk]
    obtain ⟨ys, ha, hy⟩ := State.runAccesses_fits h0 (s.instrWalks cls (readParts dir rs) (writtenParts dir rs) F)
      (allBytes (s.reqOf cls dir f rel all rs F).rs ++ (s.reqOf cls dir f rel all rs F).ex)
      (s.cutShort ((s.reqOf cls dir f rel all rs F).isSeq s.platform) none) hpre hfull
    exact ⟨fun t ht => by cases ht; exact ⟨_, ys, ha, hy⟩, fun _ => ⟨_, ys, rfl, ha⟩⟩

/-- A Store-Exclusive that fails makes its walks alone. -/
theorem State.exclFail_checked (h0 : s.inflight = []) (n : RegNum) (q : List RElem) :
    Checked s .storeExclusive [] q [] (s.exclFail n q) := by
  unfold State.exclFail
  cases hv : s.verdict .storeExclusive [] q [] with
  | refuse r => exact ⟨fun t ht => (nomatch ht), fun h => nomatch hv.symm.trans h⟩
  | take e => exact ⟨fun t ht => by cases ht; exact ⟨[], [], .none h0 rfl rfl, by simp⟩, fun h => nomatch hv.symm.trans h⟩
  | go =>
    have ha : Accesses s (s.instrWalks .storeExclusive [] q []) [] ((s.walk (s.instrWalks .storeExclusive [] q [])).exclDone n 1) :=
      .walks h0 (s.walkReads_inflight _ _ _) rfl
    exact ⟨fun t ht => by cases ht; exact ⟨_, [], ha, by simp⟩, fun _ => ⟨_, [], rfl, ha⟩⟩

end

/-- A CPY, with its addresses translated. -/
theorem execCpy_checked {s : State} (h0 : s.inflight = []) {a b n : RegNum} {src dst : List RElem} (hf : s.platform.haveMOPS = true)
    (hs : resolve s.platform s.me .copy (copyElems (s.me.xreg b).toNat (s.me.xreg n).toNat s.nextId) = .ok src)
    (hd : resolve s.platform s.me .copy (copyElems (s.me.xreg a).toNat (s.me.xreg n).toNat s.nextId) = .ok dst) :
    Checked s .memCopy src dst [] (execCpy a b n s) := by
  have hfull := copyXacts_fits (s := s) (rd := src) (wr := dst) (rd' := src) (wr' := dst) (fun _ h => h) (fun _ h => h)
  have hspared : ∀ x ∈ s.copyXacts (sparedCopy s.platform s.me.ctl src dst).1 (sparedCopy s.platform s.me.ctl src dst).2,
      Fits s .memCopy src dst [] x :=
    copyXacts_fits (fun b hb => mem_allBytes_spared (mem_allBytes_filter hb)) (fun b hb => mem_allBytes_spared (mem_allBytes_filter hb))
  have hid : SparesAccesses id := fun _ => ⟨rfl, rfl⟩
  unfold execCpy
  rw [requireFeature_of_present hf, State.settle_idle _ _ _ h0]
  simp only [hs, hd, State.runCopy, State.copyXacts_walk]
  cases hv : s.verdict .memCopy src dst [] with
  | refuse q => exact ⟨fun t ht => (nomatch ht), fun h => nomatch hv.symm.trans h⟩
  | take e =>
    refine ⟨fun t ht => ?_, fun h => nomatch hv.symm.trans h⟩
    dsimp only at ht
    split at ht
    · cases ht
      obtain ⟨ys, ha, hy⟩ := State.runAccesses_fits h0 _ _ _ hid hspared
      exact ⟨_, ys, ha, hy⟩
    · cases ht
      exact ⟨[], [], .none h0 rfl rfl, by simp⟩
  | go =>
    obtain ⟨ys, ha, hy⟩ := State.runAccesses_fits h0 (s.instrWalks .memCopy src dst [])
      (allBytes src ++ ((s.walk (s.instrWalks .memCopy src dst [])).copyReads src dst).ex ++ allBytes dst)
      (s.cutShort (decide ((s.me.xreg n).toNat ≠ 0)) none) hid hfull
    exact ⟨fun t ht => by cases ht; exact ⟨_, ys, ha, hy⟩, fun _ => ⟨_, ys, rfl, ha⟩⟩

/-! ### Every instruction that accesses memory -/

/-- What the instructions that access memory are, by their form. -/
inductive Accessing (s : State) : Instr → MemForm → Prop
  | load {i : Instr} {l : LoadForm} : loadForm i s = some l → authPasses i s = true → Accessing s i ⟨l.cls, l.file, l.es, [], l.first⟩
  | store {i : Instr} {c : AccessClass} {f : RegFile} {es : List Elem} :
      storeForm i = some (c, f, es) → authPasses i s = true → Accessing s i ⟨c, f, [], es, []⟩
  | auth {i : Instr} {sb : BitVec 1} {imm9 : BitVec 9} {w : BitVec 1} {rn rt : RegNum} : i = .ldraa sb imm9 w rn rt ∨ i = .ldrab sb imm9 w rn rt →
      Accessing s i ⟨.ldrax, .gp, [authElem (authAddr (s.me.base rn) sb imm9) rt], [], []⟩
  | copy (a b n : RegNum) : Accessing s (.cpy a b n) ⟨.memCopy, .copy, copyElems (s.me.xreg b).toNat (s.me.xreg n).toNat s.nextId,
      copyElems (s.me.xreg a).toNat (s.me.xreg n).toNat s.nextId, []⟩
  | exclusive (n : RegNum) (f : OrderedForm) : Accessing s (.storeExcl n f) ⟨.storeExclusive, .gp, [], f.es, []⟩

theorem accessing_of_memForm {i : Instr} {s : State} {m : MemForm} (h : memForm i s = some m) : Accessing s i m := by
  cases i with
  | ldraa => cases h; exact .auth (.inl rfl)
  | ldrab => cases h; exact .auth (.inr rfl)
  | cpy => cases h; exact .copy _ _ _
  | storeExcl => cases h; exact .exclusive _ _
  | _ =>
    unfold memForm at h
    dsimp only at h
    split at h
    · next hl => cases h; exact .load hl rfl
    · next hs => cases h; exact .store hs rfl
    · cases h

/-- What a load does beside its accesses spares them. -/
theorem loadEffect_spares (i : Instr) (s : State) (f : RegFile) (all : List Elem) (rs : List RElem) :
    SparesAccesses (fun t => (loadEffect i s rs t).scrambleAll f all) := by
  intro u
  unfold loadEffect
  split
  · split <;> exact ⟨rfl, rfl⟩
  all_goals exact ⟨rfl, rfl⟩

theorem storeEffect_spares (rel : Bool) (rs : List RElem) : SparesAccesses (storeEffect rel rs) := by
  intro u
  cases rel <;> exact ⟨rfl, rfl⟩

theorem writeBack_spares (w : BitVec 1) (rn : RegNum) (addr : Word) (f : RegFile) (all : List Elem) :
    SparesAccesses (fun t => (t.writeBack w rn addr).scrambleAll f all) := by
  intro u
  unfold State.writeBack
  split <;> exact ⟨rfl, rfl⟩

theorem resolve_nil_ok {p : Platform} {o : Observer} {f : RegFile} {rs : List RElem} (h : resolve p o f [] = .ok rs) : rs = [] := by
  cases h; rfl

/-- Every instruction that reaches its checks does what they let it do. -/
theorem exec_checked {i : Instr} {s : State} {m : MemForm} {rd wr first : List RElem} (h : Reaches i s m rd wr first) :
    Checked s m.cls rd wr (pasOf first) (exec i s) := by
  obtain ⟨hm, h0, hf, ha, hr, hw, hx⟩ := h
  cases accessing_of_memForm hm with
  | load hl _ =>
    cases resolve_nil_ok hw
    obtain ⟨g, u, n, he, -, -, -, hidle⟩ := exec_of_loadForm hl
    obtain ⟨rfl, rfl⟩ := hidle h0
    rw [he, requireFeature_of_present hf]
    simp only [State.load, State.access, hr, hx]
    exact State.request_checked h0 .read _ _ _ rd (loadEffect_spares i u _ _ rd)
  | store hs _ =>
    cases resolve_nil_ok hr
    cases resolve_nil_ok hx
    obtain ⟨g, all, he⟩ := exec_eq_store hs s
    rw [he, requireFeature_of_present hf, State.store_eq_request _ _ _ _ hw]
    exact State.request_checked h0 .write _ _ _ wr (storeEffect_spares _ _)
  | @auth _ sb imm9 w rn rt hi =>
    cases resolve_nil_ok hw
    cases resolve_nil_ok hx
    have ho : s.plan.authOk = true ∧ s.platform.havePAUTH = true := by rcases hi with rfl | rfl <;> exact ⟨ha, hf⟩
    have he : exec i s = s.loadAuth sb imm9 w rn rt := by
      rcases hi with rfl | rfl <;> exact requireFeature_of_present ho.2
    rw [he]
    unfold State.loadAuth
    rw [State.settle_idle _ _ _ h0]
    simp only [hr, ho.1, if_true]
    exact State.request_checked h0 .read _ _ _ rd (writeBack_spares _ _ _ _ _)
  | copy a b n =>
    cases resolve_nil_ok hx
    exact execCpy_checked h0 hf hr hw
  | exclusive n f =>
    cases resolve_nil_ok hr
    cases resolve_nil_ok hx
    change Checked s .storeExclusive [] wr [] (execStoreExcl n f s)
    unfold execStoreExcl
    simp only [hw]
    split
    · refine State.request_checked h0 .write _ _ _ wr (fun u => ?_)
      split <;> exact ⟨rfl, rfl⟩
    · exact State.exclFail_checked h0 n wr

end Sys2Proof.Machine
end

section
/-! The walks of an instruction, the windows it reads in, and what suppressed elements read. -/

namespace Sys2Proof.Machine

open Sys2Proof

/-! ### What reaches the checks -/

/-- The read a failed check may make of the bytes `g`. -/
def authXact (s : State) (r : Req) (g : List RByte) : Xact := { mkXact s r false g 0 with repeatable := false, dst := none }

/-- A failed authentication check makes at most its one read. -/
theorem State.failedRead_accesses {s : State} (h0 : s.inflight = []) (r : Req) : ∃ ws xs, Accesses s ws xs (s.failedRead r) ∧
    ∀ x ∈ xs, ∃ y ∈ xactsOf s r, x = { y with repeatable := false, dst := none } := by
  have h0' : (s.walk (walksOf (allBytes r.rs))).inflight = [] := by simpa using h0
  unfold State.failedRead
  split
  · next g _ hg =>
    dsimp only
    split
    · refine ⟨walksOf (allBytes r.rs), [authXact s r g], ?_, ?_⟩
      · have h : Accesses s (walksOf (allBytes r.rs)) [authXact s r g]
            (((s.walk (walksOf (allBytes r.rs))).touch (allBytes r.rs)).issue
              [authXact s r g]) :=
          .ofPerformed (Performed.refl _) (by simp only [State.issue, State.touch, State.keepRecords, h0']; rfl) rfl
        split
        · exact .ofPerformed ((Performed.refl _).force _ _) (by simp only [State.issue, State.touch, State.keepRecords, h0']; rfl) rfl
        · exact h
      · intro x hx
        rw [List.mem_singleton.1 hx]
        have hm : mkXact s r false g 0 ∈ (xactsOf s r).filter (fun y => !y.extra) := by
          rw [xactsOf_explicit_of_groupsOf hg]; exact List.mem_singleton_self _
        exact ⟨_, (List.mem_filter.1 hm).1, rfl⟩
    · exact ⟨[], [], .none h0 rfl rfl, by simp⟩
  · exact ⟨[], [], .none h0 rfl rfl, by simp⟩

/-- What a failed check leaves changes registers alone. -/
theorem State.authFail_same (s : State) (rt : RegNum) :
    (s.authFail rt).inflight = s.inflight ∧ (s.authFail rt).arrivals = s.arrivals := by
  unfold State.authFail
  split <;> exact ⟨rfl, rfl⟩

/-- An LDRAA or LDRAB whose check fails. -/
theorem State.loadAuth_fails {s t : State} (h0 : s.inflight = []) {sb : BitVec 1} {imm9 : BitVec 9} {w : BitVec 1} {rn rt : RegNum}
    (ha : s.plan.authOk = false) (h : s.loadAuth sb imm9 w rn rt = .next t) : ∃ ws xs, Accesses s ws xs t ∧
      ∀ x ∈ xs, ∃ rd, resolve s.platform s.me .gp [authElem (authAddr (s.me.base rn) sb imm9) rt] = .ok rd ∧ Fits s .ldrax rd [] [] x := by
  have hnone : ∃ ws xs, Accesses s ws xs (s.authFail rt) ∧ ∀ x ∈ xs,
      ∃ rd, resolve s.platform s.me .gp [authElem (authAddr (s.me.base rn) sb imm9) rt] = .ok rd ∧ Fits s .ldrax rd [] [] x :=
    ⟨[], [], .none h0 (s.authFail_same rt).1 (s.authFail_same rt).2, by simp⟩
  unfold State.loadAuth at h
  rw [State.settle_idle _ _ _ h0] at h
  simp only [ha, Bool.false_eq_true, if_false] at h
  split at h
  · cases h; exact hnone
  · next rs hr =>
    split at h
    · cases h
      obtain ⟨ws, xs, hacc, hx⟩ := State.failedRead_accesses h0
        (s.reqOf .ldrax .read .gp false [authElem (authAddr (s.me.base rn) sb imm9) rt] rs [])
      refine ⟨ws, xs, hacc.of_eq (fun x hx => ?_) (State.authFail_same _ rt).2, fun x hxm => ⟨rs, hr, ?_⟩⟩
      · rwa [(State.authFail_same _ rt).1] at hx
      · obtain ⟨y, hy, rfl⟩ := hx x hxm
        obtain ⟨hn, hb⟩ := (reqOf_fits (F := []) (dir := .read) .gp false [authElem (authAddr (s.me.base rn) sb imm9) rt] rs).1 y hy
        exact ⟨hn, hb⟩
    · cases h; exact hnone

theorem State.access_next {s t : State} {cls : AccessClass} {dir : Dir} {f : RegFile} {rel : Bool} {all es first : List Elem}
    {pre : List RElem → State → State} (h : s.access cls dir f rel all es first pre = .next t) :
    (∃ rs, resolve s.platform s.me f es = .ok rs) ∧ ∃ fs, resolve s.platform s.me f first = .ok fs := by
  unfold State.access at h
  split at h
  · cases h
  · cases h
  · next hr hf => exact ⟨⟨_, hr⟩, _, hf⟩

theorem requireFeature_present {p : Bool} {g : Feature} {o : Out} {t : State} (h : requireFeature p g o = .next t) : p = true := by
  unfold requireFeature at h
  split at h
  · assumption
  · cases h

/-- An instruction that accesses memory and completes has reached its checks, or its authentication check failed. -/
theorem reaches_of_next {i : Instr} {s t : State} {m : MemForm} (hm : memForm i s = some m) (h0 : s.inflight = [])
    (h : exec i s = .next t) : (∃ rd wr first, Reaches i s m rd wr first) ∨ authPasses i s = false := by
  cases accessing_of_memForm hm with
  | load hl hp =>
    obtain ⟨g, u, n, he, -, -, -, hidle⟩ := exec_of_loadForm hl
    obtain ⟨rfl, rfl⟩ := hidle h0
    rw [he] at h
    obtain ⟨⟨rs, hr⟩, fs, hf⟩ := State.access_next (requireFeature_next h)
    exact .inl ⟨rs, [], fs, hm, h0, requireFeature_present h, hp, hr, rfl, hf⟩
  | store hs hp =>
    obtain ⟨g, all, he⟩ := exec_eq_store hs s
    rw [he] at h
    obtain ⟨⟨rs, hr⟩, -⟩ := State.access_next (requireFeature_next h)
    exact .inl ⟨[], rs, [], hm, h0, requireFeature_present h, hp, rfl, hr, rfl⟩
  | @auth _ sb imm9 w rn rt hi =>
    cases hp : authPasses i s with
    | false => exact .inr rfl
    | true =>
      have hs : s.plan.authOk = true ∧ featurePresent i s.platform = true ∧ s.loadAuth sb imm9 w rn rt = .next t := by
        rcases hi with rfl | rfl <;> exact ⟨hp, requireFeature_present h, requireFeature_next h⟩
      obtain ⟨ho, hf, h⟩ := hs
      unfold State.loadAuth at h
      rw [State.settle_idle _ _ _ h0] at h
      simp only [ho, if_true] at h
      split at h
      · cases h
      · next rs hr => exact .inl ⟨rs, [], [], hm, h0, hf, hp, hr, rfl, rfl⟩
  | copy a b n =>
    have hf := requireFeature_present h
    replace h := requireFeature_next h
    rw [State.settle_idle _ _ _ h0] at h
    dsimp only at h
    split at h
    · cases h
    · cases h
    · next src dst hs hd => exact .inl ⟨src, dst, [], hm, h0, hf, rfl, hs, hd, rfl⟩
  | exclusive n f =>
    change execStoreExcl n f s = .next t at h
    unfold execStoreExcl at h
    split at h
    · cases h
    · next q hq => exact .inl ⟨[], q, [], hm, h0, rfl, rfl, rfl, hq, rfl⟩

/-- Every instruction that accesses memory and completes: its walks, then accesses of its bytes. -/
theorem exec_accesses {i : Instr} {s t : State} {m : MemForm} (hm : memForm i s = some m) (h0 : s.inflight = []) (h : exec i s = .next t) :
    ∃ ws xs, Accesses s ws xs t ∧ ∀ x ∈ xs, ∃ rd wr first, resolve s.platform s.me m.file m.rd = .ok rd ∧
      resolve s.platform s.me m.file m.wr = .ok wr ∧ resolve s.platform s.me m.file m.first = .ok first ∧
      Fits s m.cls rd wr (pasOf first) x := by
  rcases reaches_of_next hm h0 h with ⟨rd, wr, first, hreach⟩ | hp
  · obtain ⟨ws, xs, ha, hx⟩ := (exec_checked hreach).next t h
    obtain ⟨-, -, -, -, hr, hw, hf⟩ := hreach
    exact ⟨ws, xs, ha, fun x hxm => ⟨rd, wr, first, hr, hw, hf, hx x hxm⟩⟩
  · cases accessing_of_memForm hm with
    | load _ h => rw [h] at hp; cases hp
    | store _ h => rw [h] at hp; cases hp
    | @auth _ sb imm9 w rn rt hi =>
      have hfail : s.plan.authOk = false ∧ s.loadAuth sb imm9 w rn rt = .next t := by
        rcases hi with rfl | rfl <;> exact ⟨hp, requireFeature_next h⟩
      obtain ⟨ws, xs, ha, hx⟩ := State.loadAuth_fails h0 hfail.1 hfail.2
      refine ⟨ws, xs, ha, fun x hxm => ?_⟩
      obtain ⟨rd, hr, hfit⟩ := hx x hxm
      exact ⟨rd, [], [], hr, rfl, rfl, hfit⟩
    | copy => cases hp
    | exclusive => cases hp

/-! ### What arrived -/

section

variable {s t : State} {ws : List WalkRef} {xs : List Xact}

/-- What is new in flight or arrived is one of the accesses. -/
theorem Accesses.of_new (h : Accesses s ws xs t) {x : Xact} (hx : x ∈ t.arrived ∨ x ∈ t.inflight) (hn : x ∉ s.arrived) : x ∈ xs := by
  rcases hx with hx | hx
  · obtain ⟨l, hl, hxs⟩ := h.arrivals
    have ht : t.arrived = s.arrived ++ l.flatMap Arrival.xs := by
      rw [← s.walk_arrived ws]
      simp only [State.arrived, hl, List.flatMap_append]
    rw [ht] at hx
    obtain ⟨a, ha, hxa⟩ := List.mem_flatMap.1 ((List.mem_append.1 hx).resolve_left hn)
    exact (hxs a ha).1 x hxa
  · exact h.inflight x hx

/-- The reads of walks that arrive. -/
theorem State.walk_arrivals (s : State) (ws : List WalkRef) : (s.walk ws).arrivals = s.arrivals ++
    (madeWalks s.platform s.me.ctl (s.dueWalks s.cur s.me.ctl s.plan.kept ws)).map
      (fun w => (walkAccess s.platform s.cur s.me.ctl w).arrival s.platform) := by
  rw [State.walk_eq, State.walkReads_frame]

/-- What arrived, in order: reads of walks, and transactions of accesses, which touch the bytes of these alone. -/
theorem Accesses.arrived (h : Accesses s ws xs t) :
    ∃ l, t.arrivals = s.arrivals ++ l ∧ ∀ a ∈ l, a.xs ≠ [] → ∀ q ∈ a.bytes, ∃ x ∈ a.xs, ∃ b ∈ x.bs, b.pa = q := by
  obtain ⟨l, hl, hxs⟩ := h.arrivals
  rw [State.walk_arrivals, List.append_assoc] at hl
  refine ⟨_, hl, fun a ha hne => ?_⟩
  rcases List.mem_append.1 ha with ha | ha
  · obtain ⟨w, -, rfl⟩ := List.mem_map.1 ha
    exact absurd rfl hne
  · exact (hxs a ha).2

end

/-! ### The rows of R124 -/

theorem InWindow.of_inWindows {S : List Nat} {n b : Nat} (hn : 0 < n) (h : inWindows S n b = true) : InWindow S n b := by
  obtain ⟨c, hc, he⟩ := List.any_eq_true.1 h
  rw [beq_iff_eq] at he
  refine ⟨c, hc, c / n, Nat.div_mul_le_self c n, Nat.lt_div_mul_add hn, ?_, ?_⟩
  · rw [he]; exact Nat.div_mul_le_self b n
  · rw [he]; exact Nat.lt_div_mul_add hn

theorem InWindow.of_mem {S : List Nat} {n b : Nat} (hn : 0 < n) (h : b ∈ S) : InWindow S n b :=
  .of_inWindows hn (List.any_eq_true.2 ⟨b, h, by simp⟩)

theorem InWindow.mono {S T : List Nat} {n b : Nat} (hs : ∀ c ∈ S, c ∈ T) (h : InWindow S n b) : InWindow T n b := by
  obtain ⟨c, hc, hk⟩ := h
  exact ⟨c, hs c hc, hk⟩

/-- More bytes that an instruction accesses permit more. -/
theorem PermittedRead.mono {cls : AccessClass} {g : Bool} {X Y F G : List Nat} {b : Nat} (hX : ∀ c ∈ X, c ∈ Y) (hF : ∀ c ∈ F, c ∈ G)
    (h : PermittedRead cls g X F b) : PermittedRead cls g Y G b := by
  have hw : ∀ {n}, InWindow X n b → InWindow Y n b := fun h => h.mono hX
  cases cls with
  | ldnpGp =>
    cases g with
    | false => exact hX b h
    | true => exact hw h
  | ldnpSimdFp => cases g <;> exact hw h
  | gpLoad | gpMultiLoad | loadExclusive | loadAcquire | ldrax => exact hX b h
  | simdFpLoad | sveUnpredLoad | svePredLoad | svePredNTLoad => exact hw h
  | sveFirstFault => exact InWindow.mono hF h
  | memCopy => exact h.imp (hX b) hw
  | _ => exact h.elim

/-- The model's rows are those of the statement. -/
theorem PermittedRead.of_permittedDeviceRead {cls : AccessClass} {d : DeviceType} {X F : List Nat} {b : Nat}
    (h : permittedDeviceRead cls d X X F X b = true) : PermittedRead cls d.gathering X F b := by
  have hw : ∀ {S n}, 0 < n → inWindows S n b = true → InWindow S n b := fun hn h => .of_inWindows hn h
  unfold permittedDeviceRead at h
  cases cls with
  | ldnpGp =>
    unfold PermittedRead
    dsimp only at h ⊢
    split at h
    · next hg => rw [if_pos hg]; exact hw (by decide) h
    · next hg => rw [if_neg hg]; exact List.contains_iff_mem.1 h
  | ldnpSimdFp =>
    unfold PermittedRead
    dsimp only at h ⊢
    split at h
    · next hg => rw [if_pos hg]; exact hw (by decide) h
    · next hg => rw [if_neg hg]; exact hw (by decide) h
  | gpLoad | gpMultiLoad | loadExclusive | loadAcquire | ldrax => exact List.contains_iff_mem.1 h
  | simdFpLoad | sveUnpredLoad | svePredLoad | svePredNTLoad | sveFirstFault => exact hw (by decide) h
  | memCopy => exact ((Bool.or_eq_true _ _).mp h).imp List.contains_iff_mem.1 (hw (by decide))
  | _ => cases h

/-- The extra bytes are Device memory in the rows of their class. -/
theorem State.extraBytes_permitted {s : State} {cls : AccessClass} {rd : List RElem} {F : List Nat} {c : RByte}
    (h : c ∈ s.extraBytes cls rd F) : ∃ d, c.tr.attr.deviceType = some d ∧
      permittedDeviceRead cls (windowType s.platform s.me.ctl s.plan cls d) (pasOf rd) (pasOf rd) F (pasOf rd) c.tr.pa = true := by
  simp only [State.extraBytes, List.mem_filterMap, Option.bind_eq_some_iff, Option.ite_none_right_eq_some, Bool.and_eq_true] at h
  obtain ⟨va, -, t, -, d, hd, ⟨⟨hp, -⟩, -⟩, he⟩ := h
  cases he
  exact ⟨d, hd, hp⟩

/-- A byte in Device memory of the accessed elements of a First-fault or Non-fault load is one of the First active element of a
First-fault one. -/
theorem State.unsuppressed_device {s : State} {keep : Bool} {es : List Elem} {rd : List RElem} {c : RByte}
    (hr : resolve s.platform s.me .vec (s.unsuppressed keep es) = .ok rd) (hc : c ∈ allBytes rd) (hd : c.tr.attr.isDevice = true) :
    keep = true ∧ c.tr.pa ∈ placesOf s .vec (firstActive es) := by
  obtain ⟨r, hrm, hcr⟩ := List.mem_flatMap.1 hc
  obtain ⟨hparts, hbytes⟩ := resolve_eq _ _ _ _ _ hr
  have he : r.e ∈ s.unsuppressed keep es := hparts ▸ List.mem_map_of_mem hrm
  rw [(resolveBytes_eq _ _ _ _ _ _ (hbytes r hrm)).2, List.mem_filterMap] at hcr
  obtain ⟨k, hk, hb⟩ := hcr
  obtain ⟨tr, htr, rfl⟩ := Option.map_eq_some_iff.1 hb
  have hdev : s.deviceElem r.e = true := List.any_eq_true.2 ⟨k, hk, by rw [htr]; exact hd⟩
  unfold State.unsuppressed at he
  split at he
  · cases he
  · next e rest hact =>
    rcases List.mem_append.1 he with he | he
    · split at he
      · next hkeep =>
        have he := List.mem_singleton.1 he
        have hfirst : firstActive es = [r.e] := by rw [firstActive, hact, he]; rfl
        refine ⟨by rw [← he, hdev] at hkeep; simpa using hkeep, ?_⟩
        rw [hfirst]
        refine List.mem_map.2 ⟨{ pa := tr.pa, attr := tr.attr, val := s.me.regByte .vec r.e.reg (laneOf s.platform r.e k) }, ?_, rfl⟩
        exact List.mem_flatMap.2 ⟨r.e, List.mem_singleton_self _, List.mem_filterMap.2 ⟨k, hk, by rw [htr]; rfl⟩⟩
      · cases he
    · have := (List.mem_filter.1 he).2
      rw [hdev] at this
      cases this

/-- The bytes a load names are in its row, but for those of a First-fault or Non-fault load. -/
theorem loadForm_permits {i : Instr} {s : State} {l : LoadForm} (h : loadForm i s = some l) :
    (∀ g X F b, b ∈ X → PermittedRead l.cls g X F b) ∨ (∃ es, l = ⟨.sveFirstFault, .vec, es, s.unsuppressed true es, firstActive es⟩) ∨
      ∃ es, l = ⟨.sveNonFault, .vec, es, s.unsuppressed false es, []⟩ := by
  have win {X : List Nat} {b : Nat} (n : Nat) (hn : 0 < n) (h : b ∈ X) : InWindow X n b := .of_mem hn h
  cases i with
  | sveFirstFault es => cases h; exact .inr (.inl ⟨es, rfl⟩)
  | sveNonFault es => cases h; exact .inr (.inr ⟨es, rfl⟩)
  | ldnpGp =>
    cases h
    refine .inl (fun g X F b hb => ?_)
    cases g with
    | false => exact hb
    | true => exact win 128 (by decide) hb
  | ldnpFp =>
    cases h
    refine .inl (fun g X F b hb => ?_)
    cases g with
    | false => exact win 16 (by decide) hb
    | true => exact win 128 (by decide) hb
  | loadAcq f =>
    obtain ⟨also, es⟩ := f
    cases also <;> cases h
    · exact .inl (fun _ _ _ _ hb => hb)
    · exact .inl (fun _ _ _ _ hb => win 16 (by decide) hb)
  | loadExcl => cases h; exact .inl (fun _ _ _ _ hb => hb)
  | gpSingle d | gpMulti d => cases d <;> cases h; exact .inl (fun _ _ _ _ hb => hb)
  | simdFp d | simdFpStreaming d => cases d <;> cases h; exact .inl (fun _ _ _ _ hb => win 16 (by decide) hb)
  | ld1 => cases h; exact .inl (fun _ _ _ _ hb => win 16 (by decide) hb)
  | sveUnpred | svePred => cases h; exact .inl (fun _ _ _ _ hb => win 64 (by decide) hb)
  | svePredNT => cases h; exact .inl (fun _ _ _ _ hb => win 128 (by decide) hb)
  | _ => cases h

/-- The Device bytes an instruction names to be read are in its row. -/
theorem memForm_permits {i : Instr} {s : State} {m : MemForm} (hm : memForm i s = some m) {rd : List RElem} {c : RByte} (g : Bool)
    (hr : resolve s.platform s.me m.file m.rd = .ok rd) (hc : c ∈ allBytes rd) (hd : c.tr.attr.isDevice = true) :
    PermittedRead m.cls g (placesOf s m.file m.rd) (placesOf s m.file m.first) c.tr.pa := by
  have hplace : c.tr.pa ∈ placesOf s m.file m.rd := by
    obtain ⟨p, hp, hcp⟩ := List.mem_flatMap.1 hc
    exact resolve_places s _ _ _ hr p hp c hcp
  cases accessing_of_memForm hm with
  | load hl _ =>
    rcases loadForm_permits hl with h | ⟨es, rfl⟩ | ⟨es, rfl⟩
    · exact h g _ _ _ hplace
    · exact InWindow.of_mem (by decide) (State.unsuppressed_device hr hc hd).2
    · cases (State.unsuppressed_device hr hc hd).1
  | store _ _ => cases resolve_nil_ok hr; cases hc
  | auth _ => exact hplace
  | copy => exact .inl hplace
  | exclusive => cases resolve_nil_ok hr; cases hc

theorem resolve_pasOf {s : State} {f : RegFile} {es : List Elem} {rs : List RElem} (h : resolve s.platform s.me f es = .ok rs) :
    ∀ q ∈ pasOf rs, q ∈ placesOf s f es := by
  intro q hq
  obtain ⟨c, hc, rfl⟩ := List.mem_map.1 hq
  obtain ⟨p, hp, hcp⟩ := List.mem_flatMap.1 hc
  exact resolve_places s f es rs h p hp c hcp

theorem MemAttr.isDevice_of_deviceType {a : MemAttr} {d : DeviceType} (h : a.deviceType = some d) : a.isDevice = true := by
  obtain ⟨ty, xs⟩ := a
  cases ty with
  | normal n => cases h
  | device d => rfl

/-- Settles O43: every access of the instruction fits its bytes, and the rows hold both the explicit and the extra ones. -/
theorem deviceReadsStayInTheirWindows : Obligations.DeviceReadsStayInTheirWindows := by
  unfold Obligations.DeviceReadsStayInTheirWindows
  intro i s t m hm h0 h
  obtain ⟨ws, xs, hacc, hx⟩ := exec_accesses hm h0 h
  refine ⟨fun x hnew hold hread d hdt b hb => ?_, hacc.arrived⟩
  obtain ⟨rd, wr, first, hr, -, hf, hfit⟩ := hx x (hacc.of_new hnew hold)
  obtain ⟨c, hpa, hrec, hc⟩ := hfit.bytes b hb
  rw [hpa]
  have hcd : c.tr.attr.deviceType = some d := (MemAttr.deviceType_hints hrec).symm.trans hdt
  rcases hc with ⟨-, ⟨-, hc⟩ | ⟨hw, -⟩⟩ | ⟨-, -, hc⟩
  · exact memForm_permits hm _ hr hc (MemAttr.isDevice_of_deviceType hcd)
  · rw [hread] at hw; cases hw
  · obtain ⟨d', hd', hp⟩ := State.extraBytes_permitted hc
    cases hcd.symm.trans hd'
    exact (PermittedRead.of_permittedDeviceRead hp).mono (resolve_pasOf hr) (resolve_pasOf hf)

/-- Settles O44: a Device byte that is read is one of the First active element, or an extra one, of which a Non-fault load has
none. -/
theorem suppressedElementsReadNoDeviceMemory : Obligations.SuppressedElementsReadNoDeviceMemory := by
  unfold Obligations.SuppressedElementsReadNoDeviceMemory
  intro es s t h0
  refine ⟨fun h x hnew hold => ?_, fun h x hnew hold hdev hextra b hb => ?_⟩
  · obtain ⟨ws, xs, hacc, hx⟩ := exec_accesses (m := ⟨.sveNonFault, .vec, s.unsuppressed false es, [], []⟩) rfl h0 h
    obtain ⟨rd, wr, first, hr, hw, -, hfit⟩ := hx x (hacc.of_new hnew hold)
    rw [Bool.eq_false_iff]
    intro hdev
    obtain ⟨b, hb⟩ := List.exists_mem_of_ne_nil _ hfit.nonempty
    obtain ⟨c, -, hrec, hc⟩ := hfit.bytes b hb
    rcases hc with ⟨-, ⟨-, hc⟩ | ⟨-, hc⟩⟩ | ⟨-, -, hc⟩
    · cases (State.unsuppressed_device hr hc (MemAttr.isDevice_hints hrec ▸ hdev)).1
    · cases resolve_nil_ok hw; cases hc
    · obtain ⟨d, -, hp⟩ := State.extraBytes_permitted hc
      cases hp
  · obtain ⟨ws, xs, hacc, hx⟩ :=
      exec_accesses (m := ⟨.sveFirstFault, .vec, s.unsuppressed true es, [], firstActive es⟩) rfl h0 h
    obtain ⟨rd, wr, first, hr, hw, -, hfit⟩ := hx x (hacc.of_new hnew hold)
    obtain ⟨c, hpa, hrec, hc⟩ := hfit.bytes b hb
    rw [hpa]
    rcases hc with ⟨-, ⟨-, hc⟩ | ⟨-, hc⟩⟩ | ⟨hex, -⟩
    · exact (State.unsuppressed_device hr hc (MemAttr.isDevice_hints hrec ▸ hdev)).2
    · cases resolve_nil_ok hw; cases hc
    · rw [hextra] at hex; cases hex

/-! ### Walks (21_device_memory.md R138 to R140) -/

/-- Without PTW every walk that is asked for is made. -/
theorem madeWalks_of_not_ptw {p : Platform} {c : PeCtl} (h : c.hcrPTW = false) (ws : List WalkRef) : madeWalks p c ws = ws :=
  List.filter_eq_self.2 (fun w _ => by simp [walkFaults, h])

/-- A walk is due, or was kept from one made before. -/
theorem State.due_or_kept (s : State) (o : Nat) (c : PeCtl) (kept : List Nat) {ws : List WalkRef} {w : WalkRef} (h : w ∈ ws) :
    w ∈ s.dueWalks o c kept ws ∨ (w.pa ∈ kept ∧
      ∃ e ∈ s.arrivals, ∃ x ∈ e.accesses, x.kind = .walkRead ∧ x.obs = some o ∧ x.bytes = w.bytes) := by
  cases hk : kept.contains w.pa && s.hasWalked o (walkAttr s.platform c w) w with
  | false => exact .inl (List.mem_filter.2 ⟨h, by rw [hk]; rfl⟩)
  | true =>
    rw [Bool.and_eq_true] at hk
    obtain ⟨e, he, hx⟩ := List.any_eq_true.1 hk.2
    obtain ⟨x, hxm, hx⟩ := List.any_eq_true.1 hx
    simp only [Bool.and_eq_true, beq_iff_eq] at hx
    obtain ⟨⟨⟨hkind, hobs⟩, hbytes⟩, -⟩ := hx
    exact .inr ⟨List.contains_iff_mem.1 hk.1, e, he, x, hxm, hkind, hobs, hbytes⟩

/-- A speculative walk of an address whose reads are not refused. -/
theorem State.specWalk_unrefused {s : State} {o va : Nat} {t : Tr} (ht : dataTr s.platform (s.getObs o).ctl va = some t)
    (hr : s.recordRefusal (walkBytes s.platform (s.getObs o).ctl t.walk) = none) :
    s.handle (.specWalk o va none) = .next (s.walkReads o (s.getObs o).ctl t.walk) ∧
    ∀ n, s.handle (.specWalk o va (some n)) = .next
      ((s.walkReads o (s.getObs o).ctl (t.walk.filter (fun w => !mayLinger s.platform (walkAttr s.platform (s.getObs o).ctl w)))).lingering
        o .walk n (((madeWalks s.platform (s.getObs o).ctl t.walk).filter
          (fun w => mayLinger s.platform (walkAttr s.platform (s.getObs o).ctl w))).map
            (fun w => (w.bytes, walkAttr s.platform (s.getObs o).ctl w)))) := by
  have hh : ∀ late, s.handle (.specWalk o va late) = s.specWalk o va late := fun _ => rfl
  simp only [hh, State.specWalk, ht, hr, implies_true, and_self]

/-- The locations and the record of each read that stays in flight. -/
theorem lateReads_bytes (s : State) (o : Nat) (cls : AccessClass) (n : Nat) (rs : List (List Nat × MemAttr)) :
    (rs.zipIdx.map (fun q => lateRead s o cls n q.1.1 q.1.2 q.2)).map (fun x => (x.touchedBytes, x.attr)) = rs := by
  have h : ∀ q : (List Nat × MemAttr) × Nat, (lateRead s o cls n q.1.1 q.1.2 q.2).touchedBytes = q.1.1 := fun q => by
    simp [lateRead, Xact.touchedBytes, Function.comp_def]
  rw [List.map_map]
  calc rs.zipIdx.map ((fun x => (x.touchedBytes, x.attr)) ∘ fun q => lateRead s o cls n q.1.1 q.1.2 q.2)
      = rs.zipIdx.map Prod.fst := List.map_congr_left (fun q _ => by rw [Function.comp_apply, h]; rfl)
    _ = rs := List.zipIdx_map_fst ..

/-- Settles O38: the checks find a faulting walk first; without one the walks come before the accesses; a speculative walk makes
what does not fault. -/
theorem walksOfDeviceMemory : Obligations.WalksOfDeviceMemory := by
  unfold Obligations.WalksOfDeviceMemory
  refine ⟨fun i s m rd wr first hreach hb hu hptw hdev => ?_, fun s slot va t hva ht hr hptw hdev => ?_,
    fun i s m rd wr first hreach hgo hptw => ?_, fun s o va t ht hr => ⟨?_, fun n => ?_⟩⟩
  · have hany : (allBytes rd ++ allBytes wr).any (RByte.faults s.platform s.me.ctl) = true := by
      obtain ⟨w, hw, hd⟩ := hdev
      exact (any_faults_iff _ _ _).2 ⟨w, hw, by simp [walkFaults, hptw, hd]⟩
    have hv := State.verdict_of_unrestricted hb hu
    rw [if_pos hany] at hv
    have hdec := exec_decides i s m rd wr first hreach
    exact ⟨hdec.take _ hv, hdec.taken _ hv⟩
  · have hany : t.walk.any (walkFaults s.platform s.me.ctl) = true := by
      obtain ⟨w, hw, hd⟩ := hdev
      exact List.any_eq_true.2 ⟨w, hw, by simp [walkFaults, hptw, hd]⟩
    simp only [State.fetchAccess, hva, ht, hr, hany, if_true]
  · obtain ⟨t, xs, he, hacc⟩ := (exec_checked hreach).go hgo
    obtain ⟨l, hl, -⟩ := hacc.arrivals
    rw [State.walk_arrivals, madeWalks_of_not_ptw hptw] at hl
    refine ⟨t, _, l, he, rfl, hl, fun w hw => s.due_or_kept _ _ _ ?_⟩
    exact walksOf_mono (fun b hb => List.mem_append_left _ hb) w hw
  · refine ⟨_, (State.specWalk_unrefused ht hr).1, ?_, ?_⟩
    · rw [State.walkReads_frame]
    · rw [State.walkReads_frame]
      have hf : (fun w => !walkFaults s.platform (s.getObs o).ctl w) =
          fun w => !(s.getObs o).ctl.hcrPTW || !(walkAttr s.platform (s.getObs o).ctl w).isDevice :=
        funext fun w => by simp [walkFaults]
      dsimp only
      rw [madeWalks, hf]
  · obtain ⟨m, l, i, k, hu⟩ := s.walkReads_lingering o (s.getObs o).ctl
      (t.walk.filter (fun w => !mayLinger s.platform (walkAttr s.platform (s.getObs o).ctl w))) .walk n
      (((madeWalks s.platform (s.getObs o).ctl t.walk).filter
        (fun w => mayLinger s.platform (walkAttr s.platform (s.getObs o).ctl w))).map
          (fun w => (w.bytes, walkAttr s.platform (s.getObs o).ctl w)))
    refine ⟨_, _, (State.specWalk_unrefused ht hr).2 n, by rw [hu], ?_, lateReads_bytes .., fun x hx => ?_⟩
    · rw [hu, State.walkReads_frame]
      simp only [madeWalks, List.filter_filter, Bool.and_comm]
    · obtain ⟨q, -, rfl⟩ := List.mem_map.1 hx
      exact ⟨rfl, rfl, rfl, rfl, rfl⟩

end Sys2Proof.Machine
end

section
/-! First-fault and Non-fault loads: what they deliver, and what the FFR reports (21_device_memory.md R178 to R181). -/

namespace Sys2Proof.Machine

open Sys2Proof

/-! ### The FFR (10_state.md R34) -/

/-- The mask of the bits below a number. -/
theorem lowBits_getLsbD (i : Nat) {k : Nat} (hk : k < 256) : ((1#256 <<< i) - 1#256).getLsbD k = decide (k < i) := by
  by_cases hi : i < 256
  · have hpow : (1#256 <<< i).toNat = 2 ^ i := by
      rw [BitVec.toNat_shiftLeft, BitVec.toNat_ofNat, Nat.shiftLeft_eq]
      have : 2 ^ i < 2 ^ 256 := Nat.pow_lt_pow_right (by decide) hi
      rw [Nat.mod_eq_of_lt (by simpa using this)]
      simp
    have hsub : ((1#256 <<< i) - 1#256).toNat = 2 ^ i - 1 := by
      rw [BitVec.toNat_sub_of_le, hpow]
      · rfl
      · rw [BitVec.le_def, hpow]; exact Nat.one_le_two_pow
    rw [BitVec.getLsbD, hsub, Nat.testBit_two_pow_sub_one]
  · have hzero : 1#256 <<< i = 0#256 := BitVec.shiftLeft_eq_zero (Nat.le_of_not_lt hi)
    rw [hzero, BitVec.zero_sub, BitVec.neg_one_eq_allOnes, BitVec.getLsbD_allOnes]
    simp only [hk, show k < i from Nat.lt_of_lt_of_le hk (Nat.le_of_not_lt hi)]

/-- A bit stays set where no element up to it is reported. -/
theorem foldl_ffrReport_getLsbD (is : List Nat) (f : FFR) {k : Nat} (hk : k < 256) :
    (is.foldl ffrReport f).getLsbD k = (f.getLsbD k && is.all (fun i => decide (k < i))) := by
  induction is generalizing f with
  | nil => simp
  | cons i t ih => rw [List.foldl_cons, ih, ffrReport, BitVec.getLsbD_and, lowBits_getLsbD i hk, List.all_cons, Bool.and_assoc]

/-- Whether a later element is suppressed depends on whether this one is Active. -/
theorem suppressedAt_succ (s : State) (keep : Bool) (e : Elem) (es : List Elem) (n : Nat) :
    suppressedAt s keep (e :: es) (n + 1) = suppressedAt s (if e.active then false else keep) es n := by
  unfold suppressedAt
  rw [List.getElem?_cons_succ, List.take_succ_cons, List.all_cons]
  cases e.active <;> simp

theorem exists_add_iff {i j : Nat} {P : Nat → Prop} :
    (∃ n, j = i + n ∧ P n) ↔ (j = i ∧ P 0) ∨ ∃ n, j = i + 1 + n ∧ P (n + 1) := by
  constructor
  · rintro ⟨_ | n, rfl, h⟩
    · exact .inl ⟨rfl, h⟩
    · exact .inr ⟨n, by omega, h⟩
  · rintro (⟨rfl, h⟩ | ⟨n, rfl, h⟩)
    · exact ⟨0, rfl, h⟩
    · exact ⟨n + 1, by omega, h⟩

/-- The numbers of the suppressed elements. -/
theorem State.mem_suppressedFrom (s : State) (keep : Bool) (i : Nat) (es : List Elem) (j : Nat) :
    j ∈ s.suppressedFrom keep i es ↔ ∃ n, j = i + n ∧ suppressedAt s keep es n = true := by
  induction es generalizing keep i with
  | nil => simp [State.suppressedFrom, suppressedAt]
  | cons e es ih =>
    rw [exists_add_iff]
    simp only [suppressedAt_succ]
    have hzero : suppressedAt s keep (e :: es) 0 = (e.active && s.deviceElem e && !keep) := by simp [suppressedAt]
    rw [hzero]
    unfold State.suppressedFrom
    cases e.active with
    | true =>
      simp only [if_true, List.mem_append, ih, Bool.true_and]
      cases keep <;> cases s.deviceElem e <;> simp
    | false => simp [ih]

/-- No element up to a number is suppressed where none of those reported is. -/
theorem State.suppressedFrom_all_lt (s : State) (keep : Bool) (es : List Elem) (k : Nat) :
    (s.suppressedFrom keep 0 es).all (fun i => decide (k < i)) = !(List.range (k + 1)).any (suppressedAt s keep es) := by
  rw [Bool.eq_iff_iff, List.all_eq_true, Bool.not_eq_true', List.any_eq_false]
  constructor
  · intro h j hj hs
    have := of_decide_eq_true (h j ((s.mem_suppressedFrom keep 0 es j).2 ⟨j, (Nat.zero_add j).symm, hs⟩))
    rw [List.mem_range] at hj
    omega
  · intro h j hj
    obtain ⟨n, rfl, hs⟩ := (s.mem_suppressedFrom keep 0 es j).1 hj
    refine decide_eq_true (Nat.lt_of_not_le (fun hle => ?_))
    exact h n (List.mem_range.2 (by omega)) hs

/-! ### What is delivered beside the report -/

/-- An observer with this FFR. -/
def Observer.withFfr (o : Observer) (x : FFR) : Observer := { o with ffr := x }

/-- The FFR plays no part in what a load does to the vector registers. -/
theorem loadElems_withFfr (s : State) (es all : List Elem) (o : Observer) (x : FFR) :
    loadElems s .vec es (freedRegs s .vec all (o.withFfr x)) = (loadElems s .vec es (freedRegs s .vec all o)).withFfr x := by
  have hfreed : freedRegs s .vec all (o.withFfr x) = (freedRegs s .vec all o).withFfr x := by
    unfold freedRegs Observer.prepare
    exact List.foldl_hom (fun o => Observer.withFfr o x) (fun _ _ => rfl)
  rw [hfreed]
  unfold loadElems
  refine List.foldl_hom (fun o => Observer.withFfr o x) (fun o d => List.foldl_hom (fun o => Observer.withFfr o x) (fun o k => ?_))
  unfold loadByte
  split <;> rfl

/-- The shared load of a First-fault or Non-fault load. -/
theorem State.load_reports {s : State} {cls : AccessClass} {keep : Bool} {es first : List Elem} (h : Sequential s)
    (ha : admitted s cls (.vec, s.unsuppressed keep es) (.vec, []) first = true)
    (hq : quiet s cls (.vec, s.unsuppressed keep es) (.vec, []) first = true) (hes : ∀ e ∈ s.unsuppressed keep es, e ∈ es) :
    ∃ t, s.load cls .vec es (s.unsuppressed keep es) first (fun _ t => t.reportSuppressed (s.suppressedFrom keep 0 es)) = .next t ∧
      t.me = { loadElems s .vec (s.unsuppressed keep es) (freedRegs s .vec es s.me) with ffr := t.me.ffr } ∧ t.mem = s.mem ∧
      ∀ k, k < 256 → t.me.ffr.getLsbD k = (s.me.ffr.getLsbD k && !(List.range (k + 1)).any (suppressedAt s keep es)) := by
  obtain ⟨rs, wr, fs, hr, hw, hf, hv, hquiet⟩ := admitted_cases ha hq
  cases hw
  rw [State.load, State.access, hr, hf]
  obtain ⟨t, ht, hme, -, hmem, -⟩ := State.request_loads (all := es)
    (pre := fun t => (t.reportSuppressed (s.suppressedFrom keep 0 es)).scrambleAll .vec es)
    (s.me.withFfr ((s.suppressedFrom keep 0 es).foldl ffrReport s.me.ffr)) h hr hv hquiet hes (fun w hcur hme hid hplan => by
      rw [State.scrambleAll_eq, State.reportSuppressed_eq, State.me_setObs_cur, State.setObs_plan, State.setObs_nextId, hplan, hid, hme]
      exact (w.setObs_setObs w.cur _ _).trans (by rw [hcur]; rfl))
  rw [loadElems_withFfr] at hme
  refine ⟨t, ht, by rw [hme]; rfl, hmem, fun k hk => ?_⟩
  rw [← s.suppressedFrom_all_lt, hme]
  exact foldl_ffrReport_getLsbD _ _ hk

/-- Settles O15: the shared load, with the report of the suppressed elements as its effect. -/
theorem suppressedElementsAreReported : Obligations.SuppressedElementsAreReported := by
  unfold Obligations.SuppressedElementsAreReported
  intro keep es s hsve hseq hadm hquiet
  cases keep with
  | true =>
    obtain ⟨g, u, m, hexec, -, -, hes, hidle⟩ := exec_of_loadForm (i := .sveFirstFault es) (s := s) rfl
    obtain ⟨rfl, rfl⟩ := hidle hseq.1
    rw [if_pos rfl, hexec, requireFeature_of_present (p := featurePresent (.sveFirstFault es) u.platform) hsve]
    exact State.load_reports hseq hadm hquiet hes
  | false =>
    obtain ⟨g, u, m, hexec, -, -, hes, hidle⟩ := exec_of_loadForm (i := .sveNonFault es) (s := s) rfl
    obtain ⟨rfl, rfl⟩ := hidle hseq.1
    rw [if_neg (by decide), hexec, requireFeature_of_present (p := featurePresent (.sveNonFault es) u.platform) hsve]
    exact State.load_reports hseq hadm hquiet hes

end Sys2Proof.Machine
end

section
/-! The one read of a failed authentication check (21_device_memory.md R123). -/

namespace Sys2Proof.Machine

open Sys2Proof

/-! ### The read itself -/

/-- The only access in flight, a read of Device memory that delivers nothing, performed. -/
theorem State.force_only_read {u : State} {x : Xact} (hin : u.inflight = [x]) (hd : x.dir = .read) (ha : x.attr.isDevice = true)
    (hdst : x.dst = none) : u.force x.id [] = { u with
      inflight := [], arrivals := u.arrivals ++ [arrivalOf u.platform .read x.touchedBytes [x] []]
      mem := Memory.react u.platform .read u.mem x.touchedBytes } := by
  obtain ⟨hf, hr⟩ := u.alone_required x (by rw [hin]; simp)
  have hfind : u.findXact x.id = some x := by simp [State.findXact, hin]
  have hperform : u.performOne x [] = u.transact [x] [] := by unfold State.performOne; rw [hf]
  unfold State.force
  rw [hfind]
  dsimp only
  rw [hf]
  dsimp only
  rw [hr, List.foldl_nil, hperform, u.transact_one_device [] ha]
  simp only [State.finish, State.perform, hd, State.deliverTo, hdst, State.endpointAck, State.retire, State.react, State.logArrival, hin]
  simp

/-- What a failed check's read comes to: in flight, or performed where the plan performs what is left. -/
theorem State.failedRead_made {s : State} {r : Req} {g : List RByte} (h0 : s.inflight = []) (hread : r.dir = .read)
    (hp : s.plan.authRead = true) (hg : groupsOf s r = [g]) (hd : (authXact s r g).attr.isDevice = true) :
    ∃ tch, s.failedRead r = { s with
      arrivals := (s.walk (walksOf (allBytes r.rs))).arrivals ++
        (if s.plan.rest then [arrivalOf s.platform .read (authXact s r g).touchedBytes [authXact s r g] []] else [])
      mem := if s.plan.rest then Memory.react s.platform .read (s.walk (walksOf (allBytes r.rs))).mem (authXact s r g).touchedBytes
        else (s.walk (walksOf (allBytes r.rs))).mem
      touched := tch, inflight := if s.plan.rest then [] else [authXact s r g]
      nextId := s.nextId + 1, nextInstr := s.nextInstr + 1 } := by
  have hissue : ∃ tch, ((s.walk (walksOf (allBytes r.rs))).touch (allBytes r.rs)).issue [authXact s r g] = { s with
      arrivals := (s.walk (walksOf (allBytes r.rs))).arrivals, mem := (s.walk (walksOf (allBytes r.rs))).mem, touched := tch
      inflight := [authXact s r g], nextId := s.nextId + 1, nextInstr := s.nextInstr + 1 } := by
    rw [State.walk_eq, State.walkReads_frame]
    exact ⟨_, by simp only [State.issue, State.touch, State.keepRecords, h0]; rfl⟩
  obtain ⟨tch, hissue⟩ := hissue
  refine ⟨tch, ?_⟩
  have hunfold : s.failedRead r = if s.plan.rest
      then (((s.walk (walksOf (allBytes r.rs))).touch (allBytes r.rs)).issue [authXact s r g]).force (authXact s r g).id []
      else ((s.walk (walksOf (allBytes r.rs))).touch (allBytes r.rs)).issue [authXact s r g] := by
    unfold State.failedRead
    rw [hp, hg]
    exact if_pos hd
  rw [hunfold, hissue]
  cases s.plan.rest with
  | true =>
    rw [if_pos rfl, State.force_only_read rfl hread hd rfl]
    rfl
  | false => simp

/-- A failed check makes no read where the plan asks for none, or where it would be no one read of Device memory. -/
theorem State.failedRead_none {s : State} {r : Req}
    (h : ¬ (s.plan.authRead = true ∧ ∃ g, groupsOf s r = [g] ∧ (authXact s r g).attr.isDevice = true)) : s.failedRead r = s := by
  unfold State.failedRead
  split
  · next g hp hg => exact if_neg (fun hd => h ⟨hp, g, hg, hd⟩)
  · rfl

/-! ### Its bytes -/

/-- Where the plan cuts nothing, it is all one whether the sizes are free. -/
theorem cutGroups_no_cuts (free : Bool) (bs : List RByte) : cutGroups free [] bs = cutGroups false [] bs := by
  induction bs with
  | nil => rfl
  | cons b t ih => simp [cutGroups, ih]

/-- One group holds every byte of the request. -/
theorem groupsOf_eq_singleton {s : State} {r : Req} {g : List RByte} (h : groupsOf s r = [g]) : g = allBytes r.rs := by
  rw [← groupsOf_bytes s r, h, List.flatten_singleton]

/-- One part of one record that the plan does not cut is one group. -/
theorem groupsOf_uncut {s : State} {r : Req} {p : RElem} {a : MemAttr} (hp : r.rs = [p]) (hcuts : s.plan.cuts = []) (hne : p.bs ≠ [])
    (ha : ∀ b ∈ p.bs, b.tr.attr = a) : groupsOf s r = [p.bs] := by
  have hunits : unitsOf s.platform r = [p.bs] := by
    unfold unitsOf
    rw [hp]
    split <;> simp [allBytes]
  rw [groupsOf, hunits, List.flatMap_singleton, hcuts, cutGroups_no_cuts]
  exact cutGroups_whole [] hne (fun b hb c hc => by rw [MemAttr.mismatched_false, ha b hb, ha c hc])

/-- The bytes of a part that is resolved are as many as its size. -/
theorem resolve_nonempty {s : State} {f : RegFile} {es : List Elem} {rs : List RElem} (h : resolve s.platform s.me f es = .ok rs) :
    ∀ p ∈ rs, p.e.size ≠ 0 → p.bs ≠ [] := by
  intro p hp hsize hnil
  obtain ⟨htr, hbs⟩ := resolveBytes_eq _ _ _ _ _ _ ((resolve_eq _ _ _ _ _ h).2 p hp)
  have hmem : 0 ∈ List.range p.e.size := List.mem_range.2 (Nat.pos_of_ne_zero hsize)
  obtain ⟨tr, ht⟩ := htr 0 hmem
  rw [hbs, List.filterMap_eq_nil_iff] at hnil
  have := hnil 0 hmem
  rw [ht] at this
  cases this

/-! ### What a failed check leaves -/

/-- The request of an authenticated load. -/
def authReq (s : State) (e : Elem) (rs : List RElem) : Req := s.reqOf .ldrax .read .gp false [e] rs []

/-- What is said of a failed check before it leaves its exception or its value: `l` arrived. -/
structure FailedRead (s : State) (e : Elem) (u : State) (l : List Arrival) : Prop where
  lines : u.lines = s.lines
  me : u.me = s.me
  plan : u.plan = s.plan
  arrivals : u.arrivals = s.arrivals ++ l
  mem : quiet s .ldrax (.gp, [e]) (.gp, []) [] = true → u.mem = s.mem
  allowed : l ≠ [] ∨ u.inflight ≠ [] → admitted s .ldrax (.gp, [e]) (.gp, []) [] = true
  waiting : ∀ y ∈ u.inflight, y.dir = .read ∧ y.attr.isDevice = true ∧ y.touchedBytes = placesOf s .gp [e] ∧ y.dst = none ∧
    y.repeatable = false
  arrived : ∀ a ∈ l, (a.xs = [] ∧ ∀ b ∈ a.others, b.kind = .walkRead) ∨
    (a.others = [] ∧ a.xs.length = 1 ∧ a.dir = .read ∧ a.bytes = placesOf s .gp [e] ∧ ∀ b ∈ storeBytes s .gp [e], b.attr.isDevice = true)
  once : (l.filter (fun a => a.others.isEmpty)).length + u.inflight.length ≤ 1
  now : s.plan.rest = true → u.inflight = []
  made : s.plan.authRead = true → s.plan.cuts = [] → admitted s .ldrax (.gp, [e]) (.gp, []) [] = true →
    (∃ a : MemAttr, a.isDevice = true ∧ ∀ b ∈ storeBytes s .gp [e], b.attr = a) →
    (l.filter (fun a => a.others.isEmpty)).length + u.inflight.length = 1

section

variable {s : State} {e : Elem}

/-- What an authenticated load is admitted by. -/
theorem admitted_auth_iff : admitted s .ldrax (.gp, [e]) (.gp, []) [] = true ↔
    ∃ rs, resolve s.platform s.me .gp [e] = .ok rs ∧ s.verdict .ldrax rs [] [] = .go := by
  unfold admitted
  cases hr : resolve s.platform s.me .gp [e] with
  | error va => simp
  | ok rs =>
    constructor
    · intro h; exact ⟨rs, rfl, beq_iff_eq.1 h⟩
    · rintro ⟨rs', he, hv⟩
      cases he
      exact beq_iff_eq.2 hv

/-- Nothing is read where nothing may be, or no such read is asked for. -/
theorem FailedRead.none (h0 : s.inflight = []) (h : ¬ (s.plan.authRead = true ∧ s.plan.cuts = [] ∧
    admitted s .ldrax (.gp, [e]) (.gp, []) [] = true ∧ ∃ a : MemAttr, a.isDevice = true ∧ ∀ b ∈ storeBytes s .gp [e], b.attr = a)) :
    FailedRead s e s [] where
  lines := rfl
  me := rfl
  plan := rfl
  arrivals := (List.append_nil _).symm
  mem _ := rfl
  allowed h := by simp [h0] at h
  waiting := by simp [h0]
  arrived := by simp
  once := by simp [h0]
  now _ := h0
  made hp hc ha hs := absurd ⟨hp, hc, ha, hs⟩ h

/-- The bytes and the records of the part. -/
theorem storeBytes_of_resolve {rs : List RElem} (h : resolve s.platform s.me .gp [e] = .ok rs) :
    placesOf s .gp [e] = (allBytes rs).map (fun b => b.tr.pa) ∧
    ∀ a : MemAttr → Prop, (∀ b ∈ storeBytes s .gp [e], a b.attr) ↔ ∀ b ∈ allBytes rs, a b.tr.attr := by
  unfold placesOf
  rw [← stored_eq_storeBytes s .gp [e] rs h]
  exact ⟨by rw [List.map_map]; rfl, fun a => List.forall_mem_map⟩

/-- What may be read once with one Device record is one group of Device memory. -/
theorem authReq_group {rs : List RElem} (hr : resolve s.platform s.me .gp [e] = .ok rs) (hsize : e.size ≠ 0)
    (hcuts : s.plan.cuts = []) {a : MemAttr} (ha : a.isDevice = true) (hsame : ∀ b ∈ storeBytes s .gp [e], b.attr = a) :
    ∃ g, groupsOf s (authReq s e rs) = [g] ∧ (authXact s (authReq s e rs) g).attr.isDevice = true := by
  have hparts := (resolve_eq _ _ _ _ _ hr).1
  obtain ⟨p, rfl⟩ : ∃ p, rs = [p] := by
    match rs, hparts with
    | [p], _ => exact ⟨p, rfl⟩
  have hpe : p.e = e := by simpa using hparts
  have hne : p.bs ≠ [] := resolve_nonempty hr p (List.mem_singleton_self p) (by rwa [hpe])
  have hattr : ∀ b ∈ p.bs, b.tr.attr = a := by
    have := ((storeBytes_of_resolve hr).2 (fun x => x = a)).1 hsame
    simpa [allBytes] using this
  refine ⟨p.bs, groupsOf_uncut rfl hcuts hne hattr, ?_⟩
  cases hbs : p.bs with
  | nil => exact absurd hbs hne
  | cons b t =>
    change b.tr.attr.isDevice = true
    rw [hattr b (by rw [hbs]; exact List.mem_cons_self)]
    exact ha

variable {rs : List RElem} (hr : resolve s.platform s.me .gp [e] = .ok rs) (hv : s.verdict .ldrax rs [] [] = .go)
include hr hv

/-- The read is made. -/
theorem FailedRead.read (h0 : s.inflight = []) {g : List RByte} (hp : s.plan.authRead = true) (hg : groupsOf s (authReq s e rs) = [g])
    (hd : (authXact s (authReq s e rs) g).attr.isDevice = true) :
    FailedRead s e (s.failedRead (authReq s e rs))
      ((madeWalks s.platform s.me.ctl (s.dueWalks s.cur s.me.ctl s.plan.kept (walksOf (allBytes rs)))).map
        (fun w => (walkAccess s.platform s.cur s.me.ctl w).arrival s.platform) ++
        (if s.plan.rest then [arrivalOf s.platform .read (authXact s (authReq s e rs) g).touchedBytes [authXact s (authReq s e rs) g] []]
          else [])) := by
  have hgr : g = allBytes rs := groupsOf_eq_singleton hg
  have hplaces : (authXact s (authReq s e rs) g).touchedBytes = placesOf s .gp [e] := by
    rw [(storeBytes_of_resolve hr).1, hgr]
    simp [authXact, mkXact, Xact.touchedBytes, Function.comp_def]
  have hdev : ∀ b ∈ storeBytes s .gp [e], b.attr.isDevice = true := by
    rw [(storeBytes_of_resolve hr).2 (fun a => a.isDevice = true), ← hgr]
    obtain ⟨-, hsame, -⟩ := groupsOf_mem s _ g (hg ▸ List.mem_singleton_self g)
    intro b hb
    cases g with
    | nil => cases hb
    | cons c t => exact (MemAttr.isDevice_hints (hsame b hb c List.mem_cons_self)).trans hd
  have hinside : Inside s (walksOf (allBytes rs)) [authXact s (authReq s e rs) g]
      ((s.reached .ldrax rs [] []).map (fun b => b.tr.pa)) := by
    refine .reached (walksOf_mono (fun b hb => ?_)) (fun x hx b hb => ?_)
    · exact List.mem_append_left _ (List.mem_append_left _ hb)
    · rw [List.mem_singleton.1 hx] at hb
      obtain ⟨c, hc, rfl⟩ := List.mem_map.1 hb
      exact ⟨c, List.mem_append_left _ (List.mem_append_left _ (hgr ▸ hc)), rfl⟩
  have hwalks : ∀ l : List WalkRef, (l.map (fun w => (walkAccess s.platform s.cur s.me.ctl w).arrival s.platform)).filter
      (fun a => a.others.isEmpty) = [] := fun l => by
    simp [List.filter_eq_nil_iff, Access.arrival, arrivalOf]
  obtain ⟨tch, hu⟩ := State.failedRead_made h0 rfl hp hg hd
  have hcount : ((if s.plan.rest then [arrivalOf s.platform .read (authXact s (authReq s e rs) g).touchedBytes
      [authXact s (authReq s e rs) g] []] else []).filter (fun a => a.others.isEmpty)).length +
      (s.failedRead (authReq s e rs)).inflight.length = 1 := by
    rw [hu]
    cases s.plan.rest <;> simp [arrivalOf]
  constructor
  case lines => rw [hu]
  case me => rw [hu]; rfl
  case plan => rw [hu]
  case arrivals => rw [hu, ← List.append_assoc, ← State.walk_arrivals]; rfl
  case mem =>
    intro hq
    obtain ⟨a, b, c, ha, hb, hc, -, hat⟩ := admitted_cases (admitted_auth_iff.2 ⟨rs, hr, hv⟩) hq
    cases hr.symm.trans ha
    cases hb
    cases hc
    obtain ⟨hquiet, hmem⟩ := hinside.quiet hat
    rw [hu]
    dsimp only
    have hm : (s.walk (walksOf (allBytes (authReq s e rs).rs))).mem = s.mem := hmem
    rw [hm]
    split
    · refine Memory.react_quiet _ _ _ _ (fun pa hpa => ?_)
      obtain ⟨b, hb, rfl⟩ := List.mem_map.1 hpa
      exact hquiet _ (List.mem_singleton_self _) b hb
    · rfl
  case allowed => exact fun _ => admitted_auth_iff.2 ⟨rs, hr, hv⟩
  case waiting =>
    intro y hy
    rw [hu] at hy
    dsimp only at hy
    split at hy
    · cases hy
    · rw [List.mem_singleton.1 hy]
      exact ⟨rfl, hd, hplaces, rfl, rfl⟩
  case arrived =>
    intro a ha
    rcases List.mem_append.1 ha with ha | ha
    · obtain ⟨w, -, rfl⟩ := List.mem_map.1 ha
      exact .inl ⟨rfl, by simp [Access.arrival, arrivalOf, walkAccess]⟩
    · split at ha
      · rw [List.mem_singleton.1 ha]
        exact .inr ⟨rfl, rfl, rfl, hplaces, hdev⟩
      · cases ha
  case once => rw [List.filter_append, hwalks, List.nil_append]; exact Nat.le_of_eq hcount
  case now => intro h; rw [hu]; simp [h]
  case made => intro _ _ _ _; rw [List.filter_append, hwalks, List.nil_append, hcount]

end

/-- The failed check of a load whose bytes are translated and pass every other check. -/
theorem State.failedRead_spec {s : State} {e : Elem} {rs : List RElem} (h0 : s.inflight = []) (hsize : e.size ≠ 0)
    (hr : resolve s.platform s.me .gp [e] = .ok rs) (hv : s.verdict .ldrax rs [] [] = .go) :
    ∃ l, FailedRead s e (s.failedRead (authReq s e rs)) l := by
  by_cases h : s.plan.authRead = true ∧ ∃ g, groupsOf s (authReq s e rs) = [g] ∧ (authXact s (authReq s e rs) g).attr.isDevice = true
  · obtain ⟨hp, g, hg, hd⟩ := h
    exact ⟨_, .read hr hv h0 hp hg hd⟩
  · rw [State.failedRead_none h]
    refine ⟨[], .none h0 ?_⟩
    rintro ⟨hp, hcuts, -, a, ha, hsame⟩
    exact h ⟨hp, authReq_group hr hsize hcuts ha hsame⟩

/-- An authenticated load whose check fails: at most its read, then what it leaves. -/
theorem State.loadAuth_failed {s : State} (h0 : s.inflight = []) {sb : BitVec 1} {imm9 : BitVec 9} (w : BitVec 1) {rn rt : RegNum}
    (ha : s.plan.authOk = false) : ∃ u l, s.loadAuth sb imm9 w rn rt = .next (u.authFail rt) ∧
      FailedRead s (authElem (authAddr (s.me.base rn) sb imm9) rt) u l := by
  unfold State.loadAuth
  rw [State.settle_idle _ _ _ h0]
  simp only [ha, Bool.false_eq_true, if_false]
  cases hr : resolve s.platform s.me .gp [authElem (authAddr (s.me.base rn) sb imm9) rt] with
  | error va =>
    refine ⟨s, [], rfl, .none h0 (fun h => ?_)⟩
    obtain ⟨rs, he, -⟩ := admitted_auth_iff.1 h.2.2.1
    cases hr.symm.trans he
  | ok rs =>
    have hstop (hv : s.verdict .ldrax rs [] [] ≠ .go) : FailedRead s (authElem (authAddr (s.me.base rn) sb imm9) rt) s [] :=
      .none h0 (fun h => by
        obtain ⟨rs', he, hv'⟩ := admitted_auth_iff.1 h.2.2.1
        cases hr.symm.trans he
        exact hv hv')
    dsimp only
    cases hv : s.verdict .ldrax rs [] [] with
    | go =>
      obtain ⟨l, hl⟩ := State.failedRead_spec h0 (Nat.succ_ne_zero 7) hr hv
      exact ⟨_, l, rfl, hl⟩
    | refuse q => exact ⟨s, [], rfl, hstop (fun h => nomatch hv.symm.trans h)⟩
    | take c => exact ⟨s, [], rfl, hstop (fun h => nomatch hv.symm.trans h)⟩

/-- Settles O17: the failed check's read, then its exception or the free value. -/
theorem failedChecksReadAtMostOnce : Obligations.FailedChecksReadAtMostOnce := by
  unfold Obligations.FailedChecksReadAtMostOnce
  intro i sb imm9 w rn rt s e hi hpauth h0 ha he
  have hexec : exec i s = s.loadAuth sb imm9 w rn rt := by
    rcases hi with rfl | rfl <;> exact requireFeature_of_present hpauth
  obtain ⟨u, l, hu, hread⟩ := State.loadAuth_failed h0 (sb := sb) (imm9 := imm9) w (rn := rn) (rt := rt) ha
  rw [← he] at hread
  have hme : (s.plan.authRaise = false → (u.authFail rt).me = s.me.overwriteX rt s.plan.freeVal (u.authFail rt).nextId) ∧
      (s.plan.authRaise = true → (u.authFail rt).me =
        { s.me with handler := some { cause := .authFailure, slot := s.me.current, restarts := false }, current := none }) := by
    unfold State.authFail
    rw [hread.plan]
    constructor
    · intro h; rw [h, if_neg (by decide), State.setMe_eq, State.me_setObs_cur, hread.me]; rfl
    · intro h; rw [h, if_pos rfl, State.takeException_me, hread.me]; rfl
  obtain ⟨hin, harr⟩ := u.authFail_same rt
  have hsame : (u.authFail rt).lines = u.lines ∧ (u.authFail rt).mem = u.mem := by
    unfold State.authFail
    split <;> exact ⟨rfl, rfl⟩
  refine ⟨u.authFail rt, l, hexec.trans hu, hsame.1.trans hread.lines, harr.trans hread.arrivals, fun hq => hsame.2.trans (hread.mem hq),
    hme.1, hme.2, ?_⟩
  rw [hin]
  exact ⟨hread.allowed, hread.waiting, hread.arrived, hread.once, hread.now, hread.made⟩

end Sys2Proof.Machine
end
